-- ==== Sys2Proof/Word.lean ====
section
/-!
DEFINITION. The plainest types of the model: bytes, 32-bit slots, 64-bit words, and memory as a list of
(address, byte) pairs (R5: little-endian; the operations stand in Machine/Mem.lean).
-/

namespace Sys2Proof

abbrev Byte := BitVec 8
/-- One slot of a frame (R157). -/
abbrev Word := BitVec 32
abbrev DWord := BitVec 64
/-- A lane mask: bit i is lane i. -/
abbrev Mask := BitVec 32
/-- Bytes by address, addresses strictly rising, no listed byte zero (`Mem.wf`, Machine/Mem.lean). -/
abbrev Mem := List Host.Cell

end Sys2Proof
end

