-- ==== Sys2Proof/Syntax.lean ====
section
/-!
DEFINITION. The steps of the Strelkidar S4: one constructor of `Instr` per row of spec/opcode_table.json.
An ISA row carries the fields of its 64-bit word (`Fld`, R207). A row that is a step of another agent carries
what the spec leaves to circumstance: which operation completes, which packet hops, what the host sent.
-/

namespace Sys2Proof

/-- The fields of an instruction word other than OP (R207). -/
structure Fld where
  i : Bool
  mod : BitVec 8
  sc : BitVec 10
  sb : BitVec 10
  sa : BitVec 10
  dst : BitVec 10
  fs : Bool
  pneg : Bool
  pn : BitVec 3
  g : Bool
deriving DecidableEq, Repr, Inhabited

/-! ## What a command carries (R93, R98) -/

/-- The header of a command as R93 gives it, with the sender's UET job identifier (R95). `rsvH` and `rsvP` say
that a reserved field of the header or of the parameters is nonzero. `wake` is the value read for a HOLD command
when it starts (R97). -/
structure CmdHdr where
  tag : DWord
  part : Nat
  queue : Nat
  hold : Bool
  rsvH : Bool
  rsvP : Bool
  job : Nat
  wake : DWord
  /-- the peer that sent it; the command code, which its completion returns; the parameter bytes that follow (R92, R93) -/
  src : Nat
  code : Nat
  plen : Nat
deriving DecidableEq, Repr, Inhabited

/-- Parameters of MAP (R98, R99). -/
structure MapParams where
  va : Nat
  count : Nat
  cls : Nat
  w : Bool
  key : Nat
  nbrow : Nat
  window : Option Nat
deriving DecidableEq, Repr, Inhabited

/-- Parameters of WINDOW_OPEN (R98, R112). -/
structure WindowParams where
  num : Nat
  host : Nat
  len : Nat
  key : DWord
  ver : Nat
  va : Nat
deriving DecidableEq, Repr, Inhabited

/-- One record of GRAPH_SUBMIT (R141). -/
structure NodeRec where
  kind : Nat
  tag : Nat
  addr : Nat
  rsv : Bool
deriving DecidableEq, Repr, Inhabited

/-- One entry of a time table (R115). -/
structure TTEntry where
  slot : Nat
  policy : Nat
  card : Nat
deriving DecidableEq, Repr, Inhabited

/-- One partner entry of JOURNAL_CONFIG (R120). -/
structure PartnerEntry where
  kind : Nat
  serial : DWord
  addr : Nat
deriving DecidableEq, Repr, Inhabited

/-- Parameters of JOURNAL_CONFIG (R120). -/
structure JournalParams where
  mode : Nat
  jbase : Nat
  jcount : Nat
  npart : Nat
  window : Nat
  ringk : Nat
  bufva : Nat
  buflen : Nat
  storeva : Nat
  storelen : Nat
  timeout : Nat
  partners : List PartnerEntry
deriving DecidableEq, Repr, Inhabited

/-- Parameters of REPLAY_BIND (R131); holder 0 is this device's own store. -/
structure BindParams where
  serial : DWord
  jfirst : Nat
  jn : Nat
  holder : Nat
deriving DecidableEq, Repr, Inhabited

/-- A patch image (R105). -/
structure PatchImage where
  format : Nat
  code : Nat
  level : Nat
  key : List Byte
  body : List Byte
  sig : List Byte
deriving DecidableEq, Repr, Inhabited

/-- The command set of R98 with its parameters; `unknown` is any other code. -/
inductive CmdBody where
  | identify
  | capReadList
  | capReadRegisters (sel : Nat) (regs : List Nat)
  | attest (nonce : List Byte)
  | logRead (first count : Nat) (free : Bool)
  | resetPart
  | partCreate (mask : BitVec 16) (jobs : List Nat) (dest : Nat)
  | partDestroy
  | partConfig (pairs : List (Nat × DWord)) (key : Nat)
  | map (p : MapParams)
  | unmap (va count : Nat)
  | protect (va count : Nat) (w : Bool)
  | faultResolve (park : Word) (verdict : Nat)
  | windowOpen (p : WindowParams)
  | windowClose (num : Nat)
  | loadCode (va len host : Nat) (key : DWord)
  | launch (card : Nat)
  | graphSubmit (nodes : List NodeRec)
  | ttLoad (entries : List TTEntry)
  | ttStart (cycle start : Nat) (run : Bool)
  | kill (tag : Nat)
  | balloonAck (cells : Nat)
  | svcDone (park : Word)
  | journalConfig (p : JournalParams)
  | replayBind (p : BindParams)
  | patchLoad (img : PatchImage)
  | topoRead
  | unknown (code : Nat)
deriving DecidableEq, Repr, Inhabited

/-! ## What other steps carry -/

/-- The features a peer asks for at UET connection set-up (R92). -/
structure UetFeatures where
  modes : List Nat
  ops : List Nat
  hpc : Bool
  otherCongestion : Bool
  other : Bool
deriving DecidableEq, Repr, Inhabited

/-- An inbound RMA request (R114). -/
structure RmaReq where
  part : Nat
  job : Nat
  key : DWord
  va : Nat
  src : Nat
deriving DecidableEq, Repr, Inhabited

/-- A journal record of 16 bytes (R119). -/
structure JRec where
  jsid : Nat
  type : Nat
  pos : Word
  lo : Word
  hi : Word
deriving DecidableEq, Repr, Inhabited

/-- Where a message of the partner protocol comes from, and the serial at +8 of it (R92, R124). -/
structure Sender where
  peer : Nat
  serial : DWord
deriving DecidableEq, Repr, Inhabited

/-- One entry of an APPEND or FETCHED message (R124). -/
structure SeqRec where
  seq : Nat
  rcd : JRec
deriving DecidableEq, Repr, Inhabited

/-- One entry of an ACK message (R124). -/
structure AckEntry where
  jsid : Nat
  status : Nat
  durable : Nat
deriving DecidableEq, Repr, Inhabited

/-- Where a block's frames go, proposed (R143-R145): the spec fixes their sizes and the core, not their addresses. A second
set is used by a paired block's twin (R182). -/
structure PlaceArgs where
  laneBases : List Nat
  groupBases : List Nat
  blockBase : Nat
  scratchBase : Nat
  clusterOff : Nat
  parks : List Word
deriving DecidableEq, Repr, Inhabited

/-- Where a load's bytes come from (R277, R280, R112): the die state, a line of the core's L1, or the host. -/
inductive ReadSrc where
  | die | l1 | host
deriving DecidableEq, Repr, Inhabited

/-! ## The steps -/

/-- One constructor per row of spec/opcode_table.json (LAWS.json maps each to its mnemonic). -/
inductive Instr where
  -- device and commands
  | deviceReset (rails : List (BitVec 8))
  | commandArrival (h : CmdHdr) (b : CmdBody)
  | identify (h : CmdHdr)
  | capReadList (h : CmdHdr)
  | capReadRegisters (h : CmdHdr) (sel : Nat) (regs : List Nat)
  | attest (h : CmdHdr) (nonce : List Byte)
  | logRead (h : CmdHdr) (first count : Nat) (free : Bool)
  | resetPart (h : CmdHdr)
  | partCreate (h : CmdHdr) (mask : BitVec 16) (jobs : List Nat) (dest : Nat)
  | partDestroy (h : CmdHdr)
  | partConfig (h : CmdHdr) (pairs : List (Nat × DWord)) (key : Nat)
  | map (h : CmdHdr) (p : MapParams)
  | unmap (h : CmdHdr) (va count : Nat)
  | protect (h : CmdHdr) (va count : Nat) (w : Bool)
  | faultResolve (h : CmdHdr) (park : Word) (verdict : Nat)
  | windowOpen (h : CmdHdr) (p : WindowParams)
  | windowClose (h : CmdHdr) (num : Nat)
  | loadCode (h : CmdHdr) (va len host : Nat) (key : DWord)
  | launch (h : CmdHdr) (card : Nat)
  | graphSubmit (h : CmdHdr) (nodes : List NodeRec)
  | ttLoad (h : CmdHdr) (entries : List TTEntry)
  | ttStartRun (h : CmdHdr) (cycle start : Nat)
  | ttStartStop (h : CmdHdr)
  | kill (h : CmdHdr) (tag : Nat)
  | balloonAck (h : CmdHdr) (cells : Nat)
  | svcDone (h : CmdHdr) (park : Word)
  | journalConfig (h : CmdHdr) (p : JournalParams)
  | replayBind (h : CmdHdr) (p : BindParams)
  | patchLoad (h : CmdHdr) (img : PatchImage)
  | topoRead (h : CmdHdr)
  | eventDelivery (part : Nat)
  | connectionSetup (peer : Nat) (f : UetFeatures)
  | inboundRmaWrite (r : RmaReq) (data : List Byte)
  | inboundRmaRead (r : RmaReq) (len : Nat)
  -- power, time, fabric
  | leaseGrant (quad : Nat)
  | leaseIntervalEnd (quad job : Nat)
  | throttleSet (draw : Nat)
  | throttleClear (draw : Nat)
  | ptpPortLost
  | ptpResume (off : Int)
  | crossbarHop (pkt : Nat)
  | packetArrival (pkt : Nat)
  | handlerGroupForm (core cls base : Nat) (park : Word)
  | linkDown (a b : Nat)
  | linkDegraded (a b : Nat)
  -- homes, capacity, errors
  | storeAccept (wid : Nat)
  | refund (k : Nat)
  | replicaApply (k : Nat)
  | replicaFill (part die line : Nat)
  | storeFaultReport (wid : Nat)
  | writeback (part vpn mb base : Nat)
  | compaction (part vpn base : Nat)
  | dramUncorrectable (part sector : Nat)
  | mapCacheError (part vpn : Nat) (relayout : Bool)
  | rowRemapVote (quad bank : Nat) (copies : List Nat) (bases : List Nat)
  | eccSwitchDecTed (quad : Nat) (rail : BitVec 8)
  | eccSwitchSecDed (quad : Nat) (rail : BitVec 8)
  | creditRefill (core : Nat)
  | balloonTimeout (part : Nat)
  -- journal protocol
  | append (part : Nat) (src : Sender) (job : Nat) (es : List SeqRec)
  | ack (part partner : Nat) (es : List AckEntry)
  | trunc (part : Nat) (src : Sender) (es : List (Nat × Nat))
  | fetch (part : Nat) (src : Sender) (jsid first count : Nat)
  | fetched (part : Nat) (jsid : Nat) (es : List SeqRec)
  | partnerConnectionFail (part partner : Nat)
  | ackTimeout (part : Nat)
  -- scheduling
  | ttSlot (part entry : Nat)
  | nodeStart (part nid : Nat)
  | nodeEnd (part nid : Nat)
  | blockPlace (grid : Nat) (a : PlaceArgs) (twin : Option PlaceArgs)
  | groupEvict (gid : Nat)
  | groupRestore (gid : Nat)
  | gridEnd (grid : Nat)
  | watchdogExpire (grid : Nat)
  | calleeDrain (core laneBase groupBase : Nat) (park : Word)
  -- the Whorl and completions
  | clauseStart (gid sid : Nat)
  | loadReply (gid oid : Nat) (lanes : Mask) (src : ReadSrc)
  | atomicReply (gid oid : Nat)
  | divideComplete (gid oid : Nat)
  | spindleGrant (core : Nat)
  | jobStart (jid : Nat)
  | jobComplete (jid : Nat) (fetched : Bool)
  | msgStatus (gid oid : Nat)
  | jrnlComplete (gid oid : Nat)
  | emitDurable (gid oid : Nat)
  | jtruncDurable (gid sid : Nat)
  | publishComplete (gid oid : Nat)
  | svcRingWrite (part : Nat)
  | registerWrite (part num : Nat) (v : DWord)
  | balloonAckWrite (gid : Nat) (v : DWord)
  | flagerrWrite (gid : Nat) (v : DWord)
  | tpcWrite (gid : Nat) (v : DWord)
  | fmtWrite (gid sid : Nat) (v : DWord)
  -- class 0
  | nop (f : Fld)
  | mov (f : Fld)
  | add (f : Fld)
  | sub (f : Fld)
  | mul (f : Fld)
  | mulhi (f : Fld)
  | mad (f : Fld)
  | madw (f : Fld)
  | div (f : Fld)
  | rem (f : Fld)
  | min (f : Fld)
  | max (f : Fld)
  | abs (f : Fld)
  | neg (f : Fld)
  | and (f : Fld)
  | or (f : Fld)
  | xor (f : Fld)
  | not (f : Fld)
  | andn (f : Fld)
  | shl (f : Fld)
  | shr (f : Fld)
  | sar (f : Fld)
  | fshl (f : Fld)
  | fshr (f : Fld)
  | bfx (f : Fld)
  | bfi (f : Fld)
  | popc (f : Fld)
  | clz (f : Fld)
  | ctz (f : Fld)
  | brev (f : Fld)
  | sel (f : Fld)
  | setp (f : Fld)
  | plop (f : Fld)
  | pmovGet (f : Fld)
  | pmovSet (f : Fld)
  | ext (f : Fld)
  | adr (f : Fld)
  | dot4 (f : Fld)
  -- class 1
  | fadd (f : Fld)
  | fsub (f : Fld)
  | fmul (f : Fld)
  | ffma (f : Fld)
  | fdiv (f : Fld)
  | fmin (f : Fld)
  | fmax (f : Fld)
  | fsetp (f : Fld)
  | fneg (f : Fld)
  | fabs (f : Fld)
  | fclass (f : Fld)
  | frcp (f : Fld)
  | frsq (f : Fld)
  | fsqrt (f : Fld)
  | fex2 (f : Fld)
  | flg2 (f : Fld)
  | fsin (f : Fld)
  | fcos (f : Fld)
  | ftanh (f : Fld)
  | fscale (f : Fld)
  | frnd (f : Fld)
  | fcvt (f : Fld)
  | f2i (f : Fld)
  | i2f (f : Fld)
  | pfma (f : Fld)
  | padd (f : Fld)
  | pmul (f : Fld)
  -- class 2
  | shfl (f : Fld)
  | vote (f : Fld)
  | red (f : Fld)
  | scan (f : Fld)
  | matchLanes (f : Fld)
  | bcast (f : Fld)
  | fmt (f : Fld)
  | fmtrd (f : Fld)
  | qnt (f : Fld)
  | dqnt (f : Fld)
  | tenc (f : Fld)
  | tdec (f : Fld)
  | pack (f : Fld)
  | unpack (f : Fld)
  | lmask (f : Fld)
  -- class 3
  | ld (f : Fld)
  | st (f : Fld)
  | stm (f : Fld)
  | atom (f : Fld)
  | mred (f : Fld)
  | prf (f : Fld)
  | cln (f : Fld)
  | inv (f : Fld)
  | invAll (f : Fld)
  | fence (f : Fld)
  | fenceTotal (f : Fld)
  | blkz (f : Fld)
  | cres (f : Fld)
  | cresRet (f : Fld)
  -- class 4
  | bra (f : Fld)
  | brx (f : Fld)
  | split (f : Fld)
  | call (f : Fld)
  | callx (f : Fld)
  | ret (f : Fld)
  | exit (f : Fld)
  | loop (f : Fld)
  | fopen (f : Fld)
  | fclose (f : Fld)
  | fref (f : Fld)
  | disp (f : Fld)
  | disprd (f : Fld)
  | yield (f : Fld)
  | tret (f : Fld)
  -- class 5
  | bar (f : Fld)
  | barc (f : Fld)
  | tjoin (f : Fld)
  | tleave (f : Fld)
  | tbar (f : Fld)
  | sleep (f : Fld)
  | wakePark (f : Fld)
  | wakeQueue (f : Fld)
  | wakeMgmt (f : Fld)
  | jrnl (f : Fld)
  | emit (f : Fld)
  | jrd (f : Fld)
  | jtrunc (f : Fld)
  | jtruncClose (f : Fld)
  | publish (f : Fld)
  -- class 6
  | mma (f : Fld)
  | mmag (f : Fld)
  | accz (f : Fld)
  | accrd (f : Fld)
  | accrdQ (f : Fld)
  | accwr (f : Fld)
  | cpy (f : Fld)
  | nbkVload (f : Fld)
  | nbkMv (f : Fld)
  | nbkDrain (f : Fld)
  | nbkClear (f : Fld)
  | nbkFence (f : Fld)
  | spawn (f : Fld)
  | node (f : Fld)
  | msg (f : Fld)
  | msgNw (f : Fld)
  | route (f : Fld)
  -- class 7
  | svc (f : Fld)
  | trap (f : Fld)
  | brk (f : Fld)
  | rdsr (f : Fld)
  | wrsr (f : Fld)
  | timeTod (f : Fld)
  | timeCyc (f : Fld)
  -- the time table's cycle boundary (R116)
  | ttCycleBoundary (part : Nat)
deriving DecidableEq, Repr, Inhabited

/-- A move: what happens next. `issue` is a group's split issuing one step on its port (R146), `visit` is Fubebex's
next queue visit (R96), `event` is a step of the table by another agent; the rest are the environment's (R112, R113,
R16, R277: an L1 line is replaced). -/
inductive Move where
  | issue (gid sid : Nat)
  | event (i : Instr)
  | visit
  | pass (cycles : Nat)
  | hostWrite (addr : Nat) (data : List Byte)
  | rmaDone (k : Nat)
  | evictLine (core line : Nat)
  | jobStep (jid : Nat)
deriving DecidableEq, Repr, Inhabited

end Sys2Proof
end

