-- ==== Sys2Proof/Config.lean ====
section
/-!
DEFINITION. What the spec leaves to the package, to the environment or to chance: constants without a body, so that
nothing can be proved about their values (assumption log 1, 4, 5, 8, 14, 15).
-/

namespace Sys2Proof.Config

/-- The agent that moves next when the agenda names none (R146, R360 leave it open; DESIGN CHOICE, log 1). -/
opaque freeMove : Nat → Move
/-- A free number, drawn with the counter State.free: ids, addresses, sets (log 4, 8). -/
opaque freeNat : Nat → Nat
/-- The lanes of a `.nw` message whose packet finds no room (R338; DESIGN CHOICE, log 8). -/
opaque freeMask : Nat → Mask
/-- A free yes or no, drawn with State.free, for the n-th of several (R332, R91; DESIGN CHOICE, log 4). -/
opaque freeBit : Nat → Nat → Bool
/-- A key from the management core's random source (R60; DESIGN CHOICE, log 8). -/
opaque freeKey : Nat → BitVec 256
/-- What a key slot that nothing has filled seals with (R60; DESIGN CHOICE, log 8). -/
opaque emptyKey : BitVec 256
/-- The RMA_KEY that PART_CREATE draws (R109; DESIGN CHOICE, log 8). -/
opaque freeRmaKey : Nat → DWord
/-- The bits of a special function's result within the bound of R247 (fn is 0 frcp .. 7 ftanh; DESIGN CHOICE, log 15). -/
opaque freeSpecial : Nat → Word → Word
/-- Fuse contents (R26; DESIGN CHOICE, log 5). -/
opaque fuseSeed : BitVec 256
opaque fuseKeyHash : BitVec 256
opaque fuseSerial : DWord
/-- The ROM's SHA-256 (R104) and version (R98). -/
opaque romMeasurement : BitVec 256
opaque romVersion : Nat
/-- MAC and IP address of each port (R92). -/
opaque portAddress : Nat → DWord × BitVec 128
/-- SLH-DSA-SHA2-128f (R27, R106) and -128s (R105) of FIPS 205, which the spec names and does not restate (DESIGN CHOICE, log 14). -/
opaque identityKey : BitVec 256 → BitVec 256
opaque slhSign : BitVec 256 → List Byte → List Byte
opaque slhVerify : List Byte → List Byte → List Byte → Bool
/-- The 64-bit hash of a paired block's stores (R182; DESIGN CHOICE, log 20). -/
opaque pairHash : DWord → List (Nat × Byte) → DWord

/-- The bank within its channel that a stack cell lies in, and a bank's cells (R50 gives neither; DESIGN CHOICE, log 23). -/
opaque bankOf : Nat → Nat
opaque bankCells : Nat → Nat
/-- Whether a clause of a demoted group counts as retired (R153, R351; DESIGN CHOICE, log 106). -/
opaque spinRetires : Bool
/-- How far the cycle count of a core is from the cycles since device reset: R343 relates the counts of no two cores (DEDUCED, log 102). -/
opaque coreCycles (core : Nat) : Nat

end Sys2Proof.Config
end

