-- ==== Sys2Proof/Machine/State.lean ====
section
/-!
DEFINITION. The state of the module as plain data: device, quadrants, cores, partitions, pages, grids, blocks,
groups, operations, jobs, nodes and what is in flight between agents. INVENTORY.md lists each field with its rule
and reset value. `State.reset` is the machine right after device reset: no partition exists.
-/

namespace Sys2Proof.Machine

/-! ## Clocks and views of memory (R275-R277) -/

/-- A vector clock with one entry per die (R275). -/
structure VClock where
  c0 : Nat
  c1 : Nat
  c2 : Nat
  c3 : Nat
deriving DecidableEq, Repr, Inhabited

/-- The write that a byte's value comes from, with its stamp (R275); `sub` counts the stores of the host to a byte of its memory after
that write (R112). -/
structure Mark where
  addr : Nat
  wid : Nat
  stamp : VClock
  sub : Nat
deriving DecidableEq, Repr, Inhabited

/-- A store of locations: bytes, and for each byte written by an access its write. -/
structure View where
  mem : Mem
  marks : List Mark
deriving DecidableEq, Repr, Inhabited

/-- A 128 B line held in an L1, or a home L2 copy of a host-window line (R70, R112). -/
structure Line where
  line : Nat
  view : View
  /-- for a line of a host window, the number of its fetch from the host (R112, R278) -/
  born : Nat
  /-- its 32 B sectors that were poisoned when it was filled (R62) -/
  poison : List Nat
deriving DecidableEq, Repr, Inhabited

/-! ## Accesses in flight -/

/-- What a write in flight does at its home. -/
inductive WKind where
  | store
  | blkz
  /-- A read-modify-write (R284): code, class, operands; `ret` when a returning `atom`, `red` when an `mred`. -/
  | atomic (op cls : Nat) (b c : DWord) (ret red : Bool)
  /-- A write to a depth 2 or 3 slot (R164). -/
  | slot
deriving DecidableEq, Repr, Inhabited

/-- One unit of a write on its way home: the bytes of one lane within one naturally aligned 16 B span (R279, R348),
one lane's atomic, or one mem-block of a `blkz`. `pledge` is the cells it carries (R83); `rel` marks a release (R277) of
scope `scope` (R215); `whole` lists the 32 B sectors that its instruction covers entirely (R63). The bytes of an atomic
only say where it acts. -/
structure Write where
  wid : Nat
  part : Nat
  gid : Nat
  core : Nat
  seq : Nat
  oid : Nat
  lane : Nat
  kind : WKind
  addr : Nat
  bytes : List Host.Cell
  gc : VClock
  rel : Bool
  scope : Nat
  acq : Bool
  pledge : Nat
  whole : List Nat
  /-- DETOUR when its route was composed, and when it was composed again after a link failed (R40, R41) -/
  detour : BitVec 32
  redo : Option (BitVec 32)
  /-- the lanes it acts for: more than one with G = 1 (R165) -/
  mask : Mask
  /-- its group's accesses of lower numbers happen before whatever follows an acquire of it at `.blk` or wider: its own number as such a
  release, else that of the last such release fence before it (R277, R278, R358 row 4) -/
  past : Nat
deriving DecidableEq, Repr, Inhabited

/-- A release of a scope narrower than `.dev` whose location took it before the earlier writes `wids` of its group were accepted: its
order holds toward the groups that its scope includes, and no others (R278, R356). `clk` joins the stamps of those writes. Of a fence that went
early, `after` is its place in its group's order: the group's later writes take its part. -/
structure Early where
  part : Nat
  gid : Nat
  core : Nat
  scope : Nat
  addrs : List Nat
  wids : List Nat
  clk : VClock
  after : Option Nat
deriving DecidableEq, Repr, Inhabited

/-- A write to partition memory that happens before the accesses of group `gid` from number `no` on: one byte of it and its place in its home's
order (R355). -/
structure Ordered where
  part : Nat
  gid : Nat
  no : Nat
  addr : Nat
  place : Nat
deriving DecidableEq, Repr, Inhabited

/-- A write that carries a release at `.blk` or wider from a core: the places of its bytes, and the number below which its group's accesses
happen before an acquire of it (R277, R278, R358 row 4). -/
structure Release where
  part : Nat
  gid : Nat
  core : Nat
  no : Nat
  places : List (Nat × Nat)
deriving DecidableEq, Repr, Inhabited

/-- What a group has read without an acquire, which an acquire fence of scope `scope` or wider takes up (R164, R290): stamps that are not
in GC yet, and releases. -/
structure Heard where
  scope : Nat
  clk : VClock
  rels : List Release
deriving DecidableEq, Repr, Inhabited

/-- A performed write that die `die` has not applied yet (R276). `src` is the group that made it, or the job of a node (R140). -/
structure Apply where
  part : Nat
  die : Nat
  home : Nat
  wid : Nat
  src : Nat
  stamp : VClock
  bytes : List Host.Cell
  /-- 32 B sectors whose poison bit it sets or clears (R62, R63) -/
  poison : List (Nat × Bool)
deriving DecidableEq, Repr, Inhabited

/-- A refund on its way to a core's CREDIT (R83). -/
structure Refund where
  core : Nat
  part : Nat
  cells : Nat
deriving DecidableEq, Repr, Inhabited

/-- An RMA write in flight to the host (R113). `win` is its window, `cells` the host bytes it writes;
`version` marks the write of a version (R320), whose operation is `oid`. -/
structure Rma where
  part : Nat
  win : Nat
  gid : Nat
  seq : Nat
  oid : Nat
  cells : List Host.Cell
  version : Bool
  /-- the write it carries and its stamp at home -/
  wid : Nat
  stamp : VClock
deriving DecidableEq, Repr, Inhabited

/-- An inbound RMA write whose acknowledgement waits until every die has applied its writes (R114). -/
structure RmaAck where
  part : Nat
  src : Nat
  wids : List Nat
  gc : VClock
deriving DecidableEq, Repr, Inhabited

/-! ## Messages on the fabric (R31-R44) -/

/-- Where a packet stands: at a local or central crossbar with its arrival port, at its destination's splitter, or
at an endpoint with EP = 1. -/
inductive PLoc where
  | localX (quad inp : Nat)
  | central (die inp : Nat)
  | splitter (quad cluster : Nat)
  | complexEnd
deriving DecidableEq, Repr, Inhabited

/-- A program packet (R42). `orig` is the route word as sent, `word` as rotated so far (R33). -/
structure Packet where
  pid : Nat
  part : Nat
  grid : Nat
  core : Nat
  gid : Nat
  oid : Nat
  lane : Nat
  orig : Word
  word : Word
  hop : Nat
  loc : PLoc
  hid : Nat
  payload : List Word
  gc : VClock
  /-- of a route-fault reply: the status and the hop index that it carries (R35) -/
  fault : Option (Nat × Nat)
deriving DecidableEq, Repr, Inhabited

/-- A callee item (R148). -/
structure CalleeItem where
  gid : Nat
  sid : Nat
  lane : Nat
  shift : Nat
  s : Nat
  words : List Word
  d2 : Word
  d3 : Word
deriving DecidableEq, Repr, Inhabited

structure CalleeQueue where
  target : Nat
  items : List CalleeItem
deriving DecidableEq, Repr, Inhabited

/-! ## Regions of a unified store (R143, R144) -/

inductive RegionKind where
  | lane (gid : Nat)
  | groupFrame (gid : Nat)
  | blockFrame
  | scratch
  | reply
deriving DecidableEq, Repr, Inhabited

/-- A run of the unified store (R143, R144). `size` is the part a program may reach (R156). -/
structure Region where
  base : Nat
  len : Nat
  size : Nat
  kind : RegionKind
  grid : Nat
  bidx : Nat
deriving DecidableEq, Repr, Inhabited

/-- Room given up with what it held: the record in which an evicted group or block keeps its regions (R149). -/
structure Saved where
  regions : List Region
  view : View
deriving DecidableEq, Repr, Inhabited

/-! ## Groups (R155-R182) -/

inductive GKind where
  | normal | request | reply | drained
deriving DecidableEq, Repr, Inhabited

/-- The kind of a reconvergence stack entry (R168, R175, R297). -/
inductive EntryKind where
  | reconv | pending | loop | marker
deriving DecidableEq, Repr, Inhabited

structure Entry where
  pc : Nat
  mask : Mask
  join : Nat
  fmt : Word
  kind : EntryKind
deriving DecidableEq, Repr, Inhabited

/-- The clause a split is in: its header's address and word (R202). -/
structure Clause where
  addr : Nat
  word : DWord
deriving DecidableEq, Repr, Inhabited

inductive BarKind where
  | bar | barc | tbar
deriving DecidableEq, Repr, Inhabited

/-- A long-latency destination as resolved at issue (R205): the slot with any call shift added, and for depth 2 and 3
the frame that D2 or D3 named. -/
structure Dest where
  depth : Nat
  slot : Nat
  handle : Word
deriving DecidableEq, Repr, Inhabited

/-- One lane of a `jtrunc`: the stream, and the ANCHOR's sequence number, or none for `.close` (R130). -/
structure TruncLane where
  lane : Nat
  jsid : Nat
  seq : Option Nat
deriving DecidableEq, Repr, Inhabited

/-- What a split waits for when it does not simply issue its next step. -/
inductive Wait where
  | none
  /-- arrived at a barrier generation (R310-R312) -/
  | bar (k : BarKind) (id : Nat)
  /-- a `callx`: items still to enqueue with their targets, lanes whose items have not returned (R148, R301) -/
  | callx (toSend : List (Nat × CalleeItem)) (out : List Nat)
  /-- stopped at the join of its merge entry (R169) -/
  | merged
  /-- parked in an `svc` (R340) -/
  | svc
  /-- a `jtrunc` waiting for durability: lanes not yet performed, and its destination (R130, R319) -/
  | jtrunc (lanes : List TruncLane) (dest : Dest)
  /-- a `fence.total` that has its place in the sequence and waits until AV covers GC (R291) -/
  | total
  /-- asleep until the group's wake register is nonzero (R314) -/
  | sleep
  /-- stands at an instruction that would trap or park while another split's stop is decided; it issues again when the group goes on
  (R173, R363) -/
  | stopped
  /-- stands at the end of an interval of a paired block; or may issue the operation that ended it (R182) -/
  | pairEnd
  | pairGo
deriving DecidableEq, Repr, Inhabited

structure Split where
  sid : Nat
  mask : Mask
  pc : Nat
  clause : Option Clause
  fmt : Word
  stack : List Entry
  merge : Option Nat
  wait : Wait
deriving DecidableEq, Repr, Inhabited

/-- A merge entry (R169): the splits that must arrive, and the stack below it. -/
structure Merge where
  mid : Nat
  join : Nat
  mask : Mask
  fmt : Word
  members : List Nat
  arrived : List Nat
  stack : List Entry
  parent : Option Nat
deriving DecidableEq, Repr, Inhabited

/-- A return entry (R170), tagged with the split that pushed it; `marker` entries are pushed at a trap (R175). -/
structure RetEntry where
  sid : Nat
  addr : Nat
  shift : Nat
  marker : Bool
deriving DecidableEq, Repr, Inhabited

/-- One lane of an `emit` (R128): its record, and how far it is: 0 waits for durability, 1 durable, 2 written to the ring, 3 its
version is on its way; its status once known. -/
structure EmitLane where
  lane : Nat
  seq : Nat
  rcd : JRec
  phase : Nat
  status : Option Nat
deriving DecidableEq, Repr, Inhabited

/-- What an outstanding long-latency operation still does (R204). -/
inductive OpKind where
  | div (vals : List (Nat × List Word))
  /-- lanes still to reply with their addresses; size in bytes; `.byp`; acquire scope or none (R280) -/
  | load (lanes : List (Nat × Nat)) (size : Nat) (byp acq : Bool) (scope : Nat) (once : Bool)
  /-- lanes still to be performed; old values by lane (R284, R285) -/
  | atomic (lanes : List Nat) (got : List (Nat × List Word)) (acq : Bool) (once : Bool) (wide : Bool)
  | job (jid : Nat)
  /-- statuses by lane; the `.nw` predicate and its refused lanes (R338) -/
  | msg (lanes : List Nat) (status : List (Nat × Nat)) (nw : Option (Nat × Mask))
  | jrnl (recs : List (Nat × JRec))
  | emit (lanes : List EmitLane)
  /-- lanes with their windows; windows published with their versions, 0 for a window not open; whether the last one's version
  write is on its way (R320) -/
  | publish (lanes : List (Nat × Nat)) (got : List (Nat × DWord)) (out : Bool)
  | svc
deriving DecidableEq, Repr, Inhabited

/-- An outstanding operation of a group. `mask` is the lanes it writes, `smask` the mask of the issuing split. -/
structure Op where
  oid : Nat
  seq : Nat
  sid : Nat
  flag : Nat
  mask : Mask
  smask : Mask
  dest : Dest
  err : Bool
  /-- lanes held for a page fault, with the fault reported (R56) -/
  held : List Nat
  kind : OpKind
  /-- a destination of depth 1 to 3: the highest lane that has its value, which is written at completion (R164, R205) -/
  best : Option (Nat × List Word)
  /-- DETOUR when its requests were composed, and by lane when they were composed again for a failed link (R40, R41); a lane that is
  replayed is composed anew, with the DETOUR of then -/
  detour : BitVec 32
  redo : List (Nat × BitVec 32)
  resent : List (Nat × BitVec 32)
deriving DecidableEq, Repr, Inhabited

/-- TLM, TCAUSE, TPC, TADDR (R176). -/
structure TrapRegs where
  tlm : Mask
  inH : Bool
  code : BitVec 8
  tpc : DWord
  taddr : DWord
deriving DecidableEq, Repr, Inhabited

/-- What `tret` restores (R175, R305); `tpc` and `clause` are the stop point, and the clause that held it when that had begun. -/
structure TrapSave where
  sid : Nat
  mask : Mask
  shift : Nat
  d2 : Word
  d3 : Word
  tpc : Nat
  clause : Option Clause
deriving DecidableEq, Repr, Inhabited

/-- Why a group stops (R173, R178, R149). -/
inductive StopWhy where
  | trap | page | capacity | svc | brk | evict
deriving DecidableEq, Repr, Inhabited

/-- A stop that has been decided and takes effect when the group's operations have completed and its other splits
stand at clause boundaries (R173, R177). -/
structure Stop where
  why : StopWhy
  sid : Nat
  code : BitVec 8
  tlm : Mask
  taddr : Nat
  tpc : Nat
  clause : Option Clause
deriving DecidableEq, Repr, Inhabited

/-- Where a group is: on its core, or parked off it (R178), or evicted (R149). -/
inductive Place where
  | resident
  | parked (st : Stop)
  /-- waits to be restored; the number gives the order of eviction (R150) -/
  | evicted (no : Nat)
deriving DecidableEq, Repr, Inhabited

/-- The `svc` a group is parked for (R179, R346): code, arguments by lane, its first ring sequence, and how far the request
is: 0 waits for room, 1 entries written, 2 the version is on its way, 3 SVC_REQUEST raised. -/
structure SvcReq where
  code : Nat
  lanes : List (Nat × List Word)
  q0 : Nat
  phase : Nat
  sid : Nat
  oid : Option Nat
  /-- the D0 shift at its issue (R347) -/
  shift : Nat
deriving DecidableEq, Repr, Inhabited

/-- Frames as the displays name them (R157-R163). -/
structure Frames where
  lslots : Nat
  gslots : Nat
  lbase : Nat
  gbase : Nat
  d2 : Word
  d3 : Word
  shift : Nat
deriving DecidableEq, Repr, Inhabited

/-- A group's side of the memory rules (R57, R277, R279, R337, R151). -/
structure GMem where
  gc : VClock
  /-- own accepted writes the die has not applied: address, length, stamp (R279) -/
  own : List (Nat × Nat × VClock)
  /-- place of the youngest write read or made, per byte, in its location's order (R112, R277) -/
  floor : List (Nat × Nat)
  /-- clocks of completed jobs not yet acquired, by flag (R337 rule 4) -/
  jobs : List (Nat × VClock)
  /-- a handler group whose first clause still waits for AV (R338) -/
  fresh : Bool
  /-- stores held for replay (R57) -/
  replay : List Write
  /-- the fault reported first: code, lanes, address (R363) -/
  fault : Option (BitVec 8 × Mask × Nat)
  /-- a protection fault whose stores are discarded and which is still to be delivered: lanes and address (R57, R363) -/
  prot : Option (Mask × Nat)
  /-- pages reported by PAGE_FAULT and not resolved (R363) -/
  pages : List Nat
  /-- demotion run: address, value, count (R151) -/
  runAddr : Nat
  runVal : List Byte
  runLen : Nat
  demoted : Bool
  /-- what the group's loads have returned since its last memory instruction of another kind, and how many in a row brought nothing new (R351): the
  model's own fields (DESIGN CHOICE, log 106) -/
  known : List (Nat × List Byte)
  again : Nat
  /-- `cln` writebacks asked for and not yet done: part page and mem-block (R288) -/
  cleans : List (Nat × Nat)
  /-- copies of host-window lines fetched before this number are not read: the group has acquired at `.sys` (R112, R278) -/
  hwAfter : Nat
  /-- the number that followed its last release fence at `.blk` or wider, 0 before any (R290) -/
  fenced : Nat
  /-- what its relaxed reads have found, by the scope of the fence that takes it up (R164, R290) -/
  heard : List Heard
deriving DecidableEq, Repr, Inhabited

/-- A capacity fault that parks a group or a copy node (R86, R89, R332): fault number, refill asked for, the cells the instruction needs,
and when the pressure event was raised from which its wait runs. -/
structure CapFault where
  no : Nat
  g : Nat
  need : Nat
  since : Nat
deriving DecidableEq, Repr, Inhabited

structure Group where
  gid : Nat
  grid : Nat
  part : Nat
  core : Nat
  kind : GKind
  copy : Nat
  bidx : Nat
  gidx : Nat
  park : Word
  age : Nat
  fr : Frames
  splits : List Split
  merges : List Merge
  rets : List RetEntry
  nextSid : Nat
  preds : List (BitVec 8)
  gp : BitVec 8
  dead : Mask
  wake : DWord
  wakeGc : VClock
  trap : TrapRegs
  save : Option TrapSave
  stop : Option Stop
  place : Place
  /-- the block, by grid and bidx, for which it was evicted (R149) -/
  evFor : Option (Nat × Nat)
  /-- its issue port, and the steps that the port has issued since its own latest (R146) -/
  port : Nat
  unissued : Nat
  /-- the park record's frames once their room was given up (R149) -/
  saved : Option Saved
  flagErr : BitVec 12
  ops : List Op
  seq : Nat
  mm : GMem
  cap : Option CapFault
  svc : Option SvcReq
  /-- items a drained group serves, by its lane (R148) -/
  items : List (Nat × CalleeItem)
deriving DecidableEq, Repr, Inhabited

/-! ## Cores and quadrants -/

/-- An instruction waiting for credit (R84). `jid`-less: the group issues it again. -/
structure Waiter where
  gid : Nat
  sid : Nat
  need : Nat
  cres : Bool
  tlm : Mask
  taddr : Nat
  /-- set when a `cres` refill was denied (R86, R293) -/
  denied : Bool
  /-- the core's outstanding refill was asked for it (R84) -/
  asked : Bool
  /-- it waited behind a `cres` that was denied: it makes its own request, and faults only if that is denied (R86) -/
  own : Bool
deriving DecidableEq, Repr, Inhabited

structure Team where
  grid : Nat
  t : Nat
  members : List Nat
  /-- the member that executed the latest `tbar`, and the one that arrived last at the last completion (R147) -/
  last : Nat
  urgent : Option Nat
deriving DecidableEq, Repr, Inhabited

structure Core where
  store : View
  share : Nat
  shareMem : View
  regions : List Region
  gens : List (Nat × BitVec 8)
  gensShare : List (Nat × BitVec 8)
  credit : Nat
  waiters : List Waiter
  refill : Option Nat
  bufReq : List Packet
  bufRep : List Packet
  callee : List CalleeQueue
  l1 : List Line
  teams : List Team
deriving DecidableEq, Repr, Inhabited

/-- A live block or cluster frame (R162): its header word stands in the store; this says whose it is. `place` is a
physical core for depth 2 and a physical cluster for depth 3. `bidx` is the block that made it; `shut` marks one that a paired block has
retired within an interval, whose room stays until that ends (R182). -/
structure FrameRec where
  depth : Nat
  place : Nat
  off : Nat
  grid : Nat
  opened : Bool
  bidx : Nat
  shut : Bool
deriving DecidableEq, Repr, Inhabited

structure Lease where
  jid : Nat
  weight : Nat
  since : Nat
deriving DecidableEq, Repr, Inhabited

structure LeaseReq where
  jid : Nat
  part : Nat
  weight : Nat
  at_ : Nat
deriving DecidableEq, Repr, Inhabited

structure Quad where
  leases : List Lease
  leaseQ : List LeaseReq
  decTed : Bool
  /-- time since which the rail has stayed at or above threshold + 2 (R64) -/
  railOk : Option Nat
  retired : List Nat
  /-- the row-remap table's three copies: bank, copy, value (R66); an unlisted entry is the bank itself -/
  remap : List (Nat × Nat × Nat)
  scratch : View
  nbLen : Nat
  nbVec : Mem
  nbSum : Mem
  nbVecPoison : List Nat
  nbPoison : List Nat
  issueNo : Nat
deriving DecidableEq, Repr, Inhabited

structure Die where
  clock : VClock
  av : VClock
deriving DecidableEq, Repr, Inhabited

/-! ## Pages (R55, R72, R74, R80) -/

/-- One 64 B cell as it lies in DRAM (R60): the key and tweak it was sealed under, and what that seals. -/
structure Sealed where
  off : Nat
  key : BitVec 256
  tweak : BitVec 128
  data : List Byte
deriving DecidableEq, Repr, Inhabited

structure Page where
  part : Nat
  vpn : Nat
  w : Bool
  cls : Nat
  key : Nat
  nbrow : Nat
  cl : Bool
  extent : Nat
  /-- host window number and page index when HW = 1 -/
  hw : Option (Nat × Nat)
  cap : Nat
  hwm : Nat
  /-- COUNT and OFFSET of the mem-blocks whose entry is not zero (R74) -/
  table : List (Nat × Nat × Nat)
  dict : List Word
  moves : Nat
  /-- dirty mem-blocks with the pledge each keeps (R83) -/
  dirty : List (Nat × Nat)
  cells : List Sealed
  /-- Fubebex's own topology map page (R46) -/
  own : Bool
deriving DecidableEq, Repr, Inhabited

/-! ## Launches (R136-R145) -/

structure Card where
  entry : Nat
  blocks : Nat
  groups : Nat
  lslots : Nat
  gslots : Nat
  acct : Nat
  bwords : Nat
  cwords : Nat
  scratch : Nat
  cshare : Nat
  prio : Nat
  place : Nat
  pincore : Nat
  tag : Nat
  flags : Nat
  handler : Nat
  msgtab : Nat
  args : DWord
  foot : Nat
  footn : Nat
  rsv : Bool
deriving DecidableEq, Repr, Inhabited

/-- A footprint region: access bits (1 read, 2 write) and bytes (R138). -/
structure Span where
  acc : Nat
  base : Nat
  len : Nat
deriving DecidableEq, Repr, Inhabited

/-- Where a split stood when a clause of it ended (R351): what its path depends on, or, in a loose record, the path alone; whether lanes waited
behind it; the clauses that have ended since, at how many it is taken anew, and after how many it stood there again (0: it has not). -/
structure Spin where
  gid : Nat
  split : Split
  held : Bool
  loose : Bool
  /-- loads in a row that had brought nothing new -/
  again : Nat
  preds : List (BitVec 8)
  gp : BitVec 8
  dead : Mask
  fr : Frames
  rets : List RetEntry
  cells : Mem
  n : Nat
  limit : Nat
  period : Nat
deriving DecidableEq, Repr, Inhabited

structure Grid where
  id : Nat
  part : Nat
  nid : Nat
  card : Card
  foot : List Span
  next : Nat
  order : Nat
  kill : Option Nat
  lastRet : Nat
  /-- splits that may be waiting for lanes that wait for them (R351) -/
  spins : List Spin
  /-- cluster frames made for it: physical cluster and handle (R145) -/
  clusters : List (Nat × Word)
  /-- every group it has had (R140) -/
  gids : List Nat
  /-- the grid has ended while handler groups or drained groups of it run on (R350) -/
  ended : Bool
  /-- the ancestors of its node (R139) -/
  anc : List Nat
deriving DecidableEq, Repr, Inhabited

/-- One copy's snapshot at the start of an interval (R182): its groups, the bytes of its regions, its tiles, and the frames that it has
opened: their records, their regions, and the header words of those in the cluster share. -/
structure Snap where
  groups : List Group
  frames : List (Nat × List Byte)
  acc : Mem
  recs : List FrameRec
  regions : List Region
  hdrs : List (Nat × Word)
  accPoison : List Nat
deriving DecidableEq, Repr, Inhabited

/-- A paired block (R182), kept in the primary's block: the twin's core, both copies' held stores in program order, and
both snapshots; `again` while a differing interval runs once more, `sync` between two intervals, `bad` from a difference until both copies are quiet
for what follows it; `took` the wakes that a `sleep` of the
interval has taken, by group. -/
structure Pair where
  core1 : Nat
  held0 : List Write
  held1 : List Write
  snap0 : Snap
  snap1 : Snap
  again : Bool
  sync : Bool
  bad : Bool
  took : List (Nat × DWord × VClock)
deriving DecidableEq, Repr, Inhabited

structure Block where
  grid : Nat
  bidx : Nat
  copy : Nat
  core : Nat
  scratchBase : Nat
  d2 : Word
  d3 : Word
  acc : Mem
  accPoison : List Nat
  pair : Option Pair
  /-- frame and scratchpad once their room was given up (R149) -/
  saved : Option Saved
deriving DecidableEq, Repr, Inhabited

/-! ## Jobs (R323-R337) -/

inductive JKind where
  /-- tile, `.z`, gathered, ten descriptor words, AF and BF -/
  | pass (n : Nat) (z gather : Bool) (d : List Word) (af bf : Nat)
  | accz (n : Nat)
  /-- tile, control, type code, quantised with OUTF and NRND -/
  | accrd (n c ty : Nat) (q : Option (Nat × Nat))
  | accwr (n c : Nat) (vals : List (Nat × Word))
  | cpy (d : List Word)
  | nbk (code : Nat) (d : List Word)
deriving DecidableEq, Repr, Inhabited

structure Job where
  jid : Nat
  part : Nat
  quad : Nat
  issue : Nat
  core : Nat
  gid : Nat
  grid : Nat
  bidx : Nat
  copy : Nat
  oid : Nat
  seq : Nat
  nid : Nat
  kind : JKind
  spans : List Span
  tile : Option Nat
  prio : Nat
  /-- times passed over by the Spindle arbiter; granted; leases still to obtain; started (R148, R19) -/
  passed : Nat
  granted : Bool
  wants : List Nat
  started : Bool
  fail : Bool
  /-- pledges its destination writes carry: mem-block and cells (R82) -/
  pledges : List (Nat × Nat)
  /-- pages whose move count it holds (R90) -/
  moving : List Nat
  gc : VClock
  /-- the places of its footprint, one name for each place (R155, R324) -/
  places : List Span
  /-- DETOUR when the requests that are on their way were composed, and when they were composed again (R40, R41) -/
  detour : BitVec 32
  redo : Option (BitVec 32)
  /-- bytes it has read so far, with their poison; 32 B sectors it has written so far, and the join of those writes' stamps (R69, R359) -/
  got : List (Nat × Byte × Bool)
  sent : List Nat
  clk : VClock
deriving DecidableEq, Repr, Inhabited

inductive NKind where
  | launch (c : Card) (foot : List Span)
  | copy (d : List Word)
  | nbk (code : Nat) (d : List Word)
deriving DecidableEq, Repr, Inhabited

structure Node where
  nid : Nat
  part : Nat
  order : Nat
  kind : NKind
  tag : Nat
  regions : List Span
  /-- edges: predecessor and the carried byte regions (R139) -/
  preds : List (Nat × List Span)
  /-- all bytes that its edges carry, and whether a producer of its regions had left the window already (R139, R140) -/
  carried : List Span
  late : Bool
  ancestors : List Nat
  started : Bool
  /-- the grid or job it runs as -/
  runs : Nat
  /-- the groups that its grid has had, or its job, once it runs no more (R140) -/
  writers : List Nat
  /-- set when its work is over: completion status 0, 9 or 10 -/
  result : Option Nat
  /-- ended by a kill or through its tag, and by no failure that ends its tag (R142) -/
  byTag : Bool
  /-- the command whose completion it carries (R102) -/
  cmd : Option CmdHdr
  /-- the time-table entry that submitted it (R117) -/
  tt : Option Nat
  cap : Option CapFault
  gc : VClock
  /-- its groups take no copy of a host-window line that was fetched before this (R113) -/
  hw : Nat
deriving DecidableEq, Repr, Inhabited

/-! ## Partition services -/

structure Window where
  num : Nat
  host : Nat
  len : Nat
  key : DWord
  ver : Nat
  va : Nat
  version : DWord
  closing : Bool
deriving DecidableEq, Repr, Inhabited

structure Command where
  h : CmdHdr
  b : CmdBody
deriving DecidableEq, Repr, Inhabited

structure CmdQueue where
  cmds : List Command
  wake : DWord
deriving DecidableEq, Repr, Inhabited

structure TTRun where
  start : Nat
  cycle : Nat
  k : Nat
  next : Nat
  cmd : CmdHdr
deriving DecidableEq, Repr, Inhabited

/-- The time table (R115-R117). `live` holds entry index and node of the launches that run, `deferred` and `abort` entry
index and card of those to submit when the entry's launch ends; `stop` and `rephase` take effect at the cycle boundary. -/
structure TimeTable where
  entries : List TTEntry
  pending : Option (List TTEntry)
  run : Option TTRun
  stop : List CmdHdr
  rephase : Option TTRun
  live : List (Nat × Nat)
  deferred : List (Nat × Nat)
  abort : List (Nat × Nat)
deriving DecidableEq, Repr, Inhabited

inductive JState where
  | off
  | live (k : Nat)
  | switch (j : Nat)
  | down
deriving DecidableEq, Repr, Inhabited

structure Stream where
  jsid : Nat
  trunc : Nat
  last : Nat
  durable : Nat
  recs : List SeqRec
  cursor : Option Nat
  adopted : Nat
deriving DecidableEq, Repr, Inhabited

structure Stored where
  serial : DWord
  jsid : Nat
  seq : Nat
  rcd : JRec
deriving DecidableEq, Repr, Inhabited

/-- A message of the partner protocol that this device sends (R124). -/
inductive PeerMsg where
  | append (es : List SeqRec)
  | ack (es : List AckEntry)
  | trunc (jsid s : Nat)
  | fetch (jsid first count : Nat)
  | fetched (es : List SeqRec)
deriving DecidableEq, Repr, Inhabited

structure Journal where
  p : JournalParams
  st : JState
  streams : List Stream
  store : List Stored
  /-- last ACK or first unacknowledged send, in ns (R125) -/
  ackAt : Nat
  /-- sequences to be acknowledged before a SWITCH ends (R125) -/
  goal : List (Nat × Nat)
  /-- a REPLAY_BIND waiting for FETCHED answers: jsids whose answer has ended, records got (R131) -/
  bindDone : List Nat
  bindGot : List Stored
  /-- writes this device has made to the emission ring of each jsid (R127) -/
  emitted : List (Nat × Nat)
  /-- messages for the current partner that wait for its connection, oldest first (R92, R124): the model's own field (DEDUCED, log 118) -/
  unsent : List PeerMsg
deriving DecidableEq, Repr, Inhabited

inductive EventBody where
  | pageFault (park : Word) (va : Nat) (lanes : Mask) (store : Bool)
  | pressure (level : Nat) (f : Int) (p : Nat) (parked : Nat)
  | svcRequest (q0 n : Nat)
  | error (seq kind : Nat)
  | ttOverrun (entry policy slot : Nat)
  | killDone (tag grid reason : Nat)
  | partnerLost (jbase jcount old new : Nat)
deriving DecidableEq, Repr, Inhabited

structure CtlRegs where
  ratio : Nat
  chunk : Nat
  floor : Nat
  pwrCap : Nat
  detour : BitVec 32
  balloonTimeout : Nat
  watchdog : Nat
  ringK : Nat
  ringWin : Nat
  rmaKey : DWord
deriving DecidableEq, Repr, Inhabited

structure Counters where
  leaseGrants : DWord
  leaseWait : DWord
  leaseLong : DWord
  throttleCnt : DWord
  eccSwitch : DWord
  ttSkips : DWord
  ttDefers : DWord
  ttAborts : DWord
  jSwitches : DWord
  evictions : DWord
  demotions : DWord
  wdKills : DWord
  mismatches : DWord
  faults : BitVec 32
deriving DecidableEq, Repr, Inhabited

/-- Pressure outstanding (R87-R89): `armed` is soft pressure's rearm; `since` the hard event's time. -/
structure Pressure where
  soft : Bool
  hard : Bool
  armed : Bool
  since : Nat
deriving DecidableEq, Repr, Inhabited

structure Part where
  id : Nat
  quads : List Nat
  jobs : List Nat
  dest : Nat
  regs : CtlRegs
  cnt : Counters
  free : Int
  pledged : Nat
  press : Pressure
  keys : List (Option (BitVec 256))
  topoVa : Nat
  epoch : Nat
  codeMeas : BitVec 256
  windows : List Window
  queues : List CmdQueue
  views : List View
  /-- poisoned 32 B sectors at their homes, and in the replicas of other dies, by die (R62) -/
  poison : List Nat
  repPoison : List (Nat × Nat)
  replicas : List (Nat × Nat)
  hwLines : List Line
  tv : VClock
  /-- base and row length of the region that the last `nbk.mv` summed (R334) -/
  nbBase : Nat
  nbRow : Nat
  /-- clock of what the host has written: LOAD_CODE and inbound RMA writes (R100, R114) -/
  hostGc : VClock
  cursor : Nat
  /-- regions of the nodes that have run and left the window (R140) -/
  past : List Span
  ringNext : Nat
  ringWait : List Nat
  /-- park ids whose grid was killed while parked for svc (R103) -/
  killedSvc : List Word
  evSeq : Nat
  evq : List EventBody
  tt : TimeTable
  jr : Journal
deriving DecidableEq, Repr, Inhabited

/-! ## The device -/

structure Fuses where
  seed : BitVec 256
  keyHash : BitVec 256
  serial : DWord
  present : List (BitVec 24)
  threshold : BitVec 8
  floor : BitVec 16
  intact : Bool
deriving DecidableEq, Repr, Inhabited

/-- An error log record (R110). -/
structure LogRec where
  seq : BitVec 32
  kind : Nat
  die : Nat
  quad : Nat
  time : Nat
  addr : Nat
  part : Nat
  unit : Nat
  counts : List (BitVec 32)
deriving DecidableEq, Repr, Inhabited

structure Dev where
  fuses : Fuses
  running : Bool
  romMeas : BitVec 256
  patchMeas : BitVec 256
  patches : List (Nat × Nat)
  supJob : Option Nat
  /-- the peer whose command fixed the supervisor job: where its events go (R95, R111) (DESIGN CHOICE, log 117) -/
  supPeer : Nat
  supQueue : List Command
  cursor : Nat
  busy : Option Command
  mgmtWake : DWord
  log : List LogRec
  logSeq : BitVec 32
  counts : List (BitVec 32)
  logOverflow : BitVec 32
  tod : Nat
  cycles : Nat
  /-- nanoseconds since reset, which no slew changes: what the rules' intervals are measured in (R16, R17) -/
  up : Nat
  /-- nanoseconds that the time of day is still to be slewed by (R17) -/
  slew : Int
  sixths : Nat
  ptpPort : BitVec 3
  ptpMode : Nat
  throttle : Bool
  /-- since when the average of the module draw has stayed below 3,800 W (R22) -/
  coolAt : Option Nat
  links : List Nat
  conns : List Nat
  evSeq : Nat
  evq : List EventBody
  dies : List Die
deriving DecidableEq, Repr, Inhabited

/-- What a completion carries after its header (R93, R98). -/
inductive Results where
  | none
  | ident (name : String) (serial : DWord) (romVersion level : Nat) (key : BitVec 256) (ports : List (DWord × BitVec 128))
  | regs (vals : List DWord) (errs : DWord)
  | data (bytes : List Byte)
  | log (rs : List LogRec)
  | partition (id : Nat)
deriving DecidableEq, Repr, Inhabited

/-- What leaves the device. -/
inductive Out where
  | completion (h : CmdHdr) (status : Nat) (r : Results)
  | event (part seq : Nat) (b : EventBody)
  | peer (part : Nat) (dest : Nat) (serial : DWord) (m : PeerMsg)
  | rma (src : Nat) (ok : Bool) (data : List Byte)
  | connected (peer : Nat) (ok : Bool)
deriving DecidableEq, Repr, Inhabited

/-- Who issues the instruction that `exec` runs: a split of a group. -/
structure Cur where
  gid : Nat
  sid : Nat
deriving DecidableEq, Repr, Inhabited

structure State where
  /-- moves to come, first first: the model's own field (DESIGN CHOICE, log 1) -/
  agenda : List Move
  /-- counter of free values drawn: the model's own field (DESIGN CHOICE, log 4) -/
  free : Nat
  /-- next internal number: the model's own field (DESIGN CHOICE, log 4) -/
  nextId : Nat
  cur : Option Cur
  dev : Dev
  quads : List Quad
  cores : List Core
  parts : List Part
  pages : List Page
  grids : List Grid
  blocks : List Block
  groups : List Group
  nodes : List Node
  jobs : List Job
  frames : List FrameRec
  writes : List Write
  applies : List Apply
  early : List Early
  /-- what happens before what: the model's own record of R355, kept where R277 leaves L1 as it is -/
  ordered : List Ordered
  rels : List Release
  refunds : List Refund
  rmas : List Rma
  acks : List RmaAck
  packets : List Packet
  host : Mem
  /-- which of the device's writes each byte of host memory comes from, by host address (R112, R277) -/
  hostMarks : List Mark
  out : List Out
deriving DecidableEq, Repr, Inhabited

/-! ## Why a step stops -/

/-- The machine stops. -/
inductive Fault where
  /-- Raised by Fubebex's visit (Machine/Step.lean) when the command's handler has been replaced by PATCH_LOAD: the
  spec gives the patch's format, not what its code does (R105). Safe: nothing is claimed of the patched handler. -/
  | patchedHandler (code : Nat)
deriving DecidableEq, Repr, Inhabited

/-- No meaning for the instruction. -/
inductive Refusal where
  /-- Raised by an arm of `exec` whose instruction has no meaning yet. Safe: no step is claimed. -/
  | notModelled (mnemonic : String)
deriving DecidableEq, Repr, Inhabited

/-! ## Reset -/

def VClock.zero : VClock := ⟨0, 0, 0, 0⟩
def View.empty : View := ⟨[], []⟩

def Core.reset : Core :=
  { store := View.empty, share := 0, shareMem := View.empty
    regions := [{ base := 0, len := 3072, size := 3072, kind := .reply, grid := 0, bidx := 0 }]
    gens := [], gensShare := [], credit := 0, waiters := [], refill := none, bufReq := [], bufRep := []
    callee := [], l1 := [], teams := [] }

def Quad.reset : Quad :=
  { leases := [], leaseQ := [], decTed := false, railOk := none, retired := [], remap := [], scratch := View.empty
    nbLen := 0, nbVec := [], nbSum := [], nbVecPoison := [], nbPoison := [], issueNo := 0 }

/-- A fully populated package (R1, R15) with intact fuses: log 5. -/
def Fuses.reset : Fuses :=
  { seed := Config.fuseSeed, keyHash := Config.fuseKeyHash, serial := Config.fuseSerial
    present := List.replicate 16 (BitVec.allOnes 24), threshold := 0, floor := 0, intact := true }

/-- Die-link health after reset (R48 layout): every link up, log 6. -/
def Dev.resetLinks : List Nat := [0, 1, 1, 1, 1, 0, 1, 1, 1, 1, 0, 1, 1, 1, 1, 0]

def Dev.reset : Dev :=
  { fuses := Fuses.reset, running := true, romMeas := Config.romMeasurement, patchMeas := 0, patches := []
    supJob := none, supPeer := 0, supQueue := [], cursor := 0, busy := none, mgmtWake := 0, log := [], logSeq := 1
    counts := List.replicate 9 0, logOverflow := 0, tod := 0, cycles := 0, up := 0, slew := 0, sixths := 0, ptpPort := 0, ptpMode := 0
    throttle := false, coolAt := none, links := Dev.resetLinks, conns := [], evSeq := 0, evq := []
    dies := List.replicate 4 ⟨VClock.zero, VClock.zero⟩ }

/-- The machine right after device reset (R26): Fubebex runs, no partition exists, every core is idle. -/
def State.reset : State :=
  { agenda := [], free := 0, nextId := 1, cur := none, dev := Dev.reset, quads := List.replicate 16 Quad.reset
    cores := List.replicate 384 Core.reset, parts := [], pages := [], grids := [], blocks := [], groups := []
    nodes := [], jobs := [], frames := [], writes := [], applies := [], early := [], ordered := [], rels := [], refunds := [], rmas := [], acks := [], packets := []
    host := [], hostMarks := [], out := [] }

end Sys2Proof.Machine
end

