-- ==== Sys2Proof/Machine/Mem.lean ====
section
/-!
DEFINITION. The operations of memory: one byte, runs of bytes, little-endian words (R5), views with the write each
byte comes from, vector clocks (R275), and the list helpers the model uses.
-/

namespace Sys2Proof

/-- The byte at `a`; an unlisted byte is zero (R61, R145, R155; DESIGN CHOICE, log 10). -/
def Mem.read : Mem → Nat → Byte
  | [], _ => 0
  | (b, v) :: m, a => if b = a then v else Mem.read m a

/-- Writes one byte and keeps the canonical form: a zero byte is not listed. -/
def Mem.write : Mem → Nat → Byte → Mem
  | [], a, v => if v = 0 then [] else [(a, v)]
  | (b, w) :: m, a, v =>
    if a < b then (if v = 0 then (b, w) :: m else (a, v) :: (b, w) :: m)
    else if a = b then (if v = 0 then m else (a, v) :: m)
    else (b, w) :: Mem.write m a v

/-- Addresses strictly rising above `lo`, no zero byte. -/
def Mem.wfFrom : Nat → Mem → Bool
  | _, [] => true
  | lo, (a, v) :: m => decide (lo ≤ a) && decide (v ≠ 0) && Mem.wfFrom (a + 1) m

/-- The canonical form of a memory. -/
def Mem.wf (m : Mem) : Bool := Mem.wfFrom 0 m

/-- `n` bytes from `a` upward. -/
def Mem.readN (m : Mem) (a n : Nat) : List Byte := (List.range n).map fun i => Mem.read m (a + i)

/-- Writes each listed byte in turn. -/
def Mem.writeCells (m : Mem) (cs : List Host.Cell) : Mem := cs.foldl (fun m c => Mem.write m c.1 c.2) m

/-- Writes bytes from `a` upward. -/
def Mem.writeN : Mem → Nat → List Byte → Mem
  | m, _, [] => m
  | m, a, b :: bs => Mem.writeN (Mem.write m a b) (a + 1) bs

/-- Clears the bytes of [a, a + n). -/
def Mem.clear (m : Mem) (a n : Nat) : Mem := m.filter fun c => !(decide (a ≤ c.1) && decide (c.1 < a + n))

namespace Machine

/-! ## Little-endian words (R5) -/

/-- The number a list of bytes holds, lowest byte first. -/
def leNat : List Byte → Nat
  | [] => 0
  | b :: bs => b.toNat + 256 * leNat bs

/-- The `n` bytes of a number, lowest byte first. -/
def leBytes : Nat → Nat → List Byte
  | 0, _ => []
  | n + 1, v => BitVec.ofNat 8 v :: leBytes n (v / 256)

/-- Bytes as cells from an address upward. -/
def cellsAt : Nat → List Byte → List Host.Cell
  | _, [] => []
  | a, b :: bs => (a, b) :: cellsAt (a + 1) bs

/-- The big-endian bytes of a number (SHA-256, R106). -/
def beBytes (n v : Nat) : List Byte := (leBytes n v).reverse

def memWord (m : Mem) (a : Nat) : Word := BitVec.ofNat 32 (leNat (Mem.readN m a 4))
def memDWord (m : Mem) (a : Nat) : DWord := BitVec.ofNat 64 (leNat (Mem.readN m a 8))

/-- The slots a run of bytes fills, lowest slot first. -/
def bytesToWords : List Byte → List Word
  | a :: b :: c :: d :: rest => BitVec.ofNat 32 (leNat [a, b, c, d]) :: bytesToWords rest
  | [] => []
  | bs => [BitVec.ofNat 32 (leNat bs)]

def wordsToBytes (ws : List Word) : List Byte := ws.flatMap fun w => leBytes 4 w.toNat

/-! ## Vector clocks (R275) -/

def VClock.get (c : VClock) (d : Nat) : Nat :=
  if d = 0 then c.c0 else if d = 1 then c.c1 else if d = 2 then c.c2 else c.c3

def VClock.set (c : VClock) (d v : Nat) : VClock :=
  if d = 0 then { c with c0 := v } else if d = 1 then { c with c1 := v }
  else if d = 2 then { c with c2 := v } else { c with c3 := v }

/-- Entry by entry the maximum. -/
def VClock.join (a b : VClock) : VClock := ⟨max a.c0 b.c0, max a.c1 b.c1, max a.c2 b.c2, max a.c3 b.c3⟩

def VClock.le (a b : VClock) : Bool :=
  decide (a.c0 ≤ b.c0) && decide (a.c1 ≤ b.c1) && decide (a.c2 ≤ b.c2) && decide (a.c3 ≤ b.c3)

/-- Strictly below in vector order. -/
def VClock.lt (a b : VClock) : Bool := a.le b && decide (a ≠ b)

/-! ## Views -/

def View.read (v : View) (a : Nat) : Byte := Mem.read v.mem a
def View.readN (v : View) (a n : Nat) : List Byte := Mem.readN v.mem a n

/-- The write a byte comes from: number 0 and the zero stamp when none is recorded. -/
def View.markOf (v : View) (a : Nat) : Mark := (v.marks.find? fun m => decide (m.addr = a)).getD ⟨a, 0, VClock.zero, 0⟩

/-- Writes cells and records the write they come from. -/
def View.writeBy (v : View) (cs : List Host.Cell) (wid : Nat) (stamp : VClock) : View :=
  { mem := Mem.writeCells v.mem cs
    marks := cs.map (fun c => ⟨c.1, wid, stamp, 0⟩) ++ v.marks.filter fun m => !(cs.any fun c => decide (c.1 = m.addr)) }

/-- The place of write number `n` of a home in its location's order; the host's stores after it lie between (R112, R275). -/
def writePlace (n : Nat) : Nat := n * 2 ^ 64

/-- The place of the write a byte comes from, in the order of its home. -/
def Mark.place (m : Mark) (home : Nat) : Nat := writePlace (m.stamp.get home) + m.sub

/-- The mark of a write that lands on the host's byte above the write `m`: one without a stamp of its own (a host's store, an emission, a version)
comes next after `m`; a device's write keeps its stamp, above every place that `m` has (R112, R275) (DEDUCED, log 93). -/
def Mark.next (m : Mark) (wid : Nat) (st : VClock) : Mark :=
  if st = VClock.zero then { m with wid := wid, sub := m.sub + 1 }
  else ⟨m.addr, wid, st, ([0, 1, 2, 3].map fun d => m.place d + 1 - writePlace (st.get d)).foldl max 0⟩

/-- Writes cells that no access performs (initial zeros, Fubebex at creation). -/
def View.poke (v : View) (a : Nat) (bs : List Byte) : View := { v with mem := Mem.writeN v.mem a bs }

def View.clear (v : View) (a n : Nat) : View :=
  { mem := Mem.clear v.mem a n, marks := v.marks.filter fun m => !(decide (a ≤ m.addr) && decide (m.addr < a + n)) }

/-- The part of a view inside [a, a + n). -/
def View.slice (v : View) (a n : Nat) : View :=
  { mem := v.mem.filter fun c => decide (a ≤ c.1) && decide (c.1 < a + n)
    marks := v.marks.filter fun m => decide (a ≤ m.addr) && decide (m.addr < a + n) }

/-- The join of the stamps, and the youngest write, of [a, a + n). -/
def View.stampN (v : View) (a n : Nat) : VClock :=
  (List.range n).foldl (fun c i => c.join (v.markOf (a + i)).stamp) VClock.zero

/-! ## Lists -/

/-- Applies `f` to the first element that meets `p`. -/
def updFirst {α : Type} (p : α → Bool) (f : α → α) : List α → List α
  | [] => []
  | x :: xs => if p x then f x :: xs else x :: updFirst p f xs

/-- Removes the first element that meets `p`. -/
def dropFirst {α : Type} (p : α → Bool) : List α → List α
  | [] => []
  | x :: xs => if p x then xs else x :: dropFirst p xs

/-- Inserts by key, before the first element with a larger key. -/
def insertBy {α : Type} (key : α → Nat) (x : α) : List α → List α
  | [] => [x]
  | y :: ys => if key x < key y then x :: y :: ys else y :: insertBy key x ys

/-- Stable sort by ascending key. -/
def sortBy {α : Type} (key : α → Nat) (xs : List α) : List α := xs.foldl (fun acc x => insertBy key x acc) []

/-- Keeps the first of equal elements. -/
def dedupN : List Nat → List Nat
  | [] => []
  | x :: xs => x :: (dedupN xs).filter fun y => decide (y ≠ x)

/-- Value listed for a key. -/
def assoc {α : Type} (k : Nat) (xs : List (Nat × α)) : Option α := (xs.find? fun e => decide (e.1 = k)).map (·.2)

/-- Sets the value listed for a key. -/
def setAssoc {α : Type} (k : Nat) (v : α) (xs : List (Nat × α)) : List (Nat × α) :=
  (k, v) :: xs.filter fun e => decide (e.1 ≠ k)

def roundUp (n k : Nat) : Nat := (n + k - 1) / k * k

/-- The listed lanes of a mask, ascending. -/
def lanesOf (m : Mask) : List Nat := (List.range 32).filter fun i => m.getLsbD i

def maskOf (ls : List Nat) : Mask := ls.foldl (fun m i => m ||| (BitVec.ofNat 32 (2 ^ i))) 0

end Machine
end Sys2Proof
end

