-- ==== Sys2Proof/Machine/Encoding.lean ====
section
/-!
DEFINITION. The encodings of the instruction words as tables (R202, R207-R211, R213, R255, R272, R283, R286-R295, R322 and
the entries of chapters 11 to 15): opcode, MOD layout, immediate and `.g` forms, operand uses, clause headers.
-/

namespace Sys2Proof

/-! ## Fields of a word (R207, R209, R210) -/

def Fld.ofWord (w : DWord) : Fld :=
  { i := w.getLsbD 63, mod := w.extractLsb' 55 8, sc := w.extractLsb' 45 10, sb := w.extractLsb' 35 10
    sa := w.extractLsb' 25 10, dst := w.extractLsb' 15 10, fs := w.getLsbD 14, pneg := w.getLsbD 13
    pn := w.extractLsb' 10 3, g := w.getLsbD 9 }


def Fld.toWord (f : Fld) (op : Nat) : DWord :=
  BitVec.ofBool f.i ++ f.mod ++ f.sc ++ f.sb ++ f.sa ++ f.dst ++ BitVec.ofBool f.fs ++ BitVec.ofBool f.pneg ++ f.pn
    ++ BitVec.ofBool f.g ++ BitVec.ofNat 9 op

/-- The 20-bit immediate (R209), and the target offset of the control form (R210). -/
def Fld.imm (f : Fld) : BitVec 20 := f.sc ++ f.sb
/-- The join offset of the control form (R210). -/
def Fld.joinOff (f : Fld) : BitVec 20 := f.sa ++ f.dst
/-- MOD[3:0] and MOD[7:4]. -/
def Fld.lo (f : Fld) : Nat := f.mod.toNat % 16
def Fld.hi (f : Fld) : Nat := f.mod.toNat / 16
/-- MOD[6:4]. -/
def Fld.mid (f : Fld) : Nat := f.mod.toNat / 16 % 8

/-- SIZE, ORD and SCOPE of `ld`, `st`, `stm` (R272). -/
def Fld.size (f : Fld) : Nat := f.mod.toNat % 8
def Fld.ord (f : Fld) : Nat := f.mod.toNat / 8 % 4
def Fld.scope (f : Fld) : Nat := f.mod.toNat / 32
/-- CLASS and ORD of an atomic (R283). -/
def Fld.cls (f : Fld) : Nat := f.hi % 4
def Fld.aord (f : Fld) : Nat := f.hi / 4

/-- Every field zero and no guard. -/
def Fld.zero : Fld :=
  { i := false, mod := 0, sc := 0, sb := 0, sa := 0, dst := 0, fs := false, pneg := false, pn := 7, g := false }

/-- A DST that names the special `zero` makes an `atom` non-returning (R285). -/
def Fld.dstZero (f : Fld) : Bool := decide (f.dst = 0x0F0)

/-- The four operand fields. -/
inductive FieldSel where
  | d | a | b | c
deriving DecidableEq, Repr

def Fld.opd (f : Fld) : FieldSel → BitVec 10
  | .d => f.dst
  | .a => f.sa
  | .b => f.sb
  | .c => f.sc

namespace Machine

def opOfWord (w : DWord) : Nat := (w.extractLsb' 0 9).toNat

/-! ## Opcodes (R213) -/

/-- The instruction a word's OP and MOD name; none for a reserved opcode. Where several rows share an opcode, MOD
tells them apart (R235, R289, R290, R293, R295, R322, R329, R333, R338, R343). -/
def ofOpcode (op : Nat) (f : Fld) : Option Instr :=
  match op with
  | 0x000 => some (.nop f) | 0x001 => some (.mov f) | 0x002 => some (.add f) | 0x003 => some (.sub f)
  | 0x004 => some (.mul f) | 0x005 => some (.mulhi f) | 0x006 => some (.mad f) | 0x007 => some (.madw f)
  | 0x008 => some (.div f) | 0x009 => some (.rem f) | 0x00A => some (.min f) | 0x00B => some (.max f)
  | 0x00C => some (.abs f) | 0x00D => some (.neg f) | 0x00E => some (.and f) | 0x00F => some (.or f)
  | 0x010 => some (.xor f) | 0x011 => some (.not f) | 0x012 => some (.andn f) | 0x013 => some (.shl f)
  | 0x014 => some (.shr f) | 0x015 => some (.sar f) | 0x016 => some (.fshl f) | 0x017 => some (.fshr f)
  | 0x018 => some (.bfx f) | 0x019 => some (.bfi f) | 0x01A => some (.popc f) | 0x01B => some (.clz f)
  | 0x01C => some (.ctz f) | 0x01D => some (.brev f) | 0x01E => some (.sel f) | 0x01F => some (.setp f)
  | 0x020 => some (.plop f)
  | 0x021 => if f.mod.getLsbD 0 then some (.pmovSet f) else some (.pmovGet f)
  | 0x022 => some (.ext f) | 0x023 => some (.adr f) | 0x024 => some (.dot4 f)
  | 0x040 => some (.fadd f) | 0x041 => some (.fsub f) | 0x042 => some (.fmul f) | 0x043 => some (.ffma f)
  | 0x044 => some (.fmin f) | 0x045 => some (.fmax f) | 0x046 => some (.fsetp f) | 0x047 => some (.fneg f)
  | 0x048 => some (.fabs f) | 0x049 => some (.frcp f) | 0x04A => some (.frsq f) | 0x04B => some (.fsqrt f)
  | 0x04C => some (.fex2 f) | 0x04D => some (.flg2 f) | 0x04E => some (.fsin f) | 0x04F => some (.fcos f)
  | 0x050 => some (.ftanh f) | 0x051 => some (.fscale f) | 0x052 => some (.frnd f) | 0x053 => some (.fcvt f)
  | 0x054 => some (.f2i f) | 0x055 => some (.i2f f) | 0x056 => some (.fclass f) | 0x057 => some (.pfma f)
  | 0x058 => some (.padd f) | 0x059 => some (.pmul f) | 0x05A => some (.fdiv f)
  | 0x080 => some (.shfl f) | 0x081 => some (.vote f) | 0x082 => some (.red f) | 0x083 => some (.scan f)
  | 0x084 => some (.matchLanes f) | 0x085 => some (.bcast f) | 0x086 => some (.fmt f) | 0x087 => some (.fmtrd f)
  | 0x088 => some (.qnt f) | 0x089 => some (.dqnt f) | 0x08A => some (.tenc f) | 0x08B => some (.tdec f)
  | 0x08C => some (.pack f) | 0x08D => some (.unpack f) | 0x08E => some (.lmask f)
  | 0x0C0 => some (.ld f) | 0x0C1 => some (.st f) | 0x0C2 => some (.stm f) | 0x0C3 => some (.atom f)
  | 0x0C4 => some (.mred f) | 0x0C5 => some (.prf f) | 0x0C6 => some (.cln f)
  | 0x0C7 => if f.mod.getLsbD 0 then some (.invAll f) else some (.inv f)
  | 0x0C8 => if f.mod.getLsbD 5 then some (.fenceTotal f) else some (.fence f)
  | 0x0C9 => some (.blkz f)
  | 0x0CA => if f.mod.getLsbD 0 then some (.cresRet f) else some (.cres f)
  | 0x100 => some (.bra f) | 0x101 => some (.brx f) | 0x102 => some (.split f) | 0x103 => some (.call f)
  | 0x104 => some (.callx f) | 0x105 => some (.ret f) | 0x106 => some (.exit f) | 0x107 => some (.loop f)
  | 0x108 => some (.fopen f) | 0x109 => some (.fclose f) | 0x10A => some (.fref f) | 0x10B => some (.disp f)
  | 0x10C => some (.disprd f) | 0x10D => some (.yield f) | 0x10E => some (.tret f)
  | 0x140 => some (.bar f) | 0x141 => some (.barc f) | 0x142 => some (.tjoin f) | 0x143 => some (.tleave f)
  | 0x144 => some (.tbar f) | 0x145 => some (.sleep f)
  | 0x146 =>
    if f.mod.getLsbD 1 then some (.wakeMgmt f)
    else if f.mod.getLsbD 0 then some (.wakeQueue f) else some (.wakePark f)
  | 0x147 => some (.jrnl f) | 0x148 => some (.emit f) | 0x149 => some (.jrd f)
  | 0x14A => if f.mod.getLsbD 0 then some (.jtruncClose f) else some (.jtrunc f)
  | 0x14B => some (.publish f)
  | 0x180 => some (.mma f) | 0x181 => some (.mmag f) | 0x182 => some (.accz f)
  | 0x183 => if f.mod.getLsbD 4 then some (.accrdQ f) else some (.accrd f)
  | 0x184 => some (.accwr f) | 0x185 => some (.cpy f)
  | 0x186 =>
    if f.mod.getLsbD 2 then some (.nbkFence f)
    else if f.mod.getLsbD 1 then (if f.mod.getLsbD 0 then some (.nbkClear f) else some (.nbkDrain f))
    else if f.mod.getLsbD 0 then some (.nbkMv f) else some (.nbkVload f)
  | 0x187 => some (.spawn f) | 0x188 => some (.node f)
  | 0x189 => if f.mod.getLsbD 4 then some (.msgNw f) else some (.msg f)
  | 0x18A => some (.route f)
  | 0x1C0 => some (.svc f) | 0x1C1 => some (.trap f) | 0x1C2 => some (.brk f) | 0x1C3 => some (.rdsr f)
  | 0x1C4 => some (.wrsr f)
  | 0x1C5 => if f.mod.getLsbD 0 then some (.timeCyc f) else some (.timeTod f)
  | _ => none

/-- The immediate form of an entry: none, optional, required, the control form (R210), or a join offset (R295). -/
inductive ImmForm where
  | no | yes | must | control | join
deriving DecidableEq, Repr

/-- What a table row says of an instruction besides its operands. -/
structure OpInfo where
  op : Nat
  fld : Fld
  imm : ImmForm
  g : Bool
  long : Bool
  last : Bool
  guard : Bool
deriving DecidableEq, Repr

/-- Rows of class 0 to 3 shape: opcode, fields, immediate form, `.g` form. -/
def plain (op : Nat) (f : Fld) (imm : ImmForm) (g : Bool) : OpInfo := ⟨op, f, imm, g, false, false, true⟩
/-- A long-latency row (R204). -/
def slow (op : Nat) (f : Fld) (imm : ImmForm) (g : Bool) : OpInfo := ⟨op, f, imm, g, true, false, true⟩
/-- A row that must stand last in its clause (R211). -/
def ctl (op : Nat) (f : Fld) (imm : ImmForm) (g guard : Bool) : OpInfo := ⟨op, f, imm, g, false, true, guard⟩


/-- The table row of an ISA instruction; none for a step of another agent. -/
def info : Instr → Option OpInfo
  | .nop f => some (plain 0x000 f .no true) | .mov f => some (plain 0x001 f .yes true)
  | .add f => some (plain 0x002 f .yes true) | .sub f => some (plain 0x003 f .yes true)
  | .mul f => some (plain 0x004 f .yes true) | .mulhi f => some (plain 0x005 f .yes true)
  | .mad f => some (plain 0x006 f .no true) | .madw f => some (plain 0x007 f .no true)
  | .div f => some (slow 0x008 f .yes true) | .rem f => some (slow 0x009 f .yes true)
  | .min f => some (plain 0x00A f .yes true) | .max f => some (plain 0x00B f .yes true)
  | .abs f => some (plain 0x00C f .no true) | .neg f => some (plain 0x00D f .no true)
  | .and f => some (plain 0x00E f .yes true) | .or f => some (plain 0x00F f .yes true)
  | .xor f => some (plain 0x010 f .yes true) | .not f => some (plain 0x011 f .no true)
  | .andn f => some (plain 0x012 f .yes true) | .shl f => some (plain 0x013 f .yes true)
  | .shr f => some (plain 0x014 f .yes true) | .sar f => some (plain 0x015 f .yes true)
  | .fshl f => some (plain 0x016 f .no true) | .fshr f => some (plain 0x017 f .no true)
  | .bfx f => some (plain 0x018 f .yes true) | .bfi f => some (plain 0x019 f .no true)
  | .popc f => some (plain 0x01A f .no true) | .clz f => some (plain 0x01B f .no true)
  | .ctz f => some (plain 0x01C f .no true) | .brev f => some (plain 0x01D f .no true)
  | .sel f => some (plain 0x01E f .yes true) | .setp f => some (plain 0x01F f .yes true)
  | .plop f => some (plain 0x020 f .no true) | .pmovGet f => some (plain 0x021 f .no true)
  | .pmovSet f => some (plain 0x021 f .no true) | .ext f => some (plain 0x022 f .no true)
  | .adr f => some (plain 0x023 f .yes true) | .dot4 f => some (plain 0x024 f .no true)
  | .fadd f => some (plain 0x040 f .yes true) | .fsub f => some (plain 0x041 f .yes true)
  | .fmul f => some (plain 0x042 f .yes true) | .ffma f => some (plain 0x043 f .no true)
  | .fmin f => some (plain 0x044 f .yes true) | .fmax f => some (plain 0x045 f .yes true)
  | .fsetp f => some (plain 0x046 f .yes true) | .fneg f => some (plain 0x047 f .no true)
  | .fabs f => some (plain 0x048 f .no true) | .frcp f => some (plain 0x049 f .no true)
  | .frsq f => some (plain 0x04A f .no true) | .fsqrt f => some (plain 0x04B f .no true)
  | .fex2 f => some (plain 0x04C f .no true) | .flg2 f => some (plain 0x04D f .no true)
  | .fsin f => some (plain 0x04E f .no true) | .fcos f => some (plain 0x04F f .no true)
  | .ftanh f => some (plain 0x050 f .no true) | .fscale f => some (plain 0x051 f .yes true)
  | .frnd f => some (plain 0x052 f .no true) | .fcvt f => some (plain 0x053 f .no true)
  | .f2i f => some (plain 0x054 f .no true) | .i2f f => some (plain 0x055 f .no true)
  | .fclass f => some (plain 0x056 f .no true) | .pfma f => some (plain 0x057 f .no true)
  | .padd f => some (plain 0x058 f .yes true) | .pmul f => some (plain 0x059 f .yes true)
  | .fdiv f => some (slow 0x05A f .yes true)
  | .shfl f => some (plain 0x080 f .yes false) | .vote f => some (plain 0x081 f .no false)
  | .red f => some (plain 0x082 f .no false) | .scan f => some (plain 0x083 f .no false)
  | .matchLanes f => some (plain 0x084 f .no false)
  | .bcast f => some (plain 0x085 f (if f.mod.getLsbD 4 then .no else .yes) false)
  | .fmt f => some (plain 0x086 f .yes true) | .fmtrd f => some (plain 0x087 f .no true)
  | .qnt f => some (plain 0x088 f .no false) | .dqnt f => some (plain 0x089 f .yes false)
  | .tenc f => some (plain 0x08A f .yes false)
  | .tdec f => some (plain 0x08B f (if f.mod.getLsbD 7 then .yes else .no) false)
  | .pack f => some (plain 0x08C f .no false) | .unpack f => some (plain 0x08D f .no false)
  | .lmask f => some (plain 0x08E f .no false)
  | .ld f => some (slow 0x0C0 f .yes true) | .st f => some (plain 0x0C1 f .yes true)
  | .stm f => some (plain 0x0C2 f .no true)
  | .atom f =>
    let imm := if f.lo = 7 then ImmForm.no else ImmForm.yes
    some (if f.dstZero then plain 0x0C3 f imm true else slow 0x0C3 f imm true)
  | .mred f => some (plain 0x0C4 f .yes true) | .prf f => some (plain 0x0C5 f .yes true)
  | .cln f => some (plain 0x0C6 f .yes true) | .inv f => some (plain 0x0C7 f .yes true)
  | .invAll f => some (plain 0x0C7 f .no true) | .fence f => some (plain 0x0C8 f .no false)
  | .fenceTotal f => some (plain 0x0C8 f .no false) | .blkz f => some (plain 0x0C9 f .yes true)
  | .cres f => some (plain 0x0CA f .yes true) | .cresRet f => some (plain 0x0CA f .no true)
  | .bra f => some (ctl 0x100 f .control true true) | .brx f => some (ctl 0x101 f .join true true)
  | .split f => some (ctl 0x102 f .control false true) | .call f => some (ctl 0x103 f .control true true)
  | .callx f => some (ctl 0x104 f .no false true) | .ret f => some (ctl 0x105 f .no true true)
  | .exit f => some (ctl 0x106 f .no true true) | .loop f => some (ctl 0x107 f .control true true)
  | .fopen f => some (plain 0x108 f .yes true) | .fclose f => some (plain 0x109 f .no true)
  | .fref f => some (plain 0x10A f .no true) | .disp f => some (plain 0x10B f .no true)
  | .disprd f => some (plain 0x10C f .no true) | .yield f => some (ctl 0x10D f .no false false)
  | .tret f => some (ctl 0x10E f .no false false)
  | .bar f => some (ctl 0x140 f .no false false) | .barc f => some (ctl 0x141 f .no false false)
  | .tjoin f => some (plain 0x142 f .no false) | .tleave f => some (plain 0x143 f .no false)
  | .tbar f => some (ctl 0x144 f .no false false) | .sleep f => some (ctl 0x145 f .no true true)
  | .wakePark f => some (plain 0x146 f .yes true) | .wakeQueue f => some (plain 0x146 f .yes true)
  | .wakeMgmt f => some (plain 0x146 f .yes true) | .jrnl f => some (slow 0x147 f .no false)
  | .emit f => some (slow 0x148 f .no false) | .jrd f => some (slow 0x149 f .no false)
  | .jtrunc f => some (plain 0x14A f .yes false) | .jtruncClose f => some (plain 0x14A f .no false)
  | .publish f => some (slow 0x14B f .yes true)
  | .mma f => some (slow 0x180 f .no true) | .mmag f => some (slow 0x181 f .no true)
  | .accz f => some (plain 0x182 f .no true) | .accrd f => some (slow 0x183 f .yes false)
  | .accrdQ f => some (slow 0x183 f .yes false) | .accwr f => some (slow 0x184 f .yes false)
  | .cpy f => some (slow 0x185 f .no true) | .nbkVload f => some (slow 0x186 f .no true)
  | .nbkMv f => some (slow 0x186 f .no true) | .nbkDrain f => some (slow 0x186 f .no true)
  | .nbkClear f => some (slow 0x186 f .no true) | .nbkFence f => some (slow 0x186 f .no true)
  | .spawn f => some (slow 0x187 f .no true) | .node f => some (slow 0x188 f .yes true)
  | .msg f => some (slow 0x189 f .no false) | .msgNw f => some (slow 0x189 f .no false)
  | .route f => some (plain 0x18A f .no true)
  | .svc f => some ⟨0x1C0, f, .must, false, true, true, true⟩
  | .trap f => some (ctl 0x1C1 f .must false true) | .brk f => some (ctl 0x1C2 f .must false true)
  | .rdsr f => some (plain 0x1C3 f .must true) | .wrsr f => some (plain 0x1C4 f .must true)
  | .timeTod f => some (plain 0x1C5 f .no true) | .timeCyc f => some (plain 0x1C5 f .no true)
  | _ => none

/-! ## MOD (trap 0x02) -/

def inSet (n : Nat) (xs : List Nat) : Bool := xs.any fun x => decide (x = n)
/-- MOD holds exactly one type code. -/
def tyOnly (f : Fld) (ts : List Nat) : Bool := decide (f.hi = 0) && inSet f.lo ts
/-- MOD holds a type code and a rounding code (R240). -/
def tyRnd (f : Fld) (ts : List Nat) : Bool := decide (f.hi < 4) && inSet f.lo ts
def modLt (f : Fld) (n : Nat) : Bool := decide (f.mod.toNat < n)
def modIs (f : Fld) (n : Nat) : Bool := decide (f.mod.toNat = n)

def intTys : List Nat := [2, 3, 4, 5]
def bitTys : List Nat := [6, 7]
def floTys : List Nat := [8, 9, 10]
def narTys : List Nat := [11, 12, 13]

/-- MOD of `ld`, `st`, `stm` (R272). -/
def accessMod (f : Fld) (sizes ords : List Nat) : Bool :=
  let ord := f.mod.toNat / 8 % 4
  inSet (f.mod.toNat % 8) sizes && inSet ord ords
    && (if ord = 0 then decide (f.mod.toNat < 128) else decide (f.mod.toNat / 32 ≤ 5))

/-- Operation and class of an atomic (R284). -/
def atomMod (f : Fld) (codes ords : List Nat) : Bool :=
  let cls := f.hi % 4
  inSet f.lo codes && inSet (f.hi / 4) ords
    && (if f.lo ≤ 2 then true else if f.lo ≤ 7 then decide (cls = 0 ∨ cls = 2) else decide (cls = 0))

/-- Type of a reduction or scan (R259). -/
def redMod (f : Fld) : Bool :=
  decide (f.mid ≤ 5) && (if f.mid ≤ 2 then inSet f.lo [2, 3, 4, 5, 8] else inSet f.lo bitTys)

def cvtCodes : List Nat := [0, 1, 8, 9, 10, 11, 12, 13]

/-- Whether MOD holds a value the entry defines. -/
def modLegal : Instr → Bool
  | .nop f => modIs f 0 | .mov f => tyOnly f bitTys
  | .add f => tyOnly f intTys | .sub f => tyOnly f intTys | .mul f => tyOnly f intTys | .mulhi f => tyOnly f intTys
  | .mad f => tyOnly f intTys | .madw f => tyOnly f [2, 3] | .div f => tyOnly f intTys | .rem f => tyOnly f intTys
  | .min f => tyOnly f intTys | .max f => tyOnly f intTys | .abs f => tyOnly f [2, 4] | .neg f => tyOnly f [2, 4]
  | .and f => tyOnly f bitTys | .or f => tyOnly f bitTys | .xor f => tyOnly f bitTys | .not f => tyOnly f bitTys
  | .andn f => tyOnly f bitTys | .shl f => tyOnly f bitTys | .shr f => tyOnly f bitTys | .sar f => tyOnly f [2, 4]
  | .fshl f => tyOnly f [6] | .fshr f => tyOnly f [6] | .bfx f => tyOnly f intTys | .bfi f => tyOnly f bitTys
  | .popc f => tyOnly f bitTys | .clz f => tyOnly f bitTys | .ctz f => tyOnly f bitTys | .brev f => tyOnly f bitTys
  | .sel f => inSet f.lo bitTys
  | .setp f => decide (f.hi ≤ 5) && (inSet f.lo intTys || (inSet f.lo bitTys && decide (f.hi ≤ 1)))
  | .plop _ => true | .pmovGet f => modIs f 0 | .pmovSet f => modIs f 1
  | .ext f => decide (f.hi ≤ 5) && inSet f.lo [2, 4]
  | .adr f => decide (f.hi < 8) && inSet f.lo intTys | .dot4 f => modLt f 4
  | .fadd f => tyRnd f [8] | .fsub f => tyRnd f [8] | .fmul f => tyRnd f [8] | .ffma f => tyRnd f [8]
  | .fdiv f => tyRnd f [8] | .fmin f => tyOnly f [8] | .fmax f => tyOnly f [8]
  | .fsetp f => decide (f.hi ≤ 13) && inSet f.lo floTys
  | .fneg f => tyOnly f floTys | .fabs f => tyOnly f floTys | .fclass f => tyOnly f floTys
  | .frcp f => tyOnly f [8] | .frsq f => tyOnly f [8] | .fsqrt f => tyRnd f [8] | .fex2 f => tyOnly f [8]
  | .flg2 f => tyOnly f [8] | .fsin f => tyOnly f [8] | .fcos f => tyOnly f [8] | .ftanh f => tyOnly f [8]
  | .fscale f => tyRnd f [8] | .frnd f => tyRnd f [8]
  | .fcvt f => inSet f.lo cvtCodes && inSet f.hi cvtCodes
  | .f2i f => inSet f.lo intTys && decide (f.hi < 12) | .i2f f => inSet f.lo intTys && decide (f.hi < 12)
  | .pfma f => tyRnd f [9, 10] | .padd f => tyRnd f [9, 10] | .pmul f => tyRnd f [9, 10]
  | .shfl f => tyRnd f bitTys
  | .vote f => modLt f 16 && !(decide (f.mod.toNat % 4 = 3) && f.mod.getLsbD 3)
  | .red f => decide (f.hi < 8) && redMod f | .scan f => redMod f | .matchLanes f => tyOnly f bitTys
  | .bcast f => decide (f.hi < 2) && inSet f.lo bitTys
  | .fmt f => modLt f 64 && !(modIs f 0) | .fmtrd f => modIs f 0
  | .qnt f => tyOnly f floTys | .dqnt f => tyOnly f floTys
  | .tenc f => inSet f.lo narTys && inSet f.hi floTys | .tdec f => inSet f.lo floTys && decide (f.mid ≤ 2)
  | .pack f => tyOnly f narTys | .unpack f => tyOnly f narTys | .lmask f => modLt f 7
  | .ld f => accessMod f [0, 1, 2, 3, 4] [0, 1] | .st f => accessMod f [0, 1, 2, 3, 4] [0, 2]
  | .stm f => accessMod f [2, 3, 4] [0, 2]
  | .atom f => atomMod f [0, 1, 2, 3, 4, 5, 6, 7, 8, 9] [0, 1, 2, 3]
  | .mred f => atomMod f [0, 1, 2, 3, 4, 5, 9] [0, 2]
  | .prf f => modLt f 8 | .cln f => modIs f 0 | .inv f => modIs f 0 | .invAll f => modIs f 1
  | .fence f => modLt f 24 && !(decide (f.mod.toNat % 4 = 0)) | .fenceTotal f => modIs f 32
  | .blkz f => modIs f 0 | .cres f => modIs f 0 | .cresRet f => modIs f 1
  | .bra f => modIs f 0 | .brx f => modIs f 0 | .split f => modIs f 0 | .call f => modLt f 30 | .callx f => modLt f 30
  | .ret f => modIs f 0 | .exit f => modIs f 0 | .loop f => modIs f 0 | .fopen f => modLt f 2 | .fclose f => modIs f 0
  | .fref f => modIs f 0 | .disp f => modIs f 0 | .disprd f => modLt f 4 | .yield f => modIs f 0 | .tret f => modIs f 0
  | .bar f => modLt f 16 | .barc f => modLt f 16 | .tjoin f => modLt f 8 | .tleave f => modLt f 8 | .tbar f => modLt f 8
  | .sleep f => modIs f 0 | .wakePark f => modIs f 0 | .wakeQueue f => modIs f 1 | .wakeMgmt f => modIs f 2
  | .jrnl f => modIs f 0 | .emit f => modIs f 0 | .jrd f => modIs f 0 | .jtrunc f => modIs f 0
  | .jtruncClose f => modIs f 1 | .publish f => modIs f 0
  | .mma _ => true | .mmag _ => true | .accz f => modLt f 128 | .accrd f => tyOnly f floTys | .accrdQ f => modIs f 16
  | .accwr f => tyOnly f floTys | .cpy f => modIs f 0 | .nbkVload f => modIs f 0 | .nbkMv f => modIs f 1
  | .nbkDrain f => modIs f 2 | .nbkClear f => modIs f 3 | .nbkFence f => modIs f 4 | .spawn f => modIs f 0
  | .node f => modLt f 4 && !(modIs f 0) | .msg f => modLt f 16 | .msgNw f => f.mod.getLsbD 4 | .route f => modIs f 0
  | .svc f => modIs f 0 | .trap f => modIs f 0 | .brk f => modIs f 0 | .rdsr f => modIs f 0 | .wrsr f => modLt f 2
  | .timeTod f => modIs f 0 | .timeCyc f => modIs f 1
  | _ => false

/-! ## Operand uses (trap 0x03) -/


/-- How a field is used: a run of `n` slots read or written starting at a multiple of `align`, a predicate operand
(R223), a tile operand, or the first slot of a descriptor (R322). -/
inductive Role where
  | src (n align : Nat)
  | dst (n align : Nat)
  | pred
  | tile
  | desc (n : Nat)
deriving DecidableEq, Repr

structure Use where
  fld : FieldSel
  role : Role
deriving DecidableEq, Repr

/-- Slots of a type: 64-bit types take a pair (R222). -/
def tyW (t : Nat) : Nat := if t = 4 ∨ t = 5 ∨ t = 7 then 2 else 1
/-- Slots of a memory size code (R271). -/
def sizeW (z : Nat) : Nat := if z = 3 then 2 else if z = 4 then 4 else 1
/-- Bytes of a memory size code. -/
def sizeB (z : Nat) : Nat := 2 ^ z

def sl (x : FieldSel) (n : Nat) : Use := ⟨x, .src n n⟩
def dl (x : FieldSel) (n : Nat) : Use := ⟨x, .dst n n⟩
/-- A source that the immediate replaces when I = 1. -/
def immOr (f : Fld) (n : Nat) : List Use := if f.i then [] else [sl .b n]

def uses1 (n m : Nat) : List Use := [dl .d n, sl .a m]
def uses2 (f : Fld) (n m k : Nat) : List Use := [dl .d n, sl .a m] ++ immOr f k
def uses3 (n m k j : Nat) : List Use := [dl .d n, sl .a m, sl .b k, sl .c j]
def addrUses (f : Fld) : List Use := sl .a 2 :: immOr f 1

/-- The operand fields an instruction uses (the syntax line of its entry). -/
def uses : Instr → List Use
  | .mov f => if f.i then [dl .d (tyW f.lo)] else uses1 (tyW f.lo) (tyW f.lo)
  | .add f => uses2 f (tyW f.lo) (tyW f.lo) (tyW f.lo) | .sub f => uses2 f (tyW f.lo) (tyW f.lo) (tyW f.lo)
  | .mul f => uses2 f (tyW f.lo) (tyW f.lo) (tyW f.lo) | .mulhi f => uses2 f (tyW f.lo) (tyW f.lo) (tyW f.lo)
  | .mad f => uses3 (tyW f.lo) (tyW f.lo) (tyW f.lo) (tyW f.lo) | .madw _ => uses3 2 1 1 2
  | .div f => uses2 f (tyW f.lo) (tyW f.lo) (tyW f.lo) | .rem f => uses2 f (tyW f.lo) (tyW f.lo) (tyW f.lo)
  | .min f => uses2 f (tyW f.lo) (tyW f.lo) (tyW f.lo) | .max f => uses2 f (tyW f.lo) (tyW f.lo) (tyW f.lo)
  | .abs f => uses1 (tyW f.lo) (tyW f.lo) | .neg f => uses1 (tyW f.lo) (tyW f.lo)
  | .and f => uses2 f (tyW f.lo) (tyW f.lo) (tyW f.lo) | .or f => uses2 f (tyW f.lo) (tyW f.lo) (tyW f.lo)
  | .xor f => uses2 f (tyW f.lo) (tyW f.lo) (tyW f.lo) | .not f => uses1 (tyW f.lo) (tyW f.lo)
  | .andn f => uses2 f (tyW f.lo) (tyW f.lo) (tyW f.lo)
  | .shl f => uses2 f (tyW f.lo) (tyW f.lo) 1 | .shr f => uses2 f (tyW f.lo) (tyW f.lo) 1
  | .sar f => uses2 f (tyW f.lo) (tyW f.lo) 1 | .fshl _ => uses3 1 1 1 1 | .fshr _ => uses3 1 1 1 1
  | .bfx f => uses2 f (tyW f.lo) (tyW f.lo) 1
  | .bfi f => [dl .d (tyW f.lo), sl .a (tyW f.lo), sl .b (tyW f.lo), sl .c 1]
  | .popc f => uses1 1 (tyW f.lo) | .clz f => uses1 1 (tyW f.lo) | .ctz f => uses1 1 (tyW f.lo)
  | .brev f => uses1 (tyW f.lo) (tyW f.lo) | .sel f => uses2 f (tyW f.lo) (tyW f.lo) (tyW f.lo)
  | .setp f => [⟨.d, .pred⟩, sl .a (tyW f.lo)] ++ immOr f (tyW f.lo)
  | .plop _ => [⟨.d, .pred⟩, ⟨.a, .pred⟩, ⟨.b, .pred⟩, ⟨.c, .pred⟩]
  | .pmovGet _ => [dl .d 1] | .pmovSet _ => [sl .a 1]
  | .ext f => uses1 (tyW f.lo) 1
  | .adr f => [dl .d 2, sl .a 2] ++ immOr f (if f.lo = 4 ∨ f.lo = 5 then 2 else 1)
  | .dot4 _ => uses3 1 1 1 1
  | .fadd f => uses2 f 1 1 1 | .fsub f => uses2 f 1 1 1 | .fmul f => uses2 f 1 1 1 | .ffma _ => uses3 1 1 1 1
  | .fdiv f => uses2 f 1 1 1 | .fmin f => uses2 f 1 1 1 | .fmax f => uses2 f 1 1 1
  | .fsetp f => [⟨.d, .pred⟩, sl .a 1] ++ immOr f 1
  | .fneg _ => uses1 1 1 | .fabs _ => uses1 1 1 | .fclass _ => uses1 1 1 | .frcp _ => uses1 1 1 | .frsq _ => uses1 1 1
  | .fsqrt _ => uses1 1 1 | .fex2 _ => uses1 1 1 | .flg2 _ => uses1 1 1 | .fsin _ => uses1 1 1 | .fcos _ => uses1 1 1
  | .ftanh _ => uses1 1 1 | .fscale f => uses2 f 1 1 1 | .frnd _ => uses1 1 1 | .fcvt _ => uses1 1 1
  | .f2i f => uses1 (tyW f.lo) 1 | .i2f f => uses1 1 (tyW f.lo)
  | .pfma _ => uses3 1 1 1 1 | .padd f => uses2 f 1 1 1 | .pmul f => uses2 f 1 1 1
  | .shfl f => uses2 f (tyW f.lo) (tyW f.lo) 1
  | .vote f => [if f.mod.toNat % 4 = 3 then dl .d 1 else ⟨.d, .pred⟩, ⟨.a, .pred⟩]
  | .red f => uses1 (tyW f.lo) (tyW f.lo) | .scan f => uses1 (tyW f.lo) (tyW f.lo)
  | .matchLanes f => uses1 1 (tyW f.lo)
  | .bcast f => [dl .d (tyW f.lo), sl .a (tyW f.lo)] ++ (if f.mod.getLsbD 4 then [] else immOr f 1)
  | .fmt f => immOr f 1 | .fmtrd _ => [dl .d 1] | .qnt _ => uses1 2 1 | .dqnt f => uses2 f 1 1 1
  | .tenc f => uses2 f 1 1 1
  | .tdec f => [dl .d 1, sl .a 1] ++ (if f.mod.getLsbD 7 then immOr f 1 else [])
  | .pack _ => uses1 1 1 | .unpack _ => uses1 1 1 | .lmask _ => [dl .d 1]
  | .ld f => dl .d (sizeW (f.mod.toNat % 8)) :: addrUses f
  | .st f => sl .d (sizeW (f.mod.toNat % 8)) :: addrUses f
  | .stm f => [sl .d (sizeW (f.mod.toNat % 8)), sl .a 2, sl .b 1, sl .c 1]
  | .atom f =>
    let w := if f.hi % 4 ≥ 2 then 2 else 1
    (if f.dstZero then [sl .d 1] else [dl .d w]) ++ [sl .a 2] ++ immOr f w ++ (if f.lo = 7 then [sl .c w] else [])
  | .mred f => [sl .a 2] ++ immOr f (if f.hi % 4 ≥ 2 then 2 else 1)
  | .prf f => addrUses f | .cln f => addrUses f | .inv f => addrUses f | .blkz f => addrUses f
  | .cres f => dl .d 1 :: immOr f 1 | .cresRet _ => [dl .d 1]
  | .brx _ => [sl .a 2] | .callx _ => [sl .a 2]
  | .fopen f => dl .d 1 :: immOr f 1 | .fclose _ => [sl .a 1] | .fref _ => [sl .a 1] | .disp _ => [sl .a 1]
  | .disprd _ => [dl .d 2] | .sleep _ => [dl .d 2]
  | .wakePark f => sl .a 1 :: immOr f 2 | .wakeQueue f => sl .a 1 :: immOr f 2 | .wakeMgmt f => sl .a 1 :: immOr f 2
  | .jrnl _ => [dl .d 1, sl .a 4] | .emit _ => [dl .d 1, sl .a 2] | .jrd _ => [⟨.d, .dst 5 4⟩, sl .a 1]
  | .jtrunc f => [dl .d 1, sl .a 1] ++ immOr f 1 | .jtruncClose _ => [dl .d 1, sl .a 1]
  | .publish f => dl .d 2 :: immOr f 1
  | .mma _ => [⟨.a, .desc 10⟩] | .mmag _ => [⟨.a, .desc 10⟩] | .cpy _ => [⟨.a, .desc 10⟩]
  | .accrd f => [dl .d 1, ⟨.a, .tile⟩] ++ immOr f 1 | .accrdQ f => [dl .d 2, ⟨.a, .tile⟩] ++ immOr f 1
  | .accwr f => [⟨.d, .tile⟩, sl .a 1] ++ immOr f 1
  | .nbkVload _ => [⟨.a, .desc 6⟩] | .nbkMv _ => [⟨.a, .desc 6⟩] | .nbkDrain _ => [⟨.a, .desc 6⟩]
  | .nbkClear _ => [⟨.a, .desc 6⟩]
  | .spawn _ => [dl .d 1, sl .a 2] | .node f => [dl .d 1, sl .a 2] ++ immOr f 1
  | .msg f => [dl .d 1, sl .a 1, ⟨.b, .src (f.lo + 1) 1⟩, sl .c 1]
  | .msgNw f => [dl .d 1, sl .a 1, ⟨.b, .src (f.lo + 1) 1⟩, sl .c 1]
  | .route _ => [dl .d 1, sl .a 1]
  | .rdsr _ => [dl .d 2] | .wrsr f => [sl .a (if f.mod.getLsbD 0 then 1 else 2)]
  | .timeTod _ => [dl .d 2] | .timeCyc _ => [dl .d 2]
  | _ => []


/-- Depth and slot of an operand field (R157). -/
def opDepth (o : BitVec 10) : Nat := o.toNat / 256
def opSlot (o : BitVec 10) : Nat := o.toNat % 256

/-- Whether a use breaks a limit that the word alone shows (R158, R159, R223, R271, R322). -/
def useFault (f : Fld) (u : Use) : Bool :=
  let o := f.opd u.fld
  let s := opSlot o
  match u.role with
  | .pred => decide (o.toNat ≥ 8)
  | .tile => decide (o.toNat ≥ 128)
  | .desc n => decide (opDepth o = 0) || decide (s % 2 ≠ 0) || decide (s + n > 256)
  | .dst n al => decide (s % al ≠ 0) || (decide (opDepth o = 0) && decide (s + n > 240)) || (decide (opDepth o = 1) && decide (s + n > 128))
  | .src n al =>
    decide (s % al ≠ 0)
      || (decide (opDepth o = 0) && decide (s + n > 240) && !(decide (s ≥ 240) && decide (s + n ≤ 248)))
      || (decide (opDepth o = 1) && decide (s + n > 128)) || decide (s + n > 256)

/-- The fields of a word that the immediate or offsets occupy are not operand fields (R209, R210). -/
def fieldExists (k : OpInfo) (x : FieldSel) : Bool :=
  match k.imm, x with
  | .control, _ => false
  | _, .b => !k.fld.i
  | _, .c => !k.fld.i
  | _, _ => true

/-- A field that the entry does not use is nonzero (R208). -/
def unusedFault (i : Instr) (k : OpInfo) : Bool :=
  [FieldSel.d, .a, .b, .c].any fun x =>
    fieldExists k x && !((uses i).any fun u => decide (u.fld = x)) && decide (k.fld.opd x ≠ 0)

/-- I, G, FS, MOD or guard that R208, R210, R295 forbid: trap 0x02. -/
def formFault (i : Instr) (k : OpInfo) : Bool :=
  (match k.imm with
    | .no => k.fld.i
    | .yes => false
    | _ => !k.fld.i)
    || (k.fld.g && !k.g) || (k.fld.fs && !k.long) || !(modLegal i)
    || (!k.guard && (decide (k.fld.pn ≠ 7) || k.fld.pneg))

/-- Operand faults that the word alone shows: trap 0x03. -/
def wordFault (i : Instr) (k : OpInfo) : Bool :=
  unusedFault i k || (uses i).any (useFault k.fld)
    || (match i with
      | .call f => decide (f.joinOff ≠ 0)
      | .rdsr f => decide (f.imm.toNat ≥ 4096)
      | .wrsr f => decide (f.imm.toNat ≥ 4096)
      | .svc f => decide (f.imm.toNat ≥ 0xFFFF)
      | _ => false)

/-! ## Clause headers (R202, R203) -/

def hdrLen (w : DWord) : Nat := (w.extractLsb' 0 4).toNat
def hdrWait (w : DWord) : BitVec 12 := w.extractLsb' 4 12
def hdrAV (w : DWord) : Bool := w.getLsbD 16
def hdrA (w : DWord) : Nat := (w.extractLsb' 17 4).toNat
def hdrBV (w : DWord) : Bool := w.getLsbD 21
def hdrB (w : DWord) : Nat := (w.extractLsb' 22 4).toNat
def hdrK (w : DWord) : Word := w.extractLsb' 32 32
def hdrMark (w : DWord) : Nat := (w.extractLsb' 28 4).toNat

/-- The trap a header raises when it is reached (R203): the mark first, then the fields. -/
def hdrFault (w : DWord) : Option (BitVec 8) :=
  if hdrMark w ≠ 10 then some 0x05
  else if hdrLen w = 0 ∨ w.getLsbD 27 = true ∨ (hdrAV w = true ∧ hdrA w > 11) ∨ (hdrBV w = true ∧ hdrB w > 11)
      ∨ (hdrAV w = false ∧ hdrA w ≠ 0) ∨ (hdrBV w = false ∧ hdrB w ≠ 0)
      ∨ (hdrAV w = true ∧ hdrBV w = true ∧ hdrA w = hdrB w) then some 0x04
  else none

end Machine
end Sys2Proof
end

