-- ==== Sys2Proof/WellFormed.lean ====
section
/-!
DEFINITION. Which instructions are well formed: an ISA instruction whose word passes every check of R208, R210 and R214
that the word alone decides (opcode and MOD, I, G, FS, guard, operand fields). A step of another agent carries no
word: it is always well formed.
-/

namespace Sys2Proof

/-- Why a term is not well formed. -/
inductive IllFormed where
  /-- trap 0x02: a reserved MOD value or bit, or I, G, FS or a guard the entry does not allow -/
  | modifier
  /-- trap 0x03: an operand field out of range, misaligned, or nonzero though unused -/
  | operand
deriving DecidableEq, Repr

/-- The first check an instruction fails, if any. -/
def Instr.check (i : Instr) : Option IllFormed :=
  match Machine.info i with
  | none => none
  | some k =>
    if Machine.formFault i k then some .modifier
    else if Machine.wordFault i k then some .operand
    else none

def Instr.wf (i : Instr) : Bool := decide (Instr.check i = none)

end Sys2Proof
end

