-- ==== Sys2Proof/Decode.lean ====
section
/-!
DEFINITION. The decoder of 64-bit instruction words (R207-R215), total on any word and rejecting by the name of the trap
the word raises, and the encoder written from the same tables. Clause headers are read by Machine/Encoding.lean.
-/

namespace Sys2Proof

/-- Why a word is no well-formed instruction (R214). -/
inductive Reject where
  /-- trap 0x01 -/
  | opcode (op : Nat)
  /-- trap 0x02 -/
  | modifier
  /-- trap 0x03 -/
  | operand
deriving DecidableEq, Repr

/-- The instruction that a word's opcode names, before its other fields are checked. -/
def ofWord (w : DWord) : Option Instr := Machine.ofOpcode (Machine.opOfWord w) (Fld.ofWord w)

/-- Decodes a word, checking opcode, then modifiers, then operands, in the order of R212. -/
def decodeWord (w : DWord) : Except Reject Instr :=
  match ofWord w with
  | none => .error (.opcode (Machine.opOfWord w))
  | some i =>
    match Instr.check i with
    | none => .ok i
    | some .modifier => .error .modifier
    | some .operand => .error .operand

/-- Decodes eight bytes, the lowest address first (R5). -/
def decodeBytes (bs : List Byte) : Except Reject Instr := decodeWord (BitVec.ofNat 64 (Machine.leNat bs))

/-- The word of an ISA instruction; none for a step that has no word. -/
def encode (i : Instr) : Option DWord := (Machine.info i).map fun k => Fld.toWord k.fld k.op

/-- The host's probe: the instruction our decoder reads from a word of at most 64 bits, laid out as eight bytes. -/
def decodeTableWord (nbits w : Nat) : Option Instr :=
  if nbits ≤ 64 then
    match decodeBytes (Machine.leBytes 8 w) with
    | .ok i => some i
    | .error _ => none
  else none

end Sys2Proof
end

