-- ==== Sys2Proof/Machine/Ops.lean ====
section
/-!
DEFINITION. The named operations over the state that the meanings share: lookups, numbering of cores (R48), locations of
addresses (R52, R155, R156), the paths of requests between dies (R40, R41), poison (R62), frames and handles (R157-R163), clocks (R275-R277) and what
happens before what (R355, R358), capacity accounting (R80-R88), events and the log (R110, R111), parking, killing a grid (R152), and taking a trap
(R173-R175) with the return from one (R305).
-/

namespace Sys2Proof.Machine

abbrev Out' := Host.Outcome State Fault Refusal

/-! ## Lookups and updates -/

def State.grp? (s : State) (gid : Nat) : Option Group := s.groups.find? fun g => decide (g.gid = gid)
def State.part? (s : State) (id : Nat) : Option Part := s.parts.find? fun p => decide (p.id = id)
def State.grid? (s : State) (id : Nat) : Option Grid := s.grids.find? fun g => decide (g.id = id)
def State.job? (s : State) (id : Nat) : Option Job := s.jobs.find? fun j => decide (j.jid = id)
def State.node? (s : State) (part id : Nat) : Option Node := s.nodes.find? fun n => decide (n.nid = id) && decide (n.part = part)
def State.page? (s : State) (part vpn : Nat) : Option Page :=
  s.pages.find? fun p => decide (p.part = part) && decide (p.vpn = vpn)
def State.block? (s : State) (grid bidx copy : Nat) : Option Block :=
  s.blocks.find? fun b => decide (b.grid = grid) && decide (b.bidx = bidx) && decide (b.copy = copy)
def State.core! (s : State) (c : Nat) : Core := s.cores.getD c Core.reset
def State.quad! (s : State) (q : Nat) : Quad := s.quads.getD q Quad.reset
def State.die! (s : State) (d : Nat) : Die := s.dev.dies.getD d ⟨VClock.zero, VClock.zero⟩

def State.updGrp (s : State) (gid : Nat) (f : Group → Group) : State :=
  { s with groups := updFirst (fun g => decide (g.gid = gid)) f s.groups }
def State.updPart (s : State) (id : Nat) (f : Part → Part) : State :=
  { s with parts := updFirst (fun p => decide (p.id = id)) f s.parts }
def State.updGrid (s : State) (id : Nat) (f : Grid → Grid) : State :=
  { s with grids := updFirst (fun g => decide (g.id = id)) f s.grids }
def State.updJob (s : State) (id : Nat) (f : Job → Job) : State :=
  { s with jobs := updFirst (fun j => decide (j.jid = id)) f s.jobs }
def State.updNode (s : State) (part id : Nat) (f : Node → Node) : State :=
  { s with nodes := updFirst (fun n => decide (n.nid = id) && decide (n.part = part)) f s.nodes }
def State.updPage (s : State) (part vpn : Nat) (f : Page → Page) : State :=
  { s with pages := updFirst (fun p => decide (p.part = part) && decide (p.vpn = vpn)) f s.pages }
def State.updBlock (s : State) (grid bidx copy : Nat) (f : Block → Block) : State :=
  { s with blocks := updFirst (fun b => decide (b.grid = grid) && decide (b.bidx = bidx) && decide (b.copy = copy)) f s.blocks }
def State.updCore (s : State) (c : Nat) (f : Core → Core) : State := { s with cores := s.cores.modify c f }
def State.updQuad (s : State) (q : Nat) (f : Quad → Quad) : State := { s with quads := s.quads.modify q f }
def State.updDev (s : State) (f : Dev → Dev) : State := { s with dev := f s.dev }
def State.updDie (s : State) (d : Nat) (f : Die → Die) : State := s.updDev fun v => { v with dies := v.dies.modify d f }

def Group.split? (g : Group) (sid : Nat) : Option Split := g.splits.find? fun p => decide (p.sid = sid)
def Group.updSplit (g : Group) (sid : Nat) (f : Split → Split) : Group :=
  { g with splits := updFirst (fun p => decide (p.sid = sid)) f g.splits }
def Group.dropSplit (g : Group) (sid : Nat) : Group := { g with splits := dropFirst (fun p => decide (p.sid = sid)) g.splits }

/-- A fresh internal number (DESIGN CHOICE, log 4). -/
def State.fresh (s : State) : Nat × State := (s.nextId, { s with nextId := s.nextId + 1 })
/-- A free number (DESIGN CHOICE, log 4): its value is not constrained. -/
def State.drawNat (s : State) : Nat × State := (Config.freeNat s.free, { s with free := s.free + 1 })

def State.output (s : State) (o : Out) : State := { s with out := s.out ++ [o] }

/-- Sends to a peer; to one without a connection, refused at its set-up or never set up, no traffic flows (R92) (DEDUCED, log 118). -/
def State.sendTo (s : State) (peer : Nat) (o : Out) : State :=
  { s with out := s.out ++ if s.dev.conns.contains peer then [o] else [] }

/-- A command's completion goes to its sender. -/
def State.answer (s : State) (h : CmdHdr) (status : Nat) (r : Results) : State := s.sendTo h.src (.completion h status r)

/-- A command completes (R93), and Fubebex is free for the next. -/
def State.complete (s : State) (h : CmdHdr) (status : Nat) (r : Results) : State :=
  ({ s with dev := { s.dev with busy := none } } : State).answer h status r

/-! ## Numbering of cores (R28-R30, R48) -/

/-- Quadrant 4×die+quadrant, die, cluster number and place within the quadrant, of physical core 0-383. -/
def quadOf (c : Nat) : Nat := c / 24
def dieOf (c : Nat) : Nat := c / 96
def clusterOf (c : Nat) : Nat := c / 4

def State.present (s : State) (c : Nat) : Bool := (s.dev.fuses.present.getD (c / 24) 0).getLsbD (c % 24)

/-- The present cores of a quadrant in (cluster, core) order. -/
def State.quadCores (s : State) (q : Nat) : List Nat := ((List.range 24).map fun k => 24 * q + k).filter s.present

/-- The partition's cores in logical order (R48). -/
def State.logical (s : State) (p : Part) : List Nat := p.quads.flatMap s.quadCores

/-- The logical number of a core. -/
def State.lcoreOf (s : State) (p : Part) (c : Nat) : Nat := (s.logical p).findIdx fun x => decide (x = c)

/-- The present cores of a cluster in ascending order. -/
def State.clusterCores (s : State) (cl : Nat) : List Nat := ((List.range 4).map fun k => 4 * cl + k).filter s.present

/-- The partition that owns a quadrant. -/
def State.ownerOf (s : State) (q : Nat) : Option Part := s.parts.find? fun p => p.quads.contains q

/-! ## Addresses (R52, R53, R155, R156) -/

def coreWin : Nat := 0xFFFFFF0000000000
def clusterWin : Nat := 0xFFFFFF0100000000
def scratchWin : Nat := 0xFFFFFF0200000000
def storeBytes : Nat := 1536 * 1024

/-- Where an address lands for an issuing core. -/
inductive Loc where
  | mem (va : Nat)
  | store (core off : Nat)
  | share (core off : Nat)
  | chip (quad off : Nat)
  | bad
deriving DecidableEq, Repr

/-- Cluster share offset `o` of a cluster (R155). -/
def State.shareLoc (s : State) (cl o : Nat) : Loc :=
  let cs := s.clusterCores cl
  let n := cs.length
  match cs with
  | [] => .bad
  | c0 :: _ =>
    if o < n * (s.core! c0).share * 1024 then
      .share (cs.getD (o / 128 % n) c0) (o / (128 * n) * 128 + o % 128)
    else .bad

/-- The class and place of a byte address presented by a group on core `c` of partition `p`. A core's part of the
cluster share lies at the top of its unified store (DESIGN CHOICE, log 21). -/
def State.locate (s : State) (p : Part) (c va : Nat) : Loc :=
  if va < 2 ^ 48 then .mem va
  else if coreWin ≤ va ∧ va < coreWin + storeBytes then
    let o := va - coreWin
    let sh := (s.core! c).share * 1024
    if storeBytes - sh ≤ o then .share c (o - (storeBytes - sh)) else .store c o
  else if clusterWin ≤ va ∧ va < scratchWin then s.shareLoc (clusterOf c) (va - clusterWin)
  else if scratchWin ≤ va ∧ va < scratchWin + 16 * 1024 * 1024 * p.quads.length then
    .chip (p.quads.getD ((va - scratchWin) / 2 ^ 24) 0) ((va - scratchWin) % 2 ^ 24)
  else .bad

/-- The one address by which the order of accesses names a place: a byte of the cluster share that the core window shows has its
cluster-window address (R155, R156). -/
def State.canon (s : State) (p : Part) (core va : Nat) : Nat :=
  match s.locate p core va with
  | .share c o =>
    let cs := s.clusterCores (clusterOf c)
    clusterWin + o / 128 * (128 * cs.length) + (cs.findIdx fun x => decide (x = c)) * 128 + o % 128
  | _ => va

/-- Whether a group of grid `gr` on its core may access this place (R156). -/
def State.mayAccess (s : State) (gr : Nat) : Loc → Bool
  | .store c o =>
    (s.core! c).regions.any fun r => decide (r.grid = gr) && decide (r.base ≤ o) && decide (o < r.base + r.size)
  | .bad => false
  | _ => true

/-- The home quadrant of partition memory (R53). -/
def homeQuad (p : Part) (va : Nat) : Nat :=
  let x := va / 65536 % 2 ^ 32
  let y := x ^^^ (x / 2 ^ 11) ^^^ (x / 2 ^ 22)
  p.quads.getD (y % p.quads.length) 0

def homeDie (p : Part) (va : Nat) : Nat := homeQuad p va / 4

/-- The die at which an access to a place is performed. -/
def Loc.die (p : Part) : Loc → Nat
  | .mem va => homeDie p va
  | .store c _ => dieOf c
  | .share c _ => dieOf c
  | .chip q _ => q / 4
  | .bad => 0

/-- The view that holds a place as die `d` sees it (R276), and the address within that view. -/
def State.viewAt (s : State) (p : Part) (d : Nat) : Loc → View × Nat
  | .mem va => (p.views.getD (if homeDie p va = d then homeDie p va else d) View.empty, va)
  | .store c o => ((s.core! c).store, o)
  | .share c o => ((s.core! c).shareMem, o)
  | .chip q o => ((s.quad! q).scratch, o)
  | .bad => (View.empty, 0)

def State.byteAt (s : State) (p : Part) (d : Nat) (l : Loc) : Byte :=
  let v := s.viewAt p d l
  v.1.read v.2
def State.markAt (s : State) (p : Part) (d : Nat) (l : Loc) : Mark :=
  let v := s.viewAt p d l
  v.1.markOf v.2

/-- Updates the home view of a place. -/
def State.updView (s : State) (p : Part) (l : Loc) (f : View → Nat → View) : State :=
  match l with
  | .mem va => s.updPart p.id fun q => { q with views := q.views.modify (homeDie q va) fun v => f v va }
  | .store c o => s.updCore c fun k => { k with store := f k.store o }
  | .share c o => s.updCore c fun k => { k with shareMem := f k.shareMem o }
  | .chip q o => s.updQuad q fun k => { k with scratch := f k.scratch o }
  | .bad => s

/-! ## Die links (R40, R41, R48) -/

/-- Health of the link from die a to die b: 0 down, 1 up, 2 degraded. -/
def State.linkHealth (s : State) (a b : Nat) : Nat := s.dev.links.getD (4 * a + b) 0

/-- The other dies of a pair, lower number first. -/
def otherDies (a b : Nat) : Nat × Nat :=
  let o := [0, 1, 2, 3].filter fun c => decide (c ≠ a) && decide (c ≠ b)
  (o.getD 0 0, o.getD 1 0)

/-- The path that a value of DETOUR gives a hardware-composed request is not down (R40, R41). -/
def State.pathUp (s : State) (detour : BitVec 32) (a b : Nat) : Bool :=
  let via : Nat → Bool := fun c => decide (s.linkHealth a c ≠ 0) && decide (s.linkHealth c b ≠ 0)
  let path := detour.toNat / 2 ^ (2 * (4 * a + b)) % 4
  decide (a = b) || decide (4 ≤ a) || decide (4 ≤ b) || match path with
    | 1 => via (otherDies a b).1
    | 2 => via (otherDies a b).2
    | _ => decide (s.linkHealth a b ≠ 0)

/-- The paths that a value of DETOUR gives a request and its reply, both composed by the requester, are not down (R40). -/
def State.pathOpen (s : State) (detour : BitVec 32) (a b : Nat) : Bool := s.pathUp detour a b && s.pathUp detour b a

/-- A write is the even epoch of the partition's map, with which an update of the map ends (R49). -/
def Part.endsUpdate (p : Part) (w : Write) : Bool :=
  decide (w.gid = 0) && decide (w.part = p.id) && w.bytes.any fun c => decide (c.1 = p.topoVa + 28) && decide (c.2.toNat % 2 = 0)

/-- An update of the map is on its way, after which Fubebex rewrites DETOUR (R49). -/
def State.rewriteDue (s : State) (p : Part) : Bool := s.writes.any p.endsUpdate

/-- A request from die a reaches die b, and its reply comes back. It keeps the routes it was composed with (R40); when a link of those
fails it is composed once more, after DETOUR has been rewritten (R41). -/
def State.reach (s : State) (p : Part) (detour : BitVec 32) (redo : Option (BitVec 32)) (a b : Nat) : Bool :=
  s.pathOpen detour a b || match redo with
    | some d => s.pathOpen d a b
    | none => !(s.rewriteDue p) && s.pathOpen p.regs.detour a b

/-- A request that a failed link has caught waits for the rewrite of DETOUR, to be composed again (R41). -/
def State.caught (s : State) (p : Part) (detour : BitVec 32) (redo : Option (BitVec 32)) (a b : Nat) : Bool :=
  redo.isNone && s.rewriteDue p && !(s.pathOpen detour a b)

/-- A request whose path, and the one it was composed with again, is down: an uncorrectable access (R41). -/
def State.lost (s : State) (p : Part) (detour : BitVec 32) (redo : Option (BitVec 32)) (a b : Nat) : Bool :=
  !(s.reach p detour redo a b) && !(s.caught p detour redo a b)

/-- DETOUR as a lane's request, or with no lane the operation's one, was composed with it (R40). -/
def Op.detourOf (o : Op) (lane : Nat) : BitVec 32 := (assoc lane o.resent).getD o.detour

/-- The key by which an operation's single request stands among its lanes'. -/
def soleLane : Nat := 32

/-- The lanes' requests are composed anew, with the DETOUR of now (R40, R56). -/
def Op.resend (o : Op) (lanes : List Nat) (detour : BitVec 32) : Op :=
  { o with redo := o.redo.filter fun e => !(lanes.contains e.1), resent := lanes.map (fun l => (l, detour)) ++ o.resent.filter fun e => !(lanes.contains e.1) }

/-- A request that a failed link catches is composed again, once (R41). -/
def State.redoRoute (s : State) (p : Part) (detour : BitVec 32) (redo : Option (BitVec 32)) (a b : Nat) : Option (BitVec 32) :=
  if redo.isNone && !(s.pathOpen detour a b) then some p.regs.detour else redo

/-- Link paths of DETOUR for an ordered die pair (R40). -/
def State.detourPath (s : State) (a b : Nat) : Nat :=
  let h := s.linkHealth
  let lo := (otherDies a b).1
  let hi := (otherDies a b).2
  let up : Nat → Bool := fun c => decide (h a c = 1) && decide (h c b = 1)
  let ok : Nat → Bool := fun c => decide (h a c ≠ 0) && decide (h c b ≠ 0)
  if h a b ≠ 0 then 0
  else if up lo then 1 else if up hi then 2 else if ok lo then 1 else if ok hi then 2 else 0

def State.detour (s : State) : BitVec 32 :=
  BitVec.ofNat 32 (((List.range 16).filter fun k => decide (k / 4 ≠ k % 4)).foldl (fun m k => m + s.detourPath (k / 4) (k % 4) * 4 ^ k) 0)

/-- The poisoned sectors as die `d` holds them: at the home, or in its replica of the line of `va` (R62). -/
def Part.poisonAt (p : Part) (d va : Nat) : List Nat :=
  if homeDie p va = d then p.poison else (p.repPoison.filter fun e => decide (e.1 = d)).map (·.2)

/-- One of the poisoned sectors `ks` lies in [va, va + n). -/
def touchesPoison (ks : List Nat) (va n : Nat) : Bool := ks.any fun k => decide (k * 32 < va + n) && decide (va < k * 32 + 32)

/-- An access of `n` bytes of partition memory touches a sector that is poisoned at its home. -/
def Part.poisoned (p : Part) (va n : Nat) : Bool := touchesPoison p.poison va n

/-! ## Frames and handles (R157-R163) -/

def hOff (h : Word) : Nat := h.toNat / 1024
def hGen (h : Word) : BitVec 8 := h.extractLsb' 2 8
def hDepth (h : Word) : Nat := h.toNat % 4
def mkHandle (off : Nat) (gen : BitVec 8) (depth : Nat) : Word := BitVec.ofNat 32 (off * 1024 + gen.toNat * 4 + depth)

/-- The fields of a frame's header word (R162). -/
def hdrGen (w : Word) : BitVec 8 := w.extractLsb' 24 8
def hdrSize (w : Word) : Nat := (w.extractLsb' 15 9).toNat
def hdrRefs (w : Word) : Nat := (w.extractLsb' 0 15).toNat
def mkHdr (gen : BitVec 8) (size refs : Nat) : Word := BitVec.ofNat 32 (gen.toNat * 2 ^ 24 + size * 2 ^ 15 + refs)

/-- The place of byte `o` of the frame space a handle's depth names: the core's store, or the cluster window. -/
def State.frameLoc (s : State) (core depth o : Nat) : Loc :=
  if depth = 2 then .store core o else s.shareLoc (clusterOf core) o

def State.locWord (s : State) (l : Nat → Loc) (a : Nat) : Word :=
  BitVec.ofNat 32 (leNat ((List.range 4).map fun i => s.byteAt default 0 (l (a + i))))

/-- The header word of the frame at word offset `off`. -/
def State.header (s : State) (core depth off : Nat) : Word := s.locWord (s.frameLoc core depth) (4 * off)

def framePlace (core depth : Nat) : Nat := if depth = 2 then core else clusterOf core

/-- A byte of the header word of a live frame, which is read-only to programs (R162). -/
def State.headerByte (s : State) (l : Loc) : Bool :=
  s.frames.any fun r =>
    let core := if r.depth = 2 then r.place else (s.clusterCores r.place).headD 0
    (List.range 4).any fun i => decide (s.frameLoc core r.depth (4 * r.off + i) = l)

/-- A handle's frame is live, of the grid, and of the handle's generation (R163, R307). -/
def State.live (s : State) (core grid : Nat) (h : Word) : Bool :=
  let d := hDepth h
  decide (2 ≤ d)
    && (s.frames.any fun r => decide (r.depth = d) && decide (r.place = framePlace core d) && decide (r.off = hOff h) && decide (r.grid = grid) && !r.shut)
    && decide (hdrGen (s.header core d (hOff h)) = hGen h)

/-- Writes a header word, which no access of a program reaches (R162). -/
def State.setHeader (s : State) (core depth off : Nat) (w : Word) : State :=
  (cellsAt (4 * off) (leBytes 4 w.toNat)).foldl
    (fun s c => s.updView default (s.frameLoc core depth c.1) fun v o => v.poke o [c.2]) s

/-- The generation that a frame made at an offset takes (R162). -/
def State.genAt (s : State) (core depth off : Nat) : BitVec 8 :=
  match s.frameLoc core depth (4 * off) with
  | .store c o => (assoc (o / 4) (s.core! c).gens).getD 0
  | .share c o => (assoc (o / 4) (s.core! c).gensShare).getD 0
  | _ => 0

/-- Bytes of room that a frame of `n` words takes (R143, R306) (DEDUCED, log 34). -/
def frameRoom (depth n : Nat) (opened : Bool) : Nat := if depth = 3 ∧ opened then 4 * n + 4 else roundUp (4 * n + 4) 1024

/-- Makes a frame of `n` words at a byte offset with one reference (R145, R162, R306); every word reads zero. -/
def State.makeFrame (s : State) (core depth base n grid bidx : Nat) (opened : Bool) : Word × State :=
  let off := base / 4
  let gen := s.genAt core depth off
  let room := frameRoom depth n opened
  let s : State := if depth = 2 then
      s.updCore core fun k => { k with
        store := k.store.clear base room
        regions := k.regions ++ [{ base := base, len := room, size := 4 * n + 4, kind := .blockFrame, grid := grid, bidx := bidx }] }
    else (List.range room).foldl (fun (s : State) i => s.updView default (s.frameLoc core 3 (base + i)) fun v o => v.clear o 1) s
  let s : State := { s with frames := s.frames ++ [{ depth := depth, place := framePlace core depth, off := off, grid := grid, opened := opened, bidx := bidx, shut := false : FrameRec }] }
  (mkHandle off gen depth, s.setHeader core depth off (mkHdr gen n 1))

/-- Gives a retired frame's room back; its offset's generation rises (R162). -/
def State.freeFrame (s : State) (core depth off : Nat) : State :=
  let s := { s with frames := s.frames.filter fun r =>
    !(decide (r.depth = depth) && decide (r.place = framePlace core depth) && decide (r.off = off)) }
  match s.frameLoc core depth (4 * off) with
  | .store c o => s.updCore c fun k => { k with
      gens := setAssoc (o / 4) ((assoc (o / 4) k.gens).getD 0 + 1) k.gens
      regions := k.regions.filter fun r => !(decide (r.base = 4 * off) && decide (r.kind = .blockFrame)) }
  | .share c o => s.updCore c fun k => { k with
      gensShare := setAssoc (o / 4) ((assoc (o / 4) k.gensShare).getD 0 + 1) k.gensShare }
  | _ => s

/-- A paired block runs, whose interval may have to run again (R182). -/
def State.pairedAt (s : State) (grid bidx : Nat) : Bool :=
  s.blocks.any fun b => decide (b.grid = grid) && decide (b.bidx = bidx) && b.pair.isSome

/-- Retires a frame (R162): at once, but what a paired block opened keeps its room until the interval ends (R182) (DEDUCED, log 22). -/
def State.retireFrame (s : State) (core depth off : Nat) : State :=
  let this : FrameRec → Bool := fun r => decide (r.depth = depth) && decide (r.place = framePlace core depth) && decide (r.off = off)
  if (s.frames.find? this).any fun r => s.pairedAt r.grid r.bidx then
    let s := { s with frames := updFirst this (fun r => { r with shut := true }) s.frames }
    if depth = 2 then s.updCore core fun k => { k with
      regions := k.regions.map fun r => if r.base = 4 * off ∧ r.kind = .blockFrame then { r with size := 0 } else r } else s
  else s.freeFrame core depth off

/-- The frames that a block has retired within an interval give their room back (R182). -/
def State.freeShut (s : State) (grid bidx : Nat) : State :=
  (s.frames.filter fun r => r.shut && decide (r.grid = grid) && decide (r.bidx = bidx)).foldl (fun s r =>
    s.freeFrame (if r.depth = 2 then r.place else (s.clusterCores r.place).headD 0) r.depth r.off) s

/-- Adds a reference to the frame of a live handle. -/
def State.addRef (s : State) (core : Nat) (h : Word) : State :=
  let w := s.header core (hDepth h) (hOff h)
  s.setHeader core (hDepth h) (hOff h) (mkHdr (hdrGen w) (hdrSize w) (hdrRefs w + 1))

/-- Drops a reference; the last one retires the frame. -/
def State.dropRef (s : State) (core grid : Nat) (h : Word) : State :=
  if s.live core grid h then
    let w := s.header core (hDepth h) (hOff h)
    if hdrRefs w ≤ 1 then s.retireFrame core (hDepth h) (hOff h)
    else s.setHeader core (hDepth h) (hOff h) (mkHdr (hdrGen w) (hdrSize w) (hdrRefs w - 1))
  else s

/-! ## Clocks (R275-R277) -/

def VClock.covers (a c : VClock) : Bool := c.le a

/-- Joins a stamp into a group's clock, and into the releases that wait behind the access it belongs to (R277). -/
def State.joinGc (s : State) (gid seq : Nat) (c : VClock) : State :=
  let s := s.updGrp gid fun g => { g with mm := { g.mm with gc := g.mm.gc.join c } }
  { s with writes := s.writes.map fun w => if w.gid = gid ∧ w.rel = true ∧ seq < w.seq then { w with gc := w.gc.join c } else w }

/-! ## What a group's loads have told it (R151, R351, R352) -/

/-- What a group knows of its own accesses. -/
def State.updMm (s : State) (gid : Nat) (f : GMem → GMem) : State := s.updGrp gid fun g => { g with mm := f g.mm }

/-- Any memory instruction other than a repeated acquire ends a demotion run (R151) (DEDUCED, log 44). -/
def State.endRun (s : State) (gid : Nat) : State := s.updMm gid fun m => { m with runLen := 0, runVal := [], demoted := false }

/-- One that is no load ends what the group's loads have told it, too. -/
def State.noteMem (s : State) (gid : Nat) : State :=
  s.updMm gid fun m => { m with runLen := 0, runVal := [], demoted := false, known := [], again := 0 }

/-- A load returned bytes: what the group knew of them already, or news. -/
def State.noteRead (s : State) (gid addr : Nat) (v : List Byte) : State :=
  s.updMm gid fun m => if assoc addr m.known = some v then { m with again := m.again + 1 } else { m with known := setAssoc addr v m.known, again := 0 }

/-- An acquire load of one address that returned a value (R151, R352). -/
def State.noteAcq (s : State) (gid addr : Nat) (v : List Byte) : State :=
  match s.grp? gid with
  | none => s
  | some g =>
    let same := decide (g.mm.runLen ≠ 0) && decide (g.mm.runAddr = addr) && decide (g.mm.runVal = v)
    let n := if same then g.mm.runLen + 1 else 1
    let hit := decide (n = 4096)
    let s := s.updMm gid fun m => { m with runAddr := addr, runVal := v, runLen := n, demoted := (same && g.mm.demoted) || hit }
    if hit then s.updPart g.part fun p => { p with cnt := { p.cnt with demotions := p.cnt.demotions + 1 } } else s

/-- Records for a byte the place of the youngest write that the group has read or made, in its home's order. -/
def raiseFloor (f : List (Nat × Nat)) (a n : Nat) : List (Nat × Nat) := setAssoc a (max n ((assoc a f).getD 0)) f

/-! ## What happens before what at one core (R355, R358 rows 4 and 6)

An acquire at `.blk` leaves L1 as it is (R277). What its group then reads from L1 is no older than the writes that happen before the read; copies
older than other writes stay readable (R278, R356, R359) (DEDUCED, log 107). A wider acquire has L1 cleared once AV covers GC. -/

/-- What happened before each of some releases is ordered before the accesses of group `gid` from number `no` on. -/
def State.learn (s : State) (gid no : Nat) (rels : List Release) : State :=
  let known := s.ordered.filter fun o => rels.any fun r => decide (o.part = r.part) && decide (o.gid = r.gid) && decide (o.no ≤ r.no)
  let new : List Ordered := known.map fun o => { o with gid := gid, no := no }
  { s with ordered := s.ordered ++ new.filter fun o => !(s.ordered.contains o) }

/-- The releases of other groups at a core whose value, or a later one, has been read: `seen` gives each byte's place. -/
def State.relsAt (s : State) (part gid core : Nat) (seen : List (Nat × Nat)) : List Release :=
  s.rels.filter fun r => decide (r.part = part) && decide (r.gid ≠ gid) && decide (r.core = core)
    && r.places.any fun e => seen.any fun v => decide (v.1 = e.1) && decide (e.2 ≤ v.2)

/-- A relaxed read's find joins what a fence of its scope will take up. -/
def GMem.addHeard (m : GMem) (h : Heard) : GMem :=
  if h.rels.isEmpty ∧ h.clk.le m.gc = true then m
  else if m.heard.any fun k => decide (k.scope = h.scope) then
    { m with heard := m.heard.map fun k => if k.scope = h.scope then
        { k with clk := k.clk.join h.clk, rels := k.rels ++ h.rels.filter fun r => !(k.rels.contains r) } else k }
  else { m with heard := m.heard ++ [h] }

/-- Access number `seq` of a group has read bytes: as an acquire at `.blk` or wider it takes up the releases found, else it leaves them to a
fence. -/
def State.hear (s : State) (gid seq : Nat) (acq : Bool) (seen : List (Nat × Nat)) : State :=
  match s.grp? gid with
  | none => s
  | some g =>
    let rs := s.relsAt g.part gid g.core seen
    if acq then s.learn gid (seq + 1) rs else s.updMm gid fun m => m.addHeard ⟨1, VClock.zero, rs⟩

/-- A fence with an acquire part takes up what the group's relaxed reads have found for its scope. -/
def State.takeHeard (s : State) (gid scope : Nat) : State :=
  match s.grp? gid with
  | none => s
  | some g =>
    let hs := g.mm.heard.filter fun h => decide (h.scope ≤ scope)
    (hs.foldl (fun s h => s.learn gid g.seq h.rels) s).updMm gid fun m =>
      { m with gc := hs.foldl (fun c h => c.join h.clk) m.gc, heard := m.heard.filter fun h => decide (scope < h.scope) }

/-- No write to the bytes [a, a + n) that happens before access number `seq` of a group is newer than what a view shows. -/
def State.freshView (s : State) (p : Part) (gid seq : Nat) (v : View) (a n : Nat) : Bool :=
  s.ordered.all fun o => decide (o.part ≠ p.id) || decide (o.gid ≠ gid) || decide (seq < o.no) || decide (o.addr < a) || decide (a + n ≤ o.addr)
    || decide (o.place ≤ (v.markOf o.addr).place (homeDie p o.addr))

/-- Drops every line of a core's L1. -/
def State.clearL1 (s : State) (c : Nat) : State := s.updCore c fun k => { k with l1 := [] }
def State.dropL1Line (s : State) (c line : Nat) : State :=
  s.updCore c fun k => { k with l1 := k.l1.filter fun l => decide (l.line ≠ line) }

/-! ## Events and the log (R110, R111) -/

/-- Events kept per destination are merged beyond 256: PRESSURE keeps the latest, ERROR and TT_OVERRUN are dropped. A PRESSURE that finds 256 others and
no PRESSURE among them is kept besides (DESIGN CHOICE, log 120). -/
def keepEvent (q : List EventBody) (b : EventBody) : List EventBody :=
  if q.length < 256 then q ++ [b]
  else match b with
    | .pressure .. => (q.filter fun e => match e with | .pressure .. => false | _ => true) ++ [b]
    | .error .. => q
    | .ttOverrun .. => q
    | _ => q ++ [b]

/-- The event slots of a partition have room for `n` more: an event that is never dropped waits for that, and so does what raises it (R111). -/
def State.evRoom (s : State) (part n : Nat) : Bool := decide ((((s.part? part).map Part.evq).getD []).length + n ≤ 256)

def State.raise (s : State) (part : Nat) (b : EventBody) : State := s.updPart part fun p => { p with evq := keepEvent p.evq b }
def State.raiseSup (s : State) (b : EventBody) : State := s.updDev fun d => { d with evq := keepEvent d.evq b }

def satInc (c : BitVec 32) : BitVec 32 := if c = BitVec.allOnes 32 then c else c + 1

/-- Logs an event (R110): its counter rises, and a record is written unless the log is full. The ERROR event goes to the
record's partition, or to the supervisor and to the partitions in `also`. -/
def State.logError (s : State) (kind die quad addr part unit : Nat) (also : List Nat) : State :=
  let counts := s.dev.counts.modify (kind - 1) satInc
  if s.dev.log.length < 1024 then
    let sq := s.dev.logSeq
    let r : LogRec := { seq := sq, kind := kind, die := die, quad := quad, time := s.dev.tod, addr := addr, part := part, unit := unit, counts := counts }
    let s := s.updDev fun d => { d with
      counts := counts, log := d.log ++ [r], logSeq := if sq = BitVec.allOnes 32 then 1 else sq + 1 }
    let ev := EventBody.error sq.toNat kind
    if part = 0xFFFF then also.foldl (fun s p => s.raise p ev) (s.raiseSup ev) else s.raise part ev
  else s.updDev fun d => { d with counts := counts, logOverflow := satInc d.logOverflow }

/-! ## Capacity accounting (R80-R88) -/

/-- A, the reserve. -/
def Part.avail (p : Part) : Int := p.free - (p.pledged : Int)

/-- Groups and copy nodes parked for capacity (PRESSURE.PARKED, R81). -/
def State.parkedCap (s : State) (part : Nat) : Nat :=
  (s.groups.filter fun g => decide (g.part = part) && g.cap.isSome).length
    + (s.nodes.filter fun n => decide (n.part = part) && n.cap.isSome).length

/-- PRESSURE.LEVEL. -/
def Part.level (p : Part) : Nat := if p.press.hard then 2 else if p.press.soft then 1 else 0

/-- A grid with a group that has started and not exited, not killed, not ended (R88). -/
def State.running (s : State) (g : Grid) : Bool :=
  g.kill.isNone && !g.ended && s.groups.any fun x => decide (x.grid = g.id)

/-- The balloon agent: the oldest running grid whose card sets FLAGS bit 1, or the host driver (R88). -/
def State.agent (s : State) (part : Nat) : Option Grid :=
  (sortBy Grid.order s.grids).find? fun g => decide (g.part = part) && decide (g.card.flags / 2 % 2 = 1) && s.running g

/-- The group of the agent grid that events wake: block 0 group 0, or the lowest that has not exited (R88). A handler group is in no
block and comes after those that are (DEDUCED, log 83). -/
def State.agentGroup (s : State) (grid : Nat) : Option Group :=
  let mine := s.groups.filter fun g => decide (g.grid = grid)
  (sortBy (fun g : Group => g.bidx * 64 + g.gidx) (mine.filter fun g => decide (g.kind = .normal))).head?.or mine.head?

/-- A group is another, or its other copy in a paired block (R182). -/
def Group.copyOf (x t : Group) : Bool :=
  decide (x.gid = t.gid) || (decide (t.kind = .normal) && decide (x.kind = .normal) && decide (x.grid = t.grid)
    && decide (x.bidx = t.bidx) && decide (x.gidx = t.gidx))

/-- A value is ORed into a group's wake register (R180, R315), in both copies of a paired block (DEDUCED, log 22). -/
def State.wakeGroup (s : State) (t : Group) (v : DWord) (c : VClock) : State :=
  { s with groups := s.groups.map fun x => if x.copyOf t then { x with wake := x.wake ||| v, wakeGc := x.wakeGc.join c } else x }

/-- Tells the agent of the pressure outstanding (R88). -/
def State.tellAgent (s : State) (part : Nat) : State :=
  match s.part? part with
  | none => s
  | some p =>
    let lvl := p.level
    let n := s.parkedCap part
    match s.agent part with
    | some g =>
      match s.agentGroup g.id with
      | some x => s.wakeGroup x (BitVec.ofNat 64 (2 ^ 63 + n * 65536 + lvl)) VClock.zero
      | none => s
    | none => s.raise part (.pressure lvl p.free p.pledged n)

/-- An event of hard pressure, from which BALLOON_TIMEOUT runs (R89). -/
def State.hardEvent (s : State) (part : Nat) : State :=
  (s.updPart part fun p => { p with press := { p.press with hard := true, since := s.dev.up } }).tellAgent part

/-- Pressure follows A (R87): soft pressure is raised once for each fall below the floor; each level clears (DEDUCED, log 83). -/
def State.settlePressure (s : State) (part : Nat) : State :=
  match s.part? part with
  | none => s
  | some p =>
    let a := p.avail
    let s := if p.press.hard ∧ 0 ≤ a ∧ s.parkedCap part = 0 then
        s.updPart part fun p => { p with press := { p.press with hard := false } } else s
    if (p.regs.floor : Int) ≤ a then s.updPart part fun p => { p with press := { p.press with soft := false, armed := true } }
    else if p.press.armed then
      (s.updPart part fun p => { p with press := { p.press with soft := true, armed := false } }).tellAgent part
    else s

/-- F and P change by one event (R80). -/
def State.addFP (s : State) (part : Nat) (d : Int) (down : Nat) : State :=
  (s.updPart part fun p => { p with free := p.free + d, pledged := p.pledged - down }).settlePressure part
def State.addF (s : State) (part : Nat) (d : Int) : State :=
  (s.updPart part fun p => { p with free := p.free + d }).settlePressure part
def State.addP (s : State) (part : Nat) (up down : Nat) : State :=
  (s.updPart part fun p => { p with pledged := p.pledged + up - down }).settlePressure part

/-- A part of an access whose pledge has reached a mem-block among `mbs` is still on its way there, or a job that has written some of it
runs: the mem-block is neither written back nor zeroed, nor its page unmapped, before (DEDUCED, log 88). -/
def State.arrivingIn (s : State) (part : Nat) (mbs : Nat → Bool) : Bool :=
  (s.writes.any fun w => decide (w.part = part) && decide (w.kind ≠ .blkz) && decide (w.gid ≠ 0) && decide (w.pledge = 0)
    && decide (w.addr < 2 ^ 48) && mbs (w.addr / 512) && !(s.writes.any fun v => decide (v.gid = w.gid) && decide (v.seq = w.seq)
      && decide (v.addr / 512 = w.addr / 512) && decide (v.pledge ≠ 0)))
  || s.jobs.any fun j => decide (j.part = part) && (j.sent.any fun k => mbs (k / 16))
      && j.spans.any fun r => decide (2 ≤ r.acc) && decide (r.base < 2 ^ 48)

def State.arriving (s : State) (part mb : Nat) : Bool := s.arrivingIn part fun k => decide (k = mb)

/-- Credit that the waiting instructions of a core need (R85). -/
def Core.needed (c : Core) : Nat := (c.waiters.map Waiter.need).sum

/-- A core returns credit to the partition (R85). -/
def State.returnCredit (s : State) (core part n : Nat) : State :=
  (s.updCore core fun k => { k with credit := k.credit - n }).addP part 0 n

/-- Hard pressure is raised: the agent is told, and every core returns the credit its waiters do not need (R85, R87, R88). It clears at
once when A is not negative and nothing is parked. -/
def State.hardPressure (s : State) (part : Nat) : State :=
  let s := s.hardEvent part
  match s.part? part with
  | none => s
  | some p =>
    let s := (s.logical p).foldl (fun s c =>
      let k := s.core! c
      if k.needed < k.credit then s.returnCredit c part (k.credit - k.needed) else s) s
    s.settlePressure part

/-- A pledge given back to its core by a refund in flight (R83). -/
def State.refundTo (s : State) (core part cells : Nat) : State :=
  if cells = 0 then s else { s with refunds := s.refunds ++ [{ core := core, part := part, cells := cells }] }

/-! ## Ends of splits (R168, R169, R303, R351) -/

def qsatBit : Word := 0x8000

/-- PC addressing: the word after the last of a clause, its fall-through header (R202). -/
def Clause.next (c : Clause) : Nat := c.addr + 8 * (hdrLen c.word + 1)

/-- QSAT of the members of a merge entry that stand at its join, as it is now (R169, R196). -/
def Group.memberQsat (g : Group) (m : Merge) : Word :=
  (g.splits.filter fun p => m.members.contains p.sid).foldl (fun q p => q ||| (p.fmt &&& qsatBit)) 0

/-- Every member of a merge entry has arrived: the entry pops as Arrive does, QSAT ORed over the splits, and the split
that pushed it goes on (R169). -/
def Group.mergeDone (g : Group) (m : Merge) : Group :=
  { g with
    merges := g.merges.filter fun x => decide (x.mid ≠ m.mid)
    splits := (g.splits.filter fun p => !(m.members.contains p.sid)) ++
      [{ sid := m.members.headD 0, mask := m.mask &&& ~~~ g.dead, pc := m.join, clause := none, fmt := m.fmt ||| g.memberQsat m, stack := m.stack
         merge := m.parent, wait := .none }] }

/-- A split arrives at the join of its merge entry and stops there; one whose lanes have all died or left is removed and counts as
arrived. -/
def Group.mergeArrive (g : Group) (mid sid : Nat) : Group :=
  match g.merges.find? fun m => decide (m.mid = mid) with
  | none => g.dropSplit sid
  | some m =>
    let q := match g.split? sid with | some p => p.fmt &&& qsatBit | none => 0
    let m := { m with arrived := sid :: m.arrived, fmt := m.fmt ||| q }
    if m.members.all fun x => m.arrived.contains x then g.mergeDone m
    else
      let g : Group := { g with merges := updFirst (fun x => decide (x.mid = mid)) (fun _ => m) g.merges }
      if (g.split? sid).any fun p => decide (p.mask &&& ~~~ g.dead = 0) then g.dropSplit sid
      else g.updSplit sid fun p => { p with wait := .merged, clause := none, mask := p.mask &&& ~~~ g.dead }

/-- One Arrive of a split: its own top entry pops, or its merge entry counts it; a split with neither is removed (DEDUCED, log 27). -/
def Group.arriveOnce (g : Group) (p : Split) : Group :=
  match p.stack with
  | e :: rest =>
    g.updSplit p.sid fun p => { p with
      pc := e.pc, mask := e.mask &&& ~~~ g.dead, fmt := e.fmt ||| (p.fmt &&& qsatBit), stack := rest, clause := none, wait := .none }
  | [] =>
    match p.merge with
    | some mid => g.mergeArrive mid p.sid
    | none => g.dropSplit p.sid

/-- A split that waits at its join is removed; the QSAT that it has by then stays with its merge entry (R169, R196). -/
def Group.dropMerged (g : Group) (p : Split) : Group :=
  ({ g with merges := g.merges.map fun (m : Merge) => if p.merge = some m.mid then { m with fmt := m.fmt ||| (p.fmt &&& qsatBit) } else m } : Group).dropSplit p.sid

/-- Splits left with no live lane run their next path, count as arrived, or are removed (R168, R169, R303). -/
def Group.settleSplits : Nat → Group → Group
  | 0, g => g
  | n + 1, g =>
    match g.splits.find? fun p => decide (p.mask &&& ~~~ g.dead = 0) with
    | none => g
    | some p => (if p.wait = .merged then g.dropMerged p else g.arriveOnce p).settleSplits n

def Group.settle (g : Group) : Group := g.settleSplits 400

/-- A split at a clause header that is its JOIN arrives, again and again while the join stays the top's; so does the split that a merge
entry makes when it pops (R168, R351). -/
def Group.arriveAll : Nat → Nat → Group → Group
  | 0, _, g => g
  | n + 1, sid, g =>
    match g.split? sid with
    | none => g
    | some p =>
      let here : Bool := match p.stack with
        | e :: _ => decide (e.kind ≠ .marker) && decide (e.join = p.pc)
        | [] => match p.merge with
          | some mid => decide (p.wait ≠ .merged) && g.merges.any fun m => decide (m.mid = mid) && decide (m.join = p.pc)
          | none => false
      let t := (g.arriveOnce p).settle
      let next := match p.stack, p.merge.bind fun mid => g.merges.find? fun m => decide (m.mid = mid) with
        | [], some m => if t.merges.any fun x => decide (x.mid = m.mid) then sid else m.members.headD sid
        | _, _ => sid
      if here then t.arriveAll n next else g

/-- Lanes leave every split and every entry, and what a `tret` will restore (R303, R305). -/
def Group.dropLanes (g : Group) (lanes : Mask) : Group :=
  let cut : List Entry → List Entry := fun es => es.map fun e => { e with mask := e.mask &&& ~~~ lanes }
  let g : Group := { g with
    splits := g.splits.map fun (p : Split) => { p with mask := p.mask &&& ~~~ lanes, stack := cut p.stack }
    merges := g.merges.map fun (m : Merge) => { m with mask := m.mask &&& ~~~ lanes, stack := cut m.stack }
    save := g.save.map fun (v : TrapSave) => { v with mask := v.mask &&& ~~~ lanes } }
  g.settle

/-- Entries of the group's reconvergence stack, which counts toward the depth of R167. -/
def Group.depth (g : Group) : Nat :=
  (g.splits.map fun p => p.stack.length).sum + (g.merges.map fun m => m.stack.length + 1).sum

/-! ## The release and acquire conditions of a group (R58, R277, R278) -/

def OpKind.isRead : OpKind → Bool
  | .load .. => true
  | .atomic .. => true
  | _ => false

/-- Every earlier load and atomic of the group has completed. -/
def Group.readsDone (g : Group) (seq : Nat) : Bool := !(g.ops.any fun o => o.kind.isRead && decide (o.seq < seq))

/-- Every earlier write of the group has been accepted, replays included (R58). -/
def State.writesDone (s : State) (g : Group) (seq : Nat) : Bool :=
  !(s.writes.any fun w => decide (w.gid = g.gid) && decide (w.seq < seq)) && !(g.mm.replay.any fun w => decide (w.seq < seq))

def OpKind.isAcq : OpKind → Bool
  | .load _ _ _ acq _ _ => acq
  | .atomic _ _ acq _ _ => acq
  | _ => false

/-- An acquire issued before `seq` has not completed (R277). -/
def Group.acqBefore (g : Group) (seq : Nat) : Bool := g.ops.any fun o => o.kind.isAcq && decide (o.seq < seq)

def overlaps (as bs : List Host.Cell) : Bool := as.any fun a => bs.any fun b => decide (a.1 = b.1)
def inRange (cs : List Host.Cell) (a n : Nat) : Bool := cs.any fun c => decide (a ≤ c.1) && decide (c.1 < a + n)

/-- The fences of a write's group, issued before it, that went early (R356). -/
def State.fencesBefore (s : State) (w : Write) : List Early :=
  s.early.filter fun e => decide (e.part = w.part) && decide (e.gid = w.gid) && e.after.any fun q => decide (q ≤ w.seq)

/-- Whether a scope includes a group of another core (R278). -/
def scopeTakes (scope core other : Nat) : Bool :=
  decide (4 ≤ scope) || (decide (scope = 3) && decide (dieOf core = dieOf other)) || (decide (scope = 2) && decide (clusterOf core = clusterOf other))
    || (decide (scope = 1) && decide (core = other))

/-- The place of the write that each of some bytes comes from, in its location's order. -/
def State.placesAt (s : State) (p : Part) (core : Nat) (addrs : List Nat) : List (Nat × Nat) :=
  addrs.map fun a => let l := s.locate p core a; (s.canon p core a, (s.markAt p (l.die p) l).place (l.die p))

/-- The early releases of [va, va + n) toward which a group is ordered (R356). -/
def State.earlyAt (s : State) (gid va n : Nat) : List Early :=
  match s.grp? gid with
  | none => []
  | some g =>
    let p := (s.part? g.part).getD default
    s.early.filter fun e => decide (e.part = g.part) && decide (e.gid ≠ gid) && scopeTakes e.scope e.core g.core
      && e.addrs.any fun a => (List.range n).any fun i => decide (s.locate p e.core a = s.locate p g.core (va + i))

/-- A write that an early release waited for is still to be accepted. -/
def State.earlyOpen (s : State) (e : Early) : Bool :=
  e.wids.any fun i => (s.writes.any fun w => decide (w.wid = i)) || s.groups.any fun g => g.mm.replay.any fun w => decide (w.wid = i)

/-- A clock with what the early releases of [va, va + n) bring. -/
def State.earlyClock (s : State) (gid va n : Nat) (c : VClock) : VClock :=
  (s.earlyAt gid va n).foldl (fun c e => c.join e.clk) c

/-- What of a group can go on only after the verdict on its faults, found in program order (R56, R57, R277, R281): whether an acquire or
any read is among it, the bytes of its loads, its writes, and the operations of which some lanes or every lane must wait. -/
structure HeldUp where
  acq : Bool
  read : Bool
  loads : List (Nat × Nat)
  writes : List Write
  part : List Nat
  whole : List Nat

/-- A write cannot be performed: behind an acquire, an overlapping write, or, as a release, anything that is held up. -/
def HeldUp.write (h : HeldUp) (w : Write) : Bool :=
  h.acq || (h.writes.any fun v => overlaps v.bytes w.bytes) || (w.rel && (h.read || !h.writes.isEmpty))
    || decide (2 ^ 48 ≤ w.addr) && (h.loads.any fun l => inRange w.bytes l.1 l.2)

/-- The lanes of an operation that have not been performed: whether each is held up. `ws` are the writes of its instruction that are. -/
def HeldUp.lanes (h : HeldUp) (g : Group) (ws : List Write) (o : Op) : List Bool :=
  match o.kind with
  | .load ls n .. => ls.map fun l => h.acq || o.held.contains l.1 || (g.mm.replay.any fun w => decide (w.addr / 65536 = l.2 / 65536))
      || h.writes.any fun v => inRange v.bytes l.2 n
  | .atomic ls .. => ls.map fun l => ws.any fun w => decide (w.oid = o.oid) && decide (w.lane = l)
  | _ => []

/-- What the instruction of number `n` adds. -/
def HeldUp.next (s : State) (g : Group) (h : HeldUp) (n : Nat) : HeldUp :=
  let ws := (g.mm.replay.filter fun w => decide (w.seq = n))
    ++ s.writes.filter fun w => decide (w.gid = g.gid) && decide (w.seq = n) && h.write w
  let os := g.ops.filter fun o => decide (o.seq = n)
  let some' := os.filter fun o => (h.lanes g ws o).any id
  { acq := h.acq || some'.any fun o => o.kind.isAcq, read := h.read || !some'.isEmpty
    loads := h.loads ++ some'.flatMap fun o => match o.kind with | .load ls n .. => ls.map fun l => (l.2, n) | _ => []
    writes := h.writes ++ ws, part := h.part ++ some'.map Op.oid
    whole := h.whole ++ (some'.filter fun o => (h.lanes g ws o).all id).map Op.oid }

def State.heldUp (s : State) (g : Group) : HeldUp :=
  (sortBy id (dedupN (g.ops.map Op.seq ++ g.mm.replay.map Write.seq ++ (s.writes.filter fun w => decide (w.gid = g.gid)).map Write.seq))).foldl
    (HeldUp.next s g) ⟨false, false, [], [], [], []⟩

/-- AV of the group's die covers its clock. -/
def State.covered (s : State) (g : Group) : Bool := g.mm.gc.le (s.die! (dieOf g.core)).av

/-! ## Barriers (R310-R313) -/

/-- The group has arrived at barrier `id` of kind `k`: each of its live splits has executed it and waits there (R310). -/
def Group.arrived (g : Group) (k : BarKind) (id : Nat) : Bool :=
  !g.splits.isEmpty && g.splits.all fun p => decide (p.wait = .bar k id)

/-- The groups that take part in a barrier of group `g` (R310-R312) (DEDUCED, log 28). -/
def State.participants (s : State) (g : Group) (k : BarKind) (id : Nat) : List Group :=
  s.groups.filter fun x => decide (x.gid = g.gid) || decide (x.grid = g.grid) && decide (x.copy = g.copy) && match k with
    | .bar => decide (x.kind = .normal) && decide (x.bidx = g.bidx)
    | .barc => decide (x.kind = .normal) && decide (clusterOf x.core = clusterOf g.core)
    | .tbar => decide (x.core = g.core)
      && (s.core! g.core).teams.any fun t => decide (t.grid = g.grid) && decide (t.t = id) && t.members.contains x.gid

/-- A generation completes when every participant has arrived, each participant's earlier accesses are performed, and its
die has applied what any of them had seen (R313): GC takes the join, and L1 is invalidated for `.clu`; at `.blk` each takes up what happened
before the others' arrival (log 107). -/
def State.tryBarrier (s : State) (g : Group) (k : BarKind) (id : Nat) : State :=
  let ps := s.participants g k id
  let gc := ps.foldl (fun c x => c.join x.mm.gc) VClock.zero
  if ps.all fun x => x.arrived k id && x.readsDone x.seq && s.writesDone x x.seq && gc.le (s.die! (dieOf x.core)).av then
    ps.foldl (fun s x =>
      let s := s.updGrp x.gid fun x => { x with
        mm := { x.mm with gc := x.mm.gc.join gc }
        splits := x.splits.map fun p => if p.wait = .bar k id then { p with wait := .none } else p }
      if k = .bar then s.learn x.gid x.seq ((ps.filter fun y => decide (y.gid ≠ x.gid)).map fun y => ⟨y.part, y.gid, y.core, y.seq, []⟩) else s.clearL1 x.core)
      (if k = .tbar then s.updCore g.core fun c => { c with
        teams := c.teams.map fun t => if t.grid = g.grid ∧ t.t = id then { t with urgent := some t.last } else t } else s)
  else s

/-- Tries every barrier at which some group waits. -/
def State.settleBarriers (s : State) : State :=
  s.groups.foldl (fun s g => g.splits.foldl (fun s p =>
    match p.wait with
    | .bar k id => match s.grp? g.gid with
      | some g => s.tryBarrier g k id
      | none => s
    | _ => s) s) s

/-! ## Ends of groups (R144, R145, R303) -/

def groupRegion (gid : Nat) (r : Region) : Bool :=
  decide (r.kind = .lane gid) || decide (r.kind = .groupFrame gid)

/-- Frees the frames of a group; the reply context's frame stays reserved (R38). -/
def State.freeFrames (s : State) (g : Group) : State :=
  s.updCore g.core fun k => { k with
    regions := (k.regions.filter fun r => !(groupRegion g.gid r)).map fun r =>
      if r.kind = .reply ∧ g.kind = .reply then { r with grid := 0 } else r }

/-- KiB of share per core that the live cluster frames need, were the share to be cut to it. -/
def State.shareNeed (s : State) (cl : Nat) : Nat :=
  let cs := s.clusterCores cl
  let c0 := cs.headD 0
  (s.frames.filter fun r => decide (r.depth = 3) && decide (r.place = cl)).foldl (fun m r =>
    let top := 4 * r.off + frameRoom 3 (hdrSize (s.header c0 3 r.off)) r.opened
    max m (roundUp (roundUp top (128 * cs.length) / max cs.length 1) 1024 / 1024)) 0

/-- The cluster share in force is the largest CSHARE among grids with blocks in the cluster, and what its live frames need
(R144, R145). A block whose groups are all evicted still counts (DESIGN CHOICE, log 125). -/
def State.resetShare (s : State) (cl : Nat) : State :=
  let share := (s.blocks.filter fun b => decide (clusterOf b.core = cl)).foldl (fun m b =>
    match s.grid? b.grid with | some g => max m g.card.cshare | none => m) (s.shareNeed cl)
  (s.clusterCores cl).foldl (fun s c => s.updCore c fun k => { k with
    share := share, shareMem := k.shareMem.slice 0 (share * 1024) }) s

/-- A block's last group has exited: its references are dropped and its room is freed (R145). A block frame whose room was
given up retires with its block. -/
def State.endBlock (s : State) (b : Block) : State :=
  let s := if b.saved.isSome then s.updCore b.core fun k => { k with
      gens := setAssoc (hOff b.d2) ((assoc (hOff b.d2) k.gens).getD 0 + 1) k.gens }
    else s.dropRef b.core b.grid b.d2
  let s := s.dropRef b.core b.grid b.d3
  let s := s.updCore b.core fun k => { k with
    regions := k.regions.filter fun r => !(decide (r.kind = .scratch) && decide (r.grid = b.grid) && decide (r.bidx = b.bidx) && decide (r.base = b.scratchBase)) }
  let s := { s with blocks := dropFirst (fun x => decide (x = b)) s.blocks }
  let s := if s.pairedAt b.grid b.bidx then s else s.freeShut b.grid b.bidx
  s.resetShare (clusterOf b.core)

/-- An ended grid is no longer held once no group of it runs on (R350). -/
def State.forgetGrid (s : State) (grid : Nat) : State :=
  if s.groups.any fun x => decide (x.grid = grid) then s else { s with grids := s.grids.filter fun g => !(g.ended && decide (g.id = grid)) }

/-- The references that callee items carry are dropped (R148, R301). -/
def State.dropItems (s : State) (core grid : Nat) (items : List CalleeItem) : State :=
  items.foldl (fun s i => (s.dropRef core grid i.d2).dropRef core grid i.d3) s

/-- Items that a drained group still serves end without results: their callers wait for them no longer (R172, R301). -/
def State.endItems (s : State) (core grid : Nat) (items : List CalleeItem) : State :=
  items.foldl (fun s i => s.updGrp i.gid fun g => g.updSplit i.sid fun p =>
    match p.wait with
    | .callx send out =>
      let out := out.filter fun l => decide (l ≠ i.lane)
      { p with wait := if send.isEmpty && out.isEmpty then .none else .callx send out }
    | _ => p) (s.dropItems core grid items)

/-- The group ends: it leaves its team and every barrier, its frames are freed, what a killed drained group still served ends, and its
block ends with its last group. -/
def State.endGroup (s : State) (gid : Nat) : State :=
  match s.grp? gid with
  | none => s
  | some g =>
    let s := (s.endItems g.core g.grid (g.items.map (·.2))).freeFrames g
    let s := s.updCore g.core fun k => { k with
      waiters := k.waiters.filter fun w => decide (w.gid ≠ gid)
      teams := k.teams.map fun t => { t with members := t.members.filter fun m => decide (m ≠ gid) } }
    let s := { s with groups := dropFirst (fun x => decide (x.gid = gid)) s.groups }
    let s := s.updPart g.part fun p => { p with ringWait := p.ringWait.filter fun x => decide (x ≠ gid) }
    let s := if g.kind = .normal ∧ !(s.groups.any fun x => decide (x.grid = g.grid) && decide (x.bidx = g.bidx) && decide (x.copy = g.copy) && decide (x.kind = .normal))
      then match s.block? g.grid g.bidx g.copy with
        | some b => s.endBlock b
        | none => s
      else s
    (s.forgetGrid g.grid).settleBarriers

/-! ## Killing a grid (R152) -/

/-- Discards a group's held stores with their pledges refunded (R57, R152). -/
def State.dropReplay (s : State) (gid : Nat) : State :=
  match s.grp? gid with
  | none => s
  | some g =>
    let s := g.mm.replay.foldl (fun s w => s.refundTo w.core w.part w.pledge) s
    s.updGrp gid fun g => { g with mm := { g.mm with replay := [] } }

/-- A job's leases and requests for leases end, wherever they stand (R24). -/
def State.dropLeases (s : State) (jid : Nat) : State :=
  { s with quads := s.quads.map fun q => { q with
      leases := q.leases.filter fun l => decide (l.jid ≠ jid), leaseQ := q.leaseQ.filter fun l => decide (l.jid ≠ jid) } }

def Group.op? (g : Group) (oid : Nat) : Option Op := g.ops.find? fun o => decide (o.oid = oid)

/-- Every flag of the group is 0. -/
def Group.allClear (g : Group) : Bool := !(g.ops.any fun o => decide (o.flag < 12))

def Group.setErr (g : Group) (flag : Nat) : Group :=
  if flag < 12 then { g with flagErr := g.flagErr ||| BitVec.ofNat 12 (2 ^ flag) } else g

/-- An operation of the group is over: its error bit is set before its count falls (R206). -/
def Group.endOp (g : Group) (oid : Nat) (err : Bool) : Group :=
  match g.op? oid with
  | none => g
  | some o => { (if err || o.err then g.setErr o.flag else g) with ops := dropFirst (fun o => decide (o.oid = oid)) g.ops }

/-- Every outstanding operation of a killed group completes with error status (R24, R152, R321). -/
def Group.endOps (g : Group) : Group := (g.ops.map Op.oid).foldl (fun g oid => g.endOp oid true) g

/-- The pledges of a job that have not reached their mem-blocks return (R83). -/
def State.refundJob (s : State) (j : Job) : State := j.pledges.foldl (fun s e => s.refundTo j.core j.part e.2) s

/-- Jobs of a killed grid: an entry not granted is withdrawn, a granted pass is stopped and its tile poisoned (R148,
R326); other jobs that have not started are withdrawn. Jobs that have started run to their completion, with error; one that waits to have
its lease again keeps its request and goes on with it (DESIGN CHOICE, log 94). -/
def State.killJobs (s : State) (grid : Nat) : State :=
  let doomed := s.jobs.filter fun j => decide (j.grid = grid) && (j.tile.isSome || !j.started)
  let s := doomed.foldl (fun s j =>
    let s := (s.refundJob j).dropLeases j.jid
    match j.tile with
    | some n => if j.granted then s.updBlock j.grid j.bidx j.copy fun b => { b with accPoison := n :: b.accPoison } else s
    | none => s) s
  { s with jobs := (s.jobs.filter fun j => !(doomed.any fun d => decide (d.jid = j.jid))).map fun j =>
      if j.grid = grid then { j with fail := true } else j }

/-- What a kill takes from a grid's groups `mine` (R24, R91, R152, R321): stores held for replay, capacity faults, places in
the queues of the cores with the references of the items that stand there, jobs, their outstanding operations, which end with error
status, and the groups that issue no more. -/
def State.dropGroups (s : State) (grid : Nat) (mine : List Group) : State :=
  let s := mine.foldl (fun s x => (s.dropReplay x.gid).updGrp x.gid fun x => { x.endOps with cap := none }) s
  let isMine : Nat → Bool := fun gid => mine.any fun x => decide (x.gid = gid)
  let purge : Core → Core := fun k => { k with
    waiters := k.waiters.filter fun w => !(isMine w.gid)
    callee := (k.callee.map fun q => { q with items := q.items.filter fun i => !(isMine i.gid) }).filter fun q => !q.items.isEmpty
    bufReq := k.bufReq.filter fun p => decide (p.grid ≠ grid)
    bufRep := k.bufRep.filter fun p => decide (p.grid ≠ grid) }
  let s := ((List.range s.cores.length).zip s.cores).foldl (fun s c =>
    s.dropItems c.1 grid ((c.2.callee.flatMap CalleeQueue.items).filter fun i => isMine i.gid)) s
  let s := { s with cores := s.cores.map purge }
  let s := s.killJobs grid
  let off := mine.filter fun x => decide (x.place ≠ .resident) || (x.splits.isEmpty && x.items.isEmpty)
  off.foldl (fun s x =>
    let s := if (x.svc.map SvcReq.phase) = some 3 then s.updPart x.part fun p => { p with killedSvc := x.park :: p.killedSvc } else s
    s.endGroup x.gid) s

/-- Kills a grid for a reason of R111 (R152). Resident groups exit at their next issue; groups off the core go at once. When
an agent grid ends for its own capacity fault, or while hard pressure is outstanding, the next agent is told (R88). -/
def State.killGrid (s : State) (grid reason : Nat) : State :=
  match s.grid? grid with
  | none => s
  | some g =>
    if g.kill.isSome then s
    else
      let wasAgent := decide ((s.agent g.part).map Grid.id = some grid)
      let s := s.updGrid grid fun g => { g with kill := some reason, next := g.card.blocks }
      let mine := s.groups.filter fun x => decide (x.grid = grid)
      let s := (s.dropGroups grid mine).settlePressure g.part
      let own := mine.any fun x => match x.stop with | some st => decide (st.why = .trap) && decide (st.code = 0x12) | none => false
      if wasAgent && own then s.hardPressure g.part
      else match s.part? g.part with
      | some p => if wasAgent && p.press.hard then s.hardEvent g.part else s
      | none => s

/-! ## Room given up (R149, R178) -/

/-- Takes regions out of a core's store, with what they hold. -/
def State.takeRegions (s : State) (core : Nat) (which : Region → Bool) : Saved × State :=
  let k := s.core! core
  let rs := k.regions.filter which
  let v : View := rs.foldl (fun v r =>
    let x := k.store.slice r.base r.len
    { mem := Mem.writeCells v.mem x.mem, marks := x.marks ++ v.marks }) View.empty
  ({ regions := rs, view := v }, s.updCore core fun k => { k with
      regions := k.regions.filter fun r => !(which r), store := rs.foldl (fun v r => v.clear r.base r.len) k.store })

/-- The regions of a block besides its groups' frames: its scratchpad and its block frame. -/
def blockRegion (b : Block) (r : Region) : Bool :=
  (decide (r.kind = .scratch) && decide (r.base = b.scratchBase) && decide (r.grid = b.grid) && decide (r.bidx = b.bidx))
    || (decide (r.kind = .blockFrame) && decide (r.base = 4 * hOff b.d2) && decide (r.grid = b.grid))

/-- A group off its core gives up its frames' room; with the last group of its block the block's room goes too. -/
def State.giveUp (s : State) (gid : Nat) : State :=
  match s.grp? gid with
  | none => s
  | some g =>
    if g.saved.isSome then s
    else
      let r := s.takeRegions g.core (groupRegion gid)
      let s := r.2.updGrp gid fun g => { g with saved := some r.1 }
      match s.block? g.grid g.bidx g.copy with
      | some b =>
        if s.groups.all fun x => decide (x.grid ≠ g.grid) || decide (x.bidx ≠ g.bidx) || decide (x.copy ≠ g.copy) || decide (x.kind ≠ .normal) || x.saved.isSome then
          let r := s.takeRegions b.core (blockRegion b)
          let mine : FrameRec → Bool := fun f => decide (f.depth = 2) && decide (f.place = b.core) && decide (f.off = hOff b.d2) && decide (f.grid = b.grid)
          let s : State := { r.2 with frames := r.2.frames.filter fun f => !(mine f) }
          s.updBlock b.grid b.bidx b.copy fun b => { b with saved := some r.1 }
        else s
      | none => s

/-- The issue port that a group of a core is bound to: the one with the fewest bound groups, the lowest among equals (R146). -/
def State.bindPort (s : State) (core : Nat) : Nat :=
  let load : Nat → Nat := fun k => (s.groups.filter fun g => decide (g.core = core) && decide (g.place = .resident) && decide (g.port = k)).length
  (sortBy load (List.range 4)).headD 0

/-- A group that stands on its core is bound to a port. -/
def Group.bound (g : Group) (port : Nat) : Group := { g with place := .resident, port := port, unissued := 0 }

/-- A group whose park ends goes on where it stands, or waits to be restored when its room was given up (R178). -/
def State.comeBack (s : State) (gid : Nat) : State :=
  let (no, s) := s.fresh
  s.updGrp gid fun g =>
    if g.saved.isSome then { g with place := .evicted no } else if g.place = .resident then g else g.bound (s.bindPort g.core)

/-! ## Trap entry and return (R173-R178, R305) -/

/-- HANDLER of a group's grid; 0 when the group has none to run (R136, R214). -/
def State.handlerOf (s : State) (g : Group) : Nat :=
  if g.kind = .reply then 0 else match s.grid? g.grid with | some x => x.card.handler | none => 0

/-- The instructions of a group no longer wait for credit (R84, R86). -/
def State.dropWaiters (s : State) (gid : Nat) : State :=
  match s.grp? gid with
  | none => s
  | some g => s.updCore g.core fun k => { k with waiters := k.waiters.filter fun w => decide (w.gid ≠ gid) }

/-- The group's park begins (R178): it stands off the core until its request is answered. -/
def State.park (s : State) (gid : Nat) (st : Stop) : State :=
  (s.dropWaiters gid).updGrp gid fun g => { g with place := .parked st, stop := none }

/-- What a trap sets (R173, R176): TLM, TCAUSE, TPC and TADDR. -/
def Stop.regs (st : Stop) (inH : Bool) : TrapRegs :=
  { tlm := st.tlm, inH := inH, code := st.code, tpc := BitVec.ofNat 64 st.tpc, taddr := BitVec.ofNat 64 st.taddr }

/-- Takes a trap: the ONE entry to a handler (R173-R175). TLM, TCAUSE, TPC and TADDR are set, TCAUSE.IN is set, markers are
pushed on both stacks, and the faulting split runs from HANDLER. Without a handler, in a reply-class handler group, or
while TCAUSE.IN is set, the trap kills the grid; a breakpoint without a handler parks for `svc` with code 0xFFFF. The marker on the reconvergence
stack is pushed whatever the stack holds (DESIGN CHOICE, log 126). -/
def State.takeTrap (s : State) (gid : Nat) (st : Stop) : State :=
  match s.grp? gid with
  | none => s
  | some g =>
    let h := s.handlerOf g
    if h ≠ 0 ∧ g.trap.inH = false then
      let s := s.updGrp gid fun g =>
        let p := (g.split? st.sid).getD default
        { (g.updSplit st.sid fun p => { p with
            pc := h, clause := none, wait := .none
            stack := { pc := st.tpc, mask := p.mask, join := 0, fmt := p.fmt, kind := .marker } :: p.stack }) with
          trap := st.regs true
          save := some { sid := st.sid, mask := p.mask, shift := g.fr.shift, d2 := g.fr.d2, d3 := g.fr.d3, tpc := st.tpc, clause := st.clause }
          rets := { sid := st.sid, addr := 0, shift := 0, marker := true } :: g.rets
          stop := none }
      (s.dropWaiters gid).comeBack gid
    else s.killGrid g.grid 1

/-- A marker stands in a reconvergence stack. -/
def hasMarker (es : List Entry) : Bool := es.any fun e => decide (e.kind = .marker)

/-- The merge entries that a handler's own `split`s made: those that lie over a marker, and those nested in them (R175). -/
def Group.handlerMerges (g : Group) : List Nat :=
  let nest : List Nat → List Nat := fun ids => ids ++ (g.merges.filter fun m => m.parent.any ids.contains && !(ids.contains m.mid)).map Merge.mid
  nest (nest (nest ((g.merges.filter fun m => hasMarker m.stack).map Merge.mid)))

/-- The splits that run a handler: the split that trapped, and those that the handler's own `split`s made. -/
def Group.handlerSplits (g : Group) (sid : Nat) : List Nat :=
  dedupN (sid :: (g.splits.filter fun p => p.merge.any g.handlerMerges.contains).map Split.sid)

/-- Returns from a handler (R175, R305): the stacks pop to the markers, and what the handler left above them is discarded, the splits it
made too; the mask at the trap less lanes that died, the shift, D2 and D3 come back; TCAUSE.IN clears; the split that trapped resumes at
TPC, within the clause of the stop point when TPC lies in it, else at TPC as a clause header. `sid` is the split that returns, `hdr` the
clause whose header the stop point was. -/
def Group.returnTrap (g : Group) (sid : Nat) (hdr : Option Clause) : Group :=
  match g.save with
  | none => g
  | some v =>
    let tpc := g.trap.tpc.toNat
    let clause := v.clause.or hdr
    let inside := match clause with
      | some c => decide (c.addr < tpc) && decide (tpc ≤ c.addr + 8 * hdrLen c.word) && decide ((tpc - c.addr) % 8 = 0)
      | none => false
    let mine := g.handlerSplits v.sid
    let base : List Entry × Option Nat := match g.merges.find? fun m => hasMarker m.stack with
      | some m => (m.stack, m.parent)
      | none => match g.split? v.sid with | some p => (p.stack, p.merge) | none => ([], none)
    let fmt : Word := match g.split? (if mine.contains sid then sid else v.sid) with | some p => p.fmt | none => 0
    let back : Split :=
      { sid := v.sid, mask := v.mask &&& ~~~ g.dead, pc := tpc, clause := if inside then clause else none, fmt := fmt
        stack := (base.1.dropWhile fun (e : Entry) => decide (e.kind ≠ .marker)).drop 1, merge := base.2, wait := .none }
    let above := g.rets.takeWhile fun (r : RetEntry) => !r.marker
    let g : Group := { g with
      splits := g.splits.filter (fun p => !(mine.contains p.sid)) ++ [back]
      merges := g.merges.filter fun m => !(g.handlerMerges.contains m.mid)
      rets := (above.filter fun (r : RetEntry) => !(mine.contains r.sid)) ++ (g.rets.dropWhile fun (r : RetEntry) => !r.marker).drop 1
      fr := { g.fr with shift := v.shift, d2 := v.d2, d3 := v.d3 }
      trap := { g.trap with inH := false }
      save := none }
    g.settle

/-- The stop that is decided is another split's, for a trap or a park: an instruction that would trap or park waits for it (R173). -/
def Group.stopsElse (g : Group) (sid : Nat) : Bool := g.stop.any fun st => decide (st.sid ≠ sid) && decide (st.why ≠ .evict)

/-- The split waits at its instruction until the stop that is decided has taken effect. -/
def Group.holdSplit (g : Group) (sid : Nat) : Group := g.updSplit sid fun p => { p with wait := .stopped }

/-- The stop that splits waited for has taken effect: they issue again when the group goes on. -/
def Group.goOn (g : Group) : Group :=
  { g with splits := g.splits.map fun (p : Split) => if p.wait = .stopped then { p with wait := .none } else p }

/-- The split's instruction still writes the group's frames: a `callx` or a `jtrunc` (R301, R319). -/
def Wait.writes : Wait → Bool
  | .callx .. => true | .jtrunc .. => true
  | _ => false

/-- What must still happen before a stop takes effect (R173, R177): every outstanding operation that writes the group's
frames has completed, a `callx` and a `jtrunc` included, and its other splits stand at clause boundaries. Where the stop is the group's
memory fault, the operations that only the verdict can end stay (R56, R57); any other park waits for the verdict on them too. -/
def State.stopReady (s : State) (g : Group) (st : Stop) : Bool :=
  (g.ops.all fun o => decide (o.kind = .svc) || decide (12 ≤ o.flag) || decide (st.why = .page) && (s.heldUp g).whole.contains o.oid)
    && g.splits.all fun p => (decide (p.sid = st.sid) || p.clause.isNone || decide (p.wait = .stopped)) && !p.wait.writes

/-- A fault of the group still waits for FAULT_RESOLVE (R363). -/
def Group.faultPending (g : Group) : Bool := !g.mm.replay.isEmpty || !g.mm.pages.isEmpty || g.ops.any fun o => !o.held.isEmpty

/-- An eviction takes effect once every operation of the group is over and nothing is held for replay, with each split at a
clause boundary or at an instruction that waits for credit, which is abandoned (R86, R149). -/
def State.evictReady (s : State) (g : Group) : Bool :=
  g.ops.isEmpty && !g.faultPending && g.splits.all fun p =>
    (p.clause.isNone || (s.core! g.core).waiters.any fun w => decide (w.gid = g.gid) && decide (w.sid = p.sid)) && !p.wait.writes

/-- The request of a group parked for `svc` reaches the leader Distaff, which gives it its run of ring sequences (R346) (DEDUCED, log 61). -/
def State.joinRing (s : State) (gid : Nat) : State :=
  match (s.grp? gid).bind fun g => (s.part? g.part).map fun p => (g, p) with
  | none => s
  | some (g, p) =>
    let n := (g.svc.map fun r => r.lanes.length).getD 0
    let s := s.updGrp gid fun g => { g with svc := g.svc.map fun r => { r with q0 := p.ringNext } }
    s.updPart p.id fun p => { p with ringWait := p.ringWait ++ [gid], ringNext := p.ringNext + n }

/-- A fault that was reported while a trap waited to be taken stops the group there with its own cause, and the instruction issues again
(R177, R363): a breakpoint's request is forgotten until it does. -/
def Group.faultFirst (g : Group) (st : Stop) : Stop :=
  match st.why, g.mm.fault with
  | .trap, some (c, m, a) => { st with why := .page, code := c, tlm := m, taddr := a }
  | _, _ => st

/-- A killed grid's group exits at its next issue (R152). -/
def State.killed (s : State) (g : Group) : Bool := match s.grid? g.grid with | some x => x.kill.isSome | none => true

/-- A decided stop takes effect once the group is ready for it; a killed group exits instead. A breakpoint without a handler sets the trap registers and parks (R341). -/
def State.settleStop (s : State) (gid : Nat) : State :=
  match s.grp? gid with
  | none => s
  | some g =>
    match g.stop with
    | none => s
    | some st0 =>
      let st := g.faultFirst st0
      if g.place = .resident ∧ s.killed g = false ∧ (if st.why = .evict then s.evictReady g else s.stopReady g st) = true then
        let s := s.updGrp gid fun g => if st.why = st0.why then g.goOn else { g.goOn with svc := none }
        match st.why with
        | .trap =>
          let noH := decide (s.handlerOf g = 0) && !g.trap.inH && decide (g.kind ≠ .reply)
          if st.code = 0x42 ∧ noH = true ∧ g.svc.isSome then
            let s := s.updGrp gid fun g => { (g.updSplit st.sid fun p => { p with
                pc := match st.clause with | some c => c.next | none => p.pc
                clause := none }) with trap := st.regs g.trap.inH }
            (s.joinRing gid).park gid { st with why := .brk }
          else s.takeTrap gid st
        | .svc => (s.joinRing gid).park gid st
        | .evict =>
          let s := s.updPart g.part fun p => { p with cnt := { p.cnt with evictions := p.cnt.evictions + 1 } }
          let (no, s) := (s.dropWaiters gid).fresh
          (s.updGrp gid fun g => { g with place := .evicted no, stop := none }).giveUp gid
        | .page => if st.code = 0x10 ∨ g.faultPending = true then s.park gid st else (s.updGrp gid fun g => { g with mm := { g.mm with fault := none } }).takeTrap gid st
        | _ => s.park gid st
      else s

/-- A stop is decided at a split. While another split's stop is decided, the instruction is not performed: the split stands here until that
stop has taken effect, and issues it again (R173). -/
def State.decideStop (s : State) (gid : Nat) (st : Stop) : State :=
  (s.updGrp gid fun g => if g.stopsElse st.sid then g.holdSplit st.sid else { g with stop := some st }).settleStop gid

/-- A trap is raised at instruction word or header `tpc` (R173). While a memory fault of the group is pending, the group
stops here with that fault's cause instead, and the instruction issues again (R363). -/
def State.raiseTrap (s : State) (gid sid : Nat) (code : BitVec 8) (tlm : Mask) (taddr tpc : Nat) (clause : Option Clause) : State :=
  match s.grp? gid with
  | none => s
  | some g =>
    s.decideStop gid (g.faultFirst { why := .trap, sid := sid, code := code, tlm := tlm, taddr := taddr, tpc := tpc, clause := clause })

/-! ## New partitions and groups -/

def CtlRegs.reset (quads : Nat) (key : DWord) : CtlRegs :=
  { ratio := 16, chunk := 256, floor := 65536, pwrCap := 250 * quads, detour := 0, balloonTimeout := 100000, watchdog := 1000000
    ringK := 4, ringWin := 0, rmaKey := key }

def Counters.reset : Counters := ⟨0, 0, 0, 0, 0, 0, 0, 0, 0, 0, 0, 0, 0, 0⟩

def JournalParams.off : JournalParams :=
  { mode := 0, jbase := 0, jcount := 0, npart := 0, window := 0, ringk := 0, bufva := 0, buflen := 0, storeva := 0, storelen := 0
    timeout := 0, partners := [] }

def Journal.off : Journal :=
  { p := JournalParams.off, st := .off, streams := [], store := [], ackAt := 0, goal := [], bindDone := [], bindGot := [], emitted := [], unsent := [] }

def TimeTable.empty : TimeTable :=
  { entries := [], pending := none, run := none, stop := [], rephase := none, live := [], deferred := [], abort := [] }

/-- A partition at its creation (R81, R98, R109, R120, R145, R154, R181); `key` fills key slot 0 (DEDUCED, log 81). -/
def Part.make (id : Nat) (quads jobs : List Nat) (dest topoVa : Nat) (rma : DWord) (key : BitVec 256) : Part :=
  { id := id, quads := quads, jobs := jobs, dest := dest, regs := CtlRegs.reset quads.length rma, cnt := Counters.reset
    free := 738281250 * (quads.length : Int), pledged := 0, press := { soft := false, hard := false, armed := true, since := 0 }
    keys := [some key, none, none, none], topoVa := topoVa, epoch := 0, codeMeas := 0, windows := []
    queues := List.replicate 16 { cmds := [], wake := 0 }, views := List.replicate 4 View.empty, poison := [], repPoison := [], replicas := []
    hwLines := [], tv := VClock.zero, nbBase := 0, nbRow := 64, hostGc := VClock.zero, cursor := 0, past := [], ringNext := 1, ringWait := [], killedSvc := [], evSeq := 0, evq := []
    tt := TimeTable.empty, jr := Journal.off }

/-- The memory side of a group at its start (R277). -/
def GMem.start : GMem :=
  { gc := VClock.zero, own := [], floor := [], jobs := [], fresh := false, replay := [], fault := none, pages := [], prot := none, runAddr := 0
    runVal := [], runLen := 0, demoted := false, known := [], again := 0, cleans := [], hwAfter := 0, fenced := 0, heard := [] }

/-- A group at its start: one split with the lanes given, at the entry (R166, R171, R176, R180, R204). -/
def Group.make (gid grid part core : Nat) (kind : GKind) (copy bidx gidx : Nat) (park : Word) (age : Nat) (fr : Frames)
    (lanes : Mask) (entry : Nat) : Group :=
  { gid := gid, grid := grid, part := part, core := core, kind := kind, copy := copy, bidx := bidx, gidx := gidx, park := park, age := age
    fr := fr
    splits := [{ sid := 0, mask := lanes, pc := entry, clause := none, fmt := 0, stack := [], merge := none, wait := .none }]
    merges := [], rets := [], nextSid := 1, preds := List.replicate 32 0, gp := 0, dead := 0, wake := 0, wakeGc := VClock.zero
    trap := { tlm := 0, inH := false, code := 0, tpc := 0, taddr := 0 }, save := none, stop := none, place := .resident, evFor := none, port := 0, unissued := 0, saved := none
    flagErr := 0, ops := [], seq := 0, mm := GMem.start, cap := none, svc := none, items := [] }

end Sys2Proof.Machine
end

