-- ==== Sys2Proof/Machine/Operands.lean ====
section
/-!
DEFINITION. Every operand form: active lanes (R165, R166, R201), specials (R158), slots of the four depths (R157, R164),
immediates (R209), the limits of R159, and the writing of slots and predicates.
-/

namespace Sys2Proof.Machine

/-- What an instruction of a split sees when it issues. -/
structure Ctx where
  s : State
  g : Group
  p : Split
  c : Clause
  f : Fld
  act : Mask
  /-- the operand fields it uses -/
  us : List Use

def Ctx.gid (x : Ctx) : Nat := x.g.gid
def Ctx.lanes (x : Ctx) : List Nat := lanesOf x.act
def Ctx.part (x : Ctx) : Part := (x.s.part? x.g.part).getD default
def Ctx.grid (x : Ctx) : Grid := (x.s.grid? x.g.grid).getD default

/-! ## Predicates and active lanes -/

/-- Predicate n of a lane; p7 reads 1 (R166). -/
def Group.pred (g : Group) (lane n : Nat) : Bool := decide (n = 7) || (g.preds.getD lane 0).getLsbD n
def Group.gpred (g : Group) (n : Nat) : Bool := decide (n = 7) || g.gp.getLsbD n

def setBit (w : BitVec 8) (n : Nat) (b : Bool) : BitVec 8 :=
  let m := BitVec.ofNat 8 (2 ^ n)
  if b then w ||| m else w &&& ~~~ m

/-- Writes predicate n of a lane; a write of p7 is discarded (R166). -/
def Group.setPred (g : Group) (lane n : Nat) (b : Bool) : Group :=
  if n = 7 then g else { g with preds := g.preds.modify lane fun w => setBit w n b }
def Group.setGpred (g : Group) (n : Nat) (b : Bool) : Group := if n = 7 then g else { g with gp := setBit g.gp n b }

/-- The lanes of a split that are not dead: special amask (R158). -/
def amask (g : Group) (p : Split) : Mask := p.mask &&& ~~~ g.dead

/-- `Active` of R201. -/
def activeOf (g : Group) (p : Split) (f : Fld) : Mask :=
  let m := amask g p
  if f.g then (if g.gpred f.pn.toNat != f.pneg then m else 0)
  else maskOf ((lanesOf m).filter fun l => g.pred l f.pn.toNat != f.pneg)

/-- The lowest lane of a mask (R165). -/
def lowest (m : Mask) : Nat := (lanesOf m).headD 0
/-- The highest lane of a mask (R164). -/
def highest (m : Mask) : Nat := (lanesOf m).getLastD 0

/-! ## Slots -/

/-- Byte offset of a depth 0 slot in the unified store, `slot` with the shift added (R157). -/
def laneOff (g : Group) (slot lane : Nat) : Nat := g.fr.lbase + 128 * slot + 4 * lane
def groupOff (g : Group) (slot : Nat) : Nat := g.fr.gbase + 4 * slot

/-- The virtual address of a depth 2 or 3 slot: a word of the core or cluster window (R155, R162). -/
def slotVa (h : Word) (slot : Nat) : Nat :=
  (if hDepth h = 2 then coreWin else clusterWin) + 4 * hOff h + 4 + 4 * slot

/-- The primary's block of a group of a paired block. -/
def State.pairBlock (s : State) (g : Group) : Option Block :=
  if g.kind = .normal then (s.block? g.grid g.bidx 0).bind fun b => if b.pair.isSome then some b else none else none

/-- The stores that a group's copy of a paired block holds (R182). -/
def State.heldBy (s : State) (g : Group) : List Write :=
  match (s.pairBlock g).bind Block.pair with
  | some q => if g.copy = 0 then q.held0 else q.held1
  | none => []

/-- Held stores lie over a byte that a group of their copy reads. -/
def heldOver (held : List Write) (a : Nat) (b : Byte) : Byte :=
  held.foldl (fun b w => match w.bytes.find? fun c => decide (c.1 = a) with
    | some c => c.2
    | none => b) b

/-- A store joins those that its copy of a paired block holds. -/
def State.hold (s : State) (b : Block) (copy : Nat) (w : Write) : State :=
  s.updBlock b.grid b.bidx 0 fun x => { x with pair := x.pair.map fun q =>
    if copy = 0 then { q with held0 := q.held0 ++ [w] } else { q with held1 := q.held1 ++ [w] } }

/-- A byte as the group itself sees it: its own writes that have not been performed lie over it (R164, R205). -/
def State.ownByte (s : State) (g : Group) (va : Nat) : Byte :=
  let p := (s.part? g.part).getD default
  let b := s.byteAt p (dieOf g.core) (s.locate p g.core va)
  heldOver (s.heldBy g) va ((s.writes.filter fun w => decide (w.gid = g.gid)).foldl (fun b w =>
    match w.kind with
    | .atomic .. => b
    | _ => match w.bytes.find? fun c => decide (c.1 = va) with
      | some c => c.2
      | none => b) b)

def State.ownWord (s : State) (g : Group) (va : Nat) : Word :=
  BitVec.ofNat 32 (leNat ((List.range 4).map fun i => s.ownByte g (va + i)))

def storeWord (s : State) (core off : Nat) : Word := memWord (s.core! core).store.mem off

/-- Blocks in the grid (special nblk). -/
def State.nblk (s : State) (g : Group) : Nat := match s.grid? g.grid with | some x => x.card.blocks | none => 0

/-- The specials of R158. -/
def special (x : Ctx) (slot lane : Nat) : Word :=
  match slot with
  | 240 => 0
  | 241 => BitVec.ofNat 32 lane
  | 242 => BitVec.ofNat 32 x.g.gidx
  | 243 => BitVec.ofNat 32 x.g.bidx
  | 244 => BitVec.ofNat 32 (x.s.lcoreOf x.part x.g.core)
  | 245 => hdrK x.c.word
  | 246 => amask x.g x.p
  | 247 => BitVec.ofNat 32 (x.s.nblk x.g)
  | _ => 0

/-- A slot's value for a lane; `k` counts slots from the operand's first. -/
def Ctx.slot (x : Ctx) (o : BitVec 10) (k lane : Nat) : Word :=
  let s := opSlot o + k
  match opDepth o with
  | 0 => if 240 ≤ opSlot o then special x s lane else storeWord x.s x.g.core (laneOff x.g (s + x.g.fr.shift) lane)
  | 1 => storeWord x.s x.g.core (groupOff x.g s)
  | 2 => x.s.ownWord x.g (slotVa x.g.fr.d2 s)
  | _ => x.s.ownWord x.g (slotVa x.g.fr.d3 s)

/-- With G = 1 depth 0 sources are read from the lowest active lane (R165). -/
def Ctx.srcLane (x : Ctx) (lane : Nat) : Nat := if x.f.g then lowest x.act else lane

/-- `n` slots of an operand field for a lane. -/
def Ctx.words (x : Ctx) (o : BitVec 10) (n lane : Nat) : List Word :=
  (List.range n).map fun k => x.slot o k (x.srcLane lane)

/-- A value of `n` slots, the first in the low bits. -/
def Ctx.val (x : Ctx) (o : BitVec 10) (n lane : Nat) : DWord :=
  let l := x.slot o 0 (x.srcLane lane)
  if n = 2 then x.slot o 1 (x.srcLane lane) ++ l else l.setWidth 64

def Ctx.rdA (x : Ctx) (n lane : Nat) : DWord := x.val x.f.sa n lane
def Ctx.rdC (x : Ctx) (n lane : Nat) : DWord := x.val x.f.sc n lane

/-- The immediate for an operand of type code `t` (R209). -/
def immFor (t : Nat) (f : Fld) : DWord :=
  if t = 8 then ((f.imm ++ (0 : BitVec 12)).setWidth 64)
  else if t = 9 ∨ t = 10 then (f.imm.setWidth 16).setWidth 64
  else f.imm.signExtend 64

/-- Source B, or the immediate in its place. -/
def Ctx.rdB (x : Ctx) (t n lane : Nat) : DWord :=
  if x.f.i then (if n = 2 then immFor t x.f else (immFor t x.f).setWidth 32 |>.setWidth 64) else x.val x.f.sb n lane

/-! ## Limits that depend on the state (R157-R159, R163, R44) -/

/-- A display's handle. -/
def Group.display (g : Group) (depth : Nat) : Word := if depth = 2 then g.fr.d2 else g.fr.d3

/-- Slots a use touches. -/
def Use.count (u : Use) : Nat :=
  match u.role with
  | .src n _ => n
  | .dst n _ => n
  | .desc n => n
  | _ => 0

/-- Bytes `a` to `a + n - 1`, modulo 2^64. -/
def bytesFrom (a n : Nat) : List Nat := (List.range n).map fun i => (a + i) % 2 ^ 64

/-- The use reads its slots. -/
def Use.reads (u : Use) : Bool :=
  match u.role with
  | .src n _ => decide (n ≠ 0)
  | .desc n => decide (n ≠ 0)
  | _ => false

def isSpecial (o : BitVec 10) : Bool := decide (opDepth o = 0) && decide (240 ≤ opSlot o)

/-- A use of an operand field names slots outside the usable range (trap 0x03). -/
def slotFault (s : State) (g : Group) (f : Fld) (u : Use) : Bool :=
  let o := f.opd u.fld
  let top := opSlot o + u.count
  if u.count = 0 then false
  else match opDepth o with
    | 0 => match u.role with
      | .src .. => !(isSpecial o) && decide (g.fr.lslots < top + g.fr.shift)
      | _ => decide (g.fr.lslots < top + g.fr.shift)
    | 1 => decide (g.kind = .request) || decide (g.kind = .reply) || decide (max g.fr.gslots 2 < top)
    | d =>
      let h := g.display d
      decide (h = 0) || (s.live g.core g.grid h && decide (hdrSize (s.header g.core d (hOff h)) < top))

/-- The stale display an operand goes through, if any (frame fault 0x22, R163). -/
def staleUse (s : State) (g : Group) (f : Fld) (us : List Use) : Option Word :=
  (us.filterMap fun u =>
    let d := opDepth (f.opd u.fld)
    if u.count ≠ 0 ∧ 2 ≤ d ∧ s.live g.core g.grid (g.display d) = false then some (g.display d) else none).head?

/-! ## Writing slots -/

/-- Writes words of a group's own lane frame from store offset `a`, one slot apart. -/
def laneCells (g : Group) (slot lane : Nat) (ws : List Word) : List Host.Cell :=
  ((List.range ws.length).zip ws).flatMap fun e => cellsAt (laneOff g (slot + e.1) lane) (leBytes 4 e.2.toNat)

def State.pokeStore (s : State) (core : Nat) (cs : List Host.Cell) : State :=
  s.updCore core fun k => { k with store := { k.store with mem := Mem.writeCells k.store.mem cs } }

/-- Splits bytes into naturally aligned 16 B spans (R279, R348). -/
def spansOf (cs : List Host.Cell) : List (List Host.Cell) :=
  (dedupN (cs.map fun c => c.1 / 16)).map fun k => cs.filter fun c => decide (c.1 / 16 = k)

/-- Relaxed stores to depth 2 or 3 slots on their way to them (R164): one when the slots are written in one step, else one for each 16 B span. A paired
block holds those to its cluster frame (R182). -/
def State.slotWrite (s : State) (g : Group) (seq : Nat) (va : Nat) (whole : Bool) (ws : List Word) : State :=
  let cells := cellsAt va (wordsToBytes ws)
  (if whole then [cells] else spansOf cells).foldl (fun s cs =>
    let (wid, s) := s.fresh
    let w : Write := { wid := wid, part := g.part, gid := g.gid, core := g.core, seq := seq, oid := 0, lane := 0, kind := .slot
                       addr := (cs.headD (0, 0)).1, bytes := cs, gc := g.mm.gc, rel := false, scope := 0, acq := false
                       pledge := 0, whole := [], detour := 0, redo := none, mask := 0, past := g.mm.fenced }
    match (if clusterWin ≤ va then s.pairBlock g else none) with
    | some b => s.hold b g.copy w
    | none => { s with writes := s.writes ++ [w] }) s

/-- The value of the highest lane, which stands in a slot of depth 1 to 3 (R164). -/
def topLane (vals : List (Nat × List Word)) : Option (Nat × List Word) :=
  vals.foldl (fun t v => match t with | some u => if u.1 ≤ v.1 then some v else t | none => some v) none

/-- Writes each lane's words to a destination resolved as `d` (R164); `whole` for one of long latency, whose slots are written in one step at completion
(R205). False when its frame is gone. -/
def State.writeDest (s : State) (gid : Nat) (d : Dest) (whole : Bool) (vals : List (Nat × List Word)) : State × Bool :=
  match s.grp? gid with
  | none => (s, false)
  | some g =>
    match topLane vals with
    | none => (s, true)
    | some top =>
      match d.depth with
      | 0 => (s.pokeStore g.core (vals.flatMap fun v => laneCells g d.slot v.1 v.2), true)
      | 1 => (s.pokeStore g.core (cellsAt (groupOff g d.slot) (wordsToBytes top.2)), true)
      | _ =>
        if s.live g.core g.grid d.handle then
          let s := s.updGrp gid fun g => { g with seq := g.seq + 1 }
          (s.slotWrite g g.seq (slotVa d.handle d.slot) whole top.2, true)
        else (s, false)

/-- The destination an operand field names now. -/
def Ctx.dest (x : Ctx) (o : BitVec 10) : Dest :=
  { depth := opDepth o
    slot := if opDepth o = 0 then opSlot o + x.g.fr.shift else opSlot o
    handle := if opDepth o = 2 then x.g.fr.d2 else if opDepth o = 3 then x.g.fr.d3 else 0 }

/-- `Wr`: writes each active lane's value at once (R201). -/
def Ctx.wr (x : Ctx) (s : State) (o : BitVec 10) (v : Nat → List Word) : State :=
  (s.writeDest x.gid (x.dest o) false (x.lanes.map fun l => (l, v l))).1

def words1 (v : Word) : List Word := [v]
def words2 (v : DWord) : List Word := [v.setWidth 32, (v.ushiftRight 32).setWidth 32]
/-- A value as `n` slots. -/
def wordsN (n : Nat) (v : DWord) : List Word := if n = 2 then words2 v else [v.setWidth 32]

/-- Writes a predicate operand: lane predicates, or the group predicate of a `.g` instruction (R223). -/
def Ctx.wrPred (x : Ctx) (s : State) (n : Nat) (v : Nat → Bool) : State :=
  s.updGrp x.gid fun g =>
    if x.f.g then g.setGpred n (v (lowest x.act)) else x.lanes.foldl (fun g l => g.setPred l n (v l)) g

/-- Reads a predicate operand. -/
def Ctx.rdPred (x : Ctx) (n lane : Nat) : Bool := if x.f.g then x.g.gpred n else x.g.pred lane n

end Sys2Proof.Machine
end

