-- ==== Sys2Proof/Machine/Flags.lean ====
section
/-!
DEFINITION. Completion flags (R204-R206): counting an operation, writing its destination at completion, error status; lanes
that die (R172), and what follows a completion.
-/

namespace Sys2Proof.Machine

/-- A flag's count: the operations of the group outstanding on it (R204). -/
def Group.flagCount (g : Group) (n : Nat) : Nat := (g.ops.filter fun o => decide (o.flag = n)).length

/-- The flag that FS selects in a header, if valid there (R204). -/
def flagOf (hdr : DWord) (fs : Bool) : Option Nat :=
  if fs then (if hdrBV hdr then some (hdrB hdr) else none) else (if hdrAV hdr then some (hdrA hdr) else none)

/-- The flag number of an access that no flag counts. -/
def noFlag : Nat := 12

/-- Every flag named in a WAIT field is 0. -/
def Group.flagsClear (g : Group) (wait : BitVec 12) : Bool :=
  (List.range 12).all fun n => !(wait.getLsbD n) || decide (g.flagCount n = 0)

/-- Records an operation of the group as outstanding on a flag. -/
def Ctx.pushOp (x : Ctx) (s : State) (flag : Nat) (dest : Dest) (kind : OpKind) : Nat × State :=
  let (oid, s) := s.fresh
  (oid, s.updGrp x.gid fun g => { g with
    seq := g.seq + 1
    ops := g.ops ++ [{ oid := oid, seq := g.seq, sid := x.p.sid, flag := flag, mask := x.act, smask := amask x.g x.p, dest := dest
                       err := false, held := [], kind := kind, best := none, detour := x.part.regs.detour, redo := [], resent := [] }] })

/-- Issues a long-latency operation: it counts on the flag that FS selects (R204), and reads nothing later (R205). -/
def Ctx.issueOp (x : Ctx) (s : State) (dst : BitVec 10) (kind : OpKind) : Nat × State :=
  x.pushOp s ((flagOf x.c.word x.f.fs).getD noFlag) (x.dest dst) kind

def Group.updOp (g : Group) (oid : Nat) (f : Op → Op) : Group := { g with ops := updFirst (fun o => decide (o.oid = oid)) f g.ops }
def State.updOp (s : State) (gid oid : Nat) (f : Op → Op) : State := s.updGrp gid fun g => g.updOp oid f

/-- The group retires once no live lane remains and no flag of it is outstanding (R172, R303). -/
def State.reap (s : State) (gid : Nat) : State :=
  match s.grp? gid with
  | none => s
  | some g => if g.splits.isEmpty ∧ g.allClear = true ∧ g.items.isEmpty = true then s.endGroup gid else s

/-- What follows a change of a group: a decided stop may take effect, a barrier may complete, the group may retire. -/
def State.after (s : State) (gid : Nat) : State := ((s.settleStop gid).reap gid).settleBarriers

/-- The groups that hold an operation: the issuer, and its twin in a paired block (R182). -/
def State.holders (s : State) (oid : Nat) : List Group := s.groups.filter fun g => g.ops.any fun o => decide (o.oid = oid)

/-- Writes lanes of an operation's destination (R205); false when its frame is gone. -/
def State.writeLanes (s : State) (oid : Nat) (vals : List (Nat × List Word)) : State × Bool :=
  (s.holders oid).foldl (fun r g =>
    match g.op? oid with
    | none => r
    | some o =>
      let w := r.1.writeDest g.gid o.dest true vals
      (w.1, r.2 && w.2)) (s, true)

/-- A reply gives lanes their values: a slot of depth 0 is written, and of a slot of depth 1 to 3 the highest lane's value is kept
until the operation completes (R164, R205); false when its frame is gone. -/
def State.giveLanes (s : State) (oid : Nat) (vals : List (Nat × List Word)) : State × Bool :=
  if (s.holders oid).all fun g => (g.op? oid).all fun o => decide (o.dest.depth = 0) then s.writeLanes oid vals
  else ((s.holders oid).foldl (fun s g => s.updOp g.gid oid fun o => { o with best := topLane (o.best.toList ++ vals) }) s, true)

/-- The value that was kept is written as the operation completes; false when its frame is gone. -/
def State.writeBest (s : State) (oid : Nat) : State × Bool :=
  match (s.holders oid).findSome? fun g => (g.op? oid).bind Op.best with
  | some v => s.writeLanes oid [v]
  | none => (s, true)

/-- Completes an operation: its error bit is set before its count falls (R206). -/
def State.finishOp (s : State) (oid : Nat) (err : Bool) : State :=
  (s.holders oid).foldl (fun s g => (s.updGrp g.gid fun g => g.endOp oid err).after g.gid) s

/-- Completes an operation with its lanes' results. -/
def State.completeOp (s : State) (oid : Nat) (vals : List (Nat × List Word)) (err : Bool) : State :=
  let w := s.writeLanes oid vals
  w.1.finishOp oid (err || !w.2)

/-- Lanes die (R172): DEADMASK, a lane-lost record for each, and the group goes on without them. -/
def State.killLanes (s : State) (gid : Nat) (lanes : List Nat) (addr : Nat) : State :=
  match s.grp? gid with
  | none => s
  | some g =>
    let fresh := lanes.filter fun l => !(g.dead.getLsbD l)
    let s := fresh.foldl (fun s _ => s.logError 4 (dieOf g.core) (quadOf g.core % 4) addr g.part (g.core % 24) []) s
    let s := s.updGrp gid fun g => ({ g with dead := g.dead ||| maskOf lanes } : Group).settle
    match s.grp? gid with
    | some g =>
      if g.splits.isEmpty then
        let s := s.endItems g.core g.grid (g.items.map (·.2))
        s.updGrp gid fun g => { g with items := [] }
      else s
    | none => s

/-! ## Acquires and releases (R58, R277, R278, R288) -/

/-- The writebacks asked for by `cln` are over, as a fence or a release at `.dev` or `.sys` waits for (R288). -/
def State.cleansDone (s : State) (g : Group) (scope : Nat) : Bool :=
  decide (scope < 4) || g.mm.cleans.all fun m => match s.page? g.part m.1 with
    | some pg => !(pg.dirty.any fun e => decide (e.1 = m.2))
    | none => true

/-- The writebacks asked for by `cln` and the RMA writes that a release of a scope waits for (R278, R288). -/
def State.scopeDone (s : State) (g : Group) (scope seq : Nat) : Bool :=
  s.cleansDone g scope
    && (decide (scope ≠ 5) || !(s.rmas.any fun r => decide (r.gid = g.gid) && decide (r.seq < seq) && !r.version))

/-- Every earlier atomic of the group that returns nothing has been performed (R290). -/
def State.atomsDone (s : State) (g : Group) (seq : Nat) : Bool :=
  !((s.writes ++ g.mm.replay).any fun w => decide (w.gid = g.gid) && decide (w.seq < seq) && match w.kind with
    | .atomic _ _ _ _ _ red => !red
    | _ => false)

/-- What an acquire leaves in the caches of its core (R277, R278): for `.clu` and wider L1 is invalidated; at `.sys` it reads no copy of a host-window line fetched before (log 103: how far that reaches). -/
def State.acquired (s : State) (gid scope : Nat) : State :=
  match s.grp? gid with
  | none => s
  | some g =>
    let s := if 2 ≤ scope then s.clearL1 g.core else s
    if scope = 5 then
      let (n, s) := s.fresh
      s.updGrp gid fun g => { g with mm := { g.mm with hwAfter := n } }
    else s

/-- The release conditions of R277 and R278 hold for what the group issued before `seq`. -/
def State.releaseReady (s : State) (g : Group) (scope seq : Nat) : Bool :=
  g.readsDone seq && s.writesDone g seq && s.scopeDone g scope seq

end Sys2Proof.Machine
end

