-- ==== Sys2Proof/Machine/Pair.lean ====
section
/-!
DEFINITION. Paired redundant blocks (R182): where an interval ends, the comparison of the two copies' signatures, and what
follows. An interval ends before an operation that ends one as soon as a split of both copies stands at it, and at the latest when every group of
both copies stands at an end or is asleep (DEDUCED, log 22).
-/

namespace Sys2Proof.Machine

/-- The instructions that end an interval before they issue; a group's `exit` stands for the block's end. -/
def endsInterval : Instr → Bool
  | .bar _ => true | .barc _ => true | .tbar _ => true | .exit _ => true
  | .atom _ => true | .mred _ => true | .blkz _ => true | .cpy _ => true
  | .nbkVload _ => true | .nbkMv _ => true | .nbkDrain _ => true | .nbkClear _ => true | .nbkFence _ => true
  | .msg _ => true | .msgNw _ => true | .spawn _ => true | .node _ => true | .jrnl _ => true | .emit _ => true
  | .jrd _ => true | .jtrunc _ => true | .jtruncClose _ => true | .publish _ => true | .svc _ => true
  | .wakePark _ => true | .wakeQueue _ => true | .wakeMgmt _ => true
  | _ => false

/-- Both copies perform these themselves; the others the primary performs alone. -/
def bothPerform : Instr → Bool
  | .bar _ => true | .barc _ => true | .tbar _ => true | .exit _ => true
  | _ => false

/-- The groups of both copies of a block. -/
def State.pairGroups (s : State) (b : Block) : List Group :=
  s.groups.filter fun g => decide (g.grid = b.grid) && decide (g.bidx = b.bidx) && decide (g.kind = .normal)

/-- What a held store adds to its group's signature. A slot of the cluster frame lies where the copy was placed, and is hashed without its
address (DEDUCED, log 22). -/
def Write.hashed (w : Write) : List Host.Cell :=
  if w.kind = .slot then (List.range w.bytes.length).zip (w.bytes.map (·.2)) else w.bytes

/-- A group's signature over its held stores in program order, and a copy's: the XOR of its groups'. -/
def signature (held : List Write) : DWord :=
  (dedupN (held.map Write.gid)).foldl (fun a gid =>
    a ^^^ (held.filter fun w => decide (w.gid = gid)).foldl (fun h w => Config.pairHash h w.hashed) 0) 0

/-- The frames that a copy of a block on a core has opened. -/
def FrameRec.madeBy (r : FrameRec) (b : Block) (core : Nat) : Bool :=
  decide (r.grid = b.grid) && decide (r.bidx = b.bidx) && decide (r.place = framePlace core r.depth)

def blockFrames (b : Block) (r : Region) : Bool :=
  decide (r.kind = .blockFrame) && decide (r.grid = b.grid) && decide (r.bidx = b.bidx)

/-- A copy of a block as it stands. -/
def State.snapOf (s : State) (b : Block) (copy core : Nat) : Snap :=
  let gs := (s.pairGroups b).filter fun g => decide (g.copy = copy)
  let rs := (s.core! core).regions.filter fun r =>
    (gs.any fun g => groupRegion g.gid r) || (decide (r.grid = b.grid) && decide (r.bidx = b.bidx))
  { groups := gs
    frames := rs.map fun r => (r.base, (s.core! core).store.readN r.base r.len)
    acc := match s.block? b.grid b.bidx copy with | some x => x.acc | none => []
    accPoison := match s.block? b.grid b.bidx copy with | some x => x.accPoison | none => []
    recs := s.frames.filter fun (r : FrameRec) => r.madeBy b core
    regions := (s.core! core).regions.filter (blockFrames b)
    hdrs := (s.frames.filter fun (r : FrameRec) => r.madeBy b core && decide (r.depth = 3)).map fun r => (r.off, s.header core 3 r.off) }

/-- What a group takes back from its snapshot: its displays, stacks, predicates and FMT. A lane that has died stays dead, and what other
agents have done to the group stands (R172, R182). -/
def Group.takeBack (g n : Group) : Group :=
  ({ g with fr := n.fr, splits := n.splits, merges := n.merges, rets := n.rets, nextSid := n.nextSid, preds := n.preds, gp := n.gp
            trap := n.trap, save := n.save } : Group).settle

/-- Gives a copy back its snapshot. A split that waited at a barrier which has completed since has passed it; frames opened since are gone,
those closed since are live again, and a wake that a `sleep` has taken since stands in the register again. -/
def State.restoreSnap (s : State) (b : Block) (copy core : Nat) (n : Snap) : State :=
  let now := s.groups
  let back : Group → Group := fun g => { g with splits := g.splits.map fun (p : Split) =>
    match p.wait with
    | .bar k id =>
      let passed := now.any fun x => decide (x.gid = g.gid) && x.splits.any fun q => decide (q.sid = p.sid) && decide (q.wait ≠ .bar k id)
      if passed then { p with wait := .none } else p
    | _ => p }
  let pick : Group → Group := fun g => match n.groups.find? fun (x : Group) => decide (x.gid = g.gid) with | some x => g.takeBack (back x) | none => g
  let s := { s with groups := s.groups.map pick }
  let s := n.frames.foldl (fun s f => s.updCore core fun k => { k with store := k.store.poke f.1 f.2 }) s
  let s := { s with frames := (s.frames.filter fun (r : FrameRec) => !(r.madeBy b core)) ++ n.recs }
  let s := s.updCore core fun k => { k with regions := (k.regions.filter fun r => !(blockFrames b r)) ++ n.regions }
  let s := n.hdrs.foldl (fun s h => s.setHeader core 3 h.1 h.2) s
  let s := ((b.pair.map Pair.took).getD []).foldl (fun s t => match n.groups.find? fun g => decide (g.gid = t.1) with
    | some _ => s.updGrp t.1 fun g => { g with wake := g.wake ||| t.2.1, wakeGc := g.wakeGc.join t.2.2 }
    | none => s) s
  s.updBlock b.grid b.bidx copy fun x => { x with acc := n.acc, accPoison := n.accPoison }

def State.setWaits (s : State) (b : Block) (f : Wait → Wait) : State :=
  { s with groups := s.groups.map fun g =>
      if g.grid = b.grid ∧ g.bidx = b.bidx ∧ g.kind = .normal then
        { g with splits := g.splits.map fun (p : Split) => { p with wait := f p.wait } } else g }

/-- Discards held stores, their pledges refunded. -/
def State.dropHeld (s : State) (ws : List Write) : State := ws.foldl (fun s w => s.refundTo w.core w.part w.pledge) s

/-- The group reaches no end of an interval by itself: it is asleep, and no wake has come (R314). -/
def Group.asleep (g : Group) : Bool := decide (g.wake = 0) && g.splits.any fun p => decide (p.wait = .sleep)

/-- Nothing of the block is outstanding within it: no operation, no job, no write on its way to on-chip storage. -/
def State.pairQuiet (s : State) (b : Block) : Bool :=
  (s.pairGroups b).all fun g => g.ops.isEmpty && decide (g.place = .resident) && !(s.jobs.any fun j => decide (j.gid = g.gid))
    && !(s.writes.any fun w => decide (w.gid = g.gid) && decide (2 ^ 48 ≤ w.addr))

/-- A group stands at the end of an interval, or is asleep. -/
def Group.atEnd (g : Group) : Bool :=
  g.asleep || g.splits.all fun p =>
    match p.wait with
    | .pairEnd => true
    | .bar .. => true
    | .merged => true
    | _ => false

/-- Every group of both copies stands at the end of an interval, or is asleep, with nothing outstanding within the block. -/
def State.pairReady (s : State) (b : Block) : Bool := s.pairQuiet b && (s.pairGroups b).all Group.atEnd

/-- A split waits at the end of an interval, and so does the same split of the other copy, at the same word. -/
def State.bothAtEnd (s : State) (b : Block) (g : Group) (p : Split) : Bool :=
  decide (p.wait = .pairEnd) && (s.pairGroups b).any fun t => decide (t.copy ≠ g.copy) && decide (t.gidx = g.gidx)
    && t.splits.any fun q => decide (q.sid = p.sid) && decide (q.wait = .pairEnd) && decide (q.pc = p.pc)

/-- The splits that go on to the operations that ended the interval: all of them when every group stands at its end, else those whose other copy
stands there too. -/
def State.passEnd (s : State) (b : Block) : State :=
  let go : Group → Split → Bool := fun g p => decide (p.wait = .pairEnd) && (s.pairReady b || s.bothAtEnd b g p)
  { s with groups := s.groups.map fun g =>
      if g.grid = b.grid ∧ g.bidx = b.bidx ∧ g.kind = .normal then
        { g with splits := g.splits.map fun (p : Split) => if go g p then { p with wait := .pairGo } else p } else g }

/-- The signatures differ: once both copies are quiet, the held stores are discarded, and the interval runs once more, or has done so and raises
0x60. Until then both copies stop. -/
def State.pairDiffer (s : State) (b : Block) : State :=
  match b.pair with
  | none => s
  | some p =>
    if s.pairQuiet b = false then s.updBlock b.grid b.bidx 0 fun x => { x with pair := some { p with bad := true } }
    else
      let s := (s.dropHeld p.held0).dropHeld p.held1
      if p.again then
        let s := s.updBlock b.grid b.bidx 0 fun x => { x with pair := some { p with held0 := [], held1 := [], again := false, bad := false, took := [] } }
        let s := s.setWaits b fun w => if w = .pairEnd then .none else w
        (s.pairGroups b).foldl (fun s g =>
          match g.splits.head? with
          | some q => s.raiseTrap g.gid q.sid 0x60 (amask g q) 0 q.pc q.clause
          | none => s) s
      else
        let s := s.restoreSnap b 0 b.core p.snap0
        let s := s.restoreSnap b 1 p.core1 p.snap1
        let s := s.updBlock b.grid b.bidx 0 fun x => { x with pair := some { p with held0 := [], held1 := [], again := true, sync := false, bad := false, took := [] } }
        match s.grid? b.grid with
        | some g => s.updPart g.part fun q => { q with cnt := { q.cnt with mismatches := q.cnt.mismatches + 1 } }
        | none => s

/-- The signatures are compared: when every group stands at the end of the interval, or early, at an operation that ends one before the block
issues it, while other groups run on. Whether signatures that differ early are judged there, or differ only by what the other groups have still
to do, is open (DEDUCED, log 22). -/
def State.pairCompare (s : State) (b : Block) (early : Bool) : State :=
  match b.pair with
  | none => s
  | some p =>
    if s.pairReady b = false ∧ early = false then s
    else if signature p.held0 = signature p.held1 then
      let t := s.passEnd b
      let t := { t with writes := t.writes ++ p.held0 }
      (t.dropHeld p.held1).updBlock b.grid b.bidx 0 fun x => { x with pair := some { p with held0 := [], held1 := [], again := false, sync := true, took := [] } }
    else if s.pairReady b then s.pairDiffer b
    else
      let t : State := { s with free := s.free + 1 }
      if Config.freeBit s.free 0 then t.pairDiffer b else t

/-- A new interval starts once the operations that ended the last one are over: both snapshots are taken. -/
def State.pairStart (s : State) (b : Block) : State :=
  match b.pair with
  | none => s
  | some p =>
    if s.pairQuiet b && (s.pairGroups b).all fun g => g.splits.all fun q =>
        (match q.wait with | .pairGo => false | .svc => false | .jtrunc .. => false | _ => true) then
      let s := s.freeShut b.grid b.bidx
      let n0 := s.snapOf b 0 b.core
      let n1 := s.snapOf b 1 p.core1
      s.updBlock b.grid b.bidx 0 fun x => { x with pair := some { p with snap0 := n0, snap1 := n1, sync := false } }
    else s

/-- What the gate of a paired block says to an instruction. -/
inductive Gate where
  | go (s : State)
  | stop (s : State)

/-- A split of a paired block at an instruction: between two intervals, and while a difference waits, nothing issues but the operations that ended
the interval. -/
def State.pairGate (s : State) (g : Group) (p : Split) (i : Instr) : Gate :=
  match s.pairBlock g with
  | none => .go s
  | some b =>
    let early : State → Bool := fun s => !(bothPerform i) && s.bothAtEnd b g { p with wait := .pairEnd }
    match p.wait with
    | .pairGo =>
      if g.copy ≠ 0 ∧ bothPerform i = false then .stop s
      else .go (s.updGrp g.gid fun g => g.updSplit p.sid fun p => { p with wait := .none })
    | w =>
      if (b.pair.map Pair.sync).getD false then .stop (s.pairStart b)
      else if (b.pair.map Pair.bad).getD false then .stop (s.pairDiffer b)
      else if w = .pairEnd then .stop (s.pairCompare b (early s))
      else if endsInterval i then
        let s := s.updGrp g.gid fun g => g.updSplit p.sid fun p => { p with wait := .pairEnd }
        .stop (s.pairCompare b (early s))
      else .go s

/-- A `sleep` of a paired block has taken its wake register: what it took comes back should the interval run again. -/
def State.pairTook (s : State) (g : Group) : State :=
  match s.pairBlock g with
  | none => s
  | some b => s.updBlock b.grid b.bidx 0 fun x => { x with pair := x.pair.map fun q => { q with took := (g.gid, g.wake, g.wakeGc) :: q.took } }

/-- The twin of a primary's group. -/
def State.twin (s : State) (g : Group) : Option Group :=
  match s.pairBlock g with
  | none => none
  | some _ => s.groups.find? fun t => decide (t.grid = g.grid) && decide (t.bidx = g.bidx) && decide (t.gidx = g.gidx) && decide (t.copy ≠ g.copy)

/-- A destination as the twin of a paired block names it (R182). -/
def Dest.of (d : Dest) (t : Group) : Dest := { d with handle := if d.depth = 2 then t.fr.d2 else if d.depth = 3 then t.fr.d3 else 0 }

/-- Writes a lane's result, in both copies of a paired block. -/
def State.truncResult (s : State) (g : Group) (d : Dest) (lane : Nat) (v : Word) : State :=
  let s := (s.writeDest g.gid d true [(lane, words1 v)]).1
  match s.twin g with
  | some t => (s.writeDest t.gid (d.of t) true [(lane, words1 v)]).1
  | none => s

/-- The waiting `jtrunc` of a killed group's split ends: 1 in each lane not yet performed (R321). -/
def State.endTruncs (s : State) (g : Group) (p : Split) : State :=
  match p.wait with
  | .jtrunc lanes d =>
    (lanes.foldl (fun (s : State) (t : TruncLane) => s.truncResult g d t.lane 1) s).updGrp g.gid fun g =>
      g.updSplit p.sid fun p => { p with wait := .none }
  | _ => s

/-- A group of a killed grid exits (R152, R321). -/
def State.exitKilled (s : State) (g : Group) : State := (g.splits.foldl (fun s p => s.endTruncs g p) s).endGroup g.gid

/-- The primary has performed an operation alone: its twin's split moves on with it, holds the same operation outstanding,
and gets what the operation has already written to its destination. `before` is the state at issue. -/
def State.pairMirror (s before : State) (x : Ctx) (i : Instr) (us : List Use) : State :=
  match before.pairBlock x.g with
  | none => s
  | some _ =>
    if x.g.copy ≠ 0 ∨ endsInterval i = false ∨ bothPerform i = true then s
    else
      match s.groups.find? fun g => decide (g.grid = x.g.grid) && decide (g.bidx = x.g.bidx) && decide (g.gidx = x.g.gidx) && decide (g.copy = 1), s.grp? x.gid, before.grp? x.gid with
      | some t, some g, some g0 =>
        let ops := (g.ops.filter fun o => !(g0.ops.any fun q => decide (q.oid = o.oid))).map fun o =>
          { o with dest := { o.dest with handle := if o.dest.depth = 2 then t.fr.d2 else if o.dest.depth = 3 then t.fr.d3 else 0 } }
        let s := s.updGrp t.gid fun t => { (t.updSplit x.p.sid fun q => { q with
            wait := (match (g.split? x.p.sid).map Split.wait with | some .svc => Wait.svc | some (.jtrunc ..) => Wait.svc | _ => Wait.none)
            pc := if x.p.pc + 8 = x.c.next then x.c.next else x.p.pc + 8
            clause := if x.p.pc + 8 = x.c.next then none else q.clause }) with ops := t.ops ++ ops, place := g.place }
        us.foldl (fun s u =>
          match u.role with
          | .dst n _ =>
            let y : Ctx := { x with s := s, g := g }
            let o := x.f.opd u.fld
            let d := { y.dest o with handle := if opDepth o = 2 then t.fr.d2 else if opDepth o = 3 then t.fr.d3 else 0 }
            (s.writeDest t.gid d true (x.lanes.map fun l => (l, (List.range n).map fun k => y.slot o k l))).1
          | _ => s) s
      | _, _, _ => s

end Sys2Proof.Machine
end

