-- ==== Sys2Proof/Machine/Issue.lean ====
section
/-!
DEFINITION. The issue of one instruction word by a split (R211, R212): the checks in the order of R212, then the
instruction's own part, then where the split goes next.
-/

namespace Sys2Proof.Machine

/-- How an instruction's own part ends. -/
inductive Eff where
  /-- performed: the split goes to its next word, or past the clause -/
  | done (s : State)
  /-- performed: the instruction has placed its split itself -/
  | placed (s : State)
  /-- waits: the split issues it again -/
  | wait (s : State)
  /-- raises a trap before any lane is performed: cause, TLM, TADDR -/
  | trap (code : BitVec 8) (tlm : Mask) (addr : Nat)

/-- Lanes wait behind the path that the split runs: another part of a branch, a loop, or a `split` that acted as `bra` (R168, R297, R351). -/
def Group.heldBack (g : Group) (p : Split) : Bool :=
  (p.stack.any fun e => decide (e.mask &&& ~~~ (p.mask ||| g.dead) ≠ 0))
    || p.merge.isSome && g.merges.any fun m => m.stack.any fun e => decide (e.mask &&& ~~~ (m.mask ||| g.dead) ≠ 0)

/-- A clause of a split has ended where it stands now. -/
def State.spinAt (s : State) (g : Group) (p : Split) (loose : Bool) : Spin :=
  let k := s.core! g.core
  let mine := k.regions.filter fun r => decide (r.grid = g.grid) && decide (r.bidx = g.bidx)
  { gid := g.gid, split := p, held := g.heldBack p, loose := loose, again := g.mm.again, preds := if loose then [] else g.preds
    gp := if loose then 0 else g.gp, dead := g.dead, fr := g.fr, rets := g.rets
    cells := if loose then [] else mine.flatMap fun r => (k.store.slice r.base r.len).mem, n := 0, limit := 1, period := 0 }

/-- The record of a split after a clause more, and whether the split goes round in a circle; in a loose one it does so by loads that bring nothing
new. -/
def Spin.next (old new : Spin) : Spin × Bool :=
  if { old with again := new.again, n := 0, limit := 1, period := 0 } = new ∧ (new.loose = false ∨ old.again < new.again) then
    ({ old with again := new.again, n := 0, period := old.n + 1 }, true)
  else if old.n + 1 < old.period then ({ old with n := old.n + 1 }, true)
  else if old.limit ≤ old.n + 1 then ({ new with limit := 2 * old.limit }, false)
  else ({ old with n := old.n + 1, period := 0 }, false)

/-- The record of one kind after a clause more, among those of a grid. -/
def Spin.renew (old : List Spin) (new : Spin) : Spin × Bool :=
  match old.find? fun k => decide (k.gid = new.gid) && decide (k.split.sid = new.split.sid) && decide (k.loose = new.loose) with
  | some k => k.next new
  | none => (new, false)

/-- A split has ended a clause: the grid's records, and whether the clause counts as retired for the watchdog (R153). While a split of the grid goes
round in a circle with lanes waiting behind its path, no clause that ends in a circle counts (R351); whether one counts that ends in a circle of
loads alone, or one of a demoted group, is open (DESIGN CHOICE, log 106). -/
def State.noteSpin (s : State) (r : Grid) (x : Ctx) : List Spin × Bool :=
  let lives : Spin → Bool := fun k => (s.grp? k.gid).any fun g => (g.split? k.split.sid).isSome
  let rest := r.spins.filter fun k => lives k && !(decide (k.gid = x.gid) && decide (k.split.sid = x.p.sid))
  match (s.grp? x.gid).bind fun g => (g.split? x.p.sid).map fun p => (g, p) with
  | some (g, p) =>
    let exact := Spin.renew r.spins (s.spinAt g p false)
    let loose := Spin.renew r.spins (s.spinAt g p true)
    let stuck := g.heldBack p || rest.any fun k => k.held && decide (k.period ≠ 0)
    (exact.1 :: loose.1 :: rest, !(stuck && exact.2) && !(((stuck && loose.2) || x.g.mm.demoted) && !Config.spinRetires))
  | none => (rest, !(x.g.mm.demoted && !Config.spinRetires))

/-- The split retires a clause: the time that the watchdog counts from (R153). -/
def State.retireClause (s : State) (x : Ctx) : State :=
  s.updGrid x.g.grid fun r =>
    { r with spins := (s.noteSpin r x).1, lastRet := if (s.noteSpin r x).2 then s.dev.up else r.lastRet }

/-- The depth 2 and 3 slots that an instruction reads: least scope, address and bytes (R164). -/
def Ctx.slotReads (x : Ctx) : List (Nat × Nat × Nat) :=
  if x.act = 0 then [] else x.us.filterMap fun u =>
    let o := x.f.opd u.fld
    if u.reads ∧ 2 ≤ opDepth o then some (opDepth o - 1, slotVa (x.g.display (opDepth o)) (opSlot o), 4 * u.count) else none

/-- What such a read finds; bytes that the group's own writes lie over find nothing. -/
def Ctx.slotFind (x : Ctx) (scope a n : Nat) : Heard :=
  let as := (bytesFrom a n).filter fun a => !(x.s.writes.any fun w => decide (w.gid = x.gid) && inRange w.bytes a 1)
  { scope := scope
    clk := as.foldl (fun c a => let l := x.s.locate x.part x.g.core a; c.join (x.s.markAt x.part (l.die x.part) l).stamp)
      (x.s.earlyClock x.gid a n VClock.zero)
    rels := x.s.relsAt x.g.part x.gid x.g.core (x.s.placesAt x.part x.g.core as) }

/-- The reads are relaxed: what they find waits for a fence at the slot's scope or wider (R164). -/
def State.hearSlots (s : State) (x : Ctx) : State :=
  s.updMm x.gid fun m => x.slotReads.foldl (fun m r => m.addHeard (x.slotFind r.1 r.2.1 r.2.2)) m

/-- The split goes past the word it has issued. -/
def State.advance (s : State) (x : Ctx) : State :=
  if x.p.pc + 8 = x.c.next then
    (s.updGrp x.gid fun g => g.updSplit x.p.sid fun p => { p with pc := x.c.next, clause := none }).retireClause x
  else s.updGrp x.gid fun g => g.updSplit x.p.sid fun p => { p with pc := x.p.pc + 8 }

/-- The split goes to a clause header. -/
def State.jump (s : State) (x : Ctx) (pc : Nat) : State :=
  (s.updGrp x.gid fun g => g.updSplit x.p.sid fun p => { p with pc := pc, clause := none }).retireClause x

/-- Instructions that are not legal in the group's context: trap 0x01 (R38, R44, R305). -/
def contextFault (g : Group) : Instr → Bool
  | .bar _ => decide (g.kind = .request) || decide (g.kind = .reply)
  | .barc _ => decide (g.kind = .request) || decide (g.kind = .reply)
  | .tbar _ => decide (g.kind = .request) || decide (g.kind = .reply)
  | .tjoin _ => decide (g.kind = .request) || decide (g.kind = .reply)
  | .tleave _ => decide (g.kind = .request) || decide (g.kind = .reply)
  | .sleep _ => decide (g.kind = .reply)
  | .svc _ => decide (g.kind = .reply)
  | .callx _ => decide (g.kind = .reply)
  | .tret _ => !g.trap.inH
  | _ => false

/-- The tile that an instruction names (R322). -/
def tileOf : Instr → Option Nat
  | .mma f => some (f.mod.toNat % 128)
  | .mmag f => some (f.mod.toNat % 128)
  | .accz f => some (f.mod.toNat % 128)
  | .accrd f => some f.sa.toNat
  | .accrdQ f => some f.sa.toNat
  | .accwr f => some f.dst.toNat
  | _ => none

/-- A tile number at or above the block's ACCT, or any in a group that has no block (R322). -/
def State.tileFault (s : State) (g : Group) (i : Instr) : Bool :=
  match tileOf i with
  | none => false
  | some n => decide (g.kind ≠ .normal) || match s.grid? g.grid with | some x => decide (x.card.acct ≤ n) | none => true

/-- The first encoding fault of a word in the order of R212. -/
def issueFault (s : State) (g : Group) (p : Split) (c : Clause) (i : Instr) (k : OpInfo) : Option (BitVec 8) :=
  if contextFault g i then some 0x01
  else if k.last && decide (p.pc + 8 ≠ c.next) then some 0x06
  else if formFault i k then some 0x02
  else if k.long && (flagOf c.word k.fld.fs).isNone then some 0x04
  else if wordFault i k || (uses i).any (slotFault s g k.fld) || s.tileFault g i then some 0x03
  else none

/-- Instructions that issue to another agent: each is a `.dev` release, and waits at issue (R58, R128, R315, R336, R338). -/
def isHandover : Instr → Bool
  | .mma _ => true | .mmag _ => true | .accz _ => true | .accrd _ => true | .accrdQ _ => true | .accwr _ => true | .cpy _ => true
  | .nbkVload _ => true | .nbkMv _ => true | .nbkDrain _ => true | .nbkClear _ => true | .nbkFence _ => true
  | .spawn _ => true | .node _ => true | .msg _ => true | .msgNw _ => true | .publish _ => true | .emit _ => true
  | .wakePark _ => true | .wakeQueue _ => true | .wakeMgmt _ => true
  | _ => false

/-- Instructions that must wait for the group's held stores (R363). -/
def waitsHeld : Instr → Bool
  | .st f => decide (f.mod.toNat / 8 % 4 = 2) | .stm f => decide (f.mod.toNat / 8 % 4 = 2)
  | .atom f => f.mod.getLsbD 7 | .mred f => f.mod.getLsbD 7
  | .fence f => f.mod.getLsbD 1 | .fenceTotal _ => true
  | i => isHandover i

/-- An operand goes to a depth 2 or 3 slot on which an atomic of the group is still on its way (R156), or reads one that an early release has
reached whose earlier writes are not all accepted (R164, R356). -/
def State.slotBusy (s : State) (g : Group) (f : Fld) (us : List Use) : Bool :=
  us.any fun u =>
    let o := f.opd u.fld
    decide (2 ≤ opDepth o) &&
      let a := slotVa (g.display (opDepth o)) (opSlot o)
      (s.writes.any fun w => decide (w.gid = g.gid) && (match w.kind with | .atomic .. => true | _ => false)
        && w.bytes.any fun c => decide (a ≤ c.1) && decide (c.1 < a + 4 * u.count))
      || u.reads && (s.earlyAt g.gid a (4 * u.count)).any s.earlyOpen

/-- The group stops at an instruction word because of a memory fault that is pending (R363). -/
def State.stopHere (s : State) (g : Group) (p : Split) (c : Clause) : State :=
  match g.mm.fault with
  | some (code, m, a) => s.decideStop g.gid { why := .page, sid := p.sid, code := code, tlm := m, taddr := a, tpc := p.pc, clause := some c }
  | none => s

/-- A read of the group is held until a verdict: lanes held for a page fault, an atomic in the replay buffer, what can go on only after
these. `all` counts every read, else those that acquire. -/
def State.readHeld (s : State) (g : Group) (all : Bool) : Bool :=
  (g.ops.any fun o => (all || o.kind.isAcq) && (s.heldUp g).part.contains o.oid)
    || all && g.mm.replay.any fun w => match w.kind with | .atomic _ _ _ _ _ red => !red | _ => false

/-- The instruction waits for reads issued before it. Where one of them is held until a verdict, which only a parked group gets, it is a stop
point (DEDUCED, log 42); else the split issues it again. -/
def State.awaitReads (s : State) (g : Group) (p : Split) (c : Clause) (all : Bool) : State :=
  if s.readHeld g all then s.stopHere g p c else s

/-- Whether a split of the group may issue: the group stands on its core, and no other split of it is asleep (R314). -/
def Group.mayIssue (g : Group) (sid : Nat) : Bool :=
  decide (g.place = .resident) && g.splits.all fun p => decide (p.sid = sid) || decide (p.wait ≠ .sleep)

/-- Whether a split that waits so issues its instruction (again). -/
def Wait.mayIssue : Wait → Bool
  | .none => true | .total => true | .sleep => true | .pairEnd => true | .pairGo => true
  | _ => false

/-- Request entries of a core in use (R11, R57): a lane's access on its way, what is held for replay, and a lane of a load that has not
returned. -/
def State.requests (s : State) (core : Nat) : Nat :=
  let mine := s.groups.filter fun g => decide (g.core = core)
  (s.writes.filter fun w => decide (w.core = core) && decide (w.kind ≠ .slot)).length
    + (mine.map fun g => g.mm.replay.length).sum
    + (mine.map fun g => (g.ops.map fun o => match o.kind with | .load ls .. => ls.length | _ => 0).sum).sum

/-- The request entries that a memory instruction takes: one for each lane, or for `.g`; an `stm` may take two. -/
def entriesOf (i : Instr) (act : Mask) : Nat :=
  let n : Fld → Nat := fun f => if f.g then 1 else (lanesOf act).length
  match i with
  | .ld f => n f | .st f => n f | .stm f => 2 * n f | .atom f => n f | .mred f => n f | .blkz f => n f
  | _ => 0

/-- The core has the request entries that the instruction takes; without them it stalls (R57). -/
def State.entriesFree (s : State) (core : Nat) (i : Instr) (act : Mask) : Bool :=
  decide (entriesOf i act = 0) || decide (s.requests core + entriesOf i act ≤ 4096)

/-- The issue of instruction `i` by the current split; `sem` is the instruction's own part. With no current split, or one
that does not stand at an instruction word, nothing happens. A stale D2 or D3 raises 0x22 in a class 2 instruction too, which R254 does not list and
R163 demands (DESIGN CHOICE, log 128). -/
def runIsa (i : Instr) (sem : Ctx → Eff) (s : State) : State :=
  match info i, s.cur with
  | some k, some cur =>
    match s.grp? cur.gid with
    | none => s
    | some g =>
      match g.split? cur.sid with
      | none => s
      | some p =>
        match p.clause with
        | none => s
        | some c =>
          if g.mayIssue p.sid = false then s
          else if s.killed g then s.exitKilled g
          else if (g.stop.map Stop.sid) = some p.sid then s.settleStop g.gid
          else if p.wait.mayIssue = false then s
          else
            let act := if k.guard then activeOf g p k.fld else amask g p
            match issueFault s g p c i k with
            | some code => s.raiseTrap g.gid p.sid code act 0 p.pc (some c)
            | none =>
              match (if act = 0 then none else staleUse s g k.fld (uses i)) with
              | some h => s.raiseTrap g.gid p.sid 0x22 act h.toNat p.pc (some c)
              | none =>
                if decide (act ≠ 0) && waitsHeld i && !g.mm.replay.isEmpty then s.stopHere g p c
                else if decide (act ≠ 0) && isHandover i && !(s.releaseReady g 4 g.seq) then s.awaitReads g p c true
                else if decide (act ≠ 0) && (s.slotBusy g k.fld (uses i) || !(s.entriesFree g.core i act)) then s
                else if k.long && decide (act ≠ 0) && decide (63 ≤ g.flagCount ((flagOf c.word k.fld.fs).getD noFlag)) then s
                else
                  match s.pairGate g p i with
                  | .stop s => s
                  | .go s =>
                    let g := (s.grp? g.gid).getD g
                    let x : Ctx := { s := s, g := g, p := (g.split? p.sid).getD p, c := c, f := k.fld, act := act, us := uses i }
                    match sem x with
                    | .done t => (((t.hearSlots x).advance x).pairMirror s x i (uses i)).after g.gid
                    | .placed t => (t.pairMirror s x i (uses i)).after g.gid
                    | .wait t => t.after g.gid
                    | .trap code m a => s.raiseTrap g.gid p.sid code m a p.pc (some c)
  | _, _ => s

/-- The instruction waits for what the group has issued before it: for every read, or for those that acquire. -/
def Ctx.hold (x : Ctx) (all : Bool) : Eff := .wait (x.s.awaitReads x.g x.p x.c all)

/-- An instruction that does nothing when no lane is active, and otherwise `sem`. -/
def runLanes (i : Instr) (sem : Ctx → Eff) (s : State) : State :=
  runIsa i (fun x => if x.act = 0 then .done x.s else sem x) s

end Sys2Proof.Machine
end

