-- ==== Sys2Proof/Machine/Capacity.lean ====
section
/-!
DEFINITION. Credit and capacity: pledges at issue (R82, R84), refills and capacity faults (R84-R86), refunds (R83, R85),
the balloon protocol (R87-R89), and `cres` (R293).
-/

namespace Sys2Proof.Machine

/-- What a governor is asked for (R84). -/
def refillSize (chunk need credit : Nat) : Nat := max chunk (roundUp (need - credit) 8)

def State.chunkOf (s : State) (core : Nat) : Nat := ((s.ownerOf (quadOf core)).map fun p => p.regs.chunk).getD 256

/-- The first of a core's waiting instructions asks the governor for a refill (R84). -/
def State.askRefill (s : State) (core gid sid need : Nat) : State :=
  let chunk := s.chunkOf core
  s.updCore core fun k => { k with
    refill := some (refillSize chunk need k.credit)
    waiters := k.waiters.map fun w => { w with asked := decide (w.gid = gid) && decide (w.sid = sid) } }

/-- A pledge at issue. -/
inductive Pledged where
  | ok (s : State)
  | waits (s : State)

/-- Pledges `need` cells for the whole instruction, or waits in the order in which instructions tried to issue. -/
def State.pledge (s : State) (core gid sid need : Nat) (tlm : Mask) (taddr : Nat) : Pledged :=
  let k := s.core! core
  let mine : Waiter → Bool := fun w => decide (w.gid = gid) && decide (w.sid = sid)
  let first : Bool := match k.waiters with | [] => true | w :: _ => mine w
  if need = 0 then .ok s
  else if first && decide (need ≤ k.credit) then
    .ok (s.updCore core fun k => { k with credit := k.credit - need, waiters := k.waiters.filter fun w => !(mine w) })
  else
    let s := if k.waiters.any mine then s else s.updCore core fun k => { k with
      waiters := k.waiters ++ [{ gid := gid, sid := sid, need := need, cres := false, tlm := tlm, taddr := taddr, denied := false, asked := false, own := false }] }
    .waits (if first && k.refill.isNone then s.askRefill core gid sid need else s)

/-- A capacity fault (R86): the fault takes the partition's next number; the group stops at the instruction and parks, or a
group of the agent grid takes the trap at once (R88). While a memory fault of the group is pending, the group stops there with that
fault's cause, and nothing is counted (R363). While another split's stop is decided the instruction waits for that and issues again (R173) (DESIGN CHOICE, log 90). -/
def State.capacityFault (s : State) (w : Waiter) (g : Nat) : State :=
  match s.grp? w.gid with
  | none => s
  | some x =>
    if x.mm.fault.isSome ∨ x.stopsElse w.sid = true then
      let p := (x.split? w.sid).getD default
      s.raiseTrap w.gid w.sid 0x12 w.tlm w.taddr p.pc p.clause
    else
    let s := s.updPart x.part fun p => { p with cnt := { p.cnt with faults := p.cnt.faults + 1 } }
    let no := ((s.part? x.part).map fun p => p.cnt.faults.toNat).getD 0
    let p := (x.split? w.sid).getD default
    if (s.agent x.part).map Grid.id = some x.grid then
      (s.hardPressure x.part).raiseTrap w.gid w.sid 0x12 w.tlm w.taddr p.pc p.clause
    else
      let st : Stop := { why := .capacity, sid := w.sid, code := 0x12, tlm := w.tlm, taddr := w.taddr, tpc := p.pc, clause := p.clause }
      let s := s.updGrp w.gid fun x => { x with cap := some ⟨no, g, w.need, s.dev.up⟩, stop := some st }
      (s.settleStop w.gid).hardPressure x.part

/-- A refill is denied: the waiter that asked and those behind it that CREDIT does not cover fault in their order; a `cres`
does not fault, and those behind it that CREDIT does not cover make their own requests, each to fault only by its own denial (R86, R293). A refund
that has arrived meanwhile is applied first: what it covers issues (R84), a `cres` with 1, and when the waiter that asked has issued, nobody faults
(DEDUCED, log 91). -/
def State.denyRefill (s : State) (core g : Nat) : State :=
  let k := s.core! core
  match k.waiters.find? Waiter.asked with
  | none => s
  | some w =>
    if w.cres then
      let short := decide (k.credit < w.need)
      s.updCore core fun k => { k with waiters := k.waiters.map fun v =>
        if v.asked then { v with denied := short, asked := false } else { v with own := v.own || short && decide (k.credit < v.need) } }
    else
      let chunk := s.chunkOf core
      let out : Waiter → Bool := fun v => (v.asked || !v.own) && !v.cres && decide (k.credit < v.need)
      let s := s.updCore core fun k => { k with waiters := (k.waiters.filter fun v => !(out v)).map fun v => { v with asked := false } }
      (k.waiters.filter out).foldl (fun s v => s.capacityFault v (if v.asked then g else refillSize chunk v.need k.credit)) s

/-- CREDIT_REFILL (R84): the governor grants from A, or denies. -/
def execCreditRefill (core : Nat) (s : State) : Out' :=
  .next (match (s.core! core).refill, s.ownerOf (quadOf core) with
    | some g, some p =>
      let s := s.updCore core fun k => { k with refill := none }
      if (g : Int) ≤ p.avail then (s.updCore core fun k => { k with credit := k.credit + g }).addP p.id g 0
      else s.denyRefill core g
    | _, _ => s)

/-- Credit that the instructions about to issue take: the waiters in their order, as long as `n` covers them. -/
def coveredNeed : List Waiter → Nat → Nat
  | [], _ => 0
  | w :: ws, n => if w.need ≤ n then w.need + coveredNeed ws (n - w.need) else 0

/-- A refund reaches its core (R83): what it lets the waiting instructions issue with stays (R84); when the rest is above
2 × CREDIT_CHUNK, the excess above CREDIT_CHUNK is returned (R85). A core that has left the partition returns all of it; inbound writes' refunds go to the partition (R114). -/
def State.applyRefund (s : State) (r : Refund) : State :=
  match s.part? r.part with
  | none => s
  | some p =>
    if r.core < 384 ∧ p.quads.contains (quadOf r.core) then
      let s := s.updCore r.core fun k => { k with credit := k.credit + r.cells }
      let k := s.core! r.core
      let rest := k.credit - coveredNeed k.waiters k.credit
      if 2 * p.regs.chunk < rest then s.returnCredit r.core r.part (rest - p.regs.chunk) else s
    else s.addP r.part 0 r.cells

/-- REFUND (R83): refund `k` of those in flight arrives. -/
def execRefund (k : Nat) (s : State) : Out' :=
  .next (match s.refunds[k]? with
    | some r => ({ s with refunds := s.refunds.eraseIdx k } : State).applyRefund r
    | none => s)

/-! ## The balloon protocol (R89) -/

/-- What stands in a partition's fault order: groups (left) and copy nodes (right), with number and refill. -/
def State.faultOrder (s : State) (part : Nat) : List (Nat × Nat × Nat ⊕ Nat × Nat × Nat) :=
  let gs := s.groups.filterMap fun g => if g.part = part then g.cap.map fun c => (c.no, c.g, Sum.inl g.gid) else none
  let ns := s.nodes.filterMap fun n => if n.part = part then n.cap.map fun c => (c.no, c.g, Sum.inr n.nid) else none
  (sortBy (fun e : Nat × Nat × (Nat ⊕ Nat) => e.1) (gs ++ ns)).map fun e =>
    match e.2.2 with
    | .inl k => .inl (e.1, e.2.1, k)
    | .inr k => .inr (e.1, e.2.1, k)

/-- The group goes on from a park; a memory fault reported meanwhile keeps it parked, or is delivered here (R363). -/
def State.resume (s : State) (gid : Nat) : State :=
  match s.grp? gid with
  | none => s
  | some g =>
    match g.mm.fault with
    | some (c, m, a) =>
      let p := match g.place with
        | .parked st => (g.split? st.sid).getD (g.splits.headD default)
        | _ => g.splits.headD default
      let st : Stop := { why := .page, sid := p.sid, code := c, tlm := m, taddr := a, tpc := p.pc, clause := p.clause }
      if g.faultPending then s.updGrp gid fun g => { g with place := .parked st }
      else (s.updGrp gid fun g => { g with mm := { g.mm with fault := none } }).takeTrap gid st
    | none => s.comeBack gid

/-- A granted group's instruction stands first among those that wait for credit until it issues again: the core keeps what it needs
(R85, R89). -/
def State.awaitAgain (s : State) (gid : Nat) (c : CapFault) (st : Stop) : State :=
  match s.grp? gid with
  | none => s
  | some g =>
    if g.place = .resident then s.updCore g.core fun k => { k with
      waiters := { gid := gid, sid := st.sid, need := c.need, cres := false, tlm := st.tlm, taddr := st.taddr, denied := false, asked := false, own := false } :: k.waiters }
    else s

/-- A parked group receives cause 0x12; a store fault that was reported meanwhile must be resolved first, or is delivered in its place when
that has been refused (R57, R363). -/
def State.giveCause (s : State) (g : Group) (st : Stop) : State :=
  match g.mm.fault with
  | none => s.takeTrap g.gid st
  | some (c, m, a) =>
    if g.faultPending then s.updGrp g.gid fun g => { g with
      place := .parked { st with why := .page, code := c, tlm := m, taddr := a }, stop := some { st with why := .trap } }
    else s.resume g.gid

/-- Every parked group receives cause 0x12 in fault order, one still on its way to its park once it has stopped (R173); a copy node ends
with error (R89, R332). -/
def State.deliverCapacity (s : State) (part : Nat) : State :=
  ((s.faultOrder part).foldl (fun s e =>
    match e with
    | .inl (_, _, gid) =>
      match s.grp? gid with
      | some g =>
        let s := s.updGrp gid fun g => { g with cap := none }
        match g.place, g.stop with
        | .parked st, _ => s.giveCause g st
        | _, some st => (s.updGrp gid fun g => { g with stop := some { st with why := .trap } }).settleStop gid
        | _, none => s
      | none => s
    | .inr (_, _, nid) => s.updNode part nid fun n => { n with cap := none, started := true, result := some 10 }) s).settlePressure part

/-- Copy nodes whose own denial's event has waited too long end with error (R332). -/
def State.expireNodes (s : State) (part wait : Nat) : State :=
  let due : Node → Bool := fun n => decide (n.part = part) && n.cap.any fun c => decide (c.since + wait ≤ s.dev.up)
  ({ s with nodes := s.nodes.map fun n => if due n then { n with cap := none, started := true, result := some 10 } else n } : State).settlePressure part

/-- BALLOON_TIMEOUT (R89, R332): no acknowledgement within BALLOON_TIMEOUT µs of the event: the latest of hard pressure for the groups, that of
its own denial for a copy node (DEDUCED, log 55). -/
def execBalloonTimeout (part : Nat) (s : State) : Out' :=
  .next (match s.part? part with
    | some p =>
      if p.press.hard ∧ p.press.since + 1000 * p.regs.balloonTimeout ≤ s.dev.up then s.deliverCapacity part
      else s.expireNodes part (1000 * p.regs.balloonTimeout)
    | none => s)

/-! ## cres (R293) -/

/-- `cres d, n` (R293): d is 1 when CREDIT covers n at the end, else 0 when the grant is denied. It waits for an acquire before it (R277). -/
def execCres (f : Fld) (s : State) : Out' :=
  .next (runLanes (.cres f) (fun x =>
    let n := if f.i then ((immFor 2 f).setWidth 32 : Word).toNat else (x.slot f.sb 0 (lowest x.act)).toNat
    if 4096 < n then .trap 0x03 x.act 0
    else if x.g.acqBefore x.g.seq then x.hold false
    else
      let k := x.s.core! x.g.core
      let mine : Waiter → Bool := fun w => decide (w.gid = x.gid) && decide (w.sid = x.p.sid)
      let done : Nat → Eff := fun v => .done (x.wr ((x.s.updCore x.g.core fun k => { k with waiters := k.waiters.filter fun w => !(mine w) }).noteMem x.gid)
        f.dst fun _ => words1 (BitVec.ofNat 32 v))
      let first : Bool := match k.waiters with | [] => true | w :: _ => mine w
      let denied := k.waiters.any fun w => mine w && w.denied
      if first && decide (n ≤ k.credit) then done 1
      else if denied then done 0
      else
        let s := if k.waiters.any mine then x.s else x.s.updCore x.g.core fun k => { k with
          waiters := k.waiters ++ [{ gid := x.gid, sid := x.p.sid, need := n, cres := true, tlm := x.act, taddr := 0, denied := false, asked := false, own := false }] }
        .wait (if first && k.refill.isNone then s.askRefill x.g.core x.gid x.p.sid n else s)) s)

/-- `cres.ret d` (R293): returns the credit that waiting instructions do not need. It waits for an acquire before it (R277). -/
def execCresRet (f : Fld) (s : State) : Out' :=
  .next (runLanes (.cresRet f) (fun x =>
    let k := x.s.core! x.g.core
    let n := k.credit - k.needed
    let s := if n = 0 then x.s else x.s.returnCredit x.g.core x.g.part n
    if x.g.acqBefore x.g.seq then x.hold false
    else .done (x.wr (s.noteMem x.gid) f.dst fun _ => words1 (BitVec.ofNat 32 n))) s)

end Sys2Proof.Machine
end

