-- ==== Sys2Proof/Machine/Cells.lean ====
section
/-!
DEFINITION. Pages and their cells: what translation answers (R55, R56, R112), the expander (R73), sealed cells (R60), the block
table as it lies in cells 0-3 (R74), and poison of whole mem-blocks (R62).
-/

namespace Sys2Proof.Machine

/-! ## Pages as an access finds them (R55, R56, R112) -/

/-- What translation answers for a byte of partition memory. -/
inductive Xlat where
  | unmapped
  | mem (pg : Page)
  | host (pg : Page) (win addr : Nat)
deriving DecidableEq, Repr

def State.xlat (s : State) (part va : Nat) : Xlat :=
  match s.page? part (va / 65536) with
  | none => .unmapped
  | some pg =>
    match pg.hw with
    | none => .mem pg
    | some (w, ix) =>
      match (s.part? part).bind fun p => p.windows.find? fun x => decide (x.num = w) with
      | some x => .host pg w (x.host + 65536 * ix + va % 65536)
      | none => .unmapped

def Xlat.w : Xlat → Bool
  | .unmapped => false
  | .mem pg => pg.w
  | .host pg _ _ => pg.w

/-- COUNT of a mem-block's entry, 15 counting as 0. -/
def Page.count (pg : Page) (b : Nat) : Nat := match assoc b pg.table with | some (c, _) => if c = 15 then 0 else c | none => 0

def Page.rawBlock (pg : Page) (b : Nat) : Bool := decide (pg.cls ≠ 0) || pg.hw.isSome || decide (pg.count b = 8)


/-! ## The expander (R73) -/

/-- Codes of mode 0x03: words, most of them from the dictionary; none for an invalid code or when the bits run out. -/
def dec03 (dict : List Nat) : Nat → Nat → Nat → Option (List Nat)
  | 0, _, _ => some []
  | n + 1, bits, v =>
    if bits < 5 then none
    else
      let c := v % 32
      if c = 31 then
        if bits < 37 then none else (dec03 dict n (bits - 37) (v / 2 ^ 37)).map fun ws => v / 32 % 2 ^ 32 :: ws
      else match dict[c]? with
        | some w => (dec03 dict n (bits - 5) (v / 32)).map fun ws => w :: ws
        | none => none

/-- Copies `n` bytes from distance `d` back, one at a time. -/
def copyBack (d : Nat) : Nat → List Byte → List Byte
  | 0, out => out
  | n + 1, out => copyBack d n (out ++ (out.drop (out.length - d)).take 1)

/-- Tokens of mode 0x04 until 512 bytes are produced. -/
def dec04 : Nat → List Byte → List Byte → Option (List Byte)
  | 0, _, _ => none
  | fuel + 1, inp, out =>
    if out.length = 512 then some out
    else match inp with
      | [] => none
      | t :: rest =>
        if t.toNat < 128 then
          let n := t.toNat + 1
          if rest.length < n ∨ 512 < out.length + n then none else dec04 fuel (rest.drop n) (out ++ rest.take n)
        else
          let n := t.toNat - 128 + 4
          let d := leNat (rest.take 2)
          if rest.length < 2 ∨ d = 0 ∨ out.length < d ∨ 512 < out.length + n then none
          else dec04 fuel (rest.drop 2) (copyBack d n out)

/-- The expander: `count` cells hold `bs`; none for an invalid stream. -/
def expandBlock (dict : List Word) (count : Nat) (bs : List Byte) : Option (List Byte) :=
  if count = 0 then some (List.replicate 512 0)
  else if count = 8 then (if bs.length = 512 then some bs else none)
  else if 8 < count then none
  else match bs with
    | 1 :: _ => some ((List.range 128).flatMap fun _ => (bs.drop 4).take 4)
    | 2 :: w :: _ =>
      let w := w.toNat
      if w = 0 ∨ 27 < w ∨ bs.length < 8 + 16 * w then none
      else
        let base := leNat ((bs.drop 4).take 4)
        let v := leNat (bs.drop 8)
        some ((List.range 128).flatMap fun i => leBytes 4 ((base + v / 2 ^ (w * i) % 2 ^ w) % 2 ^ 32))
    | 3 :: _ => (dec03 (dict.map BitVec.toNat) 128 (8 * (bs.length - 8)) (leNat (bs.drop 8))).map fun ws => ws.flatMap (leBytes 4)
    | 4 :: rest => dec04 513 rest []
    | _ => none

/-! ## Cells of a page (R60, R74) -/

/-- Seals bytes into a page's cells from cell `off` of its extent. -/
def sealAt (key : BitVec 256) (quad extent : Nat) : Nat → List Byte → Nat → List Sealed
  | 0, _, _ => []
  | n + 1, bs, off =>
    { off := off, key := key, tweak := BitVec.ofNat 128 (quad * 2 ^ 30 + (extent + off)), data := bs.take 64 } :: sealAt key quad extent n (bs.drop 64) (off + 1)

/-- Puts sealed cells in place of those at the same offsets. -/
def putCells (cs new : List Sealed) : List Sealed := new ++ cs.filter fun c => !(new.any fun d => decide (d.off = c.off))

/-- The bytes of `n` cells from `off`. -/
def Page.cellBytes (pg : Page) (off n : Nat) : List Byte :=
  (List.range n).flatMap fun i => match pg.cells.find? fun c => decide (c.off = off + i) with
    | some c => c.data ++ List.replicate (64 - c.data.length) 0
    | none => List.replicate 64 0

/-- Re-encrypts a page's cells for a new extent. -/
def moveCells (quad extent : Nat) (cs : List Sealed) : List Sealed :=
  cs.map fun c => { c with tweak := BitVec.ofNat 128 (quad * 2 ^ 30 + (extent + c.off)) }

def Part.keyOf (p : Part) (pg : Page) : BitVec 256 := ((p.keys.getD pg.key none)).getD Config.emptyKey

/-! ## The block table in DRAM (R74) -/

/-- A block table as it lies in cells 0-3: 128 little-endian entries of 16 bits, COUNT at bit 10 and OFFSET at bit 0. -/
def tableBytes (t : List (Nat × Nat × Nat)) : List Byte :=
  (List.range 128).flatMap fun b => leBytes 2 (match assoc b t with | some (c, o) => c * 1024 + o | none => 0)

/-- A page of CLASS 0 with a new block table, which goes through to its DRAM copy (R74, R78). -/
def Page.setTable (pg : Page) (p : Part) (quad : Nat) (t : List (Nat × Nat × Nat)) : Page :=
  { pg with table := t, cells := putCells pg.cells (sealAt (p.keyOf pg) quad pg.extent 4 (tableBytes t) 0) }

/-! ## Streams that the expander refuses (R62, R73) -/

/-- Poisons whole mem-blocks and logs it once (R62). -/
def State.poisonSectors (s : State) (part : Nat) (ks : List Nat) : State :=
  s.updPart part fun p => { p with poison := dedupN (ks ++ p.poison) }

def blockSectors (mb : Nat) : List Nat := (List.range 16).map fun i => 16 * mb + i

/-- A clean mem-block whose entry or stream the expander refuses: COUNT 9-14, cells beyond the extent, or an invalid stream. -/
def Page.badStream (pg : Page) (b : Nat) : Bool :=
  decide (pg.cls = 0) && pg.hw.isNone && !pg.cl && !(pg.dirty.any fun e => decide (e.1 = b))
    && match assoc b pg.table with
      | some (c, o) => decide (c ≠ 15) && decide (c ≠ 0) && (decide (pg.cap < o + c) || (expandBlock pg.dict c (pg.cellBytes o c)).isNone)
      | none => false

/-- A fill expands mem-block `mb` of a partition's memory: one that cannot be expanded is delivered poisoned, and logged once. -/
def State.expandBlockAt (s : State) (part mb : Nat) : State :=
  match s.page? part (mb / 128), s.part? part with
  | some pg, some p =>
    if pg.badStream (mb % 128) && (blockSectors mb).any fun k => !(p.poison.contains k) then
      let quad := homeQuad p (512 * mb)
      (s.poisonSectors part (blockSectors mb)).logError 7 (quad / 4) (quad % 4) (65536 * pg.vpn) part 0 []
    else s
  | _, _ => s

/-- The mem-blocks of [va, va + n) of partition memory are filled. -/
def State.expandAt (s : State) (part va n : Nat) : State :=
  (List.range ((va + n - 1) / 512 + 1 - va / 512)).foldl (fun s i => s.expandBlockAt part (va / 512 + i)) s

end Sys2Proof.Machine
end

