-- ==== Sys2Proof/Machine/Float.lean ====
section
/-!
DEFINITION. Number formats and their arithmetic (R183-R200): exact dyadic values, rounding by IEEE 754-2019, FP8 import and
export, the narrow formats, rounding into them, and the quantiser.
-/

namespace Sys2Proof.Machine

/-- An exact value: NaN, an infinity, or (−1)^neg × m × 2^e. -/
inductive FV where
  | nan
  | inf (neg : Bool)
  | fin (neg : Bool) (m : Nat) (e : Int)
deriving DecidableEq, Repr, Inhabited

/-- A binary format: exponent bits, fraction bits, bias (R183). -/
structure Fmt where
  eb : Nat
  mb : Nat
  bias : Int
deriving DecidableEq, Repr

def f32 : Fmt := ⟨8, 23, 127⟩
def bf16 : Fmt := ⟨8, 7, 127⟩
def f16 : Fmt := ⟨5, 10, 15⟩
def e4m3 : Fmt := ⟨4, 3, 7⟩
def e5m2 : Fmt := ⟨5, 2, 15⟩

def Fmt.width (k : Fmt) : Nat := k.eb + k.mb + 1
/-- Least exponent of a unit in the last place. -/
def Fmt.qmin (k : Fmt) : Int := 1 - k.bias - k.mb
def Fmt.infCode (k : Fmt) : Nat := (2 ^ k.eb - 1) * 2 ^ k.mb
def Fmt.signBit (k : Fmt) (neg : Bool) : Nat := if neg then 2 ^ (k.eb + k.mb) else 0
/-- The canonical quiet NaN, sign 0 (R186). -/
def Fmt.nan (k : Fmt) : Nat := k.infCode + 2 ^ (k.mb - 1)

/-- Bits of a number. -/
def bitLen (n : Nat) : Nat := if n = 0 then 0 else Nat.log2 n + 1

/-- Decodes an IEEE-style code. -/
def Fmt.decode (k : Fmt) (c : Nat) : FV :=
  let neg := c / 2 ^ (k.eb + k.mb) % 2 = 1
  let ex := c / 2 ^ k.mb % 2 ^ k.eb
  let fr := c % 2 ^ k.mb
  if ex = 2 ^ k.eb - 1 then (if fr = 0 then .inf neg else .nan)
  else if ex = 0 then .fin neg fr k.qmin
  else .fin neg (fr + 2 ^ k.mb) (k.qmin + (ex - 1 : Nat))

/-- Whether a truncated magnitude rounds up: mode, sign, its lowest bit, and the discarded part against a half (R184). -/
def roundsUp (mode : Nat) (neg odd : Bool) (rem half : Nat) : Bool :=
  match mode with
  | 0 => decide (half < rem) || (decide (rem = half) && odd)
  | 1 => false
  | 2 => !neg && decide (rem ≠ 0)
  | _ => neg && decide (rem ≠ 0)

/-- m × 2^e as a multiple of 2^q, rounded. -/
def roundQ (mode : Nat) (neg : Bool) (m : Nat) (e q : Int) : Nat :=
  if q ≤ e then m * 2 ^ (e - q).toNat
  else
    let sh := (q - e).toNat
    let n := m / 2 ^ sh
    let rem := m % 2 ^ sh
    if roundsUp mode neg (n % 2 = 1) rem (2 ^ (sh - 1)) then n + 1 else n

/-- The magnitude code of a rounded exact magnitude, exponents unbounded above. -/
def Fmt.magCode (k : Fmt) (mode : Nat) (neg : Bool) (m : Nat) (e : Int) : Nat :=
  if m = 0 then 0
  else
    let q := max (e + (bitLen m : Int) - 1 - k.mb) k.qmin
    (q - k.qmin).toNat * 2 ^ k.mb + roundQ mode neg m e q

/-- Rounds an exact magnitude into a format (R184, R242); overflow by mode. -/
def Fmt.round (k : Fmt) (mode : Nat) (neg : Bool) (m : Nat) (e : Int) : Nat :=
  let code := k.magCode mode neg m e
  k.signBit neg + if code < k.infCode then code
      else if mode = 0 ∨ (mode = 2 ∧ neg = false) ∨ (mode = 3 ∧ neg = true) then k.infCode else k.infCode - 1

/-- Encodes a value, rounding once (R186, R242). -/
def Fmt.encode (k : Fmt) (mode : Nat) : FV → Nat
  | .nan => k.nan
  | .inf neg => k.signBit neg + k.infCode
  | .fin neg m e => k.round mode neg m e

/-! ## Exact arithmetic -/

def FV.neg : FV → FV
  | .nan => .nan
  | .inf s => .inf (!s)
  | .fin s m e => .fin (!s) m e

/-- Exact sum; an exact zero sum of opposite signs is +0, and −0 toward negative infinity (R242). -/
def FV.add (mode : Nat) : FV → FV → FV
  | .nan, _ => .nan
  | _, .nan => .nan
  | .inf a, .inf b => if a = b then .inf a else .nan
  | .inf a, _ => .inf a
  | _, .inf b => .inf b
  | .fin a m e, .fin b n f =>
    if m = 0 ∧ n = 0 then .fin (if a = b then a else decide (mode = 3)) 0 0
    else
      let g := min e f
      let x : Int := (if a then -1 else 1) * (m * 2 ^ (e - g).toNat : Nat)
      let y : Int := (if b then -1 else 1) * (n * 2 ^ (f - g).toNat : Nat)
      let z := x + y
      if z = 0 then .fin (decide (mode = 3)) 0 0 else .fin (decide (z < 0)) z.natAbs g

def FV.mul : FV → FV → FV
  | .nan, _ => .nan
  | _, .nan => .nan
  | .inf a, .inf b => .inf (a != b)
  | .inf a, .fin b n _ => if n = 0 then .nan else .inf (a != b)
  | .fin a m _, .inf b => if m = 0 then .nan else .inf (a != b)
  | .fin a m e, .fin b n f => .fin (a != b) (m * n) (e + f)

/-- a × b + c; 0 × ∞ + c is NaN even when c is NaN. -/
def FV.fma (mode : Nat) (a b c : FV) : FV := (a.mul b).add mode c

/-- Quotient with a sticky last bit: enough bits to round any format here correctly. -/
def FV.div : FV → FV → FV
  | .nan, _ => .nan
  | _, .nan => .nan
  | .inf _, .inf _ => .nan
  | .inf a, .fin b _ _ => .inf (a != b)
  | .fin a _ _, .inf b => .fin (a != b) 0 0
  | .fin a m e, .fin b n f =>
    if n = 0 then (if m = 0 then .nan else .inf (a != b))
    else if m = 0 then .fin (a != b) 0 0
    else
      let k := 40 + bitLen n
      let q := m * 2 ^ k / n
      let r := m * 2 ^ k % n
      .fin (a != b) (2 * q + if r = 0 then 0 else 1) (e - f - k - 1)

/-- Integer square root, bit by bit from bit `n` - 1 down. -/
def isqrtFrom : Nat → Nat → Nat → Nat
  | 0, _, r => r
  | n + 1, x, r => let t := r + 2 ^ n; isqrtFrom n x (if t * t ≤ x then t else r)

def isqrt (x : Nat) : Nat := isqrtFrom (bitLen x / 2 + 1) x 0

/-- Square root with a sticky last bit. -/
def FV.sqrt : FV → FV
  | .nan => .nan
  | .inf neg => if neg then .nan else .inf false
  | .fin neg m e =>
    if m = 0 then .fin neg 0 0
    else if neg then .nan
    else
      let k : Nat := if e % 2 = 0 then 160 else 161
      let x := m * 2 ^ k
      let r := isqrt x
      .fin false (2 * r + if r * r = x then 0 else 1) ((e - k) / 2 - 1)

/-- m × 2^e ≤ n × 2^f. -/
def dyLe (m : Nat) (e : Int) (n : Nat) (f : Int) : Bool :=
  let g := min e f
  decide (m * 2 ^ (e - g).toNat ≤ n * 2 ^ (f - g).toNat)
def dyLt (m : Nat) (e : Int) (n : Nat) (f : Int) : Bool := !(dyLe n f m e)

/-- Less-than of two values that are not NaN; −0 and +0 compare equal (R244). -/
def FV.lt : FV → FV → Bool
  | .nan, _ => false
  | _, .nan => false
  | .inf a, .inf b => a && !b
  | .inf a, _ => a
  | _, .inf b => !b
  | .fin a m e, .fin b n f =>
    if m = 0 ∧ n = 0 then false
    else if a ∧ !b then true
    else if !a ∧ b then false
    else if a then dyLt n f m e else dyLt m e n f

def FV.isNan : FV → Bool
  | .nan => true
  | _ => false

/-- Rounds to an integral magnitude (R249, R251). -/
def roundInt (mode : Nat) (neg : Bool) (m : Nat) (e : Int) : Nat := roundQ mode neg m e 0

/-! ## FTZ (R185) -/

/-- A subnormal FP32 code becomes zero of the same sign under FTZ. -/
def ftz (on : Bool) (c : Nat) : Nat :=
  if on ∧ c / 2 ^ 23 % 256 = 0 then c / 2 ^ 31 % 2 * 2 ^ 31 else c

/-- FP32 lane arithmetic: inputs flushed, one rounding, the result flushed. -/
def flushed1 (on : Bool) (op : FV → FV) (mode a : Nat) : Nat := ftz on (f32.encode mode (op (f32.decode (ftz on a))))
def flushed2 (on : Bool) (op : FV → FV → FV) (mode a b : Nat) : Nat :=
  ftz on (f32.encode mode (op (f32.decode (ftz on a)) (f32.decode (ftz on b))))
def flushed3 (on : Bool) (op : FV → FV → FV → FV) (mode a b c : Nat) : Nat :=
  ftz on (f32.encode mode (op (f32.decode (ftz on a)) (f32.decode (ftz on b)) (f32.decode (ftz on c))))

/-! ## Narrow formats (R187-R193) -/

/-- The length of the run of bits equal to `b` from bit `i` - 1 downward. -/
def runLen (m : Nat) (b : Bool) : Nat → Nat
  | 0 => 0
  | i + 1 => if m.testBit i = b then 1 + runLen m b i else 0

/-- DecodeTapered (R187): the value of a nonzero magnitude code of n bits. -/
def decodeTapered (m n : Nat) : FV :=
  if m = 0 then .fin false 0 0
  else
    let b := m.testBit (n - 1)
    let k := runLen m b n
    let r : Int := if b then (k : Int) - 1 else -(k : Int)
    let rest := n - k - 1
    if rest ≥ 1 then
      let e : Nat := if m.testBit (rest - 1) then 1 else 0
      let fb := rest - 1
      .fin false (2 ^ fb + m % 2 ^ fb) (2 * r + e - fb)
    else .fin false 1 (2 * r)

/-- Magnitude bits of a narrow format by FMT code: T8, T6, E2M1 (R183). -/
def narrowBits (fmt : Nat) : Nat := if fmt = 3 then 7 else if fmt = 4 then 5 else 3

/-- The value of a magnitude code. -/
def narrowMag (fmt m : Nat) : FV :=
  if fmt = 5 then (if m < 2 then .fin false m (-1) else .fin false (2 + m % 2) ((m / 2 : Nat) - 2))
  else decodeTapered m (narrowBits fmt)

/-- Decodes a narrow code (R187-R190); a negative zero code is −0. -/
def narrowDecode (fmt c : Nat) : FV :=
  let b := narrowBits fmt
  match narrowMag fmt (c % 2 ^ b) with
  | .fin _ m e => .fin (c / 2 ^ b % 2 = 1) m e
  | v => v

/-- Overflow thresholds of R192. -/
def narrowOver (fmt mode m : Nat) (e : Int) : Bool :=
  if fmt = 3 then dyLt 1 12 m e
  else if fmt = 4 then dyLt 1 8 m e
  else if mode = 0 then dyLe 7 0 m e else dyLt 6 0 m e

/-- The largest code among 0 .. n whose value is at most m × 2^e. -/
def narrowFloor (fmt m : Nat) (e : Int) : Nat → Nat
  | 0 => 0
  | n + 1 => match narrowMag fmt (n + 1) with
    | .fin _ a f => if dyLe a f m e then n + 1 else narrowFloor fmt m e n
    | _ => narrowFloor fmt m e n

/-- RoundNarrow (R192): code and overflow. A NaN is not rounded here. -/
def roundNarrow (fmt mode : Nat) (x : FV) : Nat × Bool :=
  let b := narrowBits fmt
  let top := 2 ^ b - 1
  match x with
  | .nan => (0, false)
  | .inf neg => ((if neg then 2 ^ b else 0) + top, true)
  | .fin neg m e =>
    let sg := if neg then 2 ^ b else 0
    if narrowOver fmt mode m e then (sg + top, true)
    else
      let c := narrowFloor fmt m e top
      if mode = 1 ∨ c = top then (sg + c, false)
      else
        match narrowMag fmt c, narrowMag fmt (c + 1) with
        | .fin _ lo f, .fin _ hi g =>
          -- twice the value against the sum of its neighbours
          let h := min f g
          let s := lo * 2 ^ (f - h).toNat + hi * 2 ^ (g - h).toNat
          if dyLt m (e + 1) s h then (sg + c, false)
          else if dyLt s h m (e + 1) then (sg + c + 1, false)
          else (sg + (if c % 2 = 0 then c else c + 1), false)
        | _, _ => (sg + c, false)

/-- A scalar conversion into a narrow format without a block scale: code and whether QSAT is set (R193). -/
def toNarrow (fmt mode : Nat) (x : FV) : Nat × Bool :=
  match x with
  | .nan => (0, true)
  | v => roundNarrow fmt mode v

/-! ## FP8 (R194) -/

def decodeE4M3 (c : Nat) : FV :=
  if c % 128 = 127 then .nan
  else
    let ex := c / 8 % 16
    if ex = 0 then .fin (c / 128 % 2 = 1) (c % 8) (-9) else .fin (c / 128 % 2 = 1) (c % 8 + 8) ((ex : Int) - 10)

/-- Export to E4M3: code and QSAT. -/
def toE4M3 (mode : Nat) (x : FV) : Nat × Bool :=
  match x with
  | .nan => (0x7F, false)
  | .inf neg => ((if neg then 0x80 else 0) + 0x7E, true)
  | .fin neg m e =>
    if (if mode = 0 then dyLt 464 0 m e else dyLt 448 0 m e) then ((if neg then 0x80 else 0) + 0x7E, true)
    else ((if neg then 0x80 else 0) + e4m3.magCode mode neg m e, false)

/-- Export to E5M2: code; QSAT stays unchanged. -/
def toE5M2 (mode : Nat) (x : FV) : Nat :=
  match x with
  | .nan => 0x7E
  | v => e5m2.encode mode v

/-! ## E8M0 scales, dequantisation and the quantiser (R190, R191, R195, R197) -/

/-- A value times 2^(s − 127); scale 0xFF makes it NaN (R191). -/
def scaled (s : Nat) : FV → FV
  | .fin neg m e => if s = 255 then .nan else .fin neg m (e + (s : Int) - 127)
  | v => if s = 255 then .nan else v

/-- Decode(code) × 2^(s − 127), rounded to a format with code 0 of R184 (R197). -/
def dequant (k : Fmt) (fmt c s : Nat) : Nat := k.encode 0 (scaled s (narrowDecode fmt c))

/-- floor(log2) of a nonzero finite magnitude, exactly. -/
def FV.log2floor : FV → Int
  | .fin _ m e => (bitLen m : Int) - 1 + e
  | _ => 0

def FV.isFinNonzero : FV → Bool
  | .fin _ m _ => decide (m ≠ 0)
  | _ => false

/-- The largest floor(log2) over the finite nonzero elements. -/
def topExp (xs : List FV) : Option Int :=
  xs.foldl (fun a x => if x.isFinNonzero then
    (match a with | none => some x.log2floor | some b => some (max b x.log2floor)) else a) none

def eTop (fmt : Nat) : Int := if fmt = 3 then 11 else if fmt = 4 then 7 else 2

/-- Scales an element down by 2^(s − 127). -/
def unscaled (s : Nat) : FV → FV
  | .fin neg m e => .fin neg m (e + 127 - (s : Int))
  | v => v

/-- The raises of Quantise; `left` of the two remain. Scale, codes, QSAT. -/
def quantLoop (fmt mode : Nat) (xs : List FV) : Nat → Nat → Nat × List Nat × Bool
  | 0, s =>
    let rs := xs.map fun x => roundNarrow fmt mode (unscaled s x)
    (s, rs.map (·.1), rs.any (·.2))
  | left + 1, s =>
    let rs := xs.map fun x => roundNarrow fmt mode (unscaled s x)
    if rs.any (·.2) then (if s = 254 then (s, rs.map (·.1), true) else quantLoop fmt mode xs left (s + 1))
    else (s, rs.map (·.1), false)

/-- Quantise (R195): scale, codes and whether QSAT is set. With no finite element the search starts at scale 0 (DESIGN CHOICE, log 127). -/
def quantise (fmt mode : Nat) (xs : List FV) : Nat × List Nat × Bool :=
  if xs.any FV.isNan then (255, xs.map fun _ => 0, false)
  else
    let s := match topExp xs with
      | none => 0
      | some t => (max 0 (min 254 (t - eTop fmt + 127))).toNat
    quantLoop fmt mode xs 2 s

/-! ## Special functions within their bounds (R247, log 15) -/

/-- Fixed point of the approximations: 400 fraction bits. -/
def fxOne : Nat := 2 ^ 400
def fxLn2 : Nat := 1789879222497203190815761498240779176894896805856420935579692301363062920687047601279850318367644315849030039181347319086
def fxTwoPi : Nat := 16224754493461942477724542702601789038322303200358530407182382075230461810747980997491046721853633630855133559454655152472
def fxLog2e : Nat := 3725399093452113361508878261685348397064333121840474113669779251110053462896811095071531244706817557295705407090210624801

/-- A magnitude as fixed point, rounded down. -/
def toFx (m : Nat) (e : Int) : Nat := if -400 ≤ e then m * 2 ^ (e + 400).toNat else m / 2 ^ (-400 - e).toNat

/-- Terms y^k / k! from k on, `n` of them, alternating when `alt`. -/
def fxSeries (y step : Nat) (alt : Bool) : Nat → Nat → Int → Int
  | 0, _, _ => 0
  | n + 1, k, t =>
    let u := if step = 1 then t * y / fxOne / k else t * y / fxOne * y / fxOne / (k * (k + 1) : Nat)
    t + fxSeries y step alt n (k + step) (if alt then -u else u)

/-- e^y for 0 ≤ y < 1, sin y and cos y for 0 ≤ y < 8. -/
def fxExp (y : Nat) : Nat := (fxSeries y 1 false 90 1 fxOne).toNat
def fxSin (y : Nat) : Int := fxSeries y 2 true 80 2 y
def fxCos (y : Nat) : Int := fxSeries y 2 true 80 1 fxOne

/-- Fraction bits of log2 of a mantissa in [1, 2), by repeated squaring. -/
def fxLogBits : Nat → Nat → Nat
  | 0, _ => 0
  | n + 1, x =>
    let y := x * x / fxOne
    if 2 * fxOne ≤ y then 2 ^ n + fxLogBits n (y / 2) else fxLogBits n y

/-- 2^(i + f) for fixed-point f below 1. -/
def fxPow2 (i : Int) (f : Nat) : FV := .fin false (fxExp (f * fxLn2 / fxOne)) (i - 400)

/-- 2^x with x = ±a in fixed point. -/
def fxEx2 (neg : Bool) (a : Nat) : FV :=
  let i := a / fxOne
  let f := a % fxOne
  if neg then (if f = 0 then fxPow2 (-(i : Int)) 0 else fxPow2 (-(i : Int) - 1) (fxOne - f)) else fxPow2 i f

def fvInt (x : Int) : FV := .fin (decide (x < 0)) x.natAbs (-400)

/-- An approximation of function `fn` at a finite argument: nearer than 2^-340 for `fsin`, `fcos` and `ftanh`, than 2^-110 for `flg2`, and than 2^-300 of
a unit in the last place for `fex2`. -/
def specApprox (fn : Nat) (neg : Bool) (m : Nat) (e : Int) : FV :=
  match fn with
  | 0 => (FV.fin false 1 0).div (.fin neg m e)
  | 1 => (FV.fin false 1 0).div (FV.sqrt (.fin false m e))
  | 3 => fxEx2 neg (toFx m e)
  | 4 =>
    let l := bitLen m
    fvInt (((l : Int) - 1 + e) * fxOne + (fxLogBits 120 (m * fxOne / 2 ^ (l - 1)) * 2 ^ 280 : Nat))
  | 5 => let s := fxSin (toFx m e % fxTwoPi); fvInt (if neg then -s else s)
  | 6 => fvInt (fxCos (toFx m e % fxTwoPi))
  | _ =>
    -- tanh a = 1 − 2 / (e^(2a) + 1)
    let p := match fxEx2 false (2 * toFx m e * fxLog2e / fxOne) with | .fin _ a f => toFx a f | _ => 0
    let t : Int := fxOne - (2 * fxOne * fxOne / (p + fxOne) : Nat)
    fvInt (if neg then -t else t)

/-- The exponent of a unit in the last place of an FP32 magnitude. -/
def ulpExp (t : FV) : Int := max (t.log2floor - 23) (-149)

/-- The bound of R247 less the approximation's error, as n × 2^q: what lies within it of the approximation lies within R247's bound of the function.
The margin leaves out no FP32 result: none lies so near the edge of the bound (log 15). -/
def specBound (fn : Nat) (a t : FV) : Nat × Int :=
  match fn with
  | 3 => (2 ^ 301 - 1, ulpExp t - 300)
  | 4 =>
    let inside := match a with | .fin _ m e => dyLe 1 (-1) m e && dyLe m e 2 0 | _ => false
    if inside then (2 ^ 88 - 1, -110) else (2 ^ 89 - 1, ulpExp t - 88)
  | 7 => (2 ^ 319 - 1, -340)
  | _ => (2 ^ 320 - 1, -340)

/-- |v − t| ≤ n × 2^q. -/
def FV.within (v t : FV) (n : Nat) (q : Int) : Bool :=
  match v.add 0 t.neg with
  | .fin _ m e => dyLe m e n q
  | _ => false

/-- |v − 1/a| ≤ 2^u, exactly. -/
def FV.nearRcp (v a : FV) (u : Int) : Bool :=
  match a with
  | .fin _ m e => (v.mul a).within (.fin false 1 0) m (e + u)
  | _ => false

/-- |v − 1/√a| ≤ 2^u, exactly: (v − 2^u)² a ≤ 1 ≤ (v + 2^u)² a, for v at least 2^u. -/
def FV.nearRsq (v a : FV) (u : Int) : Bool :=
  let side : FV → FV := fun x => (x.mul x).mul a
  match side (v.add 0 (.fin true 1 u)), side (v.add 0 (.fin false 1 u)), v with
  | .fin _ m e, .fin _ n f, .fin neg k x => !neg && dyLe 1 u k x && dyLe m e 1 0 && dyLe 1 0 n f
  | _, _, _ => false

/-- A result is within the bound of R247: exactly for `frcp` and `frsq`, and for the others with the approximation's error in hand. -/
def specOk (fn : Nat) (a v t : FV) : Bool :=
  match fn with
  | 0 => v.nearRcp a (ulpExp t)
  | 1 => v.nearRsq a (ulpExp t)
  | _ => v.within t (specBound fn a t).1 (specBound fn a t).2

/-- The result bits of a special function at an argument that has no special case: a free value within the bound. -/
def specFree (fn a : Nat) : Nat :=
  match f32.decode a with
  | .fin neg m e =>
    let t := specApprox fn neg m e
    let c := (Config.freeSpecial fn (BitVec.ofNat 32 a)).toNat
    if f32.encode 0 t % 2 ^ 31 = f32.infCode then f32.encode 0 t
    else if specOk fn (.fin neg m e) (f32.decode c) t then c else f32.encode 0 t
  | _ => f32.nan

/-- sin and cos beyond |a| = 2^20: a free value in [−1, 1]. -/
def specWide (fn a : Nat) : Nat :=
  let c := (Config.freeSpecial fn (BitVec.ofNat 32 a)).toNat
  if (f32.decode c).within (.fin false 0 0) 1 0 then c else 0

/-- The special functions at a flushed argument (R247): 0 frcp, 1 frsq, 3 fex2, 4 flg2, 5 fsin, 6 fcos, 7 ftanh. -/
def specFn (fn a : Nat) : Nat :=
  match f32.decode a with
  | .nan => f32.nan
  | .inf neg =>
    match fn with
    | 0 => f32.signBit neg
    | 1 => if neg then f32.nan else 0
    | 3 => if neg then 0 else f32.infCode
    | 4 => if neg then f32.nan else f32.infCode
    | 7 => f32.signBit neg + 0x3F800000
    | _ => f32.nan
  | .fin neg m e =>
    match fn with
    | 0 => if m = 0 then f32.signBit neg + f32.infCode else specFree 0 a
    | 1 => if m = 0 then f32.signBit neg + f32.infCode else if neg then f32.nan else specFree 1 a
    | 3 =>
      if m = 0 then 0x3F800000
      else if !neg && dyLe 128 0 m e then f32.infCode
      else if neg && dyLe 151 0 m e then 0
      else
        let k := roundInt 1 neg m e
        if dyLe m e k 0 ∧ (neg = false ∨ k ≤ 149) then f32.encode 0 (.fin false 1 (if neg then -(k : Int) else k))
        else specFree 3 a
    | 4 =>
      if m = 0 then 0x80000000 + f32.infCode
      else if neg then f32.nan
      else if m = 2 ^ (bitLen m - 1) then
        let x : Int := (bitLen m : Int) - 1 + e
        f32.encode 0 (.fin (decide (x < 0)) x.natAbs 0)
      else specFree 4 a
    | 5 => if m = 0 then f32.signBit neg else if dyLe m e 1 20 then specFree 5 a else specWide 5 a
    | 6 => if m = 0 then 0x3F800000 else if dyLe m e 1 20 then specFree 6 a else specWide 6 a
    | _ =>
      if m = 0 then f32.signBit neg
      else if dyLe 10 0 m e then f32.signBit neg + 0x3F800000 else specFree 7 a

end Sys2Proof.Machine
end

