-- ==== Sys2Proof/Machine/Visit.lean ====
section
/-!
DEFINITION. Fubebex's visits to the command queues (R95-R97) and a core's instruction fetch (R212).
-/

namespace Sys2Proof.Machine

/-- The code of a command (R98). -/
def cmdCode : CmdBody → Nat
  | .identify => 0x0001 | .capReadList => 0x0002 | .capReadRegisters .. => 0x0002 | .attest _ => 0x0003 | .logRead .. => 0x0004
  | .resetPart => 0x0005 | .partCreate .. => 0x0010 | .partDestroy => 0x0011 | .partConfig .. => 0x0012 | .map _ => 0x0020
  | .unmap .. => 0x0021 | .protect .. => 0x0022 | .faultResolve .. => 0x0023 | .windowOpen _ => 0x0030 | .windowClose _ => 0x0031
  | .loadCode .. => 0x0040 | .launch _ => 0x0041 | .graphSubmit _ => 0x0042 | .ttLoad _ => 0x0043 | .ttStart .. => 0x0044
  | .kill _ => 0x0045 | .balloonAck _ => 0x0050 | .svcDone _ => 0x0051 | .journalConfig _ => 0x0060 | .replayBind _ => 0x0062
  | .patchLoad _ => 0x0070 | .topoRead => 0x0071 | .unknown c => c

/-- The step that executes a command. -/
def Command.instr (c : Command) : Option Instr :=
  match c.b with
  | .identify => some (.identify c.h) | .capReadList => some (.capReadList c.h)
  | .capReadRegisters k rs => some (.capReadRegisters c.h k rs) | .attest n => some (.attest c.h n)
  | .logRead a n f => some (.logRead c.h a n f) | .resetPart => some (.resetPart c.h)
  | .partCreate m j d => some (.partCreate c.h m j d) | .partDestroy => some (.partDestroy c.h)
  | .partConfig ps k => some (.partConfig c.h ps k) | .map p => some (.map c.h p) | .unmap v n => some (.unmap c.h v n)
  | .protect v n w => some (.protect c.h v n w) | .faultResolve k v => some (.faultResolve c.h k v)
  | .windowOpen p => some (.windowOpen c.h p) | .windowClose n => some (.windowClose c.h n)
  | .loadCode v l a k => some (.loadCode c.h v l a k) | .launch a => some (.launch c.h a) | .graphSubmit ns => some (.graphSubmit c.h ns)
  | .ttLoad es => some (.ttLoad c.h es)
  | .ttStart cy st run => some (if run then .ttStartRun c.h cy st else .ttStartStop c.h)
  | .kill t => some (.kill c.h t) | .balloonAck n => some (.balloonAck c.h n) | .svcDone k => some (.svcDone c.h k)
  | .journalConfig p => some (.journalConfig c.h p) | .replayBind p => some (.replayBind c.h p)
  | .patchLoad i => some (.patchLoad c.h i) | .topoRead => some (.topoRead c.h) | .unknown _ => none

/-- A step that executes a command: Fubebex runs it at a visit, not as an event. -/
def isCommand : Instr → Bool
  | .identify _ => true | .capReadList _ => true | .capReadRegisters .. => true | .attest .. => true | .logRead .. => true
  | .resetPart _ => true | .partCreate .. => true | .partDestroy _ => true | .partConfig .. => true | .map .. => true
  | .unmap .. => true | .protect .. => true | .faultResolve .. => true | .windowOpen .. => true | .windowClose .. => true
  | .loadCode .. => true | .launch .. => true | .graphSubmit .. => true | .ttLoad .. => true | .ttStartRun .. => true
  | .ttStartStop _ => true | .kill .. => true | .balloonAck .. => true | .svcDone .. => true | .journalConfig .. => true
  | .replayBind .. => true | .patchLoad .. => true | .topoRead _ => true
  | _ => false

/-- Live nodes of a partition's graph unit (R139). -/
def State.liveNodes (s : State) (part : Nat) : List Node := s.nodes.filter fun n => decide (n.part = part)

/-- The pages of a run of virtual page numbers that are mapped. -/
def State.pagesIn (s : State) (part vpn n : Nat) : List Page :=
  s.pages.filter fun p => decide (p.part = part) && decide (vpn ≤ p.vpn) && decide (p.vpn < vpn + n)

/-- Whether the head of a queue may start (R90, R97, R102); an UNMAP waits for accesses on their way too (DEDUCED, log 88). A list that no window holds starts, and is refused (R141). -/
def State.mayStart (s : State) (c : Command) (wake : DWord) : Bool :=
  (!c.h.hold || decide (wake ≠ 0)) && match c.b with
    | .unmap va n => (s.pagesIn c.h.part (va / 65536) n).all fun p => decide (p.moves = 0)
        && !(s.arrivingIn c.h.part fun mb => decide (mb / 128 = p.vpn))
    | .launch _ => decide ((s.liveNodes c.h.part).length < 256)
    | .graphSubmit ns => decide (256 < ns.length) || decide ((s.liveNodes c.h.part).length + ns.length ≤ 256)
    | _ => true

/-- Positions of the visiting cycle: 0 the supervisor queue, then 1 + 16 × partition + queue (R96). -/
def State.positions (s : State) : List Nat :=
  0 :: (sortBy Part.id s.parts).flatMap fun p => (List.range 16).map fun q => 1 + 16 * p.id + q

/-- The command that Fubebex starts, or goes on with, at its next visit. It reads and clears the management core's wake register, without
further effect (R315). -/
def State.visit (s : State) : Option Command × State :=
  match s.dev.busy with
  | some c => (some c, s)
  | none =>
    let pos := ((s.positions.filter fun p => decide (s.dev.cursor ≤ p)).head?).getD 0
    let s := s.updDev fun d => { d with cursor := pos + 1, mgmtWake := 0 }
    if pos = 0 then
      match s.dev.supQueue with
      | c :: cs => if s.mayStart c 0 then (some c, s.updDev fun d => { d with supQueue := cs }) else (none, s)
      | [] => (none, s)
    else
      let id := (pos - 1) / 16
      let n := (pos - 1) % 16
      match (s.part? id).bind fun p => p.queues[n]? with
      | none => (none, s)
      | some q =>
        match q.cmds with
        | [] => (none, s)
        | c :: cs =>
          if s.mayStart c q.wake then
            let wake := if c.h.hold then (0 : DWord) else q.wake
            let s := s.updPart id fun p => { p with queues := p.queues.set n { cmds := cs, wake := wake } }
            (some { c with h := { c.h with wake := if c.h.hold then q.wake else 0 } }, s)
          else (none, s)

/-! ## Fetch -/

/-- What a fetch at an address finds. -/
inductive Fetched where
  | word (w : DWord)
  | unmapped
  | poisoned
  | forbidden

/-- A fetch fills the mem-block it reads, as a load does (R73, R212). -/
def State.fetchFill (s : State) (g : Group) (va : Nat) : State :=
  match s.locate ((s.part? g.part).getD default) g.core va with
  | .mem a => s.expandAt g.part a 8
  | _ => s

/-- Reads the 64-bit word at an address as the core's die sees it: from its replica of the line, else at the home; a page in a
host window is read at the host (DEDUCED, log 82). -/
def State.fetch (s : State) (g : Group) (va : Nat) : Fetched :=
  let p := (s.part? g.part).getD default
  match s.locate p g.core va with
  | .mem a =>
    match s.page? g.part (a / 65536) with
    | none => .unmapped
    | some pg =>
      match pg.hw with
      | some (w, ix) =>
        match p.windows.find? fun x => decide (x.num = w) with
        | some x => .word (memDWord s.host (x.host + 65536 * ix + a % 65536))
        | none => .unmapped
      | none =>
        let d := if p.replicas.contains (dieOf g.core, a / 128) then dieOf g.core else homeDie p a
        if touchesPoison (p.poisonAt d a) a 8 then .poisoned
        else .word (BitVec.ofNat 64 (leNat ((List.range 8).map fun i => s.byteAt p d (.mem (a + i)))))
  | .bad => .forbidden
  | l =>
    if s.mayAccess g.grid l then
      .word (BitVec.ofNat 64 (leNat ((List.range 8).map fun i => s.byteAt p (dieOf g.core) (s.locate p g.core (va + i)))))
    else .forbidden

/-- A fetch that finds no word: a page fault parks the group (R212), a poisoned sector kills it (R63), an address that no
load may use traps. -/
def State.fetchFault (s : State) (g : Group) (p : Split) (r : Fetched) : State :=
  match r with
  | .word _ => s
  | .forbidden => s.raiseTrap g.gid p.sid 0x11 (amask g p) p.pc p.pc p.clause
  | .poisoned =>
    let s := s.logError 3 (dieOf g.core) (quadOf g.core % 4) p.pc g.part (g.core % 24) []
    s.killGrid g.grid 1
  | .unmapped =>
    let m := amask g p
    let first := g.mm.fault.isNone
    let vpn := p.pc / 65536
    let st : Stop := { why := .page, sid := p.sid, code := 0x10, tlm := m, taddr := p.pc, tpc := p.pc, clause := p.clause }
    if g.stopsElse p.sid then s.decideStop g.gid st
    else if s.evRoom g.part 1 = false then s
    else
    let s := if g.mm.pages.contains vpn then s else s.raise g.part (.pageFault g.park p.pc m false)
    (s.updGrp g.gid fun g => { g with
      mm := { g.mm with fault := if first then some (0x10, m, p.pc) else g.mm.fault, pages := dedupN (vpn :: g.mm.pages) } }).decideStop g.gid st

end Sys2Proof.Machine
end

