-- ==== Sys2Proof/Machine/Home.lean ====
section
/-!
DEFINITION. Writes at their homes: stamps (R275), replicas and the die state (R276), pledges settled (R83), atomics
(R284), faults at the home channel and the replay buffer (R57, R363), poison (R62, R63), `blkz` (R292), and what the
homes' own steps do.
-/

namespace Sys2Proof.Machine

/-! ## Performing writes (R275, R276) -/

/-- Die `d` performs a write that carried `gc`: its own entry rises, and the stamp becomes the die's clock. -/
def State.stamp (s : State) (d : Nat) (gc : VClock) : VClock × State :=
  let k := (s.die! d).clock
  let st := (k.set d (k.get d + 1)).join gc
  (st, s.updDie d fun v => { v with clock := st, av := v.av.set d (st.get d) })

/-- Every other die has the write still to apply (DEDUCED, log 31). -/
def State.announce (s : State) (part d wid src : Nat) (st : VClock) (cells : List Host.Cell) : State :=
  { s with applies := s.applies ++ ([0, 1, 2, 3].filter fun e => decide (e ≠ d)).map fun e =>
      { part := part, die := e, home := d, wid := wid, src := src, stamp := st, bytes := cells, poison := [] } }

/-- A list of poisoned sectors with some bits set or cleared. -/
def setBits (ks : List Nat) (bits : List (Nat × Bool)) : List Nat :=
  ((bits.filter (·.2)).map (·.1)) ++ ks.filter fun k => (assoc k bits).isNone

/-- A write sets or clears the poison of sectors at their homes, and with it in the replicas that it is applied to (R62, R63). -/
def State.setPoison (s : State) (part wid : Nat) (bits : List (Nat × Bool)) : State :=
  if bits.isEmpty then s
  else
    let s := s.updPart part fun p => { p with poison := setBits p.poison bits }
    { s with applies := s.applies.map fun a => if a.part = part ∧ a.wid = wid then { a with poison := bits ++ a.poison } else a }

/-- A store that covers whole sectors clears their poison (R63). -/
def State.clearPoison (s : State) (part wid : Nat) (sectors : List Nat) : State := s.setPoison part wid (sectors.map fun k => (k, false))

/-- The sectors that a list of cells covers entirely (DEDUCED, log 35). -/
def wholeSectors (cs : List Host.Cell) : List Nat :=
  (dedupN (cs.map fun c => c.1 / 32)).filter fun k => (List.range 32).all fun i => cs.any fun c => decide (c.1 = 32 * k + i)

/-- Performs cells of partition memory that lie in one naturally aligned 16 B span, or in one mem-block of a `blkz`. -/
def State.performMem (s : State) (part wid src : Nat) (gc : VClock) (cells : List Host.Cell) : VClock × State :=
  let p := (s.part? part).getD default
  let d := homeDie p (cells.headD (0, 0)).1
  let (st, s) := s.stamp d gc
  let s := s.updPart part fun p => { p with views := p.views.modify d fun v => v.writeBy cells wid st }
  (st, s.announce part d wid src st cells)

/-- The elements of a list, each with those after it. -/
def withRest {α : Type} : List α → List (α × List α)
  | [] => []
  | x :: xs => (x, xs) :: withRest xs

def sectorOf (span : List Host.Cell) : Nat := (span.headD (0, 0)).1 / 32

/-- Performs one span of a run, `rest` those after it: with the last of its sector the sector takes its poison bit from `bits`. -/
def State.performSpan (s : State) (part src : Nat) (gc : VClock) (bits : List (Nat × Bool)) (span : List Host.Cell) (rest : List (List Host.Cell)) :
    VClock × State :=
  let (wid, s) := s.fresh
  let (st, s) := s.performMem part wid src gc span
  let k := sectorOf span
  (st, if rest.any fun r => decide (sectorOf r = k) then s else s.setPoison part wid (bits.filter fun b => decide (b.1 = k)))

/-- Performs a run of cells span by span (R279); the result is the join of the stamps. What it covers whole loses its poison (R63). -/
def State.performRun (s : State) (part src : Nat) (gc : VClock) (cells : List Host.Cell) : VClock × State :=
  let bits := (wholeSectors cells).map fun k => (k, false)
  (withRest (spansOf cells)).foldl (fun (r : VClock × State) e =>
    let (st, s) := r.2.performSpan part src gc bits e.1 e.2
    (r.1.join st, s)) (VClock.zero, s)

/-- Cells land in the host's memory, above what they replace in each location's order (R112, R275). -/
def State.hostLand (s : State) (wid : Nat) (st : VClock) (cells : List Host.Cell) : State :=
  let old := View.mk [] s.hostMarks
  { s with
    host := Mem.writeCells s.host cells
    hostMarks := cells.map (fun c => (old.markOf c.1).next wid st) ++ s.hostMarks.filter fun m => !(cells.any fun c => decide (c.1 = m.addr)) }

/-- A write takes effect in the host's memory by itself (R112). -/
def State.hostPut (s : State) (cells : List Host.Cell) : State :=
  let (wid, s) := s.fresh
  s.hostLand wid VClock.zero cells

/-- Performs cells of on-chip storage, which has one location for every reader (R156): byte by byte they carry the stamp. A write of a
frame's header word has no effect (R8, R162). -/
def State.performChip (s : State) (p : Part) (core wid : Nat) (gc : VClock) (cells : List Host.Cell) : VClock × State :=
  let cells := cells.filter fun c => !(s.headerByte (s.locate p core c.1))
  let d := (s.locate p core (cells.headD (0, 0)).1).die p
  let (st, s) := s.stamp d gc
  let s := cells.foldl (fun s c => s.updView p (s.locate p core c.1) fun v o => v.writeBy [(o, c.2)] wid st) s
  (st, s.announce p.id d wid 0 st [])

/-! ## Pledges at the home (R83) -/

/-- Settles a pledge of 8 cells that reaches mem-block `mb` of a partition's memory; `core` gets the refund. -/
def State.settlePledge (s : State) (part core mb pledge : Nat) : State :=
  match s.page? part (mb / 128) with
  | none => s.refundTo core part pledge
  | some pg =>
    let b := mb % 128
    let clean := !(pg.dirty.any fun e => decide (e.1 = b))
    if pg.hw.isSome then s.refundTo core part pledge
    else if pg.rawBlock b then
      (s.updPage part pg.vpn fun q => if clean then { q with dirty := (b, 0) :: q.dirty } else q).refundTo core part pledge
    else if clean then
      let c := min (pg.count b) pledge
      (s.updPage part pg.vpn fun q => { q with dirty := (b, pledge - c) :: q.dirty }).refundTo core part c
    else s.refundTo core part pledge

/-- A mem-block stops being pledged-dirty: in one event F changes by `df` and P falls by what the mem-block kept (R80, R83). -/
def State.unpledge (s : State) (part mb : Nat) (df : Int) : State :=
  match s.page? part (mb / 128) with
  | none => s.addF part df
  | some pg =>
    let kept := (assoc (mb % 128) pg.dirty).getD 0
    (s.updPage part pg.vpn fun q => { q with dirty := q.dirty.filter fun e => decide (e.1 ≠ mb % 128) }).addFP part df kept

/-- `blkz` at the home: COUNT becomes 0, F rises by the cells, the pledge is dropped (R83, R292). -/
def State.zeroBlock (s : State) (part mb : Nat) : State :=
  match s.page? part (mb / 128) with
  | none => s
  | some pg =>
    if pg.cls ≠ 0 ∨ pg.hw.isSome then s
    else
      let c := pg.count (mb % 128)
      let p := (s.part? part).getD default
      let s := s.updPage part pg.vpn fun q =>
        let t := q.table.filter fun e => decide (e.1 ≠ mb % 128)
        if q.cl then { q with table := t } else q.setTable p (homeQuad p (512 * mb)) t
      s.unpledge part mb c

/-- The pledge that an access brings to its mem-block: its own, or that of the first of its instruction to arrive there. -/
def State.takePledge (s : State) (w : Write) : Nat × State :=
  let sib : Write → Bool := fun v => decide (v.gid = w.gid) && decide (v.seq = w.seq) && decide (v.addr / 512 = w.addr / 512)
  let n := w.pledge + ((s.writes.filter fun v => sib v && decide (v.wid ≠ w.wid)).map Write.pledge).sum
  (n, { s with writes := s.writes.map fun v => if sib v && decide (v.wid ≠ w.wid) then { v with pledge := 0 } else v })

/-! ## Atomics (R284) -/

/-- The new value of a read-modify-write; none when it performs no write (a failing `.cas`). -/
def atomicNew (op cls : Nat) (old b c : DWord) : Option DWord :=
  let wide := decide (2 ≤ cls)
  let w := if wide then 64 else 32
  let trim : DWord → DWord := fun v => if wide then v else (v.setWidth 32).setWidth 64
  let o := trim old
  let b := trim b
  let c := trim c
  let key : DWord → Int := fun v => if cls % 2 = 1 then (if wide then v.toInt else (v.setWidth 32).toInt) else (v.toNat : Int)
  match op with
  | 0 => some (BitVec.ofNat 64 ((o.toNat + b.toNat) % 2 ^ w))
  | 1 => some (if key o ≤ key b then o else b)
  | 2 => some (if key b ≤ key o then o else b)
  | 3 => some (o &&& b)
  | 4 => some (o ||| b)
  | 5 => some (o ^^^ b)
  | 6 => some b
  | 7 => if o = b then some c else none
  | 8 => some (if b.toNat ≤ o.toNat then 0 else o + 1)
  | _ => some (BitVec.ofNat 64 (f32.encode 0 ((f32.decode o.toNat).add 0 (f32.decode b.toNat))))

/-! ## What a group knows of its own writes and reads (R277, R279) -/

/-- Records for each byte the place of the youngest write the group has read or made, in its location's order. -/
def State.setFloor (s : State) (gid : Nat) (at_ : List (Nat × Nat)) : State :=
  s.updGrp gid fun g => { g with mm := { g.mm with floor := at_.foldl (fun f e => raiseFloor f e.1 e.2) g.mm.floor } }

/-- The places that bytes of partition memory take with a write of that stamp. -/
def placesOf (p : Part) (cells : List Host.Cell) (st : VClock) : List (Nat × Nat) :=
  cells.map fun c => (c.1, writePlace (st.get (homeDie p c.1)))

/-- The early releases that waited for a write take its stamp (R356). -/
def State.noteEarly (s : State) (wid : Nat) (st : VClock) : State :=
  { s with early := s.early.map fun e => if e.wids.contains wid then { e with clk := e.clk.join st } else e }

/-- A write has taken its place: if it is one to partition memory, but not to a window of the host's, whose copies R112 bounds by the group's own
reads alone, it happens before what follows it in its group; and it carries the releases that stand at it or before it. -/
def State.noteOrder (s : State) (p : Part) (w : Write) (st : VClock) (cells : List Host.Cell) : State :=
  let places := cells.map fun c => (s.canon p w.core c.1, writePlace (st.get ((s.locate p w.core c.1).die p)))
  let mem := match s.xlat w.part w.addr with | .mem _ => decide (w.addr < 2 ^ 48) && decide (w.gid ≠ 0) | _ => false
  { s with
    ordered := s.ordered ++ if mem then places.map fun e => ⟨w.part, w.gid, w.seq + 1, e.1, e.2⟩ else []
    rels := s.rels ++ if w.past = 0 then [] else [⟨w.part, w.gid, w.core, w.past, places⟩] }

/-- The acceptance reply (R275, R277): the stamp enters GC, and the group remembers its own write until its die applies it. -/
def State.accepted (s : State) (p : Part) (w : Write) (st : VClock) (cells : List Host.Cell) : State :=
  let mine := cells.filter fun c => decide (c.1 < 2 ^ 48)
  let s := ((s.noteEarly w.wid st).joinGc w.gid w.seq st).setFloor w.gid (placesOf p mine st)
  let s := s.noteOrder p w st cells
  match s.grp? w.gid with
  | none => s
  | some g =>
    let av := (s.die! (dieOf g.core)).av
    s.updGrp w.gid fun g => { g with mm := { g.mm with
      own := ((w.addr, (cells.getLastD (w.addr, 0)).1 + 1 - w.addr, st) :: g.mm.own).filter fun e => !(e.2.2.le av) } }

/-- Cells by naturally aligned 8-byte word of the host address `base + i`: a word is never seen torn (R113). -/
def hostWords (cs : List Host.Cell) : List (List Host.Cell) :=
  (dedupN (cs.map fun c => c.1 / 8)).map fun k => cs.filter fun c => decide (c.1 / 8 = k)

/-- A failing `.cas` has read its location, and with an acquire part counts as an acquire load that returned the old value; a successful one is a
write (R352). -/
def State.noteCas (s : State) (w : Write) (op : Nat) (failed : Bool) (old : List Byte) : State :=
  if op ≠ 7 then s
  else if failed = false then s.noteMem w.gid
  else
    let s := s.noteRead w.gid w.addr old
    let first := (s.holders w.oid).any fun g => (g.op? w.oid).any fun o => decide (lowest o.mask = w.lane)
    if w.acq && first then s.noteAcq w.gid w.addr old else s

/-- Removes a lane of an atomic from the lanes still to be performed, with its old value. -/
def State.atomicLane (s : State) (oid lane : Nat) (old : Option (List Word)) : State :=
  (s.holders oid).foldl (fun s g => s.updOp g.gid oid fun o => { o with kind := match o.kind with
    | .atomic ls got acq once wide =>
      .atomic (ls.filter fun l => decide (l ≠ lane)) (match old with | some v => got ++ [(lane, v)] | none => got) acq once wide
    | k => k }) s

/-- A write behind such a fence carries its stamps, and its readers within the scope wait for what the fence did not (R356). -/
def State.passFences (s : State) (w : Write) : Write × State :=
  let fs := s.fencesBefore w
  ({ w with gc := fs.foldl (fun c e => c.join e.clk) w.gc },
   { s with early := s.early ++ (fs.filter s.earlyOpen).map fun e => { e with addrs := w.bytes.map (·.1), after := none } })

/-- The home accepts a write (R275). The write has passed translation; it is no longer among those in flight (DEDUCED, log 36). -/
def State.acceptWrite (s : State) (w : Write) : State :=
  let (w, s) := s.passFences w
  let p := (s.part? w.part).getD default
  let cells := w.bytes
  match s.locate p w.core w.addr with
  | .bad => s
  | .mem va =>
    match s.xlat w.part va with
    | .unmapped => s
    | .host _ win base =>
      let (n, s) := s.takePledge w
      let (st, s) := s.stamp (homeDie p va) w.gc
      let s := s.announce w.part (homeDie p va) w.wid w.gid st []
      let s := s.updPart w.part fun p => { p with hwLines := p.hwLines.map fun l =>
        if l.line = va / 128 then { l with view := l.view.writeBy (cells.filter fun c => decide (c.1 / 128 = l.line)) w.wid st } else l }
      let s : State := { s with rmas := s.rmas ++ (hostWords (cells.map fun c => (base + (c.1 - va), c.2))).map fun r =>
        { part := w.part, win := win, gid := w.gid, seq := w.seq, oid := w.oid, cells := r, version := false, wid := w.wid, stamp := st } }
      let s := s.refundTo w.core w.part n
      s.accepted p w st cells
    | .mem _ =>
      let s := s.expandAt w.part va cells.length
      let p := (s.part? w.part).getD default
      let (n, s) := s.takePledge w
      let settle : State → State := fun s => s.settlePledge w.part w.core (va / 512) n
      match w.kind with
      | .atomic op cls b c ret red =>
        let bad := p.poisoned va cells.length
        if bad then
          let s := settle s
          if red then s.logError 3 (dieOf w.core) (quadOf w.core % 4) va w.part (w.core % 24) []
          else (s.killLanes w.gid (lanesOf w.mask) va).atomicLane w.oid w.lane none
        else
          let home := p.views.getD (homeDie p va) View.empty
          let old : DWord := BitVec.ofNat 64 (leNat (home.readN va cells.length))
          let seen := s.earlyClock w.gid va cells.length (home.stampN va cells.length)
          let words := if cells.length = 8 then [old.setWidth 32, (old.ushiftRight 32).setWidth 32] else [old.setWidth 32]
          let s := settle s
          let s := match atomicNew op cls old b c with
            | some v =>
              let new := cellsAt va (leBytes cells.length v.toNat)
              let (st, s) := s.performMem w.part w.wid w.gid w.gc new
              s.accepted p w st new
            | none => s
          let at_ := cells.map fun c => (c.1, (home.markOf c.1).place (homeDie p c.1))
          let s := if red then s else ((s.joinGc w.gid w.seq seen).setFloor w.gid at_).hear w.gid w.seq w.acq at_
          let s := s.noteCas w op (atomicNew op cls old b c).isNone (leBytes cells.length old.toNat)
          if ret || w.acq then s.atomicLane w.oid w.lane (some words) else s
      | .blkz =>
        let (st, s) := s.performMem w.part w.wid w.gid w.gc cells
        let s := s.clearPoison w.part w.wid ((List.range 16).map fun i => va / 32 + i)
        (s.zeroBlock w.part (va / 512)).accepted p w st cells
      | _ =>
        let (st, s) := s.performMem w.part w.wid w.gid w.gc cells
        let mine := (cells.map fun c => c.1 / 32).filter fun k => w.whole.contains k &&
          !(s.writes.any fun v => decide (v.gid = w.gid) && decide (v.seq = w.seq) && v.bytes.any fun c => decide (c.1 / 32 = k))
        let s := settle (s.clearPoison w.part w.wid mine)
        s.accepted p w st cells
  | l =>
    let grid := ((s.grp? w.gid).map Group.grid).getD 0
    if (s.grp? w.gid).isSome ∧ s.mayAccess grid l = false then s
    else
      match w.kind with
      | .atomic op cls b c ret red =>
        let at_ : Nat → Loc := fun i => s.locate p w.core (w.addr + i)
        let n := cells.length
        let old : DWord := BitVec.ofNat 64 (leNat ((List.range n).map fun i => s.byteAt p (l.die p) (at_ i)))
        let seen := s.earlyClock w.gid w.addr n ((List.range n).foldl (fun c i => c.join (s.markAt p (l.die p) (at_ i)).stamp) VClock.zero)
        let places := s.placesAt p w.core (cells.map (·.1))
        let words := if n = 8 then [old.setWidth 32, (old.ushiftRight 32).setWidth 32] else [old.setWidth 32]
        let s := match atomicNew op cls old b c with
          | some v =>
            let new := cellsAt w.addr (leBytes n v.toNat)
            let (st, s) := s.performChip p w.core w.wid w.gc new
            s.accepted p w st new
          | none => s
        let s := (s.joinGc w.gid w.seq seen).hear w.gid w.seq w.acq (if red then [] else places)
        let s := s.noteCas w op (atomicNew op cls old b c).isNone (leBytes n old.toNat)
        if ret || w.acq then s.atomicLane w.oid w.lane (some words) else s
      | _ =>
        let (st, s) := s.performChip p w.core w.wid w.gc cells
        s.accepted p w st cells

/-! ## When a write may be performed -/

/-- The die that a place's accesses travel to over a die link: its home's, or a chip scratchpad's. On-chip storage of a cluster is its own
die's. -/
def Loc.linkDie (p : Part) : Loc → Option Nat
  | .mem va => some (homeDie p va)
  | .chip q _ => some (q / 4)
  | _ => none

/-- A failed link has caught the write, which is to be composed again (R41). -/
def State.writeCaught (s : State) (w : Write) : Bool :=
  let p := (s.part? w.part).getD default
  decide (w.gid ≠ 0) && ((s.locate p w.core w.addr).linkDie p).any (s.caught p w.detour w.redo (dieOf w.core))

/-- Nothing earlier of its group holds the write back (Fubebex's own writes, of group 0, keep their order, R49): an overlapping write, an acquire, a release condition, or a load
of the same slot of a frame (R156, R277, R281) (DEDUCED, log 37). It does not wait to be composed again (R41), and a `blkz` waits for the
rest of an access whose pledge has reached its mem-block (log 88). -/
def State.mayPerform (s : State) (w : Write) : Bool :=
  if w.gid = 0 then !((s.writes.takeWhile fun v => decide (v.wid ≠ w.wid)).any fun v => decide (v.gid = 0) && decide (v.part = w.part))
  else
  !((s.writes.takeWhile fun v => decide (v.wid ≠ w.wid)).any fun v => decide (v.gid = w.gid) && overlaps v.bytes w.bytes)
    && !(s.writeCaught w) && !(decide (w.kind = .blkz) && s.arriving w.part (w.addr / 512))
    && match s.grp? w.gid with
      | none => true
      | some g =>
        !(g.acqBefore w.seq) && (!w.rel || s.releaseReady g w.scope w.seq)
          && (match w.kind with
            | .atomic .. => (s.earlyAt w.gid w.addr w.bytes.length).all fun e => !(s.earlyOpen e)
            | _ => true)
          && (decide (w.addr < 2 ^ 48) || !(g.ops.any fun o => decide (o.seq < w.seq) && match o.kind with
            | .load ls n .. => ls.any fun l => inRange w.bytes l.2 n
            | _ => false))

/-- What keeps a write from being accepted: the fault it meets at its home channel, or that it must queue behind the
group's held stores to the same page. `some none` is the latter (R57). -/
def State.writeFault (s : State) (w : Write) : Option (Option (BitVec 8)) :=
  if w.gid = 0 then none
  else
  let p := (s.part? w.part).getD default
  match s.locate p w.core w.addr with
  | .mem va =>
    let queued := match s.grp? w.gid with
      | some g => g.mm.replay.any fun v => decide (v.addr / 65536 = va / 65536)
      | none => false
    if queued then some none
    else match s.xlat w.part va with
      | .unmapped => some (some 0x10)
      | .mem pg => if pg.w then none else some (some 0x11)
      | .host pg _ _ =>
        match w.kind with
        | .atomic .. => some (some 0x11)
        | _ => if pg.w then none else some (some 0x11)
  | _ => none

/-- A release of a scope narrower than `.dev` may be performed, as a relaxed store is, before its group's earlier writes are accepted:
the groups that its scope leaves out see no order (R278, R356) (DEDUCED, log 12). -/
def State.mayEarly (s : State) (w : Write) : Bool :=
  decide (w.gid ≠ 0) && w.rel && decide (w.scope < 4) && decide (w.kind = .store)
    && s.mayPerform { w with rel := false } && ((s.grp? w.gid).any fun g => g.readsDone w.seq)

/-- A release of a group goes before what it should have waited for, which is recorded. -/
def State.passBy (s : State) (g : Group) (seq scope : Nat) (addrs : List Nat) (after : Option Nat) : State :=
  { s with early := s.early ++ [{
      part := g.part, gid := g.gid, core := g.core, scope := scope, addrs := addrs
      wids := ((s.writes ++ g.mm.replay).filter fun v => decide (v.gid = g.gid) && decide (v.seq < seq)).map Write.wid
      clk := VClock.zero, after := after }] }

/-- The release has been performed early. -/
def State.goEarly (s : State) (w : Write) : State :=
  match s.grp? w.gid with
  | some g => s.passBy g w.seq w.scope (w.bytes.map (·.1)) none
  | none => s

/-- Ends operations with error status. -/
def State.failOps (s : State) (oids : List Nat) : State :=
  (dedupN oids).foldl (fun s oid => if oid = 0 then s else s.finishOp oid true) s

/-- Every lane of a returning atomic has been performed, or has ended: old values go to the lanes that have them (R205, R284). -/
def State.endAtomic (s : State) (o : Op) (got : List (Nat × List Word)) (once err : Bool) : State :=
  let vals := if once then (match got with | v :: _ => (lanesOf o.mask).map fun l => (l, v.2) | [] => []) else got
  if o.flag = noFlag then s.finishOp o.oid err else s.completeOp o.oid vals err

/-- A write that will never be performed ends its lane, and the other lanes get their values. The operation has error status only where
the access was lost (R41, R294). -/
def State.failLane (s : State) (lost : Bool) (w : Write) : State :=
  if w.oid = 0 then s
  else
    let s := (s.holders w.oid).foldl (fun s g => s.updOp g.gid w.oid fun o => { o with err := o.err || lost }) s
    let s := s.atomicLane w.oid w.lane none
    match (s.holders w.oid).findSome? fun g => g.op? w.oid with
    | some o =>
      match o.kind with
      | .atomic [] got _ once _ => s.endAtomic o got once o.err
      | _ => s
    | none => s

/-- Discards writes of a group, refused (R57) or lost (R41): their pledges are refunded, and their lanes end. -/
def State.discard (s : State) (lost : Bool) (ws : List Write) : State :=
  let s := ws.foldl (fun s w => s.refundTo w.core w.part w.pledge) s
  ws.foldl (fun s w => s.failLane lost w) s

/-- No die link leads from the write's core to its home (R41) (DEDUCED, log 66). -/
def State.writeLost (s : State) (w : Write) : Bool :=
  let p := (s.part? w.part).getD default
  decide (w.gid ≠ 0) && ((s.locate p w.core w.addr).linkDie p).any (s.lost p w.detour w.redo (dieOf w.core))

/-! ## Store faults (R57, R363) -/

/-- PAGE_FAULT for a page that has not been reported yet: raised as the report reaches the core, for a store too (DESIGN CHOICE, log 92). -/
def State.reportPage (s : State) (gid va : Nat) (lanes : Mask) (store : Bool) : State :=
  match s.grp? gid with
  | none => s
  | some g =>
    if g.mm.pages.contains (va / 65536) then s
    else (s.raise g.part (.pageFault g.park va lanes store)).updGrp gid fun g => { g with mm := { g.mm with pages := va / 65536 :: g.mm.pages } }

/-- The fault reported first is the one the trap registers describe (R363). -/
def State.firstFault (s : State) (gid : Nat) (code : BitVec 8) (lanes : Mask) (va : Nat) : State :=
  s.updGrp gid fun g => { g with mm := { g.mm with fault := match g.mm.fault with | some f => some f | none => some (code, lanes, va) } }

/-- A group whose splits all stand at clause boundaries, and none of which will issue a header, stops at once (DEDUCED, log 42). -/
def State.stopAtBoundary (s : State) (gid : Nat) : State :=
  match s.grp? gid with
  | none => s
  | some g =>
    match g.mm.fault, g.splits.head? with
    | some (c, m, a), some p =>
      if g.place = .resident ∧ g.stop = none ∧ (g.splits.all fun q => q.clause.isNone && decide (q.wait ≠ .none)) = true then
        (s.updGrp gid fun g => { g with stop := some { why := .page, sid := p.sid, code := c, tlm := m, taddr := a, tpc := p.pc, clause := none } }).settleStop gid
      else s
    | _, _ => s

/-- A protection fault is to be delivered: at its own stop point, or after the faults that were reported before it (R57, R363). -/
def State.protFault (s : State) (gid : Nat) (lanes : Mask) (va : Nat) : State :=
  s.updGrp gid fun g => { g with mm :=
    if g.mm.fault.isNone then { g.mm with fault := some (0x11, lanes, va) }
    else if (g.mm.fault.map Prod.fst) = some 0x11 ∨ g.mm.prot.isSome then g.mm else { g.mm with prot := some (lanes, va) } }

/-- STORE_FAULT_REPORT (R57): the channel returns a write, which waits in the replay buffer; a protection fault that meets an empty
buffer is discarded at once. TLM of a `.g` access names the lowest active lane, which made it; a report that finds its group gone ends
with the refund (DESIGN CHOICE, log 92). -/
def execStoreFaultReport (wid : Nat) (s : State) : Out' :=
  .next (match s.writes.find? fun w => decide (w.wid = wid) with
    | none => s
    | some w =>
      let earlier := (s.writes.takeWhile fun v => decide (v.wid ≠ wid)).any fun v =>
        decide (v.gid = w.gid) && decide (v.addr < 2 ^ 48) && decide (v.addr / 65536 = w.addr / 65536)
      match s.writeFault w with
      | none => s
      | some why =>
        if s.mayPerform w = false ∨ s.writeLost w = true ∨ earlier = true ∨ s.evRoom w.part 1 = false then s
        else
          let lanes := maskOf ((s.writes.filter fun v => decide (v.gid = w.gid) && decide (v.seq = w.seq) && (s.writeFault v).isSome).map Write.lane)
          let s := { s with writes := s.writes.filter fun v => decide (v.wid ≠ wid) }
          match s.grp? w.gid with
          | none => s.refundTo w.core w.part w.pledge
          | some g =>
            let keep : State → State := fun s => s.updGrp w.gid fun g => { g with mm := { g.mm with replay := g.mm.replay ++ [w] } }
            match why with
            | none => keep s
            | some code =>
              if code = 0x11 ∧ g.mm.replay = [] then
                ((s.discard false [w]).protFault w.gid lanes w.addr).stopAtBoundary w.gid
              else
                let s := (keep s).firstFault w.gid code lanes w.addr
                let s := if code = 0x10 then s.reportPage w.gid w.addr lanes true else s
                s.stopAtBoundary w.gid)

/-! ## Replicas (R276) -/

/-- Inbound writes that every die has applied are acknowledged; a command sent after that makes them seen (R114). -/
def State.settleAcks (s : State) : State :=
  let open' : RmaAck → Bool := fun a => s.applies.any fun x => a.wids.contains x.wid
  let done := s.acks.filter fun a => !(open' a)
  done.foldl (fun (s : State) a => (s.updPart a.part fun p => { p with hostGc := p.hostGc.join a.gc }).sendTo a.src (.rma a.src true []))
    { s with acks := s.acks.filter open' }

/-- REPLICA_APPLY: the write comes next in vector order at its die, whose replica takes its bytes and its poison (R62, R276). -/
def execReplicaApply (k : Nat) (s : State) : Out' :=
  .next (match s.applies[k]? with
    | none => s
    | some a =>
      if s.applies.any fun b => decide (b.die = a.die) && b.stamp.lt a.stamp then s
      else
        let s := { s with applies := s.applies.eraseIdx k }
        let s := s.updDie a.die fun v => { v with av := v.av.set a.home (max (v.av.get a.home) (a.stamp.get a.home)) }
        let s := s.updPart a.part fun p =>
          let here := a.bytes.filter fun c => p.replicas.any fun r => decide (r.1 = a.die) && decide (r.2 = c.1 / 128)
          let bits := a.poison.filter fun b => p.replicas.contains (a.die, b.1 / 4)
          let p := if here.isEmpty then p else { p with views := p.views.modify a.die fun v => v.writeBy here a.wid a.stamp }
          if bits.isEmpty then p
          else { p with repPoison := (setBits ((p.repPoison.filter fun e => decide (e.1 = a.die)).map (·.2)) bits).map (fun k => (a.die, k))
            ++ p.repPoison.filter fun e => decide (e.1 ≠ a.die) }
        s.settleAcks.settleBarriers)

/-- A die's request for a line of another die has a path: one composed now, or that of a load on its way whose data it is to bring, which keeps
the routes it was composed with (R40). -/
def State.fillOpen (s : State) (p : Part) (die line : Nat) : Bool :=
  let h := homeDie p (128 * line)
  s.reach p p.regs.detour none die h
    || s.groups.any fun g => decide (g.part = p.id) && decide (dieOf g.core = die) && g.ops.any fun o => match o.kind with
      | .load ls .. => ls.any fun l => decide (l.2 / 128 = line) && s.reach p (o.detourOf l.1) (assoc l.1 o.redo) die h
      | _ => false

/-- REPLICA_FILL: a die without a replica of a line takes one from the home, once its clock covers the line's writes. -/
def execReplicaFill (part die line : Nat) (s : State) : Out' :=
  .next (match s.part? part with
    | none => s
    | some p =>
      let va := 128 * line
      let s := s.expandAt part va 128
      let h := homeDie p va
      let home := p.views.getD h View.empty
      match s.xlat part va with
      | .mem _ =>
        if 4 ≤ die ∨ h = die ∨ p.replicas.contains (die, line) ∨ (home.stampN va 128).le (s.die! die).av = false ∨ s.fillOpen p die line = false then s
        else
          let got := home.slice va 128
          s.updPart part fun p => { p with
            replicas := (die, line) :: p.replicas
            repPoison := ((p.poison.filter fun k => decide (k / 4 = line)).map fun k => (die, k))
              ++ p.repPoison.filter fun e => !(decide (e.1 = die) && decide (e.2 / 4 = line))
            views := p.views.modify die fun v =>
              let v := v.clear va 128
              { mem := Mem.writeCells v.mem got.mem, marks := got.marks ++ v.marks } }
      | _ => s)

end Sys2Proof.Machine
end

