-- ==== Sys2Proof/Machine/Topology.lean ====
section
/-!
DEFINITION. The topology map (R46-R49), the capability records (R107), Fubebex's own writes to the map page,
and the extents of the stacks (R50, R74, R79).
-/

namespace Sys2Proof.Machine

/-! ## The map -/

def Quad.l2mib (q : Quad) : Nat := if q.decTed then 28 else 32
def Quad.flags (q : Quad) : Nat := (if q.decTed then 1 else 0) + (if q.retired.isEmpty then 0 else 2)

/-- Clusters of a quadrant with at least one present core. -/
def State.clusterMask (s : State) (q : Nat) : Nat :=
  ((List.range 6).filter fun c => !(s.clusterCores (6 * q + c)).isEmpty).foldl (fun m c => m + 2 ^ c) 0

def quadMask (p : Part) : Nat := p.quads.foldl (fun m q => m + 2 ^ q) 0

/-- Enable mask of a die's central crossbar and of a quadrant's local crossbar, as the switches hold them (R29, R41, R48). -/
def State.centralMask (s : State) (d : Nat) : Nat :=
  15 + ([1, 2, 3].filter fun k => decide (s.linkHealth d ((d + k) % 4) ≠ 0)).foldl (fun m k => m + 2 ^ (k + 3)) 0 + 128
def State.localMask (s : State) (q : Nat) : Nat := s.clusterMask q + 192

/-- The topology map and the capability records, without the epoch (R46-R48). `first` of a quadrant without a present core is the count of all
logical cores (DESIGN CHOICE, log 111). -/
def State.mapBody (s : State) (p : Part) (epoch : Nat) : List Byte :=
  let cores := s.logical p
  let nq := p.quads.length
  let coff := 64 + 32 * nq
  let loff := coff + 4 * cores.length
  let hdr := leBytes 4 0x544F504F ++ leBytes 4 1 ++ leBytes 2 (quadMask p) ++ leBytes 2 cores.length ++ leBytes 2 nq ++ leBytes 2 0
    ++ leBytes 4 64 ++ leBytes 4 coff ++ leBytes 4 loff ++ leBytes 4 epoch ++ leBytes 32 0
  let quads := p.quads.flatMap fun q =>
    let mine := s.quadCores q
    leBytes 1 (q / 4) ++ leBytes 1 (q % 4) ++ leBytes 1 (s.quad! q).flags ++ leBytes 1 (s.clusterMask q)
      ++ leBytes 4 (mine.foldl (fun m c => m + 2 ^ (c % 24)) 0) ++ leBytes 2 (cores.findIdx fun c => decide (c / 24 = q)) ++ leBytes 2 mine.length
      ++ leBytes 2 (s.quad! q).l2mib ++ leBytes 2 16 ++ leBytes 2 q ++ leBytes 14 0
  let table := cores.flatMap fun c => leBytes 4 (c / 96 * 128 + c / 24 % 4 * 32 + c % 24 / 4 * 4 + c % 4)
  let links := (List.range 16).flatMap fun k => leBytes 1 (s.dev.links.getD k 0)
  let central := (List.range 4).flatMap fun d => leBytes 1 (s.centralMask d)
  let locals := (List.range 16).flatMap fun q => leBytes 1 (if p.quads.contains q then s.localMask q else 0)
  hdr ++ quads ++ table ++ links ++ central ++ locals

/-- Bytes of the map. -/
def State.mapLen (s : State) (p : Part) : Nat := 64 + 32 * p.quads.length + 4 * (s.logical p).length + 36

/-- The offset of the capability records within the page: the map's end rounded up to 16 (DESIGN CHOICE, log 24). -/
def State.capOff (s : State) (p : Part) : Nat := roundUp (s.mapLen p) 16

/-! ## Capability records (R107) -/

def Dev.patchLevel (d : Dev) : Nat := d.patches.foldl (fun m p => max m p.2) 0

/-- The bodies of the nine records, one 4-byte value for each item the table lists (DESIGN CHOICE, log 24). -/
def State.capBodies (s : State) : List (Nat × List Nat) :=
  [(1, [32, 0x1E]), (2, [0x1F, 0x38]), (3, [4, 24]), (4, [256, 10000]), (5, [64]), (6, [s.dev.fuses.threshold.toNat]),
   (7, [0x38, 3]), (8, [1, 7]), (9, [s.dev.patchLevel, s.dev.fuses.floor.toNat, s.dev.patches.length])]

/-- The list of records; `at_` is the offset of the first of those still to come. -/
def capList : Nat → List (Nat × List Nat) → List Byte
  | _, [] => []
  | at_, (id, vs) :: rest =>
    let len := roundUp (16 + 4 * vs.length) 8
    let next := if rest.isEmpty then 0 else at_ + len
    leBytes 2 id ++ leBytes 2 1 ++ leBytes 2 len ++ leBytes 2 1 ++ leBytes 4 next ++ leBytes 4 0
      ++ vs.flatMap (leBytes 4) ++ leBytes (len - 16 - 4 * vs.length) 0 ++ capList (at_ + len) rest

def State.capBytes (s : State) : List Byte := capList 0 s.capBodies

/-- The whole page as Fubebex keeps it. -/
def State.mapPage (s : State) (p : Part) (epoch : Nat) : List Byte :=
  let body := s.mapBody p epoch
  body ++ List.replicate (s.capOff p - body.length) 0 ++ s.capBytes

/-! ## Fubebex's writes to the map page (R49) -/

/-- A write of Fubebex on its way; its writes keep their order (DEDUCED, log 41). -/
def State.fubebexWrite (s : State) (part : Nat) (cells : List Host.Cell) : State :=
  (spansOf cells).foldl (fun s span =>
    let (wid, s) := s.fresh
    { s with writes := s.writes ++ [{ wid := wid, part := part, gid := 0, core := 384, seq := 0, oid := 0, lane := 0, kind := .store
                                      addr := (span.headD (0, 0)).1, bytes := span, gc := VClock.zero, rel := true, scope := 4, acq := false
                                      pledge := 0, whole := [], detour := 0, redo := none, mask := 0, past := 0 : Write }] }) s

/-- A byte of the page with the writes on their way laid over it. -/
def State.mapByte (s : State) (p : Part) (va : Nat) : Byte :=
  (s.writes.filter fun w => decide (w.gid = 0) && decide (w.part = p.id)).foldl (fun b w =>
    match w.bytes.find? fun c => decide (c.1 = va) with | some c => c.2 | none => b)
    ((p.views.getD (homeDie p va) View.empty).read va)

/-- The cells of the page that differ from what it holds, but for the epoch. -/
def State.mapDiff (s : State) (p : Part) : List Host.Cell :=
  let new := s.mapPage p p.epoch
  (cellsAt p.topoVa new).filter fun c => decide (s.mapByte p c.1 ≠ c.2) && !(decide (p.topoVa + 28 ≤ c.1) && decide (c.1 < p.topoVa + 32))

/-- TOPOLOGY_MAP_UPDATE (R49): an odd epoch, the entries, the next even epoch; with the last of these writes DETOUR is rewritten
(`State.rewriteDetour`). -/
def State.updateMap (s : State) (part : Nat) : State :=
  match s.part? part with
  | none => s
  | some p =>
    let ep : Nat → List Host.Cell := fun e => cellsAt (p.topoVa + 28) (leBytes 4 (e % 2 ^ 32))
    let diff := s.mapDiff p
    let s := ((s.fubebexWrite part (ep (p.epoch + 1))).fubebexWrite part diff).fubebexWrite part (ep (p.epoch + 2))
    s.updPart part fun p => { p with epoch := (p.epoch + 2) % 2 ^ 32 }

/-- The capability records follow a change of the patches, without an epoch (DESIGN CHOICE, log 24). -/
def State.updateCaps (s : State) : State :=
  s.parts.foldl (fun s p => s.fubebexWrite p.id (s.mapDiff p)) s

/-! ## Extents in a stack (R50, R74, R79) -/

/-- Cells of a stack: 32 channels of 1.5 GB (R50). -/
def stackCells : Nat := 750000000

def bankNo (cell : Nat) : Nat := 32 * (cell / 16 % 32) + Config.bankOf cell % 32

/-- The pages whose home is a quadrant and that hold an extent. -/
def State.extents (s : State) (quad : Nat) : List Page :=
  s.pages.filter fun pg => pg.hw.isNone && decide (pg.cap ≠ 0) && match s.part? pg.part with
    | some p => decide (homeQuad p (65536 * pg.vpn) = quad)
    | none => false

/-- `n` cells from `base` are free in a stack, naturally aligned (R3) and in no retired bank; `skip` is a page whose extent does not
count. -/
def State.fits (s : State) (quad base n : Nat) (skip : Nat × Nat) : Bool :=
  decide (base % n = 0) && decide (base + n ≤ stackCells)
    && (s.extents quad).all (fun pg => decide ((pg.part, pg.vpn) = skip) || decide (pg.extent + pg.cap ≤ base) || decide (base + n ≤ pg.extent))
    && !((List.range n).any fun i => (s.quad! quad).retired.contains (bankNo (base + i)))

/-- The first place of `fuel` aligned ones from the `k`th on that is free. -/
def State.firstFit (s : State) (quad n : Nat) (skip : Nat × Nat) : Nat → Nat → Option Nat
  | 0, _ => none
  | fuel + 1, k => if s.fits quad (n * k) n skip then some (n * k) else s.firstFit quad n skip fuel (k + 1)

/-- A place for an extent: the one proposed if it is free, else the first that is. The spec leaves the place to Fubebex. -/
def State.place (s : State) (quad n cand : Nat) (skip : Nat × Nat) : Option Nat :=
  if s.fits quad cand n skip then some cand else s.firstFit quad n skip (stackCells / n) 0

end Sys2Proof.Machine
end

