-- ==== Sys2Proof/Machine/Compress.lean ====
section
/-!
DEFINITION. Compressed pages: the encodings and the expander (R71-R73), extents and block tables (R74-R76), first
writebacks (R61), sealing (R60), compaction (R79), map-cache errors (R78), poison from DRAM (R62), bank retirement (R66)
and the L2's error-correction modes (R64).
-/

namespace Sys2Proof.Machine

/-! ## Encoding a mem-block (R71, R72) -/

/-- Values with their widths, packed from bit 0 upward. -/
def packBits : List (Nat × Nat) → Nat
  | [] => 0
  | (v, w) :: rest => v % 2 ^ w + 2 ^ w * packBits rest

def bitsLen (vs : List (Nat × Nat)) : Nat := (vs.map (·.2)).sum

/-- Cells that a stream of `n` bytes takes. -/
def cellsOf (n : Nat) : Nat := (n + 63) / 64

/-- Mode 0x01: all words are equal. -/
def enc01 (ws : List Nat) : Option (List Byte) :=
  match ws with
  | [] => none
  | w :: rest => if rest.all fun v => decide (v = w) then some (leBytes 4 1 ++ leBytes 4 w) else none

/-- Mode 0x02: base and deltas. -/
def enc02 (ws : List Nat) : Option (List Byte) :=
  let lo := ws.foldl min (ws.headD 0)
  let hi := ws.foldl max 0
  let w := bitLen (hi - lo)
  if w = 0 ∨ 27 < w then none
  else some (leBytes 1 2 ++ leBytes 1 w ++ leBytes 2 0 ++ leBytes 4 lo ++ leBytes (16 * w) (packBits (ws.map fun v => (v - lo, w))))

/-- The trial dictionary: the most frequent absent words, ties to the lowest value, up to 16 entries. -/
def growDict (dict ws : List Nat) : List Nat :=
  let new := (dedupN ws).filter fun w => !(dict.contains w)
  let order := sortBy (fun w => (512 - (ws.filter fun v => decide (v = w)).length) * 2 ^ 32 + w) new
  dict ++ order.take (16 - dict.length)

/-- Mode 0x03: page dictionary with escapes. -/
def enc03 (dict ws : List Nat) : List Byte :=
  let vs := ws.flatMap fun w => match dict.findIdx? fun d => decide (d = w) with | some k => [(k, 5)] | none => [(31, 5), (w, 32)]
  leBytes 8 3 ++ leBytes ((bitsLen vs + 7) / 8) (packBits vs)

/-- Length of the common prefix of two lists, at most `n`. -/
def commonLen : Nat → List Byte → List Byte → Nat
  | n + 1, a :: as, b :: bs => if a = b then commonLen n as bs + 1 else 0
  | _, _, _ => 0

/-- The longest earlier match at a position, ties to the smallest distance: length and distance. -/
def bestMatch (m : List Byte) (pos : Nat) : Nat × Nat :=
  (List.range pos).foldl (fun best i =>
    let d := i + 1
    let n := commonLen 131 (m.drop (pos - d)) (m.drop pos)
    if best.1 < n then (n, d) else best) (0, 0)

/-- A literal run as a token. -/
def flushRun (run : List Byte) : List Byte := if run.isEmpty then [] else BitVec.ofNat 8 (run.length - 1) :: run

/-- Mode 0x04's tokens, greedily from a position; `fuel` bounds the positions left. -/
def enc04From (m : List Byte) : Nat → Nat → List Byte → List Byte
  | 0, _, run => flushRun run
  | fuel + 1, pos, run =>
    if m.length ≤ pos then flushRun run
    else
      let (n, d) := bestMatch m pos
      if 4 ≤ n then flushRun run ++ BitVec.ofNat 8 (0x80 + (n - 4)) :: leBytes 2 d ++ enc04From m fuel (pos + n) []
      else if run.length = 128 then flushRun run ++ enc04From m fuel (pos + 1) ((m.drop pos).take 1)
      else enc04From m fuel (pos + 1) (run ++ (m.drop pos).take 1)

def enc04 (m : List Byte) : List Byte := leBytes 1 4 ++ enc04From m 512 0 []

/-- An encoded mem-block: cells, bytes as they lie in them, and the page's dictionary afterwards. -/
structure Coded where
  count : Nat
  bytes : List Byte
  dict : List Word

/-- `Encode` (R71). -/
def encodeBlock (dict : List Word) (m : List Byte) : Coded :=
  if m.all fun b => decide (b = 0) then ⟨0, [], dict⟩
  else
    let ws := (bytesToWords m).map BitVec.toNat
    let old := dict.map BitVec.toNat
    let grown := growDict old ws
    let tries := (enc01 ws).toList ++ (enc02 ws).toList ++ [enc03 grown ws, enc04 m]
    let best := tries.foldl (fun (b : Option (List Byte)) t =>
      match b with
      | none => some t
      | some c => if cellsOf t.length < cellsOf c.length then some t else b) none
    match best with
    | some t =>
      if cellsOf t.length < 8 then
        ⟨cellsOf t.length, t ++ List.replicate (64 * cellsOf t.length - t.length) 0,
          if t.head? = some 3 then grown.map fun n => BitVec.ofNat 32 n else dict⟩
      else ⟨8, m, dict⟩
    | none => ⟨8, m, dict⟩

/-! ## Extents -/

/-- Cells in use beside the table: the sum of every COUNT (15 counts as 0). -/
def Page.used (pg : Page) : Nat := (pg.table.map fun e => if e.2.1 = 15 then 0 else e.2.1).sum

/-- Lays out the mem-blocks in ascending order from a cell: number, cells, old offset, new offset. -/
def layOut : Nat → List (Nat × Nat × Nat) → List (Nat × Nat × Nat × Nat)
  | _, [] => []
  | at_, (b, c, o) :: rest => (b, c, o, at_) :: layOut (at_ + c) rest

/-- A writeback that finds no physical room waits, holding its superblock; it raises hard pressure (R79), at every
try again (DESIGN CHOICE, log 112). -/
def State.stall (s : State) (part : Nat) : State := s.hardPressure part

/-- Copies a page's mem-blocks into an extent of `cap` cells at `ext`; mem-block `b` takes `bs` in place of what it holds. -/
def Page.relaid (pg : Page) (p : Part) (quad ext cap : Nat) (b : Option (Nat × List Byte)) : Page :=
  let live := pg.table.filter fun e => decide (e.2.1 ≠ 15) && decide (some e.1 ≠ b.map Prod.fst)
  let all := sortBy (fun e => e.1) (live ++ match b with | some (k, bs) => [(k, bs.length / 64, 0)] | none => [])
  let plan := layOut 4 all
  let key := p.keyOf pg
  let cells := plan.flatMap fun e =>
    let bs := match b with | some (k, bs) => if k = e.1 then bs else pg.cellBytes e.2.2.1 e.2.1 | none => pg.cellBytes e.2.2.1 e.2.1
    sealAt key quad ext e.2.1 bs e.2.2.2
  ({ pg with
    extent := ext, cap := cap, hwm := 4 + (all.map fun e => e.2.1).sum, cells := cells, moves := pg.moves } : Page).setTable p quad
      ((plan.filter fun e => decide (e.2.1 ≠ 0)).map (fun e => (e.1, e.2.1, e.2.2.2)) ++
        pg.table.filter fun e => decide (e.2.1 = 15) && decide (some e.1 ≠ b.map Prod.fst))

/-- ConvertRaw (R76): 128 raw mem-blocks; a stream that the expander refuses leaves its sectors poisoned (R73). -/
def State.convertRaw (s : State) (p : Part) (pg : Page) (quad ext : Nat) : State :=
  let base := 65536 * pg.vpn
  let s := s.expandAt p.id base 65536
  let home := p.views.getD (homeDie p base) View.empty
  s.updPage p.id pg.vpn fun q => { q with
    cls := 1, table := [], extent := ext, cap := 1024, hwm := 1024
    cells := sealAt (p.keyOf pg) quad ext 1024 (home.readN base 65536) 0 }

/-- What a writeback of mem-block `b` stores: raw while a sector of it is poisoned (R62), else `Encode`. -/
def State.codedBlock (p : Part) (pg : Page) (b : Nat) : Coded :=
  let va := 65536 * pg.vpn + 512 * b
  let m := (p.views.getD (homeDie p va) View.empty).readN va 512
  if p.poisoned va 512 then ⟨8, m, pg.dict⟩ else encodeBlock pg.dict m

/-- The groups' `cln` of a mem-block is done (R288). -/
def State.cleaned (s : State) (part vpn b : Nat) : State :=
  { s with groups := s.groups.map fun g => if g.part = part then { g with mm := { g.mm with cleans := g.mm.cleans.filter fun c => decide (c ≠ (vpn, b)) } } else g }

/-- The end of a writeback: F changes by `df`, and the mem-block stops being pledged-dirty. -/
def State.settleBack (s : State) (part vpn b : Nat) (df : Int) : State :=
  (s.unpledge part (128 * vpn + b) df).cleaned part vpn b

/-- The writeback of a mem-block of a page that is stored raw (R67, R76). -/
def State.backRaw (s : State) (p : Part) (pg : Page) (mb : Nat) : State :=
  let va := 65536 * pg.vpn
  let quad := homeQuad p va
  let m := (p.views.getD (homeDie p va) View.empty).readN (va + 512 * mb) 512
  (s.updPage p.id pg.vpn fun q => { q with
    cl := false, cells := putCells q.cells (sealAt (p.keyOf q) quad q.extent 8 m (8 * mb)) }).settleBack p.id pg.vpn mb 0

/-- A dirty mem-block is written back (R75, R76, R61). `base` is the stack cell proposed for a new extent. -/
def State.writeBack (s : State) (part vpn mb base : Nat) : State :=
  match s.page? part vpn, s.part? part with
    | some pg, some p =>
      if !(pg.dirty.any fun e => decide (e.1 = mb)) || s.arriving part (128 * vpn + mb) then s
      else
        let quad := homeQuad p (65536 * vpn)
        let c := State.codedBlock p pg mb
        if pg.cls ≠ 0 then s.backRaw p pg mb
        else
          -- the page's first writeback allocates its extent
          let first := if pg.cl then s.place quad 16 base (65536, 0) else some pg.extent
          match first with
          | none => s.stall part
          | some ext =>
            let pg := if pg.cl then ({ pg with extent := ext, cap := 16, hwm := 4, cl := false } : Page).setTable p quad [] else pg
            let c0 := pg.count mb
            let key := p.keyOf pg
            if c.count ≤ c0 ∨ pg.hwm + c.count ≤ pg.cap then
              let tail := decide (c0 < c.count)
              let off := if tail then pg.hwm else ((assoc mb pg.table).map Prod.snd).getD 0
              let rest := pg.table.filter fun e => decide (e.1 ≠ mb)
              (s.updPage part vpn fun q => ({ pg with
                moves := q.moves, dirty := q.dirty, dict := c.dict
                hwm := if tail then pg.hwm + c.count else pg.hwm
                cells := putCells pg.cells (sealAt key quad pg.extent c.count c.bytes off) } : Page).setTable p quad
                  (if c.count = 0 then rest else (mb, c.count, off) :: rest)).settleBack part vpn mb ((c0 : Int) - c.count)
            else
              let others := (pg.table.filter fun e => decide (e.1 ≠ mb) && decide (e.2.1 ≠ 15)).map fun e => e.2.1
              let u := 4 + c.count + others.sum
              if 1024 < u then
                match s.place quad 1024 base (65536, 0) with
                | none => s.stall part
                | some ext =>
                  -- every pledge of the page returns with that of the mem-block written back
                  let kept := (pg.dirty.map fun e => e.2).sum
                  let s := s.convertRaw p pg quad ext
                  let s := s.updPage part vpn fun q => { q with dirty := q.dirty.map fun e => (e.1, if e.1 = mb then kept else 0) }
                  s.settleBack part vpn mb ((4 + c0 + others.sum : Int) - 1024)
              else
                let cap := min 1024 (roundUp (u + 8) 16)
                match s.place quad cap base (65536, 0) with
                | none => s.stall part
                | some ext =>
                  (s.updPage part vpn fun q => { ({ pg with dict := c.dict } : Page).relaid p quad ext cap (some (mb, c.bytes)) with
                    moves := q.moves, dirty := q.dirty }).settleBack part vpn mb ((c0 : Int) - c.count)
    | _, _ => s

/-- WRITEBACK (R75, R76, R61). -/
def execWriteback (part vpn mb base : Nat) (s : State) : Out' := .next (s.writeBack part vpn mb base)

/-- Free physical cells of a stack (R79). -/
def State.physFree (s : State) (quad : Nat) : Int :=
  (stackCells : Int) - ((s.extents quad).map Page.cap).sum - ((s.quad! quad).retired.map Config.bankCells).sum

/-- COMPACTION (R79, R90): when free physical cells fall below half the margin, the page with the most slack is relaid out,
unless a move holds it (DEDUCED, log 43). -/
def execCompaction (part vpn base : Nat) (s : State) : Out' :=
  .next (match s.page? part vpn, s.part? part with
    | some pg, some p =>
      let quad := homeQuad p (65536 * vpn)
      let slack : Page → Nat := fun q => if q.cls = 0 then q.cap - (4 + q.used) else 0
      if pg.cls ≠ 0 ∨ pg.cl = true ∨ pg.own = true ∨ pg.hw.isSome ∨ 0 < pg.moves ∨ 5859375 ≤ s.physFree quad
        ∨ (s.extents quad).any (fun q => decide (slack pg < slack q)) = true then s
      else
        let cap := min 1024 (roundUp (4 + pg.used + 8) 16)
        match s.place quad cap base (65536, 0) with
        | none => s
        | some ext => s.updPage part vpn fun q => q.relaid p quad ext cap none
    | _, _ => s)

/-- MAP_CACHE_ERROR (R78): the line is refetched; under a relayout the page is lost to COUNT 15. -/
def execMapCacheError (part vpn : Nat) (relayout : Bool) (s : State) : Out' :=
  .next (match s.page? part vpn, s.part? part with
    | some pg, some p =>
      if relayout = false ∨ pg.cls ≠ 0 ∨ pg.cl = true ∨ pg.own = true ∨ pg.hw.isSome then s
      else
        let quad := homeQuad p (65536 * vpn)
        let lost := (List.range 128).filter fun b => !(pg.dirty.any fun e => decide (e.1 = b))
        let s := s.updPage part vpn fun q => ({ q with hwm := 4, cells := [] } : Page).setTable p quad ((List.range 128).map fun b => (b, 15, 0))
        let s := s.poisonSectors part (lost.flatMap fun b => blockSectors (128 * vpn + b))
        (s.addF part (pg.used : Int)).logError 2 (quad / 4) (quad % 4) (65536 * vpn) part 0 []
    | _, _ => s)

/-! ## Errors (R62, R66) -/

/-- What an uncorrectable error can hit at mem-block `b` (R61, R62): dirty data in L2, or cells in DRAM. A page with CL = 1, and
a mem-block without cells, has none there. -/
def Page.hasData (pg : Page) (b : Nat) : Bool :=
  (pg.dirty.any fun e => decide (e.1 = b)) || (!pg.cl && (decide (pg.cls ≠ 0) || decide (0 < pg.count b)))

/-- DRAM_UNCORRECTABLE (R62): the sector is poisoned and logged once (DEDUCED, log 38). Of a coded mem-block too it is one 32 B
sector of the expanded data (DESIGN CHOICE, log 105). -/
def execDramUncorrectable (part sector : Nat) (s : State) : Out' :=
  .next (match s.part? part, s.xlat part (32 * sector) with
    | some p, .mem pg =>
      let quad := homeQuad p (32 * sector)
      if pg.hasData (sector / 16 % 128) then (s.poisonSectors part [sector]).logError 3 (quad / 4) (quad % 4) (32 * sector) part 0 []
      else s
    | _, _ => s)

/-- Whether cell `o` of a page's extent lies in a bank: a near-bank page is laid out by rows (R67), any other by cells (R50). -/
def Page.cellIn (pg : Page) (row0 bank o : Nat) : Bool :=
  if pg.cls = 2 then decide ((row0 + o / max pg.nbrow 1) % 1024 = bank) else decide (bankNo (pg.extent + o) = bank)

/-- The sectors of a page that lie in a bank: those of the cells in it for a page stored raw, the whole mem-block's when it is
coded. A mem-block that is dirty in L2, and a page with CL = 1, lose nothing (R61). `row0` is the near-bank row that the page begins with. -/
def Page.inBank (pg : Page) (row0 bank : Nat) : List Nat :=
  let hit : Nat → Bool := pg.cellIn row0 bank
  let clean : Nat → Bool := fun b => !(pg.dirty.any fun e => decide (e.1 = b))
  if pg.cl then []
  else if pg.cls ≠ 0 then
    ((List.range 1024).filter fun o => hit o && clean (o / 8)).flatMap fun o => [2048 * pg.vpn + 2 * o, 2048 * pg.vpn + 2 * o + 1]
  else (pg.table.filter fun e => clean e.1 && (List.range e.2.1).any fun i => hit (e.2.2 + i)).flatMap fun e =>
    if e.2.1 = 8 then
      ((List.range 8).filter fun i => hit (e.2.2 + i)).flatMap fun i => [2048 * pg.vpn + 16 * e.1 + 2 * i, 2048 * pg.vpn + 16 * e.1 + 2 * i + 1]
    else blockSectors (128 * pg.vpn + e.1)

/-- The row of its near-bank region that a page begins with: the region is the run of consecutive CLASS 2 pages of one NBROW that the
page stands in (R67) (DEDUCED, log 89). -/
def State.firstRow (s : State) (pg : Page) : Nat :=
  let same : Nat → Bool := fun v => match s.page? pg.part v with
    | some q => decide (q.cls = 2) && decide (q.nbrow = pg.nbrow) && q.hw.isNone
    | none => false
  let before := ((List.range pg.vpn).map fun i => pg.vpn - 1 - i).takeWhile same
  before.length * (1024 / max pg.nbrow 1)

/-- BANK_RETIREMENT (R66). `bases` are the places proposed for the extents that move. -/
def State.retireBank (s : State) (quad bank : Nat) (bases : List Nat) : State :=
  let owner := s.ownerOf quad
  let pid := (owner.map Part.id).getD 0xFFFF
  let hit := (s.extents quad).filter fun pg => (List.range pg.cap).any (pg.cellIn (s.firstRow pg) bank)
  let s := hit.foldl (fun s pg => s.poisonSectors pg.part (pg.inBank (s.firstRow pg) bank)) s
  let s := s.updQuad quad fun q => { q with retired := if q.retired.contains bank then q.retired else bank :: q.retired }
  let moving := hit.filter fun pg => decide (pg.cls ≠ 2)
  let s := ((List.range moving.length).zip moving).foldl (fun s e =>
    match s.place quad e.2.cap (bases.getD e.1 0) (65536, 0) with
    | some ext => s.updPage e.2.part e.2.vpn fun q => { q with extent := ext, cells := moveCells quad ext q.cells }
    | none => s.stall e.2.part) s
  let s := s.logError 6 (quad / 4) (quad % 4) 0 pid bank []
  match owner with
  | none => s
  | some p =>
    let s := s.addF p.id (-(Config.bankCells bank : Int))
    let s := if ((s.part? p.id).map fun p => decide (p.avail < 0)).getD false then s.hardPressure p.id else s
    s.updateMap p.id

/-- ROW_REMAP_VOTE (R66): the lookup finds the three copies of an entry as given. -/
def execRowRemapVote (quad bank : Nat) (copies : List Nat) (bases : List Nat) (s : State) : Out' :=
  .next (match copies with
    | [a, b, c] =>
      if 16 ≤ quad ∨ 1024 ≤ bank ∨ (s.quad! quad).retired.contains bank = true then s
      else
        let set : Nat → State → State := fun v s => s.updQuad quad fun q => { q with
          remap := (if v = bank then [] else [(bank, 0, v), (bank, 1, v), (bank, 2, v)]) ++ q.remap.filter fun e => decide (e.1 ≠ bank) }
        let pid := ((s.ownerOf quad).map Part.id).getD 0xFFFF
        if a = b ∧ b = c then set a s
        else if a = b ∨ a = c then (set a s).logError 1 (quad / 4) (quad % 4) 0 pid bank []
        else if b = c then (set b s).logError 1 (quad / 4) (quad % 4) 0 pid bank []
        else s.retireBank quad bank bases
    | _ => s)

/-! ## L2 error-correction modes (R64, R65) -/

/-- A quadrant changes mode: the ERROR event, ECCSWITCH, and the topology map. -/
def State.eccSwitch (s : State) (quad : Nat) (dec : Bool) : State :=
  let s := s.updQuad quad fun q => { q with decTed := dec, railOk := none }
  match s.ownerOf quad with
  | none => s.logError 9 (quad / 4) (quad % 4) 0 0xFFFF 0 []
  | some p =>
    let s := s.updPart p.id fun p => { p with cnt := { p.cnt with eccSwitch := p.cnt.eccSwitch + 1 } }
    (s.logError 9 (quad / 4) (quad % 4) 0 p.id 0 []).updateMap p.id

/-- ECC_SWITCH_DEC_TED (R64): the rail is sampled below the fused threshold code. -/
def execEccSwitchDecTed (quad : Nat) (rail : BitVec 8) (s : State) : Out' :=
  .next (if quad < 16 ∧ (s.quad! quad).decTed = false ∧ rail.toNat < s.dev.fuses.threshold.toNat then s.eccSwitch quad true else s)

/-- ECC_SWITCH_SEC_DED (R64): the rail is sampled; the mode returns once it has stayed at or above the threshold code plus 2
for 10 ms. -/
def execEccSwitchSecDed (quad : Nat) (rail : BitVec 8) (s : State) : Out' :=
  .next (if 16 ≤ quad ∨ (s.quad! quad).decTed = false then s
    else if rail.toNat < s.dev.fuses.threshold.toNat + 2 then s.updQuad quad fun q => { q with railOk := none }
    else match (s.quad! quad).railOk with
      | none => s.updQuad quad fun q => { q with railOk := some s.dev.up }
      | some t => if t + 10000000 ≤ s.dev.up then s.eccSwitch quad false else s)

end Sys2Proof.Machine
end

