-- ==== Sys2Proof/Machine/Memory.lean ====
section
/-!
DEFINITION. The memory instructions (R271-R294) and the replies to loads and atomics (R56, R277-R280, R284, R285).
-/

namespace Sys2Proof.Machine

/-! ## Addresses and traps before any lane is performed (R271, R274) -/

/-- The lanes that make an access: with G = 1 the lowest active lane alone. -/
def Ctx.units (x : Ctx) : List Nat := if x.f.g then [lowest x.act] else x.lanes

/-- A lane's address. -/
def Ctx.addr (x : Ctx) (lane : Nat) : Nat :=
  let off : DWord := if x.f.i then x.f.imm.signExtend 64 else ((x.val x.f.sb 1 lane).setWidth 32).signExtend 64
  (x.rdA 2 lane + off).toNat

/-- An address that no access of the group may use (R52, R156). -/
def Ctx.badAddr (x : Ctx) (a : Nat) : Bool := !(x.s.mayAccess x.g.grid (x.s.locate x.part x.g.core a))

/-- The first precise trap: 0x11, then 0x14. `us` lists lane, address and the bytes it touches, which are judged when the access is
aligned: of one that is not, the lane's address is (R274). -/
def Ctx.precise (x : Ctx) (us : List (Nat × Nat × List Nat)) (align : Nat) : Option (BitVec 8 × Mask × Nat) :=
  let bad := us.filter fun u => if u.2.1 % align = 0 then u.2.2.any x.badAddr else x.badAddr u.2.1
  let odd := us.filter fun u => decide (u.2.1 % align ≠ 0)
  match bad, odd with
  | b :: _, _ => some (0x11, maskOf (bad.map (·.1)), b.2.1)
  | [], b :: _ => some (0x14, maskOf (odd.map (·.1)), b.2.1)
  | [], [] => none

/-! ## Sending writes -/

/-- A place in the group's own lane or group frame. -/
def State.ownFrame (s : State) (g : Group) : Loc → Bool
  | .store c o => decide (c = g.core) && (s.core! c).regions.any fun r =>
      (groupRegion g.gid r || (decide (r.kind = .reply) && decide (g.kind = .reply))) && decide (r.base ≤ o) && decide (o < r.base + r.size)
  | _ => false

/-- An access to the group's own frames takes effect at issue (R156): it waits there for an acquire before it and, as a release, for
what a release waits for (R277). -/
def Ctx.ownHeld (x : Ctx) (addrs : List Nat) (rel : Bool) (scope : Nat) : Bool :=
  (addrs.any fun a => x.s.ownFrame x.g (x.s.locate x.part x.g.core a))
    && (x.g.acqBefore x.g.seq || (rel && !(x.s.releaseReady x.g scope x.g.seq)))

/-- A write leaves the core: into its own frame at once (R156), into the stores that a paired block holds (R182), or on its
way to its home. -/
def State.sendWrite (s : State) (g : Group) (w : Write) : State :=
  let p := (s.part? g.part).getD default
  if s.ownFrame g (s.locate p g.core w.addr) then s.acceptWrite w
  else
    let inBlock : Bool := match s.locate p w.core w.addr with | .store .. => true | _ => false
    match (if w.kind = .store ∧ inBlock = false then s.pairBlock g else none) with
    | some b => s.hold b g.copy w
    | none => { s with writes := s.writes ++ [w] }

/-- What all writes of one instruction share. -/
structure SendAs where
  kind : Nat → WKind
  rel : Bool
  acq : Bool
  scope : Nat
  oid : Nat
  seq : Nat

/-- Sends the writes of an instruction, lane by lane in ascending order; each mem-block's pledge goes with the first write
that touches it, and the core drops its L1 copies of the lines written (R279). A byte of the cluster share goes under its one name. -/
def Ctx.sendAll (x : Ctx) (s : State) (us : List (Nat × List (List Host.Cell))) (k : SendAs) : State :=
  let all := us.flatMap fun u => u.2.flatMap id
  let whole := wholeSectors all
  let lines := dedupN ((all.filter fun c => decide (c.1 < 2 ^ 48)).map fun c => c.1 / 128)
  let s := lines.foldl (fun s l => s.dropL1Line x.g.core l) s
  let r := us.foldl (fun (r : State × List Nat) u => u.2.foldl (fun (r : State × List Nat) span =>
    let a := (span.headD (0, 0)).1
    let pays := decide (a < 2 ^ 48) && !(r.2.contains (a / 512)) && (match k.kind u.1 with | .blkz => false | _ => true)
    let (wid, s) := r.1.fresh
    let w : Write := { wid := wid, part := x.g.part, gid := x.gid, core := x.g.core, seq := k.seq, oid := k.oid, lane := u.1, kind := k.kind u.1
                       addr := s.canon x.part x.g.core a, bytes := span.map fun c => (s.canon x.part x.g.core c.1, c.2)
                       gc := x.g.mm.gc, rel := k.rel, scope := k.scope, acq := k.acq
                       pledge := if pays then 8 else 0, whole := whole, detour := x.part.regs.detour, redo := none
                       mask := if x.f.g then x.act else maskOf [u.1]
                       past := if k.rel && decide (1 ≤ k.scope) then k.seq else x.g.mm.fenced }
    (s.sendWrite x.g w, if pays then a / 512 :: r.2 else r.2)) r) (s, [])
  r.1.updGrp x.gid fun g => { g with seq := g.seq + 1 }

/-- Pledges for a store (R82) and sends it; `note` is what it ends of the group's runs of loads, and a `.cas` leaves that to the home (R352). A capacity fault's TADDR is the 512-aligned address of
the first byte that any lane writes, also where the lowest lane touches no mem-block (R86) (DESIGN CHOICE, log 122). -/
def Ctx.pledged (x : Ctx) (us : List (Nat × List (List Host.Cell))) (note : State → State) (send : State → State) : Eff :=
  let all := us.flatMap fun u => u.2.flatMap id
  let mbs := dedupN ((all.filter fun c => decide (c.1 < 2 ^ 48)).map fun c => c.1 / 512)
  let first := (all.headD (0, 0)).1 / 512 * 512
  match x.s.pledge x.g.core x.gid x.p.sid (8 * mbs.length) x.act first with
  | .waits s => .wait s
  | .ok s => .done (send (note s))

/-! ## Stores (R281, R282, R292) -/

/-- The bytes of a data operand, the lowest slot first. -/
def Ctx.data (x : Ctx) (o : BitVec 10) (z lane : Nat) : List Byte := (wordsToBytes (x.words o (sizeW z) lane)).take (sizeB z)

/-- A store of the cells that each lane selects. -/
def Ctx.store (x : Ctx) (align : Nat) (cells : Nat → List Host.Cell) : Eff :=
  let us := (x.units.map fun l => (l, cells l)).filter fun u => !u.2.isEmpty
  match x.precise (us.map fun u => (u.1, x.addr u.1, u.2.map (·.1))) align with
  | some (code, m, a) => .trap code m a
  | none =>
    let rel := decide (x.f.ord = 2)
    let scope := if rel then x.f.scope else 0
    if x.ownHeld (us.flatMap fun u => u.2.map (·.1)) rel scope then x.hold rel
    else
      let us := us.map fun u => (u.1, spansOf u.2)
      x.pledged us (fun s => s.noteMem x.gid) fun s => x.sendAll s us
        { kind := fun _ => .store, rel := rel, acq := false, scope := scope, oid := 0, seq := x.g.seq }

/-- `st` (R281). -/
def execSt (f : Fld) (s : State) : Out' :=
  .next (runLanes (.st f) (fun x => x.store (sizeB f.size) fun l =>
    (bytesFrom (x.addr l) (sizeB f.size)).zip (x.data f.dst f.size l)) s)

/-- `stm` (R282, R348). -/
def execStm (f : Fld) (s : State) : Out' :=
  .next (runLanes (.stm f) (fun x => x.store 1 fun l =>
    let m : DWord := x.rdC 1 l
    let cells := (bytesFrom (x.addr l) (sizeB f.size)).zip (x.data f.dst f.size l)
    ((List.range cells.length).zip cells).filterMap fun e => if m.getLsbD e.1 then some e.2 else none) s)

/-- `blkz` (R292). -/
def execBlkz (f : Fld) (s : State) : Out' :=
  .next (runLanes (.blkz f) (fun x =>
    let us := x.units.map fun l => (l, x.addr l, [x.addr l])
    let bad := us.filter fun u => decide (2 ^ 48 ≤ u.2.1)
    let odd := us.filter fun u => decide (u.2.1 % 512 ≠ 0)
    match bad, odd with
    | b :: _, _ => .trap 0x11 (maskOf (bad.map (·.1))) b.2.1
    | [], b :: _ => .trap 0x14 (maskOf (odd.map (·.1))) b.2.1
    | [], [] =>
      let firsts := us.foldl (fun (acc : List (Nat × Nat)) u => if acc.any fun e => decide (e.2 = u.2.1) then acc else acc ++ [(u.1, u.2.1)]) []
      .done (x.sendAll (x.s.noteMem x.gid) (firsts.map fun e => (e.1, [cellsAt e.2 (List.replicate 512 0)]))
        { kind := fun _ => .blkz, rel := false, acq := false, scope := 0, oid := 0, seq := x.g.seq })) s)

/-! ## Atomics and reductions (R283-R286) -/

/-- The scope of an atomic's ordering, by the window its address lies in (R283). -/
def atomScope (a : Nat) : Nat :=
  if coreWin ≤ a ∧ a < clusterWin then 1 else if clusterWin ≤ a ∧ a < scratchWin then 2 else 4

/-- Operand b of an atomic: the slots that SB names, or the immediate, which for `.fadd` is that of an FP32 value (R209). -/
def Ctx.atomB (x : Ctx) (lane : Nat) : DWord := x.rdB (if x.f.lo = 9 then 8 else 2) (if 2 ≤ x.f.cls then 2 else 1) lane

/-- The address of an atomic: the base alone. -/
def Ctx.addr0 (x : Ctx) (lane : Nat) : Nat := (x.rdA 2 lane).toNat

/-- The common part of `atom` and `mred`. -/
def Ctx.atomic (x : Ctx) (red : Bool) : Eff :=
  let n := if 2 ≤ x.f.cls then 8 else 4
  let us := x.units.map fun l => (l, x.addr0 l, bytesFrom (x.addr0 l) n)
  match x.precise us n with
  | some (code, m, a) => .trap code m a
  | none =>
    let spans := us.map fun u => (u.1, [u.2.2.map fun a => (a, (0 : Byte))])
    let acq := decide (x.f.aord % 2 = 1)
    let rel := decide (2 ≤ x.f.aord)
    let ret := !red && !x.f.dstZero
    let scopes := us.map fun u => atomScope u.2.1
    if x.ownHeld (us.map fun u => u.2.1) rel (scopes.foldl max 0) then x.hold rel
    else
    x.pledged spans (fun s => if x.f.lo ≠ 7 then s.noteMem x.gid else if acq then s else s.endRun x.gid) fun s =>
      let (oid, s) := if ret || acq then
          x.pushOp s (if ret then (flagOf x.c.word x.f.fs).getD noFlag else noFlag) (x.dest x.f.dst)
            (.atomic x.units [] acq x.f.g (scopes.any fun k => decide (2 ≤ k)))
        else (0, s)
      x.sendAll s spans
        { kind := fun l => .atomic x.f.lo x.f.cls (x.atomB l) (x.rdC (n / 4) l) ret red
          rel := rel, acq := acq, scope := scopes.foldl max 0, oid := oid, seq := x.g.seq }

/-- `atom` (R283-R285). -/
def execAtom (f : Fld) (s : State) : Out' := .next (runLanes (.atom f) (fun x => x.atomic false) s)

/-- `mred` (R286). -/
def execMred (f : Fld) (s : State) : Out' := .next (runLanes (.mred f) (fun x => x.atomic true) s)

/-- ATOMIC_REPLY (R284, R285): every lane has been performed; an acquire also waits until AV covers GC. -/
def execAtomicReply (gid oid : Nat) (s : State) : Out' :=
  .next (match (s.grp? gid).bind fun g => (g.op? oid).map fun o => (g, o) with
    | none => s
    | some (g, o) =>
      match o.kind with
      | .atomic [] got acq once wide =>
        if (acq && !(s.covered g)) || g.acqBefore o.seq || g.saved.isSome then s
        else (if acq then s.acquired gid (if wide then 2 else 1) else s).endAtomic o got once false
      | _ => s)

/-! ## Loads (R280) -/

/-- A load has returned bytes; an acquire's lowest lane stands for it in the demotion run (R151) (DEDUCED, log 44). -/
def State.noteLoad (s : State) (gid : Nat) (acq : Bool) (addr : Nat) (v : List Byte) : State :=
  let s := s.noteRead gid addr v
  if acq then s.noteAcq gid addr v else s

/-- `ld` (R280). Lanes whose bytes stand in the group's own frames read them at issue (R156), once no acquire before it is open, and
their stamps enter GC (R277). -/
def execLd (f : Fld) (s : State) : Out' :=
  .next (runLanes (.ld f) (fun x =>
    let n := sizeB f.size
    let us := x.units.map fun l => (l, x.addr l, bytesFrom (x.addr l) n)
    match x.precise us n with
    | some (code, m, a) => .trap code m a
    | none =>
      let acq := decide (f.ord = 1)
      let byp := decide (f.ord = 0) && decide (f.mod.toNat / 32 % 4 = 3)
      if x.ownHeld (us.map fun u => u.2.1) false 0 then x.hold false
      else
        let mine : Nat × Nat × List Nat → Bool := fun u => x.s.ownFrame x.g (x.s.locate x.part x.g.core u.2.1)
        let s := if acq then x.s else x.s.endRun x.gid
        let far := (us.filter fun u => !(mine u)).map fun u => (u.1, s.canon x.part x.g.core u.2.1)
        let (oid, s) := x.issueOp s f.dst (.load far n byp acq (if acq then f.scope else 0) f.g)
        .done ((us.filter mine).foldl (fun s u =>
          let at_ : Nat → Loc := s.locate x.part x.g.core
          let bs := u.2.2.map fun a => s.byteAt x.part (dieOf x.g.core) (at_ a)
          let st := u.2.2.foldl (fun c a => c.join (s.markAt x.part (dieOf x.g.core) (at_ a)).stamp) VClock.zero
          let ls := if f.g then x.lanes else [u.1]
          (((s.joinGc x.gid x.g.seq st).hear x.gid x.g.seq (acq && decide (1 ≤ f.scope)) (s.placesAt x.part x.g.core (u.2.2.map fun a => s.canon x.part x.g.core a))).giveLanes oid (ls.map fun l => (l, bytesToWords bs))).1.noteLoad x.gid (acq && decide (u.1 = lowest x.act))
            (s.canon x.part x.g.core u.2.1) bs) s)) s)

/-- The line of a list, if held. -/
def lineOf (ls : List Line) (k : Nat) : Option Line := ls.find? fun l => decide (l.line = k)

/-- A held line shows no byte in an older state than the group has read or written it (R277). -/
def Line.notOlder (l : Line) (p : Part) (floor : List (Nat × Nat)) (a n : Nat) : Bool :=
  (List.range n).all fun i => decide ((assoc (a + i) floor).getD 0 ≤ (l.view.markOf (a + i)).place (homeDie p a))

/-- The host's memory shows no byte of a window in an older state than the group has read or written it (R112, R277). -/
def State.hostNotOlder (s : State) (p : Part) (floor : List (Nat × Nat)) (a h n : Nat) : Bool :=
  (List.range n).all fun i => decide ((assoc (a + i) floor).getD 0 ≤
    ((View.mk [] s.hostMarks).markOf (h + i)).place (homeDie p a))

/-- Whether a lane's bytes may be read from `src` now (R57-R59, R112, R277, R279, R356). -/
def State.laneReady (s : State) (g : Group) (o : Op) (acq byp : Bool) (scope : Nat) (src : ReadSrc) (va n : Nat) : Bool :=
  let p := (s.part? g.part).getD default
  !(s.writes.any fun w => decide (w.gid = g.gid) && decide (w.seq < o.seq) && inRange w.bytes va n)
    && (s.earlyAt g.gid va n).all (fun e => !(s.earlyOpen e))
    && match s.locate p g.core va with
      | .mem a =>
        let d := dieOf g.core
        let l1 := (lineOf (s.core! g.core).l1 (a / 128)).any fun l => !acq && !byp && l.notOlder p g.mm.floor a n && s.freshView p g.gid o.seq l.view a n
        let recent : List Line → Bool := fun ls => (lineOf ls (a / 128)).any fun l => decide (g.mm.hwAfter ≤ l.born)
        (g.mm.own.all fun e => decide (e.1 + e.2.1 ≤ a) || decide (a + n ≤ e.1) || e.2.2.le (s.die! d).av)
          && !(g.mm.replay.any fun w => decide (w.addr / 65536 = a / 65536))
          && match s.xlat g.part a, src with
            | .mem _, .die => decide (homeDie p a = d) || p.replicas.contains (d, a / 128)
            | .mem _, .l1 => l1
            | .mem _, .host => false
            | .host .., .l1 => l1 && recent (s.core! g.core).l1
            | .host .., .die => !(acq && decide (scope = 5)) && recent p.hwLines
                && (lineOf p.hwLines (a / 128)).any fun l => l.notOlder p g.mm.floor a n
            | .host _ _ h, .host => !(s.rmas.any fun r => decide (r.gid = g.gid) && inRange r.cells h n) && s.hostNotOlder p g.mm.floor a h n
            | .unmapped, .l1 => l1
            | .unmapped, _ => false
      | _ => true

/-- The view that a lane's bytes come from, with its poisoned sectors; a fetch from the host refills the home L2's copy. -/
def State.readView (s : State) (g : Group) (src : ReadSrc) (va : Nat) : View × List Nat :=
  let p := (s.part? g.part).getD default
  match src with
  | .l1 => match lineOf (s.core! g.core).l1 (va / 128) with | some l => (l.view, l.poison) | none => (View.empty, [])
  | .die =>
    match s.xlat g.part va with
    | .host .. => match lineOf p.hwLines (va / 128) with | some l => (l.view, []) | none => (View.empty, [])
    | _ => (p.views.getD (dieOf g.core) View.empty, p.poisonAt (dieOf g.core) va)
  | .host =>
    match s.xlat g.part va with
    | .host _ _ h =>
      let base := va / 128 * 128
      let hb := h - va % 128
      let v : View := View.poke View.empty base (Mem.readN s.host hb 128)
      ({ v with marks := (s.hostMarks.filter fun m => decide (hb ≤ m.addr) && decide (m.addr < hb + 128)).map fun m => { m with addr := m.addr - hb + base } }, [])
    | _ => (View.empty, [])

/-- Installs the line in the home L2 (for a fetch from the host) and in the core's L1 (R112, R273, R277). The L1 copy of a window's line
that stands in the home L2 is as old as that. -/
def State.installLine (s : State) (g : Group) (src : ReadSrc) (byp : Bool) (va : Nat) (v : View) (poison : List Nat) : State :=
  let p := (s.part? g.part).getD default
  let (n, s) := if src = .host then s.fresh else (((lineOf p.hwLines (va / 128)).map Line.born).getD 0, s)
  let l : Line := { line := va / 128, view := v.slice (va / 128 * 128) 128, born := n, poison := poison.filter fun k => decide (k / 4 = va / 128) }
  let s := if src = .host then s.updPart g.part fun p => { p with hwLines := l :: p.hwLines.filter fun k => decide (k.line ≠ l.line) } else s
  if src = .l1 ∨ byp = true then s
  else s.updCore g.core fun k => { k with l1 := l :: k.l1.filter fun q => decide (q.line ≠ l.line) }

/-- A lane of a load has replied. -/
def State.dropLoadLane (s : State) (oid lane : Nat) : State :=
  (s.holders oid).foldl (fun s h => s.updOp h.gid oid fun o => { o with kind := match o.kind with
    | .load ls n byp acq sc once => .load (ls.filter fun l => decide (l.1 ≠ lane)) n byp acq sc once
    | k => k }) s

/-- One lane's data returns. A lane of a `.g` load stands for every active lane (R165). -/
def State.replyLane (s : State) (g : Group) (o : Op) (n : Nat) (byp acq : Bool) (scope : Nat) (once : Bool) (src : ReadSrc) (lane va : Nat) : State :=
  let p := (s.part? g.part).getD default
  let drop : State → State := fun s => s.dropLoadLane o.oid lane
  let ls := if once then lanesOf o.mask else [lane]
  let give : State → List (Nat × Nat) → List Byte → State := fun s seen bs =>
    let r := (s.hear g.gid o.seq (acq && decide (1 ≤ scope)) seen).giveLanes o.oid (ls.map fun l => (l, bytesToWords bs))
    let s := if r.2 then r.1 else r.1.updOp g.gid o.oid fun o => { o with err := true }
    drop (s.noteLoad g.gid (acq && decide (lane = lowest o.mask)) va bs)
  match s.locate p g.core va with
  | .mem _ =>
    let s := match src, s.xlat g.part va with
      | .die, .mem _ => s.expandAt g.part (va / 128 * 128) 128
      | _, _ => s
    let (v, poison) := s.readView g src va
    let s := s.installLine g src byp va v poison
    if touchesPoison poison va n then drop (s.killLanes g.gid ls va)
    else
      let held := s.heldBy g
      let st := v.stampN va n
      let bs := (List.range n).map fun i => heldOver held (va + i) (v.read (va + i))
      let seen := (List.range n).map fun i => (va + i, (v.markOf (va + i)).place (homeDie p (va + i)))
      give ((s.joinGc g.gid o.seq (s.earlyClock g.gid va n st)).setFloor g.gid seen) seen bs
  | l =>
    let at_ : Nat → Loc := fun i => s.locate p g.core (va + i)
    let st := (List.range n).foldl (fun c i => c.join (s.markAt p (l.die p) (at_ i)).stamp) VClock.zero
    let held := s.heldBy g
    let bs := (List.range n).map fun i => heldOver held (s.canon p g.core (va + i)) (s.byteAt p (l.die p) (at_ i))
    give (s.joinGc g.gid o.seq (s.earlyClock g.gid va n st)) (s.placesAt p g.core ((List.range n).map fun i => va + i)) bs

/-- Whether a test of the paths to its home holds of a lane whose data does not stand in the core's L1 or its die's replica. -/
def State.laneWay (s : State) (g : Group) (o : Op) (src : ReadSrc) (lane va : Nat)
    (test : Part → BitVec 32 → Option (BitVec 32) → Nat → Nat → Bool) : Bool :=
  let p := (s.part? g.part).getD default
  let d := dieOf g.core
  let here : Bool := match s.locate p g.core va, src with
    | .mem _, .l1 => true
    | .mem a, .die => p.replicas.contains (d, a / 128)
    | _, _ => false
  !here && ((s.locate p g.core va).linkDie p).any (test p (o.detourOf lane) (assoc lane o.redo) d)

/-- No die link leads from the lane's core to the home that its data must come from (R41) (DEDUCED, log 66). -/
def State.laneLost (s : State) (g : Group) (o : Op) (src : ReadSrc) (lane va : Nat) : Bool := s.laneWay g o src lane va s.lost

/-- A failed link has caught the lane's request, which is to be composed again (R41). -/
def State.laneCaught (s : State) (g : Group) (o : Op) (src : ReadSrc) (lane va : Nat) : Bool := s.laneWay g o src lane va s.caught

/-- A load that is lost returns poisoned sectors (R41, R62): the event is logged, the core's line is poisoned, and the lanes it stands for
die (R63). -/
def State.loseLane (s : State) (g : Group) (o : Op) (byp acq once : Bool) (lane va : Nat) : State :=
  let s := s.logError 3 (dieOf g.core) (quadOf g.core % 4) va g.part (g.core % 24) []
  let l : Line := { line := va / 128, view := View.empty, born := 0, poison := (List.range 4).map fun i => va / 128 * 4 + i }
  let s := if va < 2 ^ 48 ∧ byp = false ∧ acq = false then
      s.updCore g.core fun k => { k with l1 := l :: k.l1.filter fun q => decide (q.line ≠ l.line) } else s
  (s.killLanes g.gid (if once then lanesOf o.mask else [lane]) va).dropLoadLane o.oid lane

/-- LOAD_REPLY (R280): some of the lanes' data returns from `src`; lanes whose pages are not mapped are held and reported
(R56), but those that the core's L1 still serves (R59), and those that no link takes to their home (R41). The event for each page names all the lanes that fault, and TLM of a `.g` load
every active lane (DESIGN CHOICE, log 92). The load completes when no lane is left; an acquire also waits until AV covers GC. -/
def execLoadReply (gid oid : Nat) (lanes : Mask) (src : ReadSrc) (s : State) : Out' :=
  .next (match (s.grp? gid).bind fun g => (g.op? oid).map fun o => (g, o) with
    | none => s
    | some (g, o) =>
      match o.kind with
      | .load ls n byp acq scope once =>
        if g.acqBefore o.seq || g.saved.isSome then s
        else
          let p := (s.part? g.part).getD default
          let waiting := ls.filter fun l => !(o.held.contains l.1)
          let gone := waiting.filter fun l => match s.locate p g.core l.2 with
            | .mem a => decide (s.xlat g.part a = .unmapped) && !(g.mm.replay.any fun w => decide (w.addr / 65536 = a / 65536))
                && !(decide (src = .l1) && lanes.getLsbD l.1 && s.laneReady g o acq byp scope .l1 l.2 n)
                && !(s.laneLost g o .host l.1 l.2) && !(s.laneCaught g o .host l.1 l.2)
            | _ => false
          let asked := waiting.filter fun l => lanes.getLsbD l.1
          let s := if (asked.any fun l => gone.contains l) && s.evRoom g.part gone.length then
              let m := maskOf (gone.map (·.1))
              let s := s.updOp gid oid fun o => { o with held := o.held ++ gone.map (·.1) }
              let s := s.firstFault gid 0x10 (if once then o.mask else m) ((gone.headD (0, 0)).2)
              gone.foldl (fun s l => s.reportPage gid l.2 m false) s
            else s
          let s := (asked.filter fun l => !(gone.contains l)).foldl (fun s l =>
            match (s.grp? gid).bind fun g => (g.op? oid).map fun o => (g, o) with
            | some (g, o) =>
              if s.laneLost g o src l.1 l.2 then s.loseLane g o byp acq once l.1 l.2
              else if s.laneReady g o acq byp scope src l.2 n && !(s.laneCaught g o src l.1 l.2) then s.replyLane g o n byp acq scope once src l.1 l.2 else s
            | none => s) s
          match (s.grp? gid).bind fun g => (g.op? oid).map fun o => (g, o) with
          | some (g, o) =>
            match o.kind with
            | .load [] .. =>
              if acq && !(s.covered g) then s
              else
                let r := (if acq then s.acquired gid scope else s).writeBest oid
                r.1.finishOp oid (!r.2)
            | _ => s.after gid
          | none => s
      | _ => s)

/-! ## Cache control (R287-R289) -/

/-- `prf` (R287): a hint; it changes no value that a load can return (DEDUCED, log 32). -/
def execPrf (f : Fld) (s : State) : Out' := .next (runLanes (.prf f) (fun x => .done (x.s.noteMem x.gid)) s)

/-- `cln` (R288): the mem-blocks named are to be written back; what has none is ignored. It waits for an acquire before it (R277). -/
def execCln (f : Fld) (s : State) : Out' :=
  .next (runLanes (.cln f) (fun x =>
    let us := x.units.map fun l => (l, x.addr l)
    let bad := us.filter fun u => decide (x.s.locate x.part x.g.core u.2 = .bad)
    match bad with
    | b :: _ => .trap 0x11 (maskOf (bad.map (·.1))) b.2
    | [] =>
      if x.g.acqBefore x.g.seq then x.hold false
      else
      let mbs := us.filterMap fun u => match x.s.locate x.part x.g.core u.2 with
        | .mem a => (match x.s.xlat x.g.part a with
          | .mem pg => if pg.cls = 0 ∧ (pg.dirty.any fun e => decide (e.1 = a / 512 % 128)) = true then some (a / 65536, a / 512 % 128) else none
          | _ => none)
        | _ => none
      .done ((x.s.noteMem x.gid).updGrp x.gid fun g => { g with mm := { g.mm with
        cleans := g.mm.cleans ++ mbs.filter fun m => !(g.mm.cleans.contains m) } })) s)

/-- `inv` (R289). It waits for an acquire before it (R277). -/
def execInv (f : Fld) (s : State) : Out' :=
  .next (runLanes (.inv f) (fun x =>
    if x.g.acqBefore x.g.seq then x.hold false
    else .done (x.units.foldl (fun s l => s.dropL1Line x.g.core (x.addr l / 128)) (x.s.noteMem x.gid))) s)

/-- `inv.all` (R289). -/
def execInvAll (f : Fld) (s : State) : Out' :=
  .next (runLanes (.invAll f) (fun x => if x.g.acqBefore x.g.seq then x.hold false else .done ((x.s.noteMem x.gid).clearL1 x.g.core)) s)

/-! ## Fences (R290, R291) -/

/-- The conditions of a fence with an acquire part, a release part, and a scope: the writebacks of `cln` are over either way (R288). -/
def Ctx.fenceReady (x : Ctx) (acq rel : Bool) (scope : Nat) : Bool :=
  (!rel || x.s.releaseReady x.g scope x.g.seq)
    && (!acq || (x.g.readsDone x.g.seq && x.s.atomsDone x.g x.g.seq && x.s.covered x.g && x.s.cleansDone x.g scope))

/-- A release fence of a scope narrower than `.dev` may let the group go on before its earlier writes are accepted: the agents that its scope
leaves out see no order (R278, R356) (DEDUCED, log 12). -/
def Ctx.fenceEarly (x : Ctx) (acq rel : Bool) (scope : Nat) : Bool :=
  rel && decide (scope < 4) && x.g.readsDone x.g.seq && (!acq || (x.s.atomsDone x.g x.g.seq && x.s.covered x.g))

/-- The fence's acquire part has taken up what the group's relaxed reads have found (R164, R290). -/
def Ctx.heard (x : Ctx) (acq : Bool) (scope : Nat) : Ctx :=
  if acq then let s := x.s.takeHeard x.gid scope; { x with s := s, g := (s.grp? x.gid).getD x.g } else x

/-- The group goes past a fence: its later writes carry the release part (R290). -/
def Ctx.pastFence (x : Ctx) (s : State) (acq rel : Bool) (scope : Nat) : State :=
  let s := (s.noteMem x.gid).updMm x.gid fun m => if rel && decide (1 ≤ scope) then { m with fenced := x.g.seq } else m
  if acq then s.acquired x.gid scope else s

/-- `fence` (R290): the split waits until the conditions hold (DEDUCED, log 29). -/
def execFence (f : Fld) (s : State) : Out' :=
  .next (runLanes (.fence f) (fun x =>
    let acq := f.mod.getLsbD 0
    let rel := f.mod.getLsbD 1
    let scope := f.mod.toNat / 4 % 8
    let x := x.heard acq scope
    if x.fenceReady acq rel scope then .done (x.pastFence x.s acq rel scope)
    else if x.fenceEarly acq rel scope then
      let s : State := { x.s with free := x.s.free + 1 }
      if Config.freeBit x.s.free 0 then .done (x.pastFence (s.passBy x.g x.g.seq scope [] (some x.g.seq)) acq rel scope)
      else .wait s
    else x.hold true) s)

/-- `fence.total` (R291): as `fence.ar.dev`, it then takes its place in the partition's one sequence, where TV takes GC and GC becomes
TV; it goes on once AV covers that. -/
def execFenceTotal (f : Fld) (s : State) : Out' :=
  .next (runLanes (.fenceTotal f) (fun x =>
    let x := x.heard true 4
    let tv := x.part.tv.join x.g.mm.gc
    if x.p.wait = .total then
      if x.s.covered x.g then
        .done (x.pastFence (x.s.updGrp x.gid fun g => g.updSplit x.p.sid fun p => { p with wait := .none }) true true 4)
      else .wait x.s
    else if x.fenceReady true true 4 then
      .wait ((x.s.updPart x.g.part fun p => { p with tv := tv }).updGrp x.gid fun g =>
        ({ g with mm := { g.mm with gc := tv } } : Group).updSplit x.p.sid fun p => { p with wait := .total })
    else x.hold true) s)

end Sys2Proof.Machine
end

