-- ==== Sys2Proof/Machine/Control.lean ====
section
/-!
DEFINITION. Class 4: branches, splits and loops (R168, R169, R296-R299), calls, callee items and returns (R148, R170,
R300-R302), `exit`, `yield`, `tret`, frames and displays (R160-R163, R306-R309).
-/

namespace Sys2Proof.Machine

/-! ## Targets (R210) -/

/-- The target of the control form, and the join of the control form or of `brx` (0: none). -/
def Ctx.target (x : Ctx) : Nat := ((BitVec.ofNat 64 x.c.addr) + (x.f.imm.signExtend 64 <<< 3)).toNat
def Ctx.joinAt (x : Ctx) (o : BitVec 20) : Option Nat :=
  if o = 0 then none else some ((BitVec.ofNat 64 x.c.addr) + (o.signExtend 64 <<< 3)).toNat

/-- The lanes of the split that do not take part. -/
def Ctx.rest (x : Ctx) : Mask := amask x.g x.p &&& ~~~ x.act

/-! ## Divergence (R168) -/

/-- `Diverge`: a reconvergence entry, then the pending paths, the second path on top; the first path runs. -/
def Group.diverge (g : Group) (sid join : Nat) (m : Mask) (paths : List (Nat × Mask)) : Group :=
  g.updSplit sid fun p =>
    let e : EntryKind → Nat → Mask → Entry := fun k pc mask => { pc := pc, mask := mask, join := join, fmt := p.fmt, kind := k }
    match paths with
    | [] => p
    | (pc, mask) :: rest =>
      { p with pc := pc, mask := mask, clause := none
               stack := rest.map (fun q => e .pending q.1 q.2) ++ e .reconv join m :: p.stack }

/-- A branch over paths in ascending address. -/
def Ctx.branch (x : Ctx) (join : Option Nat) (paths : List (Nat × Mask)) : Eff :=
  match paths with
  | [] => .done x.s
  | [(pc, _)] => .placed (x.s.jump x pc)
  | _ =>
    match join with
    | none => .trap 0x03 x.act 0
    | some j =>
      if 80 < x.g.depth + paths.length then .trap 0x20 x.act 0
      else .placed ((x.s.updGrp x.gid fun g => g.diverge x.p.sid j (amask x.g x.p) paths).retireClause x)

/-- The two outcomes of `bra` with lanes, in ascending address. -/
def Ctx.twoPaths (x : Ctx) : List (Nat × Mask) :=
  let t := (x.target, x.act)
  let f := (x.c.next, x.rest)
  ((if t.1 < f.1 then [t, f] else [f, t])).filter fun q => decide (q.2 ≠ 0)

/-- `bra` (R296). -/
def execBra (f : Fld) (s : State) : Out' := .next (runIsa (.bra f) (fun x => x.branch (x.joinAt f.joinOff) x.twoPaths) s)

/-- A branch or call that places its split has read its target from an outer frame's slots, it may be (R164). -/
def Eff.heard (x : Ctx) : Eff → Eff
  | .placed t => .placed (t.hearSlots x)
  | e => e

/-- Merges target sets of one address, in ascending address. -/
def targetSets (ts : List (Nat × Mask)) : List (Nat × Mask) :=
  sortBy (fun q => q.1) ((dedupN (ts.map (·.1))).map fun a => (a, (ts.filter fun q => decide (q.1 = a)).foldl (fun m q => m ||| q.2) 0))

/-- `brx` (R298) (DEDUCED, log 39). -/
def execBrx (f : Fld) (s : State) : Out' :=
  .next (runIsa (.brx f) (fun x =>
    if x.act = 0 then .done x.s
    else
      let us := x.units.map fun l => (l, (x.rdA 2 l).toNat)
      let odd := us.filter fun u => decide (u.2 % 8 ≠ 0)
      match odd with
      | b :: _ => .trap 0x14 (maskOf (odd.map (·.1))) b.2
      | [] =>
        if f.g then (Eff.placed (x.s.jump x ((us.headD (0, 0)).2))).heard x
        else
          let sets := us.map (fun u => (u.2, maskOf [u.1])) ++ (if x.rest = 0 then [] else [(x.c.next, x.rest)])
          (x.branch (x.joinAt f.imm) (targetSets sets)).heard x) s)

/-- `split` (R169, R299). -/
def execSplit (f : Fld) (s : State) : Out' :=
  .next (runIsa (.split f) (fun x =>
    if x.act = 0 ∨ x.rest = 0 ∨ 4 ≤ x.g.splits.length then x.branch (x.joinAt f.joinOff) x.twoPaths
    else
      match x.joinAt f.joinOff with
      | none => .trap 0x03 x.act 0
      | some j =>
        if 80 < x.g.depth + 1 then .trap 0x20 x.act 0
        else
          let (mid, s) := x.s.fresh
          let fork : Group → Group := fun g =>
            let new := g.nextSid
            let g := g.updSplit x.p.sid fun p => { p with pc := x.target, mask := x.act, clause := none, stack := [], merge := some mid }
            { g with
              nextSid := new + 1
              splits := g.splits ++ [{ sid := new, mask := x.rest, pc := x.c.next, clause := none, fmt := x.p.fmt, stack := [], merge := some mid
                                       wait := .none }]
              merges := { mid := mid, join := j, mask := amask x.g x.p, fmt := x.p.fmt, members := [x.p.sid, new], arrived := []
                          stack := x.p.stack, parent := x.p.merge } :: g.merges }
          .placed ((s.updGrp x.gid fork).retireClause x)) s)

/-- `loop` (R297). -/
def execLoop (f : Fld) (s : State) : Out' :=
  .next (runIsa (.loop f) (fun x =>
    let join := x.joinAt f.joinOff
    if x.rest = 0 then .placed (x.s.jump x x.target)
    else if x.act = 0 then .done x.s
    else
      let own : Bool := match x.p.stack with
        | e :: _ => decide (e.kind = .loop) && decide (some e.join = join)
        | [] => false
      let go : State → State := fun s => (s.updGrp x.gid fun g => g.updSplit x.p.sid fun p =>
        { p with pc := x.target, mask := x.act, clause := none }).retireClause x
      if own then .placed (go x.s)
      else match join with
        | none => .trap 0x03 x.act 0
        | some j =>
          if 80 < x.g.depth + 1 then .trap 0x20 x.act 0
          else .placed (go (x.s.updGrp x.gid fun g => g.updSplit x.p.sid fun p =>
            { p with stack := { pc := j, mask := amask x.g x.p, join := j, fmt := p.fmt, kind := .loop } :: p.stack }))) s)

/-! ## Calls (R161, R170, R300) -/

/-- The shift that a call's MOD gives. -/
def Fld.callShift (f : Fld) : Nat := 8 * (f.mod.toNat % 32)

/-- The entry of the return stack that `ret` pops: the youngest of the split, if no marker lies over it. -/
def Group.ownRet (g : Group) (sid : Nat) : Option RetEntry :=
  match g.rets.find? fun (r : RetEntry) => decide (r.sid = sid) with
  | some r => if r.marker then none else some r
  | none => none

/-- The guard must hold in every lane of the split's mask or in none (R300). A trap's marker does not count toward the 72 entries (R170) (DESIGN CHOICE,
log 126). -/
def Ctx.callTo (x : Ctx) (target shift : Nat) : Eff :=
  if x.act = 0 then .done x.s
  else if x.rest ≠ 0 then .trap 0x03 x.act 0
  else if x.g.fr.lslots ≤ x.g.fr.shift + shift ∨ 72 ≤ (x.g.rets.filter fun (r : RetEntry) => !r.marker).length then .trap 0x22 x.act 0
  else .placed ((x.s.updGrp x.gid fun g => { g with
    rets := { sid := x.p.sid, addr := x.c.next, shift := shift, marker := false } :: g.rets
    fr := { g.fr with shift := g.fr.shift + shift } }).jump x target)

/-- `call` (R300). -/
def execCall (f : Fld) (s : State) : Out' :=
  .next (runIsa (.call f) (fun x => if f.joinOff ≠ 0 then .trap 0x03 x.act 0 else x.callTo x.target (Fld.callShift f)) s)

/-! ## Callee items (R148, R301) -/

/-- Places an item in the queue of its target, or in a free queue; none without room. -/
def enqueue (qs : List CalleeQueue) (target : Nat) (i : CalleeItem) : Option (List CalleeQueue) :=
  if 512 ≤ (qs.map fun q => q.items.length).sum then none
  else if qs.any fun q => decide (q.target = target) then
    some (updFirst (fun q => decide (q.target = target)) (fun q => { q with items := q.items ++ [i] }) qs)
  else if qs.length < 8 then some (qs ++ [{ target := target, items := [i] }])
  else none

/-- Takes references to the outer frames that an item carries. -/
def State.itemRefs (s : State) (core grid : Nat) (i : CalleeItem) : State :=
  let s := if s.live core grid i.d2 then s.addRef core i.d2 else s
  if s.live core grid i.d3 then s.addRef core i.d3 else s

/-- Enqueues the items of a waiting `callx` in lane order until one finds no place. -/
def State.enqueueAll (s : State) (gid sid : Nat) : List (Nat × CalleeItem) → State
  | [] => s
  | (t, i) :: rest =>
    match s.grp? gid with
    | none => s
    | some g =>
      match enqueue (s.core! g.core).callee t i with
      | none => s
      | some qs =>
        let s := (s.updCore g.core fun k => { k with callee := qs }).itemRefs g.core g.grid i
        let s := s.updGrp gid fun g => g.updSplit sid fun p => match p.wait with
          | .callx _ out => { p with wait := .callx rest (out ++ [i.lane]) }
          | _ => p
        s.enqueueAll gid sid rest

/-- `callx` (R301). -/
def execCallx (f : Fld) (s : State) : Out' :=
  .next (runIsa (.callx f) (fun x =>
    if x.act = 0 then .done x.s
    else
      let sh := Fld.callShift f
      let us := x.lanes.map fun l => (l, (x.rdA 2 l).toNat)
      let odd := us.filter fun u => decide (u.2 % 8 ≠ 0)
      let first := (us.headD (0, 0)).2
      match odd with
      | b :: _ => .trap 0x14 (maskOf (odd.map (·.1))) b.2
      | [] =>
        if us.all fun u => decide (u.2 = first) then (x.callTo first sh).heard x
        else if x.g.fr.lslots < x.g.fr.shift + sh + 16 then .trap 0x22 x.act 0
        else
          let item : Nat → CalleeItem := fun l =>
            { gid := x.gid, sid := x.p.sid, lane := l, shift := x.g.fr.shift, s := sh
              words := (List.range 16).map fun k => storeWord x.s x.g.core (laneOff x.g (x.g.fr.shift + sh + k) l)
              d2 := x.g.fr.d2, d3 := x.g.fr.d3 }
          let items := us.map fun u => (u.2, item u.1)
          let s := (x.s.jump x x.c.next).updGrp x.gid fun g => g.updSplit x.p.sid fun p => { p with wait := .callx items [] }
          .placed ((s.enqueueAll x.gid x.p.sid items).hearSlots x)) s)

/-- The caller's split goes on once every item has returned. -/
def Wait.returned (w : Wait) (lane : Nat) : Wait :=
  match w with
  | .callx send out =>
    let out := out.filter fun l => decide (l ≠ lane)
    if send.isEmpty && out.isEmpty then .none else .callx send out
  | w => w

/-- A lane of a drained group returns its item: L0.0-L0.3 go to the caller's L0.(s)-L0.(s+3), and the references drop. -/
def State.returnItem (s : State) (gid lane : Nat) : State :=
  match (s.grp? gid).bind fun g => (assoc lane g.items).map fun i => (g, i) with
  | none => s
  | some (g, i) =>
    let ws := (List.range 4).map fun k => storeWord s g.core (laneOff g (g.fr.shift + k) lane)
    let s := match s.grp? i.gid with
      | some c => s.pokeStore c.core (laneCells c (i.shift + i.s) i.lane ws)
      | none => s
    let s := (s.dropRef g.core g.grid i.d2).dropRef g.core g.grid i.d3
    let s := s.updGrp i.gid fun c => c.updSplit i.sid fun p => { p with wait := p.wait.returned i.lane }
    s.updGrp gid fun g => { g with items := g.items.filter fun e => decide (e.1 ≠ lane) }

/-- Lanes leave the group at an `exit` or a returning `ret`: the rest of the split goes on at the fall-through header. -/
def Ctx.leave (x : Ctx) (s : State) (lanes : Mask) : Eff :=
  let s := s.jump x x.c.next
  .placed (s.updGrp x.gid fun g => g.dropLanes lanes)

/-- `ret` (R302). -/
def execRet (f : Fld) (s : State) : Out' :=
  .next (runIsa (.ret f) (fun x =>
    if x.act = 0 then .done x.s
    else if x.rest ≠ 0 then .trap 0x03 x.act 0
    else
      match x.g.ownRet x.p.sid with
      | some r =>
        if r.addr % 8 ≠ 0 then .trap 0x14 x.act r.addr
        else .placed ((x.s.updGrp x.gid fun g => { g with
          rets := dropFirst (fun (e : RetEntry) => decide (e.sid = x.p.sid)) g.rets
          fr := { g.fr with shift := g.fr.shift - r.shift } }).jump x r.addr)
      | none =>
        if x.g.kind = .drained then x.leave (x.lanes.foldl (fun s l => s.returnItem x.gid l) x.s) x.act
        else .trap 0x21 x.act 0) s)

/-- `exit` (R303): waits until every flag is 0; a pending memory fault stops the group here (R56, R363). In a drained group, below a call of its own, it
ends the lanes' items without results (DEDUCED, log 28). -/
def execExit (f : Fld) (s : State) : Out' :=
  .next (runIsa (.exit f) (fun x =>
    if x.act = 0 then .done x.s
    else if x.g.mm.fault.isSome then .wait (x.s.stopHere x.g x.p x.c)
    else if x.g.allClear = false then .wait x.s
    else if x.g.kind = .drained then
      let s := if (x.g.ownRet x.p.sid).isNone then x.lanes.foldl (fun s l => s.returnItem x.gid l) x.s
        else
          let gone := x.g.items.filter fun e => x.act.getLsbD e.1
          (x.s.endItems x.g.core x.g.grid (gone.map (·.2))).updGrp x.gid fun g => { g with items := g.items.filter fun e => !(x.act.getLsbD e.1) }
      x.leave s x.act
    else x.leave x.s x.act) s)

/-- `yield` (R304): a hint to the port; it changes no state. -/
def execYield (f : Fld) (s : State) : Out' := .next (runIsa (.yield f) (fun x => .done x.s) s)

/-- The clause whose header stands at an address, if one does (R202, R203). -/
def State.clauseAt (s : State) (g : Group) (a : Nat) : Option Clause :=
  match s.fetch g a with
  | .word w => if (hdrFault w).isNone then some ⟨a, w⟩ else none
  | _ => none

/-- `tret` (R175, R305): a trap that was taken at a clause header was taken in the clause that it opens. -/
def execTret (f : Fld) (s : State) : Out' :=
  .next (runIsa (.tret f) (fun x =>
    let hdr := x.g.save.bind fun v => x.s.clauseAt x.g v.tpc
    .placed ((x.s.updGrp x.gid fun g => g.returnTrap x.p.sid hdr).retireClause x)) s)

/-! ## Frames (R162, R306-R309) -/

/-- Bytes of a core's store that frames and scratchpads take; the reply context's reserved frame does not count (DEDUCED, log 9). -/
def Core.taken (k : Core) : Nat := ((k.regions.filter fun r => decide (r.kind ≠ .reply)).map Region.len).sum

/-- Room in a core's unified store: a free run, with at least 64 KiB left to L1 (R144). -/
def State.storeFree (s : State) (core base len : Nat) : Bool :=
  let k := s.core! core
  let top := storeBytes - 1024 * k.share
  decide (base % 1024 = 0) && decide (base + len ≤ top)
    && decide (k.taken + len + 1024 * k.share ≤ 1472 * 1024)
    && k.regions.all fun r => decide (r.base + r.len ≤ base) || decide (base + len ≤ r.base)

/-- A place for a run of the store: the one proposed, else the first free one (the spec leaves the place open; DEDUCED, log 9). -/
def State.findStore (s : State) (core len cand : Nat) : Option Nat :=
  if s.storeFree core cand len then some cand
  else (sortBy id (0 :: (s.core! core).regions.map fun r => r.base + r.len)).find? fun b => s.storeFree core b len

/-- Live cluster frames: byte offset in the cluster share and room. -/
def State.shareFrames (s : State) (core : Nat) : List (Nat × Nat) :=
  (s.frames.filter fun r => decide (r.depth = 3) && decide (r.place = clusterOf core)).map fun r =>
    (4 * r.off, frameRoom 3 (hdrSize (s.header core 3 r.off)) r.opened)

def State.shareFree (s : State) (core base len : Nat) : Bool :=
  let n := (s.clusterCores (clusterOf core)).length
  decide (base % 4 = 0) && decide (base + len ≤ n * (s.core! core).share * 1024)
    && (s.shareFrames core).all fun r => decide (r.1 + r.2 ≤ base) || decide (base + len ≤ r.1)

def State.findShare (s : State) (core len cand : Nat) : Option Nat :=
  if s.shareFree core cand len then some cand
  else (sortBy id (0 :: (s.shareFrames core).map fun r => r.1 + r.2)).find? fun b => s.shareFree core b len

/-- `fopen` (R306): the handle, or 0 without room. -/
def execFopen (f : Fld) (s : State) : Out' :=
  .next (runLanes (.fopen f) (fun x =>
    let n := if f.i then ((immFor 2 f).setWidth 32 : Word).toNat else (x.slot f.sb 0 (lowest x.act)).toNat
    if 256 < n then .trap 0x03 x.act 0
    else
      let depth := if f.mod.getLsbD 0 then 3 else 2
      let (cand, s) := x.s.drawNat
      let found := if depth = 2 then s.findStore x.g.core (frameRoom 2 n true) cand else s.findShare x.g.core (frameRoom 3 n true) cand
      match found with
      | none => .done (x.wr s f.dst fun _ => words1 0)
      | some base =>
        let (h, s) := s.makeFrame x.g.core depth base n x.g.grid x.g.bidx true
        .done (x.wr s f.dst fun _ => words1 h)) s)

/-- The handle that a frame instruction names: read once, from the lowest active lane. -/
def Ctx.handle (x : Ctx) : Word := x.slot x.f.sa 0 (lowest x.act)

/-- `fclose` (R307). -/
def execFclose (f : Fld) (s : State) : Out' :=
  .next (runLanes (.fclose f) (fun x =>
    if x.s.live x.g.core x.g.grid x.handle then .done (x.s.dropRef x.g.core x.g.grid x.handle)
    else .trap 0x22 x.act x.handle.toNat) s)

/-- `fref` (R307, R163). -/
def execFref (f : Fld) (s : State) : Out' :=
  .next (runLanes (.fref f) (fun x =>
    let h := x.handle
    if x.s.live x.g.core x.g.grid h ∧ hdrRefs (x.s.header x.g.core (hDepth h) (hOff h)) < 32767 then .done (x.s.addRef x.g.core h)
    else .trap 0x22 x.act h.toNat) s)

/-- `disp` (R308). -/
def execDisp (f : Fld) (s : State) : Out' :=
  .next (runLanes (.disp f) (fun x =>
    let h := x.handle
    if x.s.live x.g.core x.g.grid h then
      .done (x.s.updGrp x.gid fun g => { g with fr := if hDepth h = 2 then { g.fr with d2 := h } else { g.fr with d3 := h } })
    else .trap 0x22 x.act h.toNat) s)

/-- `disprd` (R309). -/
def execDisprd (f : Fld) (s : State) : Out' :=
  .next (runLanes (.disprd f) (fun x =>
    let v : DWord := match f.mod.toNat % 4 with
      | 0 => BitVec.ofNat 64 (coreWin + x.g.fr.lbase + 128 * x.g.fr.shift)
      | 1 => if x.g.kind = .request ∨ x.g.kind = .reply then 0 else BitVec.ofNat 64 (coreWin + x.g.fr.gbase)
      | 2 => x.g.fr.d2.setWidth 64
      | _ => x.g.fr.d3.setWidth 64
    .done (x.wr x.s f.dst fun _ => words2 v)) s)

end Sys2Proof.Machine
end

