-- ==== Sys2Proof/Machine/Integer.lean ====
section
/-!
DEFINITION. Class 0: integer, predicate and move instructions (R222-R239), and the completion of a division (R204, R226).
-/

namespace Sys2Proof.Machine

/-! ## Arithmetic on operands -/

/-- Types read as signed (R222). -/
def isSigned (t : Nat) : Bool := decide (t < 3) || decide (t = 4)

/-- An operand's value by its type. -/
def toI (t : Nat) (v : DWord) : Int :=
  if isSigned t then (if tyW t = 2 then v.toInt else (v.setWidth 32 : Word).toInt) else v.toNat

/-- A value modulo 2^w as `n` slots. -/
def ofInt (n : Nat) (v : Int) : List Word := wordsN n (BitVec.ofInt 64 v)

def shiftLeft (a : DWord) (w n : Nat) : DWord := if n < w then a <<< n else 0
def shiftRight (a : DWord) (w n : Nat) : DWord := if n < w then a >>> n else 0

/-- DivRem (R226): quotient and remainder. -/
def divRem (t : Nat) (a b : DWord) : DWord × DWord :=
  let w := 32 * tyW t
  let x := toI t a
  let y := toI t b
  if y = 0 then (BitVec.allOnes 64, a)
  else if isSigned t ∧ x = -(2 ^ (w - 1)) ∧ y = -1 then (a, 0)
  else (BitVec.ofInt 64 (x.tdiv y), BitVec.ofInt 64 (x.tmod y))

/-- The field that `bfx` extracts under control c (R230). -/
def bitField (t a c : Nat) : Int :=
  let w := 32 * tyW t
  let pos := c % 256
  let len := min (c / 256 % 256) w
  let v := (if pos < w then a / 2 ^ pos else 0) % 2 ^ len
  if isSigned t ∧ 0 < len ∧ v.testBit (len - 1) = true then (v : Int) - 2 ^ len else v

/-- The value that `bfi` writes under control c (R230). -/
def insertField (w : Nat) (a b : DWord) (c : Nat) : DWord :=
  let pos := c % 256
  let len := min (c / 256 % 256) 64
  let m : DWord := shiftLeft (BitVec.ofNat 64 (2 ^ len - 1)) w pos
  (a &&& ~~~ m) ||| (shiftLeft b w pos &&& m)

def onesBelow (v : DWord) : Nat → Nat
  | 0 => 0
  | n + 1 => (if v.getLsbD n then 1 else 0) + onesBelow v n

/-- Trailing zeros among bits i .. i + n - 1. -/
def zerosFrom (v : DWord) : Nat → Nat → Nat
  | 0, _ => 0
  | n + 1, i => if v.getLsbD i then 0 else 1 + zerosFrom v n (i + 1)

def reversed (v : DWord) (w : Nat) : DWord :=
  (List.range w).foldl (fun r i => if v.getLsbD i then r ||| BitVec.ofNat 64 (2 ^ (w - 1 - i)) else r) 0

/-- Integer compare codes (R215, R233). -/
def compareInt (code : Nat) (a b : Int) : Bool :=
  match code with
  | 0 => decide (a = b)
  | 1 => decide (a ≠ b)
  | 2 => decide (a < b)
  | 3 => decide (a ≤ b)
  | 4 => decide (b < a)
  | _ => decide (b ≤ a)

/-- The source codes of `ext` (R237). -/
def widen (code : Nat) (a : Word) : DWord :=
  match code with
  | 0 => (a.setWidth 8).signExtend 64
  | 1 => (a.setWidth 16).signExtend 64
  | 2 => a.signExtend 64
  | 3 => a.setWidth 64
  | 4 => (a.setWidth 8).setWidth 64
  | _ => (a.setWidth 16).setWidth 64

/-- X(b) of `adr` (R238). -/
def addrIndex (x : Ctx) (f : Fld) (l : Nat) : DWord :=
  if f.i then f.imm.signExtend 64
  else if f.lo = 2 then ((x.val f.sb 1 l).setWidth 32 : Word).signExtend 64
  else x.val f.sb (tyW f.lo) l

/-- Sum of the products of bytes 0 .. n - 1; a flag set reads the bytes unsigned (R239). -/
def dotBytes (ua ub : Bool) (a b : Nat) : Nat → Int
  | 0 => 0
  | n + 1 =>
    let by' : Bool → Nat → Int := fun u v =>
      let k := v / 2 ^ (8 * n) % 256
      if u then k else (BitVec.ofNat 8 k).toInt
    by' ua a * by' ub b + dotBytes ua ub a b n

def predByte (v : DWord) : BitVec 8 := v.setWidth 8 &&& 0x7F

/-- An instruction that writes each active lane's result at once. -/
def alu (i : Instr) (f : Fld) (op : Ctx → Nat → List Word) (s : State) : Out' :=
  .next (runLanes i (fun x => .done (x.wr x.s f.dst (op x))) s)

/-- Issue of a division: operands are read now (R205, R226). -/
def divIssue (i : Instr) (f : Fld) (op : DWord → DWord → DWord) (s : State) : Out' :=
  .next (runLanes i (fun x =>
    let n := tyW f.lo
    .done (x.issueOp x.s f.dst (.div (x.lanes.map fun l => (l, wordsN n (op (x.rdA n l) (x.rdB f.lo n l)))))).2) s)

/-- DIVIDE_COMPLETE (R204, R205): the results are written and the flag falls. -/
def execDivideComplete (gid oid : Nat) (s : State) : Out' :=
  .next (match (s.grp? gid).bind fun g => g.op? oid with
    | some o => match o.kind with
      | .div vals => s.completeOp oid vals false
      | _ => s
    | none => s)

/-! ## The instructions -/

/-- `mov` (R236): copies a, or the immediate. -/
def execMov (f : Fld) (s : State) : Out' :=
  alu (.mov f) f (fun x l => wordsN (tyW f.lo) (if f.i then immFor f.lo f else x.rdA (tyW f.lo) l)) s

/-- `add` (R225): a + b mod 2^w. -/
def execAdd (f : Fld) (s : State) : Out' :=
  alu (.add f) f (fun x l => wordsN (tyW f.lo) (x.rdA (tyW f.lo) l + x.rdB f.lo (tyW f.lo) l)) s

/-- `sub` (R225). -/
def execSub (f : Fld) (s : State) : Out' :=
  alu (.sub f) f (fun x l => wordsN (tyW f.lo) (x.rdA (tyW f.lo) l - x.rdB f.lo (tyW f.lo) l)) s

/-- `mul` (R225): the low half of the product. -/
def execMul (f : Fld) (s : State) : Out' :=
  alu (.mul f) f (fun x l => wordsN (tyW f.lo) (x.rdA (tyW f.lo) l * x.rdB f.lo (tyW f.lo) l)) s

/-- `mulhi` (R225): the high half of the exact product. -/
def execMulhi (f : Fld) (s : State) : Out' :=
  alu (.mulhi f) f (fun x l => ofInt (tyW f.lo) (toI f.lo (x.rdA (tyW f.lo) l) * toI f.lo (x.rdB f.lo (tyW f.lo) l) / 2 ^ (32 * tyW f.lo))) s

/-- `mad` (R225): the low half of a × b + c. -/
def execMad (f : Fld) (s : State) : Out' :=
  alu (.mad f) f (fun x l => wordsN (tyW f.lo) (x.rdA (tyW f.lo) l * x.val f.sb (tyW f.lo) l + x.rdC (tyW f.lo) l)) s

/-- `madw` (R225): the exact 32 × 32 product plus a 64-bit c. -/
def execMadw (f : Fld) (s : State) : Out' :=
  alu (.madw f) f (fun x l => ofInt 2 (toI f.lo (x.rdA 1 l) * toI f.lo (x.val f.sb 1 l) + (x.rdC 2 l).toNat)) s

/-- `min` (R225). -/
def execMin (f : Fld) (s : State) : Out' :=
  alu (.min f) f (fun x l => wordsN (tyW f.lo) (if toI f.lo (x.rdB f.lo (tyW f.lo) l) < toI f.lo (x.rdA (tyW f.lo) l) then x.rdB f.lo (tyW f.lo) l else x.rdA (tyW f.lo) l)) s

/-- `max` (R225). -/
def execMax (f : Fld) (s : State) : Out' :=
  alu (.max f) f (fun x l => wordsN (tyW f.lo) (if toI f.lo (x.rdA (tyW f.lo) l) < toI f.lo (x.rdB f.lo (tyW f.lo) l) then x.rdB f.lo (tyW f.lo) l else x.rdA (tyW f.lo) l)) s

/-- `abs` (R225): the most negative value returns itself. -/
def execAbs (f : Fld) (s : State) : Out' :=
  alu (.abs f) f (fun x l => ofInt (tyW f.lo) (toI f.lo (x.rdA (tyW f.lo) l)).natAbs) s

/-- `neg` (R225). -/
def execNeg (f : Fld) (s : State) : Out' :=
  alu (.neg f) f (fun x l => ofInt (tyW f.lo) (-(toI f.lo (x.rdA (tyW f.lo) l)))) s

/-- `and` (R227). -/
def execAnd (f : Fld) (s : State) : Out' :=
  alu (.and f) f (fun x l => wordsN (tyW f.lo) (x.rdA (tyW f.lo) l &&& x.rdB f.lo (tyW f.lo) l)) s

/-- `or` (R227). -/
def execOr (f : Fld) (s : State) : Out' :=
  alu (.or f) f (fun x l => wordsN (tyW f.lo) (x.rdA (tyW f.lo) l ||| x.rdB f.lo (tyW f.lo) l)) s

/-- `xor` (R227). -/
def execXor (f : Fld) (s : State) : Out' :=
  alu (.xor f) f (fun x l => wordsN (tyW f.lo) (x.rdA (tyW f.lo) l ^^^ x.rdB f.lo (tyW f.lo) l)) s

/-- `not` (R227). -/
def execNot (f : Fld) (s : State) : Out' :=
  alu (.not f) f (fun x l => wordsN (tyW f.lo) (~~~ (x.rdA (tyW f.lo) l))) s

/-- `andn` (R227): a AND NOT b. -/
def execAndn (f : Fld) (s : State) : Out' :=
  alu (.andn f) f (fun x l => wordsN (tyW f.lo) (x.rdA (tyW f.lo) l &&& ~~~ (x.rdB f.lo (tyW f.lo) l))) s

/-- `shl` (R228): an amount of at least w gives 0. -/
def execShl (f : Fld) (s : State) : Out' :=
  alu (.shl f) f (fun x l => wordsN (tyW f.lo) (shiftLeft (x.rdA (tyW f.lo) l) (32 * tyW f.lo) (x.rdB 2 1 l).toNat)) s

/-- `shr` (R228). -/
def execShr (f : Fld) (s : State) : Out' :=
  alu (.shr f) f (fun x l => wordsN (tyW f.lo) (shiftRight (x.rdA (tyW f.lo) l) (32 * tyW f.lo) (x.rdB 2 1 l).toNat)) s

/-- `sar` (R228): copies of the sign bit come in. -/
def execSar (f : Fld) (s : State) : Out' :=
  alu (.sar f) f (fun x l => ofInt (tyW f.lo) (toI f.lo (x.rdA (tyW f.lo) l) / 2 ^ min (x.rdB 2 1 l).toNat 63)) s

/-- `fshl` (R229): the high word of H shifted left. -/
def execFshl (f : Fld) (s : State) : Out' :=
  alu (.fshl f) f (fun x l => words1 (((((x.rdA 1 l).setWidth 32 : Word) ++ ((x.val f.sb 1 l).setWidth 32 : Word) : DWord) <<< ((x.rdC 1 l).toNat % 32)).extractLsb' 32 32)) s

/-- `fshr` (R229): the low word of H shifted right. -/
def execFshr (f : Fld) (s : State) : Out' :=
  alu (.fshr f) f (fun x l => words1 (((((x.rdA 1 l).setWidth 32 : Word) ++ ((x.val f.sb 1 l).setWidth 32 : Word) : DWord) >>> ((x.rdC 1 l).toNat % 32)).setWidth 32)) s

/-- `bfx` (R230): extracts a field. -/
def execBfx (f : Fld) (s : State) : Out' :=
  alu (.bfx f) f (fun x l => ofInt (tyW f.lo) (bitField f.lo (x.rdA (tyW f.lo) l).toNat (x.rdB 2 1 l).toNat)) s

/-- `bfi` (R230): inserts a field. -/
def execBfi (f : Fld) (s : State) : Out' :=
  alu (.bfi f) f (fun x l => wordsN (tyW f.lo) (insertField (32 * tyW f.lo) (x.rdA (tyW f.lo) l) (x.val f.sb (tyW f.lo) l) (x.rdC 1 l).toNat)) s

/-- `popc` (R231). -/
def execPopc (f : Fld) (s : State) : Out' :=
  alu (.popc f) f (fun x l => words1 (BitVec.ofNat 32 (onesBelow (x.rdA (tyW f.lo) l) 64))) s

/-- `clz` (R231): w when a = 0. -/
def execClz (f : Fld) (s : State) : Out' :=
  alu (.clz f) f (fun x l => words1 (BitVec.ofNat 32 (32 * tyW f.lo - bitLen (x.rdA (tyW f.lo) l).toNat))) s

/-- `ctz` (R231): w when a = 0. -/
def execCtz (f : Fld) (s : State) : Out' :=
  alu (.ctz f) f (fun x l => words1 (BitVec.ofNat 32 (zerosFrom (x.rdA (tyW f.lo) l) (32 * tyW f.lo) 0))) s

/-- `brev` (R231): bit i of the result is bit w−1−i of a. -/
def execBrev (f : Fld) (s : State) : Out' :=
  alu (.brev f) f (fun x l => wordsN (tyW f.lo) (reversed (x.rdA (tyW f.lo) l) (32 * tyW f.lo))) s

/-- `sel` (R232): MOD[6:4] names the condition, MOD[7] negates it. -/
def execSel (f : Fld) (s : State) : Out' :=
  alu (.sel f) f (fun x l => wordsN (tyW f.lo) (if x.rdPred f.mid l != f.mod.getLsbD 7 then x.rdA (tyW f.lo) l else x.rdB f.lo (tyW f.lo) l)) s

/-- `ext` (R237): widens a byte, halfword or word. -/
def execExt (f : Fld) (s : State) : Out' :=
  alu (.ext f) f (fun x l => wordsN (tyW f.lo) (widen f.hi ((x.rdA 1 l).setWidth 32))) s

/-- `adr` (R238): a + (X(b) << sh) mod 2^64. -/
def execAdr (f : Fld) (s : State) : Out' :=
  alu (.adr f) f (fun x l => words2 (x.rdA 2 l + (addrIndex x f l <<< f.mid))) s

/-- `dot4` (R239): four byte products added to c. -/
def execDot4 (f : Fld) (s : State) : Out' :=
  alu (.dot4 f) f (fun x l => ofInt 1 ((x.rdC 1 l).toNat + dotBytes (f.mod.getLsbD 0) (f.mod.getLsbD 1) (x.rdA 1 l).toNat (x.val f.sb 1 l).toNat 4)) s

/-- `nop` (R236): does nothing. -/
def execNop (f : Fld) (s : State) : Out' :=
  .next (runLanes (.nop f) (fun x => .done x.s) s)

/-- `setp` (R233): an integer compare writes a predicate. -/
def execSetp (f : Fld) (s : State) : Out' :=
  .next (runLanes (.setp f) (fun x => .done (x.wrPred x.s (f.dst.toNat % 8) fun l =>
    compareInt f.mid (toI f.lo (x.rdA (tyW f.lo) l)) (toI f.lo (x.rdB f.lo (tyW f.lo) l)))) s)

/-- `plop` (R234): a truth table of three predicates. -/
def execPlop (f : Fld) (s : State) : Out' :=
  .next (runLanes (.plop f) (fun x => .done (x.wrPred x.s (f.dst.toNat % 8) fun l =>
    f.mod.getLsbD ((if x.rdPred (f.sa.toNat % 8) l then 4 else 0) + (if x.rdPred (f.sb.toNat % 8) l then 2 else 0)
      + (if x.rdPred (f.sc.toNat % 8) l then 1 else 0)))) s)

/-- `pmov d, pr` (R235): the predicates as a byte; bit 7 reads 1. -/
def execPmovGet (f : Fld) (s : State) : Out' :=
  alu (.pmovGet f) f (fun x l => words1 (((if f.g then x.g.gp else x.g.preds.getD l 0) ||| 0x80).setWidth 32)) s

/-- `pmov pr, a` (R235): p0 to p6 from bits 0 to 6. -/
def execPmovSet (f : Fld) (s : State) : Out' :=
  .next (runLanes (.pmovSet f) (fun x => .done (x.s.updGrp x.gid fun g =>
    if f.g then { g with gp := predByte (x.rdA 1 (lowest x.act)) }
    else x.lanes.foldl (fun g l => { g with preds := g.preds.set l (predByte (x.rdA 1 l)) }) g)) s)

/-- `div` (R226): counts on its flag at issue; DIVIDE_COMPLETE writes the quotients. -/
def execDiv (f : Fld) (s : State) : Out' :=
  divIssue (.div f) f (fun a b => (divRem f.lo a b).1) s

/-- `rem` (R226). -/
def execRem (f : Fld) (s : State) : Out' :=
  divIssue (.rem f) f (fun a b => (divRem f.lo a b).2) s

end Sys2Proof.Machine
end

