-- ==== Sys2Proof/Machine/Floating.lean ====
section
/-!
DEFINITION. Class 1: floating instructions (R240-R252).
-/

namespace Sys2Proof.Machine

/-! ## FMT (R171) and operands -/

def ftzOn (x : Ctx) : Bool := x.p.fmt.getLsbD 14
/-- FMT.NRND. -/
def nrnd (fmt : Word) : Nat := (fmt.extractLsb' 12 2).toNat
def fmtOut (fmt : Word) : Nat := (fmt.extractLsb' 8 4).toNat
def fmtB (fmt : Word) : Nat := (fmt.extractLsb' 4 4).toNat
def fmtA (fmt : Word) : Nat := (fmt.extractLsb' 0 4).toNat

/-- The rounding code in MOD[5:4] (R240). -/
def rnd (f : Fld) : Nat := f.hi % 4

/-- Formats by type code (R215): 8 FP32, 9 BF16, 10 FP16. -/
def floatFmt (t : Nat) : Fmt := if t = 9 then bf16 else if t = 10 then f16 else f32

def bits1 (n : Nat) : List Word := [BitVec.ofNat 32 n]

/-- An operand as a value; FTZ applies to FP32 only (R185). -/
def laneFloat (t : Nat) (on : Bool) (v : DWord) : FV :=
  if t = 8 then f32.decode (ftz on (v.toNat % 2 ^ 32)) else (floatFmt t).decode (v.toNat % 2 ^ 16)

/-- QSAT is set in the FMT of the issuing split (R171, R250). -/
def Ctx.setQsat (x : Ctx) (s : State) : State :=
  s.updGrp x.gid fun g => g.updSplit x.p.sid fun p => { p with fmt := p.fmt ||| qsatBit }

/-- `fmin` and `fmax` after any flush: −0 below +0, a lone NaN loses (R243). -/
def floatPick (on small : Bool) (a b : Nat) : Nat :=
  let a := ftz on a
  let b := ftz on b
  let u := f32.decode a
  let v := f32.decode b
  if u.isNan ∧ v.isNan then f32.nan
  else if u.isNan then b
  else if v.isNan then a
  else
    let less : Bool := u.lt v || (!(v.lt u) && decide (a / 2 ^ 31 = 1) && decide (b / 2 ^ 31 = 0))
    if small then (if less then a else b) else (if less then b else a)

/-- Float compare codes (R215, R244). -/
def compareFloat (code : Nat) (a b : FV) : Bool :=
  let un := a.isNan || b.isNan
  let rel : Nat → Bool := fun c =>
    match c with
    | 0 => !(a.lt b) && !(b.lt a)
    | 1 => a.lt b || b.lt a
    | 2 => a.lt b
    | 3 => !(b.lt a)
    | 4 => b.lt a
    | _ => !(a.lt b)
  if code < 6 then !un && rel code
  else if code < 12 then un || rel (code - 6)
  else if code = 12 then !un else un

/-- The classes of R246. -/
def classMask (k : Fmt) (c : Nat) : Nat :=
  let neg := c / 2 ^ (k.eb + k.mb) % 2 = 1
  let ex := c / 2 ^ k.mb % 2 ^ k.eb
  let fr := c % 2 ^ k.mb
  if ex = 2 ^ k.eb - 1 then
    (if fr = 0 then (if neg then 2 ^ 0 else 2 ^ 7) else if fr / 2 ^ (k.mb - 1) = 0 then 2 ^ 8 else 2 ^ 9)
  else if ex = 0 then (if fr = 0 then (if neg then 2 ^ 3 else 2 ^ 4) else if neg then 2 ^ 2 else 2 ^ 5)
  else if neg then 2 ^ 1 else 2 ^ 6

/-- a × 2^n; beyond ±600 no further exponent changes an FP32 result. -/
def scaleBy (n : Int) : FV → FV
  | .fin neg m e => .fin neg m (e + max (-600) (min 600 n))
  | v => v

def integral (mode : Nat) : FV → FV
  | .fin neg m e => .fin neg (roundInt mode neg m e) 0
  | v => v

/-- The formats of `fcvt` by its own codes (R250). -/
def decodeAny (code v : Nat) : FV :=
  match code with
  | 8 => f32.decode v
  | 9 => bf16.decode (v % 65536)
  | 10 => f16.decode (v % 65536)
  | 11 => narrowDecode 3 (v % 256)
  | 12 => narrowDecode 4 (v % 64)
  | 13 => narrowDecode 5 (v % 16)
  | 0 => decodeE4M3 (v % 256)
  | _ => e5m2.decode (v % 256)

/-- Converts into format `d` from format `c` under NRND `mode`: the code and whether QSAT is set (R250, R193, R194). -/
def convert (d c mode v : Nat) : Nat × Bool :=
  let x := decodeAny c v
  match d with
  | 8 => (f32.encode mode x, false)
  | 9 => (bf16.encode mode x, false)
  | 10 => (f16.encode mode x, false)
  | 11 => toNarrow 3 mode x
  | 12 => toNarrow 4 mode x
  | 13 => toNarrow 5 mode x
  | 0 => toE4M3 mode x
  | _ => (toE5M2 mode x, false)

/-- Rounds to an integer and saturates to the type's range (R251). -/
def toInteger (t mode : Nat) (v : FV) : Int :=
  let w := 32 * tyW t
  let lo : Int := if isSigned t then -(2 ^ (w - 1)) else 0
  let hi : Int := if isSigned t then 2 ^ (w - 1) - 1 else 2 ^ w - 1
  match v with
  | .nan => 0
  | .inf neg => if neg then lo else hi
  | .fin neg m e =>
    let n : Int := roundInt mode neg m e
    max lo (min hi (if neg then -n else n))

def ofInteger (n : Int) : FV := .fin (decide (n < 0)) n.natAbs 0

/-- Element i of a packed slot (R252). -/
def half (f : Fld) (i v : Nat) : FV := (floatFmt f.lo).decode (v / 2 ^ (16 * i) % 65536)
/-- Element i of b: the immediate serves both. -/
def halfB (x : Ctx) (f : Fld) (i l : Nat) : FV :=
  if f.i then half f 0 (immFor f.lo f).toNat else half f i (x.val f.sb 1 l).toNat
def packed2 (e : Nat → Nat) : Nat := e 0 + 65536 * e 1

/-! ## The instructions -/

/-- `fadd` (R242). -/
def execFadd (f : Fld) (s : State) : Out' :=
  alu (.fadd f) f (fun x l => bits1 (flushed2 (ftzOn x) (FV.add (rnd f)) (rnd f) (x.rdA 1 l).toNat (x.rdB 8 1 l).toNat)) s

/-- `fsub` (R242): a + (−b). -/
def execFsub (f : Fld) (s : State) : Out' :=
  alu (.fsub f) f (fun x l => bits1 (flushed2 (ftzOn x) (fun u v => u.add (rnd f) v.neg) (rnd f) (x.rdA 1 l).toNat (x.rdB 8 1 l).toNat)) s

/-- `fmul` (R242). -/
def execFmul (f : Fld) (s : State) : Out' :=
  alu (.fmul f) f (fun x l => bits1 (flushed2 (ftzOn x) FV.mul (rnd f) (x.rdA 1 l).toNat (x.rdB 8 1 l).toNat)) s

/-- `ffma` (R242): rounded once. -/
def execFfma (f : Fld) (s : State) : Out' :=
  alu (.ffma f) f (fun x l => bits1 (flushed3 (ftzOn x) (FV.fma (rnd f)) (rnd f) (x.rdA 1 l).toNat (x.val f.sb 1 l).toNat (x.rdC 1 l).toNat)) s

/-- `fdiv` (R242): long-latency; DIVIDE_COMPLETE writes the quotients. -/
def execFdiv (f : Fld) (s : State) : Out' :=
  .next (runLanes (.fdiv f) (fun x =>
    .done (x.issueOp x.s f.dst (.div (x.lanes.map fun l =>
      (l, bits1 (flushed2 (ftzOn x) FV.div (rnd f) (x.rdA 1 l).toNat (x.rdB 8 1 l).toNat))))).2) s)

/-- `fmin` (R243). -/
def execFmin (f : Fld) (s : State) : Out' :=
  alu (.fmin f) f (fun x l => bits1 (floatPick (ftzOn x) true (x.rdA 1 l).toNat (x.rdB 8 1 l).toNat)) s

/-- `fmax` (R243). -/
def execFmax (f : Fld) (s : State) : Out' :=
  alu (.fmax f) f (fun x l => bits1 (floatPick (ftzOn x) false (x.rdA 1 l).toNat (x.rdB 8 1 l).toNat)) s

/-- `fsetp` (R244): MOD[7:4] holds the compare. -/
def execFsetp (f : Fld) (s : State) : Out' :=
  .next (runLanes (.fsetp f) (fun x => .done (x.wrPred x.s (f.dst.toNat % 8) fun l =>
    compareFloat f.hi (laneFloat f.lo (ftzOn x) (x.rdA 1 l)) (laneFloat f.lo (ftzOn x) (x.rdB f.lo 1 l)))) s)

/-- `fneg` (R245): inverts the sign bit and nothing else. -/
def execFneg (f : Fld) (s : State) : Out' :=
  alu (.fneg f) f (fun x l => bits1 ((x.rdA 1 l).toNat % 2 ^ (floatFmt f.lo).width ^^^ (floatFmt f.lo).signBit true)) s

/-- `fabs` (R245): clears the sign bit. -/
def execFabs (f : Fld) (s : State) : Out' :=
  alu (.fabs f) f (fun x l => bits1 ((x.rdA 1 l).toNat % 2 ^ ((floatFmt f.lo).width - 1))) s

/-- `fclass` (R246). -/
def execFclass (f : Fld) (s : State) : Out' :=
  alu (.fclass f) f (fun x l => bits1 (classMask (floatFmt f.lo) (x.rdA 1 l).toNat)) s

/-- `frcp` (R247). -/
def execFrcp (f : Fld) (s : State) : Out' :=
  alu (.frcp f) f (fun x l => bits1 (ftz (ftzOn x) (specFn 0 (ftz (ftzOn x) (x.rdA 1 l).toNat)))) s

/-- `frsq` (R247). -/
def execFrsq (f : Fld) (s : State) : Out' :=
  alu (.frsq f) f (fun x l => bits1 (ftz (ftzOn x) (specFn 1 (ftz (ftzOn x) (x.rdA 1 l).toNat)))) s

/-- `fex2` (R247). -/
def execFex2 (f : Fld) (s : State) : Out' :=
  alu (.fex2 f) f (fun x l => bits1 (ftz (ftzOn x) (specFn 3 (ftz (ftzOn x) (x.rdA 1 l).toNat)))) s

/-- `flg2` (R247). -/
def execFlg2 (f : Fld) (s : State) : Out' :=
  alu (.flg2 f) f (fun x l => bits1 (ftz (ftzOn x) (specFn 4 (ftz (ftzOn x) (x.rdA 1 l).toNat)))) s

/-- `fsin` (R247). -/
def execFsin (f : Fld) (s : State) : Out' :=
  alu (.fsin f) f (fun x l => bits1 (ftz (ftzOn x) (specFn 5 (ftz (ftzOn x) (x.rdA 1 l).toNat)))) s

/-- `fcos` (R247). -/
def execFcos (f : Fld) (s : State) : Out' :=
  alu (.fcos f) f (fun x l => bits1 (ftz (ftzOn x) (specFn 6 (ftz (ftzOn x) (x.rdA 1 l).toNat)))) s

/-- `ftanh` (R247). -/
def execFtanh (f : Fld) (s : State) : Out' :=
  alu (.ftanh f) f (fun x l => bits1 (ftz (ftzOn x) (specFn 7 (ftz (ftzOn x) (x.rdA 1 l).toNat)))) s

/-- `fsqrt` (R247): correctly rounded. -/
def execFsqrt (f : Fld) (s : State) : Out' :=
  alu (.fsqrt f) f (fun x l => bits1 (flushed1 (ftzOn x) FV.sqrt (rnd f) (x.rdA 1 l).toNat)) s

/-- `fscale` (R248): a × 2^n; the immediate is an integer. -/
def execFscale (f : Fld) (s : State) : Out' :=
  alu (.fscale f) f (fun x l => bits1 (flushed1 (ftzOn x) (scaleBy ((x.rdB 2 1 l).setWidth 32 : Word).toInt) (rnd f) (x.rdA 1 l).toNat)) s

/-- `frnd` (R249): to an integral value, keeping the sign. -/
def execFrnd (f : Fld) (s : State) : Out' :=
  alu (.frnd f) f (fun x l => bits1 (flushed1 (ftzOn x) (integral (rnd f)) (rnd f) (x.rdA 1 l).toNat)) s

/-- `fcvt` (R250): FMT.NRND rounds; a saturating conversion sets QSAT in the split's FMT. -/
def execFcvt (f : Fld) (s : State) : Out' :=
  .next (runLanes (.fcvt f) (fun x =>
    let r : Nat → Nat × Bool := fun l => convert f.lo f.hi (nrnd x.p.fmt) (x.rdA 1 l).toNat
    let s := x.wr x.s f.dst fun l => bits1 (r l).1
    let sources := if f.g then [lowest x.act] else x.lanes
    .done (if sources.any fun l => (r l).2 then x.setQsat s else s)) s)

/-- `f2i` (R251): rounds, then saturates; NaN gives 0. -/
def execF2i (f : Fld) (s : State) : Out' :=
  alu (.f2i f) f (fun x l => ofInt (tyW f.lo) (toInteger f.lo (rnd f) ((floatFmt (8 + f.hi / 4)).decode (x.rdA 1 l).toNat))) s

/-- `i2f` (R251). -/
def execI2f (f : Fld) (s : State) : Out' :=
  alu (.i2f f) f (fun x l => bits1 ((floatFmt (8 + f.hi / 4)).encode (rnd f) (ofInteger (toI f.lo (x.rdA (tyW f.lo) l))))) s

/-- `pfma` (R252): two elements, each rounded once. -/
def execPfma (f : Fld) (s : State) : Out' :=
  alu (.pfma f) f (fun x l => bits1 (packed2 (fun i => (floatFmt f.lo).encode (rnd f) (FV.fma (rnd f) (half f i (x.rdA 1 l).toNat) (half f i (x.val f.sb 1 l).toNat) (half f i (x.rdC 1 l).toNat))))) s

/-- `padd` (R252). -/
def execPadd (f : Fld) (s : State) : Out' :=
  alu (.padd f) f (fun x l => bits1 (packed2 (fun i => (floatFmt f.lo).encode (rnd f) ((half f i (x.rdA 1 l).toNat).add (rnd f) (halfB x f i l))))) s

/-- `pmul` (R252). -/
def execPmul (f : Fld) (s : State) : Out' :=
  alu (.pmul f) f (fun x l => bits1 (packed2 (fun i => (floatFmt f.lo).encode (rnd f) ((half f i (x.rdA 1 l).toNat).mul (halfB x f i l))))) s

end Sys2Proof.Machine
end

