-- ==== Sys2Proof/Machine/Engines.lean ====
section
/-!
DEFINITION. Jobs (R323-R337): what they may read and write, descriptors, the Spindle's passes (R148, R198-R200, R325-R327),
accumulator tiles (R328-R330), copies (R90, R91, R331, R332), near-bank commands (R67-R69, R333-R335), and the start and
the end of a job with its leases (R19-R25).
-/

namespace Sys2Proof.Machine

/-! ## What a job reaches -/

/-- The core of a job that the graph unit issues: no core (R337) (DEDUCED, log 50). -/
def nodeCore : Nat := 384

/-- The place of a byte for a job; none for an address that it may not use (R52, R156). -/
def State.jobLoc (s : State) (p : Part) (core grid va : Nat) : Option Loc :=
  if core = nodeCore then
    match s.locate p 0 va with
    | .mem a => some (.mem a)
    | .chip q o => some (.chip q o)
    | _ => none
  else
    let l := s.locate p core va
    if s.mayAccess grid l then some l else none

/-- A byte that a job reads, with its poison; none when it cannot be read. `host` admits pages of a host window. -/
def State.jobByte (s : State) (p : Part) (core grid : Nat) (host : Bool) (va : Nat) : Option (Byte × Bool) :=
  match s.jobLoc p core grid va with
  | none => none
  | some (.mem a) =>
    match s.xlat p.id a with
    | .unmapped => none
    | .host _ _ h => if host then some (Mem.read s.host h, false) else none
    | .mem _ => some ((p.views.getD (homeDie p a) View.empty).read a, p.poison.contains (a / 32))
  | some l => some (s.byteAt p (l.die p) l, false)

/-- All of a list of answers, or none. -/
def allSome {α : Type} : List (Option α) → Option (List α)
  | [] => some []
  | none :: _ => none
  | some a :: xs => (allSome xs).map fun as => a :: as

/-- A run of bytes that a job reads, and whether one of them is poisoned. -/
def State.jobRead (s : State) (p : Part) (core grid : Nat) (host : Bool) (va n : Nat) : Option (List Byte × Bool) :=
  (allSome ((List.range n).map fun i => s.jobByte p core grid host (va + i))).map fun bs => (bs.map (·.1), bs.any (·.2))

/-- A run of bytes that job `j` reads: those it has read before as they stood then, the others as they stand (R69, R359). -/
def State.jobFetch (s : State) (p : Part) (j : Job) (host : Bool) (va n : Nat) : Option (List Byte × Bool) :=
  (allSome ((List.range n).map fun i => (assoc (va + i) j.got).or (s.jobByte p j.core j.grid host (va + i)))).map fun bs =>
    (bs.map (·.1), bs.any (·.2))

/-- Whether a job may write a byte. -/
def State.jobMayWrite (s : State) (p : Part) (core grid va : Nat) : Bool :=
  match s.jobLoc p core grid va with
  | none => false
  | some (.mem a) => (s.xlat p.id a).w
  | some _ => true

/-- A job's writes are performed, 16 B span by span; the result is the join of their stamps. A sector of partition memory that they cover whole
loses its poison (R63), and those in `bad` are poisoned. -/
def State.jobWrite (s : State) (p : Part) (core src : Nat) (gc : VClock) (cells : List Host.Cell) (bad : List Nat) : VClock × State :=
  let bits := (bad.map fun k => (k, true)) ++ ((wholeSectors cells).filter fun k => !(bad.contains k)).map fun k => (k, false)
  (withRest (spansOf cells)).foldl (fun (r : VClock × State) e =>
    let s := r.2
    let span := e.1
    let a := (span.headD (0, 0)).1
    let done : VClock × State :=
      if a < 2 ^ 48 then
        match s.xlat p.id a with
        | .host _ _ h =>
          let (wid, s) := s.fresh
          let (st, s) := s.stamp (homeDie p a) gc
          let s := s.announce p.id (homeDie p a) wid src st []
          let s := s.updPart p.id fun q => { q with hwLines := q.hwLines.map fun (l : Line) =>
            { l with view := l.view.writeBy (span.filter fun c => decide (c.1 / 128 = l.line)) wid st } }
          let cells := span.map fun c => (h + (c.1 - a), c.2)
          (st, s.hostLand wid st cells)
        | _ => s.performSpan p.id src gc bits span e.2
      else
        let (wid, s) := s.fresh
        s.performChip p core wid gc span
    (r.1.join done.1, done.2)) (VClock.zero, s)

/-! ## Footprints and the issue order (R324, R337, R353) -/

/-- Two regions that share a byte, one of them written. -/
def Span.meets (a b : Span) : Bool :=
  decide (max a.base b.base < min (a.base + a.len) (b.base + b.len)) && (decide (2 ≤ a.acc) || decide (2 ≤ b.acc))

def JKind.isPass : JKind → Bool
  | .pass .. => true
  | _ => false

def JKind.readsTile : JKind → Bool
  | .accrd .. => true
  | _ => false

/-- The places of a span as job order names them (R155, R324): memory, the far tier and the chip scratchpads by their addresses, a
core's own part of its store by that core, and the cluster share byte by byte under the core that holds it. -/
def storeKey (core : Nat) : Nat := 2 ^ 80 + core * 2 ^ 32
def shareKey (core : Nat) : Nat := 2 ^ 81 + core * 2 ^ 32

def State.spanPlaces (s : State) (core : Nat) (r : Span) : List Span :=
  if core = nodeCore ∨ r.len = 0 then [r]
  else if coreWin ≤ r.base ∧ r.base < coreWin + storeBytes then
    let o := r.base - coreWin
    let cut := storeBytes - (s.core! core).share * 1024
    let e := min (o + r.len) storeBytes
    (if o < cut then [{ r with base := storeKey core + o, len := min e cut - o }] else [])
      ++ (if cut < e then [{ r with base := shareKey core + (max o cut - cut), len := e - max o cut }] else [])
  else if clusterWin ≤ r.base ∧ r.base < scratchWin then
    let cs := s.clusterCores (clusterOf core)
    let o := r.base - clusterWin
    let e := o + min r.len (2 ^ 20)
    (List.range ((e - 1) / 128 + 1 - o / 128)).map fun i =>
      let k := o / 128 + i
      let lo := max o (128 * k)
      { r with base := shareKey (cs.getD (k % cs.length) 0) + k / cs.length * 128 + lo % 128, len := min e (128 * k + 128) - lo }
  else [r]

/-- Two jobs overlap, and one of them writes the overlap; a tile counts as written by every job except `accrd`. -/
def Job.meets (a b : Job) : Bool :=
  (a.places.any fun x => b.places.any fun y => x.meets y)
    || (a.tile.isSome && decide (a.tile = b.tile) && decide (a.grid = b.grid) && decide (a.bidx = b.bidx) && decide (a.copy = b.copy)
      && !(a.kind.readsTile && b.kind.readsTile))

/-- An earlier overlapping job of the quadrant's issue order has not completed (R337 rule 2). -/
def State.jobBlocked (s : State) (j : Job) : Bool :=
  s.jobs.any fun e => decide (e.quad = j.quad) && decide (e.issue < j.issue) && e.meets j

/-- A job takes its place in its quadrant's issue order. -/
def State.enterJob (s : State) (j : Job) : State :=
  let n := (s.quad! j.quad).issueNo
  let s := s.updQuad j.quad fun q => { q with issueNo := n + 1 }
  { s with jobs := s.jobs ++ [{ j with issue := n, places := j.spans.flatMap (s.spanPlaces j.core) }] }

/-- What an instruction's job consists of. -/
structure JobSpec where
  kind : JKind
  spans : List Span
  tile : Option Nat
  wants : List Nat
  pledges : List (Nat × Nat)

/-- Issues a job of the split; `flag` says whether a completion flag counts it (R323, R328). -/
def Ctx.job (x : Ctx) (s : State) (flag : Bool) (k : JobSpec) : State :=
  let (jid, s) := s.fresh
  let (oid, s) := if flag then x.issueOp s x.f.dst (.job jid) else (0, s)
  s.enterJob { jid := jid, part := x.g.part, quad := quadOf x.g.core, issue := 0, core := x.g.core, gid := x.gid, grid := x.g.grid
               bidx := x.g.bidx, copy := x.g.copy, oid := oid, seq := x.g.seq, nid := 0, kind := k.kind, spans := k.spans, tile := k.tile
               prio := x.grid.card.prio, passed := 0, granted := !k.kind.isPass, wants := k.wants, started := false, fail := false
               pledges := k.pledges, moving := [], gc := x.g.mm.gc, places := [], detour := x.part.regs.detour, redo := none
               got := [], sent := [], clk := VClock.zero }

/-- A job refused at issue completes its flag with error status (R324). -/
def Ctx.refuse (x : Ctx) (s : State) : State :=
  let (oid, s) := x.issueOp s x.f.dst (.job 0)
  s.finishOp oid true

/-- The descriptor, read once at issue (R323). -/
def Ctx.descr (x : Ctx) (n : Nat) : List Word := (List.range n).map fun k => x.slot x.f.sa k 0

def dw (d : List Word) (k : Nat) : Nat := (d.getD k 0).toNat
def dw2 (d : List Word) (k : Nat) : Nat := dw d k + 2 ^ 32 * dw d (k + 1)

/-! ## Spindle passes -/

/-- Element width of a pass format: BF16 and FP16, T8, T6, E2M1 (R325). -/
def elemBits (f : Nat) : Nat := if f ≤ 2 then 16 else if f = 3 then 8 else if f = 4 then 6 else 4

def is16 (f : Nat) : Bool := decide (f = 1) || decide (f = 2)
def isNarrow (f : Nat) : Bool := decide (3 ≤ f) && decide (f ≤ 5)

/-- The chunk of a format pair; none for a pair that a pass does not accept (R198). -/
def passChunk (a b : Nat) : Option Nat :=
  if is16 a && is16 b then some 16
  else if isNarrow a && isNarrow b then some (if a = 5 ∧ b = 5 then 64 else 32)
  else none

def rowBytes (k f : Nat) : Nat := k * elemBits f / 8

/-- The limits of R325, and a format pair of R198. -/
def passOk (d : List Word) (af bf : Nat) (gather : Bool) : Bool :=
  match passChunk af bf with
  | none => false
  | some ch =>
    let k := dw d 6
    decide (dw2 d 0 % 16 = 0) && decide (dw2 d 2 % 16 = 0)
      && decide (dw d 4 % 16 = 0) && decide (rowBytes k af ≤ dw d 4) && decide (dw d 5 % 16 = 0) && decide (rowBytes k bf ≤ dw d 5)
      && decide (k % ch = 0) && decide (ch ≤ k) && decide (k ≤ 4096)
      && (if gather then decide (1 ≤ dw d 7) && decide (dw d 7 ≤ 65535) && decide (dw2 d 8 % 2 = 0)
          else decide (dw d 7 = 64) && decide (dw2 d 8 = 0))

/-- The footprint of a pass in memory (R326). -/
def passSpans (d : List Word) (af bf : Nat) (gather : Bool) : List Span :=
  let k := dw d 6
  let scales : Nat → Nat → Nat := fun f n => if isNarrow f then n * (k / 32) else 0
  [⟨1, dw2 d 0, dw d 7 * dw d 4 + scales af (dw d 7)⟩, ⟨1, dw2 d 2, 64 * dw d 5 + scales bf 64⟩]
    ++ if gather then [⟨1, dw2 d 8, 128⟩] else []

/-- Element k of a row or column from its packed stream and its scale bytes (R183, R191). -/
def passElem (f : Nat) (row : Nat) (scales : List Byte) (k : Nat) : FV :=
  let c := row / 2 ^ (elemBits f * k) % 2 ^ elemBits f
  if f = 1 then bf16.decode c else if f = 2 then f16.decode c
  else scaled ((scales.getD (k / 32) 0).toNat) (narrowDecode f c)

/-- The exact sum of a chunk's products (R199, R200). -/
def chunkSum (xs : List (FV × FV)) : FV :=
  match xs.map fun x => x.1.mul x.2 with
  | [] => .fin false 0 0
  | t :: ts => ts.foldl (FV.add 0) t

/-- One chunk into an FP32 accumulator. -/
def accumulate (acc : Nat) (xs : List (FV × FV)) : Nat :=
  f32.encode 0 (FV.add 0 (f32.decode acc) (f32.decode (f32.encode 0 (chunkSum xs))))

/-- A whole row against a column, chunk by chunk. -/
def accumulateAll (ch acc : Nat) (a b : List FV) : Nat :=
  (List.range ((a.length + ch - 1) / ch)).foldl (fun acc c => accumulate acc (((a.drop (c * ch)).take ch).zip ((b.drop (c * ch)).take ch))) acc

/-- One row or column as it lies in memory: its elements and whether it is poisoned; none when it cannot be read. -/
def State.passRow (s : State) (p : Part) (j : Job) (f k base pitch scaleBase i : Nat) : Option (List FV × Bool) :=
  match s.jobFetch p j false (base + i * pitch) (rowBytes k f),
        (if isNarrow f then s.jobFetch p j false (scaleBase + i * (k / 32)) (k / 32) else some ([], false)) with
  | some r, some sc => some ((List.range k).map (passElem f (leNat r.1) sc.1), r.2 || sc.2)
  | _, _ => none

/-- Byte offset of element (i, j) of tile n in a block's accumulator store. -/
def accOff (n i j : Nat) : Nat := 16384 * n + 4 * (64 * i + j)

def accElem (b : Block) (n i j : Nat) : Nat := (memWord b.acc (accOff n i j)).toNat

def State.poisonTile (s : State) (j : Job) (n : Nat) : State :=
  s.updBlock j.grid j.bidx j.copy fun b => { b with accPoison := dedupN (n :: b.accPoison) }

/-- Zeroes a tile and clears its mark. -/
def State.zeroTile (s : State) (j : Job) (n : Nat) : State :=
  s.updBlock j.grid j.bidx j.copy fun b => { b with acc := Mem.clear b.acc (16384 * n) 16384, accPoison := b.accPoison.filter fun t => decide (t ≠ n) }

/-- Runs a pass (R326, R327): the state, and whether it ended with error. -/
def State.passRun (s : State) (p : Part) (j : Job) (n : Nat) (z gather : Bool) (d : List Word) (af bf : Nat) : State × Bool :=
  let k := dw d 6
  let na := dw d 7
  let bad : State × Bool := (s.poisonTile j n, true)
  let idx : Option (List Nat × Bool) :=
    if gather then (s.jobFetch p j false (dw2 d 8) 128).map fun r =>
      ((List.range 64).map fun r' => leNat ((r.1.drop (2 * r')).take 2), r.2)
    else some (List.range 64, false)
  match idx with
  | none => bad
  | some (ix, poison) =>
    if poison then bad
    else if ix.any fun r => decide (na ≤ r) then (s, true)
    else
      let rows := ix.map fun r => s.passRow p j af k (dw2 d 0) (dw d 4) (dw2 d 0 + na * dw d 4) r
      let cols := (List.range 64).map fun c => s.passRow p j bf k (dw2 d 2) (dw d 5) (dw2 d 2 + 64 * dw d 5) c
      match allSome rows, allSome cols with
      | some rs, some cs =>
        if (rs.any (·.2)) || cs.any (·.2) then bad
        else
          let s := if z then s.zeroTile j n else s
          let ch := (passChunk af bf).getD 16
          (s.updBlock j.grid j.bidx j.copy fun b =>
            let cells := ((List.range 64).zip rs).flatMap fun r => ((List.range 64).zip cs).flatMap fun c =>
              cellsAt (accOff n r.1 c.1) (leBytes 4 (accumulateAll ch (accElem b n r.1 c.1) r.2.1 c.2.1))
            { b with acc := Mem.writeCells b.acc cells }, false)
      | _, _ => bad

/-- The common part of `mma` and `mmag` (R323, R325, R326). -/
def Ctx.pass (x : Ctx) (gather : Bool) : Eff :=
  let d := x.descr 10
  let n := x.f.mod.toNat % 128
  let af := fmtA x.p.fmt
  let bf := fmtB x.p.fmt
  if passOk d af bf gather then
    .done (x.job x.s true
      { kind := .pass n (x.f.mod.getLsbD 7) gather d af bf, spans := passSpans d af bf gather, tile := some n
        wants := [quadOf x.g.core], pledges := [] })
  else .done (x.refuse x.s)

/-- `mma` (R325-R327). -/
def execMma (f : Fld) (s : State) : Out' := .next (runLanes (.mma f) (fun x => x.pass false) s)

/-- `mmag` (R325-R327). -/
def execMmag (f : Fld) (s : State) : Out' := .next (runLanes (.mmag f) (fun x => x.pass true) s)

/-! ## Accumulator tiles -/

/-- A job on a tile alone. -/
def Ctx.tileJob (x : Ctx) (flag : Bool) (n : Nat) (k : JKind) : State :=
  x.job x.s flag { kind := k, spans := [], tile := some n, wants := [], pledges := [] }

/-- `accz` (R328). -/
def execAccz (f : Fld) (s : State) : Out' :=
  .next (runLanes (.accz f) (fun x => .done (x.tileJob false (f.mod.toNat % 128) (.accz (f.mod.toNat % 128)))) s)

/-- The control c of `accrd` and `accwr`: the immediate, or the lowest active lane's slot. -/
def Ctx.accCtl (x : Ctx) : Nat := if x.f.i then ((immFor 2 x.f).setWidth 32 : Word).toNat else (x.slot x.f.sb 0 (lowest x.act)).toNat

/-- Element `k` of the half row or half column that c selects. -/
def accAt (c k : Nat) : Nat × Nat :=
  let h := c / 64 % 2
  if c / 128 % 2 = 1 then (32 * h + k, c % 64) else (c % 64, 32 * h + k)

/-- `accrd` with a type (R329). -/
def execAccrd (f : Fld) (s : State) : Out' :=
  .next (runLanes (.accrd f) (fun x => .done (x.tileJob true f.sa.toNat (.accrd f.sa.toNat x.accCtl f.lo none))) s)

/-- `accrd.q` (R329): an OUTF that is not a narrow format raises 0x02. -/
def execAccrdQ (f : Fld) (s : State) : Out' :=
  .next (runLanes (.accrdQ f) (fun x =>
    if isNarrow (fmtOut x.p.fmt) then
      .done (x.tileJob true f.sa.toNat (.accrd f.sa.toNat x.accCtl 0 (some (fmtOut x.p.fmt, nrnd x.p.fmt))))
    else .trap 0x02 x.act 0) s)

/-- `accwr` (R330). -/
def execAccwr (f : Fld) (s : State) : Out' :=
  .next (runLanes (.accwr f) (fun x =>
    let vals := x.lanes.map fun l => (l, BitVec.ofNat 32 (f32.encode 0 (laneFloat f.lo false (x.rdA 1 l))))
    .done (x.tileJob true f.dst.toNat (.accwr f.dst.toNat x.accCtl vals))) s)

/-- What `accrd` gives lane j. -/
def accLane (ty : Nat) (q : Option (Nat × Nat)) (xs : List Nat) (j : Nat) : List Word :=
  match q with
  | some (out, mode) =>
    let r := quantise out mode (xs.map f32.decode)
    [BitVec.ofNat 32 (r.2.1.getD j 0), BitVec.ofNat 32 r.1]
  | none =>
    let v := xs.getD j 0
    [BitVec.ofNat 32 (if ty = 8 then v else (floatFmt ty).encode 0 (f32.decode v))]

/-! ## Copies -/

/-- A copy descriptor (R331). -/
structure CopyD where
  src : Nat
  dst : Nat
  sp : Nat
  dp : Nat
  rowb : Nat
  rows : Nat
  ctl : Nat
deriving DecidableEq, Repr

def copyD (d : List Word) : CopyD :=
  { src := dw2 d 0, dst := dw2 d 2, sp := dw d 4, dp := dw d 5, rowb := dw d 6, rows := dw d 7, ctl := dw d 8 }

/-- Transpose element size in bytes; 0 without transpose. -/
def CopyD.elem (c : CopyD) : Nat := match c.ctl % 4 with | 0 => 0 | 1 => 1 | 2 => 2 | _ => 4
def CopyD.farSrc (c : CopyD) : Bool := decide (c.ctl / 4 % 2 = 1)
def CopyD.farDst (c : CopyD) : Bool := decide (c.ctl / 8 % 2 = 1)
/-- Rows of the destination and bytes of one. -/
def CopyD.dRows (c : CopyD) : Nat := if c.elem = 0 then c.rows else c.rowb / c.elem
def CopyD.dLen (c : CopyD) : Nat := if c.elem = 0 then c.rowb else c.rows * c.elem
def CopyD.srcLen (c : CopyD) : Nat := (c.rows - 1) * c.sp + c.rowb
def CopyD.dstLen (c : CopyD) : Nat := (c.dRows - 1) * c.dp + c.dLen

/-- The window and the offset of a far-tier address. -/
def farWin (a : Nat) : Nat := a / 2 ^ 56
def farOff (a : Nat) : Nat := a % 2 ^ 56

def runsMeet (a n b m : Nat) : Bool := decide (a < b + m) && decide (b < a + n)

/-- What the descriptor alone refuses (R141, R331, R332): 1 for a reserved bit, 2 for a limit, 0 for neither. -/
def copyStatus (d : List Word) : Nat :=
  let c := copyD d
  if c.ctl / 16 ≠ 0 ∨ dw d 9 ≠ 0 then 1
  else if c.rowb = 0 ∨ 16777216 < c.rowb ∨ c.rows = 0 ∨ 65535 < c.rows then 2
  else if 1 < c.rows ∧ c.sp < c.rowb then 2
  else if c.elem ≠ 0 ∧ (c.rows % 16 ≠ 0 ∨ c.rowb % c.elem ≠ 0 ∨ c.rowb / c.elem % 16 ≠ 0) then 2
  else if 1 < c.dRows ∧ c.dp < c.dLen then 2
  else if c.farSrc && c.farDst then 2
  else if !c.farSrc && !c.farDst && runsMeet c.src c.srcLen c.dst c.dstLen then 2
  else 0

/-- A far-tier span lies within an open window. -/
def Part.farOpen (p : Part) (a n : Nat) : Bool :=
  p.windows.any fun w => decide (w.num = farWin a) && !w.closing && decide (farOff a + n ≤ w.len)

def copyFarOk (p : Part) (c : CopyD) : Bool :=
  (!c.farSrc || p.farOpen c.src c.srcLen) && (!c.farDst || p.farOpen c.dst c.dstLen)

/-- The two spans of a copy; a far-tier span stands above every virtual address. -/
def copySpans (c : CopyD) : List Span :=
  [⟨1, if c.farSrc then c.src + 2 ^ 64 else c.src, c.srcLen⟩, ⟨2, if c.farDst then c.dst + 2 ^ 64 else c.dst, c.dstLen⟩]

/-- Every byte of a copy: where it comes from and where it goes. -/
def CopyD.pairs (c : CopyD) : List (Nat × Nat) :=
  (List.range c.rows).flatMap fun r => (List.range c.rowb).map fun b =>
    (c.src + r * c.sp + b,
     if c.elem = 0 then c.dst + r * c.dp + b else c.dst + b / c.elem * c.dp + r * c.elem + b % c.elem)

/-- The mem-blocks of partition memory that a span touches (R82). -/
def spanBlocks (a n : Nat) : List Nat :=
  if n = 0 ∨ 2 ^ 48 ≤ a then [] else (List.range ((a + n - 1) / 512 + 1 - a / 512)).map fun i => a / 512 + i

def copyBlocks (c : CopyD) : List Nat := if c.farDst then [] else spanBlocks c.dst c.dstLen

/-- The pages of partition memory that a move touches (R90). -/
def movePages (c : CopyD) : List Nat :=
  let pages : Nat → Nat → List Nat := fun a n => dedupN ((spanBlocks a n).map fun mb => mb / 128)
  if c.farSrc then pages c.dst c.dstLen else if c.farDst then pages c.src c.srcLen else []

/-- The host address of a far-tier byte. -/
def Part.farHost (p : Part) (a : Nat) : Nat := ((p.windows.find? fun w => decide (w.num = farWin a)).map fun w => w.host + farOff a).getD 0

/-- A byte that a copy reads (DEDUCED, log 49). -/
def State.copyByte (s : State) (p : Part) (j : Job) (c : CopyD) (a : Nat) : Option (Byte × Bool) :=
  (assoc a j.got).or (if c.farSrc then some (Mem.read s.host (p.farHost a), false) else s.jobByte p j.core j.grid true a)

/-- The pledges of a job that reach their mem-blocks with its writes settle there (R83). -/
def State.settleJob (s : State) (j : Job) (mbs : List Nat) : Job × State :=
  ({ j with pledges := j.pledges.filter fun e => !(mbs.contains e.1) },
    (j.pledges.filter fun e => mbs.contains e.1).foldl (fun s e => s.settlePledge j.part j.core e.1 e.2) s)

/-- Whose writes a job's are: its group's, or of a node's job its own (R140). -/
def Job.source (j : Job) : Nat := if j.nid = 0 then j.gid else j.jid

/-- A job's writes with the poison that they carry; a place that has no poison bit takes the data clean (R63; DESIGN CHOICE, log 95). The
mem-blocks are filled first (R73), and the pledges settle; `far` says that the addresses are far-tier ones. -/
def State.jobPut (s : State) (p : Part) (j : Job) (far : Bool) (out : List (Nat × Byte × Bool)) : VClock × Job × State :=
  if far then (VClock.zero, j, s.hostPut (out.map fun e => (p.farHost e.1, e.2.1)))
  else
    let mbs := dedupN ((out.filter fun e => decide (e.1 < 2 ^ 48)).map fun e => e.1 / 512)
    let (j, s) := (mbs.foldl (fun s mb => s.expandBlockAt p.id mb) s).settleJob j mbs
    let bad := dedupN ((out.filter fun e => e.2.2 && decide (e.1 < 2 ^ 48)).map fun e => e.1 / 32)
    let (st, s) := s.jobWrite p j.core j.source j.gc (out.map fun e => (e.1, e.2.1)) bad
    (st, j, s)

/-- Destination sectors that a failed fetch leaves unwritten are poisoned, for every reader (R91). -/
def State.jobPoison (s : State) (p : Part) (j : Job) (ks : List Nat) : VClock × State :=
  ks.foldl (fun (r : VClock × State) k =>
    let d := homeDie p (32 * k)
    let (wid, s) := r.2.fresh
    let (st, s) := s.stamp d j.gc
    (r.1.join st, (s.announce p.id d wid j.source st []).setPoison p.id wid [(k, true)])) (VClock.zero, s)

/-- Runs a copy (R331, R332, R63, R91): the stamps of its writes, the state, and whether it ended with error. A fault leaves
each destination byte old or new; a failed far-tier read leaves each destination sector written or poisoned. Sectors that the job has
written before stand. -/
def State.copyRun (s : State) (p : Part) (j : Job) (d : List Word) (fetched : Bool) : VClock × State × Bool :=
  let c := copyD d
  let from_ := c.pairs.map fun e => (e.2, s.copyByte p j c e.1)
  let may : Nat → Bool := fun a => c.farDst || s.jobMayWrite p j.core j.grid a
  let ok := copyFarOk p c
  let lost := c.farSrc && (!fetched || !ok)
  let err := !ok || from_.any fun e => e.2.isNone || !(may e.1)
  let (k, s) := (s.free, { s with free := s.free + 1 })
  let keep : Nat × Nat → Bool := fun e => if lost then fetched || Config.freeBit k (e.2 / 32) else !err || Config.freeBit k e.1
  let moved := ((List.range from_.length).zip from_).filterMap fun e =>
    match e.2.2 with
    | some (b, bad) => if ok && may e.2.1 && keep (e.1, e.2.1) && !(j.sent.contains (e.2.1 / 32)) then some (e.2.1, b, bad) else none
    | none => none
  let (st, j, s) := s.jobPut p j c.farDst moved
  let gone := if lost then dedupN ((from_.filter fun e => decide (e.1 < 2 ^ 48) && s.jobMayWrite p j.core j.grid e.1 && !(j.sent.contains (e.1 / 32))
      && !(moved.any fun q => decide (q.1 / 32 = e.1 / 32))).map fun e => e.1 / 32) else []
  let (pt, s) := s.jobPoison p j gone
  (st.join pt, s.refundJob j, err || lost)

/-- `cpy` (R331, R332). -/
def execCpy (f : Fld) (s : State) : Out' :=
  .next (runLanes (.cpy f) (fun x =>
    let d := x.descr 10
    let c := copyD d
    if copyStatus d ≠ 0 ∨ copyFarOk x.part c = false then .done (x.refuse x.s)
    else
      let mbs := copyBlocks c
      match x.s.pledge x.g.core x.gid x.p.sid (8 * mbs.length) x.act (c.dst / 512 * 512) with
      | .waits s => .wait s
      | .ok s =>
        .done (x.job s true
          { kind := .cpy d, spans := copySpans c, tile := none
            wants := if 65536 < c.rowb * c.rows then [quadOf x.g.core] else [], pledges := mbs.map fun m => (m, 8) })) s)

/-! ## Near-bank commands -/

/-- The quadrants that a stack mask names. -/
def maskQuads (m : Nat) : List Nat := (List.range 32).filter fun q => decide (m / 2 ^ q % 2 = 1)

/-- What a near-bank descriptor alone refuses (R141, R333): 1 for a slot that must be 0, 2 for a limit, 0 for neither. -/
def nbkStatus (code : Nat) (d : List Word) : Nat :=
  let e := dw d 2
  let n := dw d 4
  let zero : List Nat → Bool := fun ks => ks.all fun k => decide (dw d k = 0)
  let okE := decide (32 ≤ e) && decide (e ≤ 8192) && decide (e % 32 = 0)
  let okN := decide (1 ≤ n) && decide (n ≤ 65536)
  match code with
  | 0 => if zero [4, 5] = false then 1 else if okE && decide (dw2 d 0 % 4 = 0) then 0 else 2
  | 1 => if okE && okN && decide (dw2 d 0 % 65536 = 0) && isNarrow (dw d 5) then 0 else 2
  | 2 => if zero [2, 5] = false then 1 else if okN && decide (dw2 d 0 % 4 = 0) then 0 else 2
  | 3 => if zero [0, 1, 2, 4, 5] then 0 else 1
  | 4 => if zero [0, 1, 2, 3, 4, 5] then 0 else 1
  | _ => 1

/-- The row length that a near-bank region's pages share, over a run of bytes; none unless all are CLASS 2 with one NBROW. -/
def State.regionRow (s : State) (p : Part) (base a n : Nat) : Option Nat :=
  match s.page? p.id (base / 65536) with
  | none => none
  | some pg =>
    if pg.cls = 2 ∧ (List.range ((a + n - 1) / 65536 + 1 - a / 65536)).all (fun i =>
        match s.page? p.id (a / 65536 + i) with
        | some q => decide (q.cls = 2) && decide (q.nbrow = pg.nbrow) && q.hw.isNone
        | none => false) = true then some (64 * pg.nbrow)
    else none

/-- The stacks that hold rows i0 .. i0 + n - 1 of a region. -/
def rowQuads (p : Part) (base row i0 n : Nat) : List Nat :=
  let a := base + i0 * row
  dedupN ((List.range ((a + n * row - 1) / 65536 + 1 - a / 65536)).map fun i => homeQuad p (a + 65536 * i))

/-- The row length of a region's first page. -/
def State.rowLen (s : State) (p : Part) (base : Nat) : Nat := ((s.page? p.id (base / 65536)).map fun pg => 64 * pg.nbrow).getD 64

/-- A `.drain` as it issues: its region is that of the `.mv` that issued last (DEDUCED, log 47). -/
def Part.drainOf (p : Part) (d : List Word) : List Word :=
  d.take 6 ++ [BitVec.ofNat 32 p.nbBase, BitVec.ofNat 32 (p.nbBase / 2 ^ 32), BitVec.ofNat 32 p.nbRow]

/-- The partition's region follows an `.mv` as it issues; a `.drain` keeps the region that it issues with. -/
def State.nbkIssue (s : State) (p : Part) (code : Nat) (d : List Word) : List Word × State :=
  match code with
  | 1 => (d, s.updPart p.id fun q => { q with nbBase := dw2 d 0, nbRow := s.rowLen p (dw2 d 0) })
  | 2 => (p.drainOf d, s)
  | _ => (d, s)

/-- The stacks that a command acts on (DEDUCED, log 47). -/
def State.nbkQuads (s : State) (p : Part) (code : Nat) (d : List Word) : List Nat :=
  match code with
  | 0 => maskQuads (dw d 3)
  | 1 => rowQuads p (dw2 d 0) (s.rowLen p (dw2 d 0)) (dw d 3) (dw d 4)
  | 2 => rowQuads p (dw2 d 6) (dw d 8) (dw d 3) (dw d 4)
  | 3 => maskQuads (dw d 3)
  | _ => []

/-- The vector length that a stack will have when the commands have run that have reached it, and the earlier ones of the issuer, a group or
the graph unit (R334, R335) (DEDUCED, log 48). -/
def State.lengthAt (s : State) (p : Part) (gid q : Nat) : Nat :=
  (s.jobs.filter fun j => j.started || decide (j.gid = gid)).foldl (fun n j =>
    match j.kind with
    | .nbk 0 d => if j.part = p.id ∧ (maskQuads (dw d 3)).contains q = true then dw d 2 else n
    | .nbk 3 d => if j.part = p.id ∧ (maskQuads (dw d 3)).contains q = true then 0 else n
    | _ => n) (s.quad! q).nbLen

/-- Whether R334 refuses a command, given what stands in memory (DEDUCED, log 48). -/
def State.nbkRefused (s : State) (p : Part) (gid code : Nat) (d : List Word) : Bool :=
  let maskBad : Bool := (maskQuads (dw d 3)).isEmpty || (maskQuads (dw d 3)).any fun q => !(p.quads.contains q)
  match code with
  | 0 => maskBad
  | 1 =>
    let base := dw2 d 0
    let row := s.rowLen p base
    match s.regionRow p base (base + dw d 3 * row) (dw d 4 * row) with
    | none => true
    | some row =>
      let e := dw d 2
      decide (row < e * elemBits (dw d 5) / 8 + e / 32)
        || (rowQuads p base row (dw d 3) (dw d 4)).any fun q => decide (s.lengthAt p gid q < e)
  | 2 => (List.range (4 * dw d 4)).any fun i =>
      match s.jobLoc p nodeCore 0 (dw2 d 0 + i) with
      | some (.mem a) => (match s.xlat p.id a with | .mem pg => decide (pg.cls = 2) | _ => true)
      | some (.chip _ _) => false
      | _ => true
  | 3 => maskBad
  | _ => false

/-- The footprint of a command in memory (R334). -/
def State.nbkSpans (s : State) (p : Part) (code : Nat) (d : List Word) : List Span :=
  match code with
  | 0 => [⟨1, dw2 d 0, 4 * dw d 2⟩]
  | 1 => [⟨1, dw2 d 0 + dw d 3 * s.rowLen p (dw2 d 0), dw d 4 * s.rowLen p (dw2 d 0)⟩]
  | 2 => [⟨2, dw2 d 0, 4 * dw d 4⟩]
  | _ => []

/-- A command that has reached a stack which this one needs has not completed, an earlier one of its group is to reach one first, or a fence
waits for a command of its group (R334, R335). A command reaches its stacks as it starts (DEDUCED, log 47). -/
def State.nbkBlocked (s : State) (p : Part) (j : Job) : Bool :=
  match j.kind with
  | .nbk code d =>
    let mine := s.nbkQuads p code d
    let before := (s.jobs.takeWhile fun e => decide (e.jid ≠ j.jid)).filter fun e => decide (e.gid = j.gid) && decide (e.nid = j.nid)
    let ahead := s.jobs.filter fun e => e.started && decide (e.jid ≠ j.jid)
    (before ++ ahead).any fun e =>
      decide (e.part = j.part) && match e.kind with
        | .nbk c2 d2 => (decide (code = 4) && decide (e.gid = j.gid) && decide (e.nid = j.nid))
            || (s.nbkQuads p c2 d2).any fun q => mine.contains q
        | _ => false
  | _ => false

/-- One row of an `.mv`: its weights against the stack's vector (R334). -/
def State.mvRow (s : State) (p : Part) (j : Job) (base row e fmt i : Nat) : State × Bool :=
  let a := base + i * row
  let q := homeQuad p a
  let wb := e * elemBits fmt / 8
  match s.jobFetch p j false a (wb + e / 32) with
  | none => (s, true)
  | some (bs, bad) =>
    let k := s.quad! q
    let w := leNat (bs.take wb)
    let ws := (List.range e).map (passElem fmt w (bs.drop wb))
    let vs := (List.range e).map fun t => f32.decode (memWord k.nbVec (4 * t)).toNat
    let slot := i % 65536
    let sum := accumulateAll (if fmt = 5 then 64 else 32) (memWord k.nbSum (4 * slot)).toNat ws vs
    let poisoned := bad || k.nbVecPoison.any fun t => decide (t < e)
    (s.updQuad q fun k => { k with
      nbSum := Mem.writeN k.nbSum (4 * slot) (leBytes 4 sum)
      nbPoison := if poisoned then dedupN (slot :: k.nbPoison) else k.nbPoison }, poisoned)

/-- The home channels clean the dirty mem-blocks of a command's footprint before it reads DRAM (R69): one of a page stored raw is written
back, one of a normal page as any writeback is. -/
def State.cleanSpans (s : State) (p : Part) (spans : List Span) : State :=
  (spans.flatMap fun r => spanBlocks r.base r.len).foldl (fun s mb =>
    match s.page? p.id (mb / 128) with
    | some pg => if pg.dirty.any fun e => decide (e.1 = mb % 128) then s.writeBack p.id (mb / 128) (mb % 128) 0 else s
    | none => s) s

/-- What a `.drain` writes, and each word's poison. -/
def State.drainOut (s : State) (p : Part) (d : List Word) : List (Nat × Byte × Bool) :=
  (List.range (dw d 4)).flatMap fun t =>
    let i := dw d 3 + t
    let k := s.quad! (homeQuad p (dw2 d 6 + i * dw d 8))
    (cellsAt (dw2 d 0 + 4 * t) (leBytes 4 (memWord k.nbSum (4 * (i % 65536))).toNat)).map fun c => (c.1, c.2, k.nbPoison.contains (i % 65536))

/-- Runs a near-bank command. -/
def State.nbkRun (s : State) (p : Part) (j : Job) (code : Nat) (d : List Word) : VClock × State × Bool :=
  let z := VClock.zero
  match code with
  | 0 =>
    match s.jobFetch p j true (dw2 d 0) (4 * dw d 2) with
    | none => (z, s, true)
    | some (bs, bad) =>
      let marks := (List.range (dw d 2)).filter fun t => match s.jobFetch p j true (dw2 d 0 + 4 * t) 4 with | some r => r.2 | none => false
      (z, (maskQuads (dw d 3)).foldl (fun s q => s.updQuad q fun k => { k with nbLen := dw d 2, nbVec := Mem.writeN [] 0 bs, nbVecPoison := marks }) s, bad)
  | 1 =>
    let base := dw2 d 0
    let row := s.rowLen p base
    if (s.regionRow p base (base + dw d 3 * row) (dw d 4 * row)).isNone then (z, s, true)
    else
      let r := (List.range (dw d 4)).foldl (fun (r : State × Bool) t =>
        let o := r.1.mvRow p j base row (dw d 2) (dw d 5) (dw d 3 + t)
        (o.1, r.2 || o.2)) (s, false)
      (z, r.1, r.2)
  | 2 =>
    if (List.range (4 * dw d 4)).any fun i => !(s.jobMayWrite p j.core j.grid (dw2 d 0 + i)) then (z, s.refundJob j, true)
    else
      let (st, j, s) := s.jobPut p j false ((s.drainOut p d).filter fun e => !(j.sent.contains (e.1 / 32)))
      (st, s.refundJob j, false)
  | 3 =>
    (z, (maskQuads (dw d 3)).foldl (fun s q => s.updQuad q fun k => { k with
      nbLen := 0, nbVec := [], nbSum := [], nbVecPoison := [], nbPoison := [] }) s, false)
  | _ => (z, s, false)

/-- The common part of the near-bank instructions (R333, R334). -/
def Ctx.nbk (x : Ctx) (code : Nat) : Eff :=
  let d := if code = 4 then List.replicate 6 0 else x.descr 6
  if nbkStatus code d ≠ 0 ∨ x.s.nbkRefused x.part x.gid code d = true then .done (x.refuse x.s)
  else
    let mbs := if code = 2 then spanBlocks (dw2 d 0) (4 * dw d 4) else []
    match x.s.pledge x.g.core x.gid x.p.sid (8 * mbs.length) x.act (dw2 d 0 / 512 * 512) with
    | .waits s => .wait s
    | .ok s =>
      let (d', s) := s.nbkIssue x.part code d
      .done (x.job s true
        { kind := .nbk code d', spans := x.s.nbkSpans x.part code d, tile := none
          wants := if code = 1 then x.s.nbkQuads x.part 1 d else [], pledges := mbs.map fun m => (m, 8) })

/-- `nbk.vload` (R333, R334). -/
def execNbkVload (f : Fld) (s : State) : Out' := .next (runLanes (.nbkVload f) (fun x => x.nbk 0) s)
/-- `nbk.mv` (R333, R334). -/
def execNbkMv (f : Fld) (s : State) : Out' := .next (runLanes (.nbkMv f) (fun x => x.nbk 1) s)
/-- `nbk.drain` (R333, R334). -/
def execNbkDrain (f : Fld) (s : State) : Out' := .next (runLanes (.nbkDrain f) (fun x => x.nbk 2) s)
/-- `nbk.clear` (R333, R334). -/
def execNbkClear (f : Fld) (s : State) : Out' := .next (runLanes (.nbkClear f) (fun x => x.nbk 3) s)
/-- `nbk.fence` (R333, R334). -/
def execNbkFence (f : Fld) (s : State) : Out' := .next (runLanes (.nbkFence f) (fun x => x.nbk 4) s)

/-! ## Leases (R19-R25) -/

def Job.weight (j : Job) : Nat := match j.kind with | .pass .. => 15 | .nbk .. => 4 | _ => 1

/-- The budget of a quadrant's governor (R20). -/
def State.budget (s : State) (p : Part) : Nat := if s.dev.throttle then 15 else p.regs.pwrCap / p.quads.length - 150

/-- Requests for the leases that a job still wants stand in their governors' queues. -/
def State.askLeases (s : State) (j : Job) : State :=
  j.wants.foldl (fun s q =>
    if (s.quad! q).leaseQ.any fun r => decide (r.jid = j.jid) then s
    else s.updQuad q fun k => { k with leaseQ := k.leaseQ ++ [{ jid := j.jid, part := j.part, weight := j.weight, at_ := s.dev.up }] }) s

/-- LEASE_GRANT (R20, R25): the head of the queue, as soon as its weight fits. LEASE_LONG counts a request as it is granted: one that a
kill withdraws does not count, however long it has waited (DESIGN CHOICE, log 94). -/
def execLeaseGrant (quad : Nat) (s : State) : Out' :=
  .next (match (s.quad! quad).leaseQ, s.ownerOf quad with
    | r :: rest, some p =>
      let held := ((s.quad! quad).leases.map Lease.weight).sum
      if s.budget p < held + r.weight then s
      else
        let waited := s.dev.up - r.at_
        let s := s.updQuad quad fun k => { k with leaseQ := rest, leases := k.leases ++ [{ jid := r.jid, weight := r.weight, since := s.dev.up }] }
        let s := s.updJob r.jid fun j => { j with wants := j.wants.filter fun q => decide (q ≠ quad) }
        s.updPart p.id fun p => { p with cnt := { p.cnt with
          leaseGrants := p.cnt.leaseGrants + 1, leaseWait := p.cnt.leaseWait + BitVec.ofNat 64 waited
          leaseLong := if 10000 < waited then p.cnt.leaseLong + 1 else p.cnt.leaseLong } }
    | _, _ => s)

/-- LEASE_INTERVAL_END (R21): after 10 µs the operation gives up its lease and asks again at the tail. -/
def execLeaseIntervalEnd (quad job : Nat) (s : State) : Out' :=
  .next (match (s.quad! quad).leases.find? fun l => decide (l.jid = job), s.job? job with
    | some l, some j =>
      if s.dev.up < l.since + 10000 then s
      else
        let s := s.updQuad quad fun k => { k with
          leases := k.leases.filter fun l => decide (l.jid ≠ job)
          leaseQ := k.leaseQ ++ [{ jid := job, part := j.part, weight := l.weight, at_ := s.dev.up }] }
        s.updJob job fun j => { j with wants := quad :: j.wants }
    | _, _ => s)

/-! ## Grant, start and end -/

/-- The passes that hold a place in a Spindle's reservation table (R148). -/
def State.entries (s : State) (cluster : Nat) : List Job :=
  (s.jobs.filter fun j => j.kind.isPass && decide (clusterOf j.core = cluster)).take 32

/-- SPINDLE_GRANT (R148): one pass at a time, by PRIO and then age; an entry passed over 16 times comes first. Entries that
an earlier job still blocks are not candidates (DEDUCED, log 25). -/
def execSpindleGrant (core : Nat) (s : State) : Out' :=
  let all := s.entries (clusterOf core)
  let free := all.filter fun j => !j.granted && !(s.jobBlocked j)
  let pick : Option Job :=
    match free.find? fun j => decide (16 ≤ j.passed) with
    | some j => some j
    | none => (sortBy (fun (j : Job) => 3 - j.prio) free).head?
  .next (match pick with
    | some j =>
      if all.any fun e => e.granted then s
      else
        let older := (free.takeWhile fun e => decide (e.jid ≠ j.jid)).map Job.jid
        let s := { s with jobs := s.jobs.map fun (e : Job) =>
          if e.jid = j.jid then { e with granted := true } else if older.contains e.jid then { e with passed := e.passed + 1 } else e }
        s.askLeases j
    | none => s)

/-- JOB_START (R19, R337 rules 1 and 2): nothing earlier blocks the job; it first obtains its leases. -/
def execJobStart (jid : Nat) (s : State) : Out' :=
  .next (match s.job? jid with
    | none => s
    | some j =>
      let p := (s.part? j.part).getD default
      if j.started || !j.granted || s.jobBlocked j || s.nbkBlocked p j then s
      else if !j.wants.isEmpty then s.askLeases j
      else
        let pages := match j.kind with | .cpy d => movePages (copyD d) | _ => []
        let s := pages.foldl (fun s v => s.updPage j.part v fun pg => { pg with moves := pg.moves + 1 }) s
        s.updJob jid fun j => { j with started := true, moving := pages, detour := p.regs.detour, redo := none })

/-- A job is over: its leases and moves end, its flag falls or its node has its result (R24, R90, R337 rule 4). -/
def State.endJob (s : State) (j : Job) (clock : VClock) (err : Bool) : State :=
  let s := s.dropLeases j.jid
  let s := j.moving.foldl (fun s v => s.updPage j.part v fun pg => { pg with moves := pg.moves - 1 }) s
  let s := { s with jobs := s.jobs.filter fun e => decide (e.jid ≠ j.jid) }
  if j.nid ≠ 0 then
    s.updNode j.part j.nid fun n => { n with result := n.result.or (some (if err then 10 else 0)) }
  else if j.oid = 0 then s
  else
    let s := (s.holders j.oid).foldl (fun s g => s.updGrp g.gid fun g =>
      match g.op? j.oid with
      | some o => { g with mm := { g.mm with jobs := (o.flag, clock) :: g.mm.jobs } }
      | none => g) s
    s.finishOp j.oid (err || j.fail)

/-- The lanes of a stack's entries. -/
def stackMask (es : List Entry) : Mask := es.foldl (fun m e => m ||| e.mask) 0

/-- The lanes that a split holds: those it runs, and those of its entries. -/
def Split.holds (p : Split) : Mask := p.mask ||| stackMask p.stack

/-- QSAT is set in every split that holds a live lane of those (R196). Lanes that stand in no split but in the stack below a merge entry are held by the
split that pushed the entry; once that is gone the entry keeps their bit for the merged split (R169). -/
def Group.saturate (g : Group) (lanes : Mask) : Group :=
  let live := lanes &&& ~~~ g.dead
  let lone := live &&& ~~~ g.splits.foldl (fun m p => m ||| p.holds) 0
  let below : Merge → Bool := fun m => decide (stackMask m.stack &&& lone ≠ 0)
  { g with
    splits := g.splits.map fun (p : Split) =>
      if p.holds &&& live ≠ 0 ∨ (g.merges.any fun m => below m && decide (m.members.head? = some p.sid)) = true then { p with fmt := p.fmt ||| qsatBit } else p
    merges := g.merges.map fun (m : Merge) =>
      if below m && (g.split? (m.members.headD 0)).isNone then { m with fmt := m.fmt ||| qsatBit } else m }

/-- An `accrd` gives its lanes their elements; over a poisoned tile the lanes die (R329). -/
def State.accrdRun (s : State) (j : Job) (n c ty : Nat) (q : Option (Nat × Nat)) : State :=
  match s.block? j.grid j.bidx j.copy with
  | none => s
  | some b =>
    let lanes : List Nat := match (s.grp? j.gid).bind fun g => g.op? j.oid with | some o => lanesOf o.mask | none => []
    if b.accPoison.contains n then s.killLanes j.gid lanes 0
    else
      let xs := (List.range 32).map fun k => accElem b n (accAt c k).1 (accAt c k).2
      let w := s.writeLanes j.oid (lanes.map fun l => (l, accLane ty q xs l))
      let s := if w.2 then w.1 else w.1.updOp j.gid j.oid fun o => { o with err := true }
      match q with
      | some (out, mode) =>
        if (quantise out mode (xs.map f32.decode)).2.2 then
          s.updGrp j.gid fun g => match g.op? j.oid with
            | some o => g.saturate o.smask
            | none => g
        else s
      | none => s

/-- The dies that a job's requests go to: the homes of its memory, the chip scratchpads it names, and the stacks that it commands. -/
def State.jobDies (s : State) (p : Part) (j : Job) : List Nat :=
  dedupN ((j.spans.flatMap fun r =>
      if r.len = 0 then []
      else if r.base < 2 ^ 48 then (List.range ((r.base + r.len - 1) / 65536 - r.base / 65536 + 1)).map fun i => homeDie p (r.base + 65536 * i)
      else if scratchWin ≤ r.base ∧ r.base < scratchWin + 2 ^ 24 * p.quads.length then
        (List.range ((r.base + min r.len (2 ^ 28) - 1 - scratchWin) / 2 ^ 24 - (r.base - scratchWin) / 2 ^ 24 + 1)).map fun i =>
          p.quads.getD ((r.base - scratchWin) / 2 ^ 24 + i) 0 / 4
      else [])
    ++ match j.kind with | .nbk code d => (s.nbkQuads p code d).map fun q => q / 4 | _ => [])

/-- No die link leads from the job's quadrant to some die that its requests go to (R41) (DEDUCED, log 66). -/
def State.jobLost (s : State) (p : Part) (j : Job) : Bool :=
  (s.jobDies p j).any (s.lost p j.detour j.redo (j.quad / 4))

/-- A failed link has caught a request of the job, which is to be composed again (R41). -/
def State.jobCaught (s : State) (j : Job) : Bool :=
  let p := (s.part? j.part).getD default
  (s.jobDies p j).any (s.caught p j.detour j.redo (j.quad / 4))

/-- A job that cannot reach its footprint ends with error status: its pledges return, and a pass poisons its tile. -/
def State.loseJob (s : State) (j : Job) : State :=
  let s := s.refundJob j
  let s := match j.kind with | .pass n .. => s.poisonTile j n | _ => s
  s.endJob j VClock.zero true

/-- A job that has started goes on: it holds its leases, none for more than 10 µs (R21), its group's frames stand on the core, and none of its
requests waits to be composed again (R41). -/
def State.jobRuns (s : State) (j : Job) : Bool :=
  let off : Bool := ((s.grp? j.gid).map fun g => g.saved.isSome).getD false
  j.started && j.wants.isEmpty && !off && !(s.jobCaught j)
    && s.quads.all fun q => q.leases.all fun l => decide (l.jid ≠ j.jid) || decide (s.dev.up ≤ l.since + 10000)

/-- The mem-blocks that a job reads are filled (R73), and of a near-bank command cleaned first (R69). -/
def State.readyReads (s : State) (p : Part) (j : Job) : State :=
  let reads := j.spans.filter fun r => decide (r.acc % 2 = 1) && decide (r.base < 2 ^ 48)
  let s := match j.kind with | .nbk .. => s.cleanSpans p reads | _ => s
  reads.foldl (fun s r => if r.len = 0 then s else s.expandAt p.id r.base r.len) s

/-- The runs of host memory that a span of a job lies in: those of its host-window pages, or of its far-tier window. -/
def State.hostRuns (s : State) (p : Part) (r : Span) : List (Nat × Nat) :=
  if r.len = 0 then []
  else if 2 ^ 64 ≤ r.base then
    ((p.windows.find? fun w => decide (w.num = farWin (r.base - 2 ^ 64))).map fun w => (w.host + farOff (r.base - 2 ^ 64), r.len)).toList
  else if 2 ^ 48 ≤ r.base then []
  else (List.range ((r.base + r.len - 1) / 65536 - r.base / 65536 + 1)).filterMap fun i =>
    let va := max r.base (65536 * (r.base / 65536 + i))
    match s.xlat p.id va with
    | .host _ _ h => some (h, min (r.base + r.len) (65536 * (va / 65536 + 1)) - va)
    | _ => none

/-- An earlier write of the device is on its way to host memory that the job reads or writes: the job's requests follow it (R275, R358). -/
def State.hostBusy (s : State) (p : Part) (j : Job) : Bool :=
  !s.rmas.isEmpty && (j.spans.flatMap (s.hostRuns p)).any fun e => s.rmas.any fun q => inRange q.cells e.1 e.2

/-- What a job writes, byte by byte with its poison; none when it writes nothing or meets a fault. -/
def State.jobOut (s : State) (p : Part) (j : Job) : Option (List (Nat × Byte × Bool)) :=
  match j.kind with
  | .cpy d =>
    let c := copyD d
    if !(copyFarOk p c) then none
    else allSome (c.pairs.map fun e => if c.farDst || s.jobMayWrite p j.core j.grid e.2 then (s.copyByte p j c e.1).map fun b => (e.2, b) else none)
  | .nbk 2 d =>
    if (List.range (4 * dw d 4)).any fun i => !(s.jobMayWrite p j.core j.grid (dw2 d 0 + i)) then none else some (s.drainOut p d)
  | _ => none

/-- The bytes that a job reads from memory, the windows and the far tier, with what they hold. -/
def State.jobIn (s : State) (p : Part) (j : Job) : List (Nat × Byte × Bool) :=
  match j.kind with
  | .cpy d => (copyD d).pairs.filterMap fun e => (s.copyByte p j (copyD d) e.1).map fun b => (e.1, b)
  | _ => (j.spans.filter fun r => decide (r.acc % 2 = 1)).flatMap fun r => (List.range r.len).filterMap fun i =>
      (s.jobByte p j.core j.grid (match j.kind with | .nbk 0 _ => true | _ => false) (r.base + i)).map fun b => (r.base + i, b)

/-- A step of a job on its way (R69, R359): some 32 B sectors of what it reads are read, and some of what it writes are written; which
is free (DESIGN CHOICE, log 11). Loads and stores of other agents may fall between its steps. The requests after it are composed with the
DETOUR of then (R40). -/
def State.jobStep (s : State) (jid : Nat) : State :=
  match s.job? jid with
  | none => s
  | some j =>
    let p := (s.part? j.part).getD default
    if s.jobRuns j = false ∨ s.jobLost p j = true ∨ s.hostBusy p j = true then s
    else
      let (k, s) := (s.free, { s with free := s.free + 1 })
      let s := s.readyReads p j
      let p := (s.part? j.part).getD default
      let new := (s.jobIn p j).filter fun e => Config.freeBit k (2 * (e.1 / 32)) && (assoc e.1 j.got).isNone
      let j := { j with got := j.got ++ new }
      let out := ((s.jobOut p j).getD []).filter fun e => Config.freeBit k (2 * (e.1 / 32) + 1) && !(j.sent.contains (e.1 / 32))
      let far := match j.kind with | .cpy d => (copyD d).farDst | _ => false
      let (st, j, s) := s.jobPut p j far out
      s.updJob jid fun _ => { j with
        sent := dedupN (out.map (fun e => e.1 / 32) ++ j.sent), clk := j.clk.join st, detour := p.regs.detour, redo := none }

/-- JOB_COMPLETE (R326-R334, R337 rule 4): what is left of the job happens in one step, after any number of its steps (DESIGN CHOICE,
log 11); `fetched` is false when a far-tier read fails (R91). -/
def execJobComplete (jid : Nat) (fetched : Bool) (s : State) : Out' :=
  .next (match s.job? jid with
    | none => s
    | some j =>
      let p := (s.part? j.part).getD default
      if s.jobRuns j = false then s
      else if s.jobLost p j then s.loseJob j
      else if s.hostBusy p j then s
      else
        let s := s.readyReads p j
        let p := (s.part? j.part).getD default
        match j.kind with
        | .pass n z gather d af bf =>
          let r := s.passRun p j n z gather d af bf
          r.1.endJob j VClock.zero r.2
        | .accz n => (s.zeroTile j n).endJob j VClock.zero false
        | .accrd n c ty q => (s.accrdRun j n c ty q).endJob j VClock.zero false
        | .accwr n c vals =>
          (s.updBlock j.grid j.bidx j.copy fun b => { b with
            acc := Mem.writeCells b.acc (vals.flatMap fun v => cellsAt (accOff n (accAt c v.1).1 (accAt c v.1).2) (leBytes 4 v.2.toNat)) }).endJob j VClock.zero false
        | .cpy d =>
          let r := s.copyRun p j d fetched
          r.2.1.endJob j (r.1.join j.clk) r.2.2
        | .nbk code d =>
          let r := s.nbkRun p j code d
          r.2.1.endJob j (r.1.join j.clk) r.2.2)

end Sys2Proof.Machine
end

