-- ==== Sys2Proof/Machine/Graph.lean ====
section
/-!
DEFINITION. The graph unit: launch cards and node records (R136-R138, R141), submission and edges (R139), `spawn` and `node`
(R336), the start and the end of a node and of a grid (R140, R142, R145, R303), kills by tag (R101), and the launches of
the time table (R115-R117).
-/

namespace Sys2Proof.Machine

/-! ## Launch cards (R136-R138, R143) -/

/-- Bytes of partition memory as an agent without a core reads them; none when a page is not mapped. -/
def State.graphRead (s : State) (p : Part) (va n : Nat) : Option (List Byte) :=
  if 2 ^ 48 < va + n then none else (s.jobRead p nodeCore 0 true va n).map (·.1)

/-- The graph unit fills the mem-blocks that it reads (R73). -/
def State.graphFill (s : State) (p : Part) (va n : Nat) : State := if n = 0 ∨ 2 ^ 48 < va + n then s else s.expandAt p.id va n

def byteField (bs : List Byte) (o n : Nat) : Nat := leNat ((bs.drop o).take n)

/-- The card that 128 bytes hold; `rsv` says that a reserved byte or FLAGS bit is nonzero. -/
def cardOf (bs : List Byte) : Card :=
  let f := byteField bs
  { entry := f 0 8, blocks := f 8 4, groups := f 12 1, lslots := f 13 1, gslots := f 14 1, acct := f 15 1, bwords := f 16 2
    cwords := f 18 2, scratch := f 20 2, cshare := f 22 2, prio := f 24 1, place := f 25 1, pincore := f 26 2, tag := f 28 2
    flags := f 30 2, handler := f 32 8, msgtab := f 40 8, args := BitVec.ofNat 64 (f 48 8), foot := f 56 8, footn := f 64 2
    rsv := decide (f 66 62 ≠ 0) || decide (8 ≤ f 30 2) }

/-- The footprint entry of 16 bytes, and whether a reserved bit is nonzero or the access is 0. -/
def spanOf (bs : List Byte) : Span × Bool :=
  let acc := byteField bs 14 2
  (⟨acc % 4, byteField bs 0 8, byteField bs 8 6⟩, decide (4 ≤ acc) || decide (acc % 4 = 0))

def laneBytes (c : Card) : Nat := roundUp (128 * c.lslots) 1024
/-- Bytes of a group frame without and with its hidden spill space. -/
def groupBytes (c : Card) : Nat := roundUp (roundUp (4 * max c.gslots 2) 128 + 2048) 1024
def blockBytes (c : Card) : Nat := roundUp (4 * c.bwords + 4) 1024

/-- Bytes of the unified store that a block takes on its core, the share included. -/
def cardStore (c : Card) : Nat := c.groups * (laneBytes c + groupBytes c) + blockBytes c + 1024 * c.scratch + 1024 * c.cshare

/-- A field outside its range, a misaligned address, or a block that fits no empty core (R136, R137). -/
def cardRange (c : Card) (cores : Nat) : Bool :=
  decide (c.entry % 8 ≠ 0) || decide (c.blocks = 0) || decide (0xFFFFFFFE < c.blocks) || decide (c.groups = 0) || decide (32 < c.groups)
    || decide (c.lslots < 8) || decide (240 < c.lslots) || decide (c.lslots % 8 ≠ 0) || decide (128 < c.gslots) || decide (128 < c.acct)
    || decide (256 < c.bwords) || decide (256 < c.cwords) || decide (1472 < c.scratch) || decide (256 < c.cshare) || decide (3 < c.prio)
    || (decide (c.place = 1) && decide (cores ≤ c.pincore)) || decide (c.handler % 8 ≠ 0) || decide (c.msgtab % 8 ≠ 0)
    || decide (c.foot % 16 ≠ 0) || decide (8 < c.footn) || decide (1472 * 1024 < cardStore c)

/-- What a node to be submitted is. -/
structure NodeReq where
  kind : NKind
  tag : Nat
  regions : List Span
deriving Inhabited

/-- Reads and checks a launch card: the node, or the status that refuses it, 1 before 2 (R94, R137). Nothing is read at a misaligned
address (DEDUCED, log 85). -/
def State.readCard (s : State) (p : Part) (va : Nat) : Except Nat NodeReq :=
  match (if va % 128 = 0 then s.graphRead p va 128 else none) with
  | none => .error 2
  | some bs =>
    let c := cardOf bs
    if c.rsv = true ∨ 1 < c.place then .error 1
    else
      match (if c.footn = 0 then some [] else if 8 < c.footn ∨ c.foot % 16 ≠ 0 then none else s.graphRead p c.foot (16 * c.footn)) with
      | none => .error 2
      | some fs =>
        let es := (List.range c.footn).map fun i => spanOf ((fs.drop (16 * i)).take 16)
        if es.any (·.2) then .error 1
        else if cardRange c (s.logical p).length = true then .error 2
        else
          let foot := (es.map (·.1)).filter fun e => decide (e.len ≠ 0)
          .ok { kind := .launch c foot, tag := c.tag, regions := foot }

/-- Reads and checks a copy descriptor in memory (R141, R331, R332). -/
def State.readCopy (s : State) (p : Part) (va tag : Nat) : Except Nat NodeReq :=
  match (if va % 16 = 0 then s.graphRead p va 40 else none) with
  | none => .error 2
  | some bs =>
    let d := bytesToWords bs
    if copyStatus d ≠ 0 then .error (copyStatus d)
    else .ok { kind := .copy d, tag := tag, regions := copySpans (copyD d) }

/-- Reads and checks a near-bank descriptor in memory (R141, R333). -/
def State.readNbk (s : State) (p : Part) (va tag : Nat) : Except Nat NodeReq :=
  match (if va % 16 = 0 then s.graphRead p va 32 else none) with
  | none => .error 2
  | some bs =>
    let d := bytesToWords bs
    let code := dw d 6
    if 4 < code ∨ dw d 7 ≠ 0 then .error 1
    else if nbkStatus code (d.take 6) ≠ 0 then .error (nbkStatus code (d.take 6))
    else .ok { kind := .nbk code (d.take 6), tag := tag, regions := s.nbkSpans p code (d.take 6) }

/-- A node of kind 1, 2 or 3 at an address (R141). A launch takes its tag from its card. -/
def State.readNode (s : State) (p : Part) (kind va tag : Nat) : Except Nat NodeReq :=
  match kind with
  | 1 => if tag ≠ 0 then .error 1 else s.readCard p va
  | 2 => s.readCopy p va tag
  | 3 => s.readNbk p va tag
  | _ => .error 1

/-- What reading a node of kind 1, 2 or 3 fills: its card with the footprint list, or its descriptor. -/
def State.fillNode (s : State) (p : Part) (kind va : Nat) : State :=
  if kind = 1 then
    if va % 128 ≠ 0 then s
    else
      let s := s.graphFill p va 128
      match (s.graphRead p va 128).map cardOf with
      | some c => if 8 < c.footn ∨ c.foot % 16 ≠ 0 then s else s.graphFill p c.foot (16 * c.footn)
      | none => s
  else if va % 16 ≠ 0 then s
  else s.graphFill p va (if kind = 2 then 40 else if kind = 3 then 32 else 0)

/-! ## Submission (R139) -/

/-- The bytes that two regions share. -/
def Span.common (a b : Span) : Option Span :=
  let lo := max a.base b.base
  let hi := min (a.base + a.len) (b.base + b.len)
  if lo < hi then some { acc := 3, base := lo, len := hi - lo } else none

/-- An edge joins M to N: two regions that share a byte, one of them written (DEDUCED, log 51). -/
def joined (m n : List Span) : Bool := m.any fun a => n.any fun b => a.meets b

/-- The bytes that the edge from M to N carries: those of all overlapping pairs, whatever kinds they are
(DEDUCED, log 51). -/
def carried (m n : List Span) : List Span := if joined m n then m.flatMap fun a => n.filterMap fun b => a.common b else []

/-- Room in the window for `n` more nodes. -/
def State.windowRoom (s : State) (part n : Nat) : Bool := decide ((s.liveNodes part).length + n ≤ 256)

/-- A node enters the window. `anc` holds its submitter and that one's ancestors. -/
def State.submit (s : State) (part : Nat) (r : NodeReq) (anc : List Nat) (gc : VClock) (hw : Nat) (cmd : Option CmdHdr) (tt : Option Nat) : Nat × State :=
  let (nid, s) := s.fresh
  let preds := (s.liveNodes part).filterMap fun m =>
    if anc.contains m.nid then none
    else match carried m.regions r.regions with
      | [] => none
      | es => some (m.nid, es)
  (nid, { s with nodes := s.nodes ++ [{ nid := nid, part := part, order := nid, kind := r.kind, tag := r.tag, regions := r.regions, preds := preds
                                        carried := preds.flatMap (·.2), late := joined (((s.part? part).map Part.past).getD []) r.regions
                                        ancestors := anc, started := false, runs := 0, writers := [], result := none, byTag := false, cmd := cmd, tt := tt, cap := none
                                        gc := gc, hw := hw }] })

/-- A group's grid's node, with that node's ancestors. -/
def State.lineage (s : State) (g : Group) : List Nat :=
  match s.grid? g.grid with
  | none => []
  | some x => x.nid :: x.anc

/-- Submits one node of a group: the value that its lane receives (R336). A LOAD_CODE that has completed comes before it (R100). -/
def State.submitFor (s : State) (g : Group) (kind va tag : Nat) : Nat × State :=
  let p := (s.part? g.part).getD default
  let s := s.fillNode p kind va
  match s.readNode p kind va tag with
  | .error _ => (1, s)
  | .ok r =>
    if s.windowRoom g.part 1 then (0, (s.submit g.part r (s.lineage g) (g.mm.gc.join p.hostGc) g.mm.hwAfter none none).2)
    else (2, s)

/-- Completes `spawn` or `node` with the lanes' values (DEDUCED, log 52). -/
def Ctx.submitted (x : Ctx) (r : State × List (Nat × Nat)) : Eff :=
  let (oid, s) := x.issueOp r.1 x.f.dst (.job 0)
  .done (s.completeOp oid (r.2.map fun e => (e.1, words1 (BitVec.ofNat 32 e.2))) (r.2.any fun e => decide (e.2 ≠ 0)))

/-- `spawn` (R165, R336): one launch for each active lane; with G = 1 one launch, whose value every active lane receives. -/
def execSpawn (f : Fld) (s : State) : Out' :=
  .next (runLanes (.spawn f) (fun x =>
    x.submitted (x.units.foldl (fun (r : State × List (Nat × Nat)) l =>
      let v := r.1.submitFor x.g 1 (x.rdA 2 l).toNat 0
      (v.2, r.2 ++ (if f.g then x.lanes else [l]).map fun l => (l, v.1))) (x.s, []))) s)

/-- `node` (R336): one node for the split. -/
def execNode (f : Fld) (s : State) : Out' :=
  .next (runLanes (.node f) (fun x =>
    let l := lowest x.act
    let t := if f.i then ((immFor 2 f).setWidth 32 : Word).toNat else (x.slot f.sb 0 l).toNat
    let kind := f.mod.toNat % 4
    let v := x.s.submitFor x.g kind (x.val f.sa 2 l).toNat (if kind = 1 then t else t % 65536)
    x.submitted (v.2, x.lanes.map fun l => (l, v.1))) s)

/-! ## The time table's launches (R117) -/

/-- Submits an entry's launch; a card that is refused launches nothing (DEDUCED, log 57). -/
def State.ttSubmit (s : State) (part entry card : Nat) : State :=
  match s.part? part with
  | none => s
  | some p =>
    let s := s.fillNode p 1 card
    match s.readCard p card with
    | .error _ => s
    | .ok r =>
      let (nid, s) := s.submit part r [] p.hostGc 0 none (some entry)
      s.updPart part fun p => { p with tt := { p.tt with live := (entry, nid) :: p.tt.live } }

/-- An entry's pending launch is submitted once its previous one has completed and the window has room (R117). -/
def State.ttNext (s : State) (part entry : Nat) : State :=
  match s.part? part with
  | none => s
  | some p =>
    if (assoc entry p.tt.live).isSome || !(s.windowRoom part 1) then s
    else match assoc entry p.tt.abort, assoc entry p.tt.deferred with
      | some card, _ =>
        (s.updPart part fun p => { p with tt := { p.tt with abort := p.tt.abort.filter fun e => decide (e.1 ≠ entry) } }).ttSubmit part entry card
      | none, some card =>
        (s.updPart part fun p => { p with tt := { p.tt with deferred := p.tt.deferred.filter fun e => decide (e.1 ≠ entry) } }).ttSubmit part entry card
      | none, none => s

/-- An entry's launch has completed: one that waits for it is submitted. -/
def State.ttEnded (s : State) (part entry nid : Nat) : State :=
  (s.updPart part fun p => { p with tt := { p.tt with live := p.tt.live.filter fun e => decide (e ≠ (entry, nid)) } }).ttNext part entry

/-- The window has room again: the pending launches that waited for it are submitted. -/
def State.ttRoom (s : State) (part : Nat) : State :=
  match s.part? part with
  | none => s
  | some p => ((p.tt.abort ++ p.tt.deferred).map Prod.fst).foldl (fun s e => s.ttNext part e) s

/-! ## Ends of nodes (R101, R102, R142) -/

/-- The node leaves the window: its successors' counts fall, and its command completes. A launch of the time table that has not started
completes here. -/
def State.dropNode (s : State) (part nid : Nat) : State :=
  match s.node? part nid with
  | none => s
  | some n =>
    let prune : Node → Node := fun m => if m.part = part then { m with preds := m.preds.filter fun e => decide (e.1 ≠ nid) } else m
    let s := { s with nodes := (dropFirst (fun (m : Node) => decide (m.nid = nid) && decide (m.part = part)) s.nodes).map prune }
    let s := if n.started then s.updPart part fun p => { p with past := p.past ++ n.regions.filter fun r => !(p.past.contains r) } else s
    let s := match n.cmd with
      | some h => s.answer h (n.result.getD 0) .none
      | none => s
    let s := match n.tt with
      | some e => s.ttEnded part e nid
      | none => s
    s.ttRoom part

/-- Ends a node for a kill or through its tag: one that has not started is removed; a grid is killed; a job that has not
started is withdrawn (R24, R101, R142, R332). -/
def State.endNode (s : State) (n : Node) (reason status : Nat) : State :=
  let s := s.updNode n.part n.nid fun m => { m with result := m.result.or (some status), byTag := true, cap := none }
  let s := s.settlePressure n.part
  if n.started = false then s.dropNode n.part n.nid
  else
    match n.kind with
    | .launch .. => s.killGrid n.runs reason
    | _ =>
      match s.job? n.runs with
      | some j =>
        if j.started then s
        else
          let s := s.refundJob j
          (({ s with jobs := s.jobs.filter fun e => decide (e.jid ≠ j.jid) } : State).dropLeases j.jid)
      | none => s

/-- Ends every live node that carries a tag. -/
def State.killTag (s : State) (part tag reason status : Nat) : State :=
  ((s.liveNodes part).filter fun n => decide (n.tag = tag) && n.result.isNone).foldl (fun s n => s.endNode n reason status) s

/-! ## Starts of nodes (R139, R140, R332) -/

/-- Some die has still to apply a write to one of the regions; `mine` says whose count. -/
def State.unapplied (s : State) (part : Nat) (mine : Nat → Bool) (rs : List Span) : Bool :=
  s.applies.any fun a => decide (a.part = part) && mine a.src && a.bytes.any fun c => rs.any fun r => decide (r.base ≤ c.1) && decide (c.1 < r.base + r.len)

/-- A copy or near-bank node becomes a job of the leader Distaff's quadrant (R337). -/
def State.nodeJob (s : State) (p : Part) (n : Node) (kind : JKind) (wants pledges : List Nat) : State :=
  let (jid, s) := s.fresh
  let s := s.updNode n.part n.nid fun n => { n with started := true, runs := jid, writers := [jid] }
  s.enterJob { jid := jid, part := p.id, quad := p.quads.headD 0, issue := 0, core := nodeCore, gid := 0, grid := 0, bidx := 0, copy := 0, oid := 0
               seq := 0, nid := n.nid, kind := kind, spans := n.regions, tile := none, prio := 0, passed := 0, granted := true, wants := wants
               started := false, fail := false, pledges := pledges.map fun m => (m, 8), moving := [], gc := n.gc
               places := [], detour := p.regs.detour, redo := none, got := [], sent := [], clk := VClock.zero }

/-- Every page of partition memory in a region is mapped. -/
def State.spanMapped (s : State) (p : Part) (r : Span) : Bool :=
  decide (r.len = 0) || decide (2 ^ 48 ≤ r.base) || (List.range ((r.base + r.len - 1) / 65536 - r.base / 65536 + 1)).all fun i =>
    (s.page? p.id (r.base / 65536 + i)).isSome

/-- The node's pledge through the governor of its destination's first home quadrant; a denial parks it (R332) (DEDUCED, log 55). -/
def State.nodePledge (s : State) (n : Node) (need : Nat) (go : State → State) : State :=
  let a := ((s.part? n.part).map Part.avail).getD 0
  if (need : Int) ≤ a then go (s.addP n.part need 0)
  else
    let s := s.updPart n.part fun p => { p with cnt := { p.cnt with faults := p.cnt.faults + 1 } }
    let no := ((s.part? n.part).map fun p => p.cnt.faults.toNat).getD 0
    (s.updNode n.part n.nid fun n => { n with cap := some ⟨no, need, need, s.dev.up⟩ }).hardPressure n.part

def State.failNode (s : State) (n : Node) : State := s.updNode n.part n.nid fun n => { n with cap := none, started := true, result := some 10 }

/-- A copy or near-bank node starts: the cells it pledges, and what it does once they are pledged. None when it cannot run: an unmapped
page, a window that is not open, a command that its stack refuses. The governor that leases a copy of more than 65,536 bytes is that of the
leader Distaff's quadrant (DESIGN CHOICE, log 98). -/
def State.nodeRun (s : State) (p : Part) (n : Node) : Option (Nat × (State → State)) :=
  match n.kind with
  | .launch .. => none
  | .copy d =>
    let c := copyD d
    let mbs := copyBlocks c
    if copyFarOk p c = false ∨ n.regions.all (s.spanMapped p) = false then none
    else some (8 * mbs.length, fun s => s.nodeJob p n (.cpy d) (if 65536 < c.rowb * c.rows then [p.quads.headD 0] else []) mbs)
  | .nbk code d =>
    if s.nbkRefused p 0 code d = true ∨ n.regions.all (s.spanMapped p) = false then none
    else
      let mbs := if code = 2 then spanBlocks (dw2 d 0) (4 * dw d 4) else []
      some (8 * mbs.length, fun s =>
        let (d', s) := s.nbkIssue p code d
        s.nodeJob p n (.nbk code d') (if code = 1 then s.nbkQuads p 1 d else []) mbs)

/-- A sweep grants a waiting node its pledge, which starts it (R332). -/
def State.startGranted (s : State) (part nid g : Nat) : State :=
  match s.node? part nid, s.part? part with
  | some n, some p =>
    match s.nodeRun p n with
    | some (_, go) => go ((s.updNode part nid fun n => { n with cap := none }).addP part g 0)
    | none => s.failNode n
  | _, _ => s

/-- The copy nodes that a sweep leaves waiting wait from the event that its denial raises (R332) (DEDUCED, log 55). -/
def State.waitOn (s : State) (part : Nat) : State :=
  (({ s with nodes := s.nodes.map fun n => if n.part = part then { n with cap := n.cap.map fun c => { c with since := s.dev.up } } else n } : State)).hardPressure part

/-- The governors retry the parked refills in fault order until the first denial, which raises hard pressure again; a grant starts a copy
node (R89, R332). -/
def State.sweepFrom (part : Nat) : List (Nat × Nat × Nat ⊕ Nat × Nat × Nat) → State → State
  | [], s => s
  | e :: es, s =>
    let a := ((s.part? part).map Part.avail).getD 0
    match e with
    | .inl (_, g, gid) =>
      if (g : Int) ≤ a then
        let core := ((s.grp? gid).map Group.core).getD 0
        let was := (s.grp? gid).bind fun x => x.cap.bind fun c => (match x.place, x.stop with
          | .parked st, _ => some st
          | _, st => st).map fun st => (c, st)
        let s := (s.updCore core fun k => { k with credit := k.credit + g }).addP part g 0
        let s := (s.updGrp gid fun x => ({ x with cap := none, stop := none } : Group).goOn).resume gid
        let s := match was with | some (c, st) => s.awaitAgain gid c st | none => s
        State.sweepFrom part es (s.settlePressure part)
      else s.waitOn part
    | .inr (_, g, nid) =>
      if (g : Int) ≤ a then
        State.sweepFrom part es ((s.startGranted part nid g).settlePressure part)
      else s.waitOn part

def State.sweep (s : State) (part : Nat) : State := State.sweepFrom part (s.faultOrder part) s

/-- An acknowledgement (R89): nonzero retries, zero delivers; with nothing parked and no event outstanding, no effect. -/
def State.balloonAck (s : State) (part cells : Nat) : State :=
  let some' := !(s.faultOrder part).isEmpty
  if some' then (if cells = 0 then s.deliverCapacity part else s.sweep part) else s

/-- NODE_START (R139-R141): the predecessor count is zero; where a producer left the window before, every write to the node's regions has
been applied (DEDUCED, log 54). A copy or near-bank node on an unmapped page ends with error. -/
def execNodeStart (part nid : Nat) (s : State) : Out' :=
  .next (match s.node? part nid, s.part? part with
    | some n, some p =>
      if n.started || n.result.isSome || !n.preds.isEmpty || n.cap.isSome || (n.late && s.unapplied part (fun _ => true) n.regions) then s
      else
        match n.kind with
        | .launch c foot =>
          let (gid, s) := s.fresh
          let s := s.updNode part nid fun n => { n with started := true, runs := gid }
          { s with grids := s.grids ++ [{ id := gid, part := part, nid := nid, card := c, foot := foot, next := 0, order := gid, kill := none
                                          lastRet := s.dev.up, spins := [], clusters := [], gids := [], ended := false, anc := n.ancestors }] }
        | _ => match s.nodeRun p n with
          | some (need, go) => s.nodePledge n need go
          | none => s.failNode n
    | _, _ => s)

/-- NODE_END (R140, R142, R357): its work is over, and every die has applied the writes of its groups and jobs to the regions its edges
carry (DEDUCED, log 54); a failed node ends its tag. -/
def execNodeEnd (part nid : Nat) (s : State) : Out' :=
  .next (match s.node? part nid with
    | none => s
    | some n =>
      let busy := match n.kind with
        | .launch .. => n.started && ((s.grid? n.runs).map Grid.ended) = some false
        | _ => s.jobs.any fun j => decide (j.nid = nid)
      let edges := (s.liveNodes part).flatMap fun m => (m.preds.filter fun e => decide (e.1 = nid)).flatMap (·.2)
      match n.result with
      | none => s
      | some r =>
        if busy || s.unapplied part n.writers.contains edges then s
        else
          let s := s.dropNode part nid
          if r = 10 ∧ n.byTag = false ∧ n.tag ≠ 0 then s.killTag part n.tag 5 10 else s)

/-! ## Ends of grids (R145, R152, R303) -/

/-- The frames that a grid opened with `fopen` and still holds retire (R303). -/
def State.retireAll (s : State) (grid : Nat) : State :=
  (s.frames.filter fun r => r.opened && decide (r.grid = grid)).foldl (fun s r =>
    s.retireFrame (if r.depth = 2 then r.place else (s.clusterCores r.place).headD 0) r.depth r.off) s

/-- The status that a kill's reason gives the grid's node (R142). -/
def killStatus (reason : Nat) : Nat := if reason = 0 ∨ reason = 4 then 9 else 10

/-- A group of the grid that does not keep it from ending: a handler group or a drained group, unless the grid is killed (R152,
R350). -/
def State.runsOn (s : State) (g : Grid) (gid : Nat) : Bool :=
  g.kill.isNone && s.groups.any fun x => decide (x.gid = gid) && decide (x.kind ≠ .normal)

/-- A kill ends the tag of the grid's node only when it is for a fatal fault or by the watchdog (R142). -/
def endsTag (reason : Nat) : Bool := decide (reason = 1) || decide (reason = 2)

/-- GRID_END (R101, R140, R145, R303, R350): its last group has exited, every store of its groups is accepted and every job they issued
is over, those of handler and drained groups that run on among them. A launch of the time table completes (R117). KILL_DONE waits for a place
(R111). -/
def execGridEnd (grid : Nat) (s : State) : Out' :=
  .next (match s.grid? grid with
    | none => s
    | some g =>
      if g.ended || decide (g.next < g.card.blocks) || (s.groups.any fun x => decide (x.grid = grid) && !(s.runsOn g x.gid))
        || (s.blocks.any fun b => decide (b.grid = grid))
        || (s.jobs.any fun j => decide (j.grid = grid) && decide (j.nid = 0))
        || (s.writes.any fun w => g.gids.contains w.gid) || (g.kill.isSome && !(s.evRoom g.part 1)) then s
      else
        let s := s.retireAll grid
        let clean : Core → Core := fun k => { k with
          bufReq := k.bufReq.filter fun p => decide (p.grid ≠ grid), bufRep := k.bufRep.filter fun p => decide (p.grid ≠ grid)
          teams := k.teams.filter fun t => decide (t.grid ≠ grid) || !t.members.isEmpty }
        let s : State := { s with cores := s.cores.map clean }
        let s := (s.updGrid grid fun x => { x with ended := true }).forgetGrid grid
        let entry := (s.node? g.part g.nid).bind Node.tt
        let s := s.updNode g.part g.nid fun n => { n with
          result := n.result.or (some (match g.kill with | some r => killStatus r | none => 0))
          byTag := n.byTag || g.kill.any fun r => !(endsTag r), tt := none, writers := g.gids }
        let s := match g.kill with
          | some r => s.raise g.part (.killDone g.card.tag grid r)
          | none => s
        match entry with
        | some e => s.ttEnded g.part e g.nid
        | none => s)

end Sys2Proof.Machine
end

