-- ==== Sys2Proof/Machine/Whorl.lean ====
section
/-!
DEFINITION. The Whorl: the start of a clause (R146, R202-R204, R212, R363), drained groups (R148,
R301), and new groups.
-/

namespace Sys2Proof.Machine

/-! ## New groups -/

/-- Group slots of a core in use, out of 48 (R143); the reply context is not one of them (R38). -/
def State.slotsUsed (s : State) (core : Nat) : Nat :=
  (s.groups.filter fun g => decide (g.core = core) && g.saved.isNone && decide (g.kind ≠ .reply)).length

/-- A park id unique among the partition's live groups, and none that an SVC_DONE for a killed group may still name (R103, R178): the one
proposed, if it is, else the lowest. -/
def State.parkId (s : State) (part : Nat) (cand : Word) : Word :=
  let used := (s.groups.filter fun g => decide (g.part = part)).map Group.park ++ ((s.part? part).map Part.killedSvc).getD []
  if used.contains cand then
    (((List.range (used.length + 1)).map (BitVec.ofNat 32)).find? fun w => !(used.contains w)).getD cand
  else cand

/-- A group joins its core, which binds it to a port (R146), and its grid. -/
def State.addGroup (s : State) (g : Group) : State :=
  let first := !(s.groups.any fun x => decide (x.grid = g.grid))
  let s := { s with groups := s.groups ++ [g.bound (s.bindPort g.core)] }
  s.updGrid g.grid fun x => { x with gids := g.gid :: x.gids, lastRet := if first then s.dev.up else x.lastRet }

/-- Takes a run of the store for a frame, which reads zero (R145). -/
def State.takeRun (s : State) (core base len size : Nat) (kind : RegionKind) (grid bidx : Nat) : State :=
  s.updCore core fun k => { k with
    store := k.store.clear base len
    regions := k.regions ++ [{ base := base, len := len, size := size, kind := kind, grid := grid, bidx := bidx }] }

/-! ## The start of a clause -/

/-- The group stops at a clause header because of the memory fault reported first (R56, R57, R363) (DEDUCED, log 30). -/
def State.stopHeader (s : State) (g : Group) (p : Split) : State :=
  match g.mm.fault with
  | some (code, m, a) => s.decideStop g.gid { why := .page, sid := p.sid, code := code, tlm := m, taddr := a, tpc := p.pc, clause := none }
  | none => s

/-- A store fault has been reported: the group stops at its next clause boundary (R57). -/
def Group.storeFault (g : Group) : Bool :=
  g.mm.fault.isSome && (!g.mm.replay.isEmpty || g.mm.prot.isSome || decide (g.mm.fault.map Prod.fst = some 0x11))

/-- A load that is held for a page fault, or a read that only the verdict lets go on, is counted on a flag that WAIT names (R56). -/
def State.heldNamed (s : State) (g : Group) (wait : BitVec 12) : Bool :=
  g.ops.any fun o => decide (o.flag < 12) && wait.getLsbD o.flag && (s.heldUp g).part.contains o.oid

/-- A header is checked, then its WAIT is tested; the jobs that WAIT names are acquired (R337 rule 4), and a new group's first
clause waits for what its start carries (R338). -/
def State.startClause (s : State) (g : Group) (p : Split) : State :=
  if g.mm.fresh && !(g.mm.gc.le (s.die! (dieOf g.core)).av) then s
  else
    let s := s.fetchFill g p.pc
    match s.fetch g p.pc with
  | .word w =>
    match hdrFault w with
    | some code => s.raiseTrap g.gid p.sid code (amask g p) 0 p.pc none
    | none =>
      let wait := hdrWait w
      if s.heldNamed g wait then s.stopHeader g p
      else if g.flagsClear wait = false then s
      else
        let named : Nat × VClock → Bool := fun e => decide (e.1 < 12) && wait.getLsbD e.1
        let js := g.mm.jobs.filter named
        let gc := js.foldl (fun c e => c.join e.2) g.mm.gc
        let acq := g.mm.fresh || !js.isEmpty
        if acq && !(gc.le (s.die! (dieOf g.core)).av) then s
        else
          let s := if acq then s.clearL1 g.core else s
          s.updGrp g.gid fun g => { (g.updSplit p.sid fun p => { p with pc := p.pc + 8, clause := some ⟨p.pc, w⟩ }) with
            mm := { g.mm with gc := gc, fresh := false, jobs := g.mm.jobs.filter fun e => !(named e) } }
  | r => s.fetchFault g p r

/-- CLAUSE_START (R146, R168, R202-R204): a split that stands at a clause boundary. -/
def execClauseStart (gid sid : Nat) (s : State) : Out' :=
  .next (match s.grp? gid with
    | none => s
    | some g =>
      match g.split? sid with
      | none => s
      | some p =>
        if g.mayIssue sid = false ∨ p.clause.isSome then s
        else if s.killed g then s.exitKilled g
        else
          match p.wait with
          | .callx send _ => s.enqueueAll gid sid send
          | .none =>
            if g.stop.isSome then s.settleStop gid
            else
            let s := s.updGrp gid fun g => g.arriveAll 400 sid
            match (s.grp? gid).bind fun g => (g.split? sid).map fun p => (g, p) with
            | none => s.after gid
            | some (g, p) =>
              if p.wait ≠ .none then s.after gid
              else if g.storeFault then s.stopHeader g p
              else s.startClause g p
          | _ => s.after gid)

/-! ## Drained groups (R148, R301) -/

/-- CALLEE_DRAIN: a fresh group takes up to 32 items with the same D2 and D3 from the fullest queue, oldest first; of several fullest ones from
the first (DESIGN CHOICE, log 116). -/
def execCalleeDrain (core laneBase groupBase : Nat) (park : Word) (s : State) : Out' :=
  let k := s.core! core
  let full := k.callee.foldl (fun (m : Option CalleeQueue) q => match m with
    | some b => if b.items.length < q.items.length then some q else m
    | none => some q) none
  .next (match full with
    | none => s
    | some q =>
      match q.items.head? with
      | none => s
      | some i0 =>
        match s.grp? i0.gid with
        | none => s
        | some caller =>
          match s.grid? caller.grid with
          | none => s
          | some gr =>
            let same : CalleeItem → Bool := fun i => decide (i.d2 = i0.d2) && decide (i.d3 = i0.d3)
              && decide ((s.grp? i.gid).map Group.grid = some caller.grid)
            let taken := (q.items.filter same).take 32
            if 48 ≤ s.slotsUsed core then s
            else
              match s.findStore core (laneBytes gr.card) laneBase with
              | none => s
              | some lb =>
                let (gid, s1) := s.fresh
                let s1 := s1.takeRun core lb (laneBytes gr.card) (128 * gr.card.lslots) (.lane gid) gr.id 0xFFFFFFFF
                match s1.findStore core (groupBytes gr.card) groupBase with
                | none => s
                | some gb =>
                  let s := s1.takeRun core gb (groupBytes gr.card) (4 * max gr.card.gslots 2) (.groupFrame gid) gr.id 0xFFFFFFFF
                  let fr : Frames := { lslots := gr.card.lslots, gslots := gr.card.gslots, lbase := lb, gbase := gb, d2 := i0.d2, d3 := i0.d3, shift := 0 }
                  let lanes := (List.range taken.length).zip taken
                  let g := Group.make gid gr.id gr.part core .drained caller.copy 0xFFFFFFFF 0 (s.parkId gr.part park) gid fr
                    (maskOf (lanes.map (·.1))) q.target
                  let s := s.addGroup { g with items := lanes }
                  let s := s.pokeStore core (lanes.flatMap fun e => laneCells g 0 e.1 e.2.words)
                  let s := s.pokeStore core (cellsAt gb (leBytes 8 gr.card.args.toNat))
                  let rest : CalleeQueue → CalleeQueue := fun c => { c with items := c.items.filter fun i => !(taken.contains i) }
                  s.updCore core fun k => { k with
                    callee := (k.callee.map fun c => if c.target = q.target then rest c else c).filter fun c => !c.items.isEmpty })

end Sys2Proof.Machine
end

