-- ==== Sys2Proof/Machine/Placement.lean ====
section
/-!
DEFINITION. The Distaff: placing blocks (R143-R145, R182), eviction and restore (R149-R151, R178), and the watchdog (R153).
-/

namespace Sys2Proof.Machine

/-! ## Room (R143, R144) -/

/-- Accumulator tiles of a core that resident blocks hold, out of 128. -/
def State.tilesUsed (s : State) (core : Nat) : Nat :=
  ((s.blocks.filter fun b => decide (b.core = core) && b.saved.isNone).map fun b =>
    match s.grid? b.grid with | some g => g.card.acct | none => 0).sum

/-- The cluster share can be `h` KiB on every present core of the cluster. -/
def State.shareOk (s : State) (cl h : Nat) : Bool :=
  decide (h ≤ 256) && (s.clusterCores cl).all fun c =>
    let k := s.core! c
    decide (k.taken + 1024 * h ≤ 1472 * 1024) && k.regions.all fun r => decide (r.base + r.len ≤ storeBytes - 1024 * h)

/-- Raises the cluster share; room newly added reads zero (R145). -/
def State.setShare (s : State) (cl h : Nat) : State :=
  (s.clusterCores cl).foldl (fun s c => s.updCore c fun k => { k with share := h }) s

/-- The cluster frame of a grid's block: none for CWORDS 0, the grid's own while it lives, else one in free room of the share,
which is raised when it has too little (R145) (DEDUCED, log 46). -/
def State.clusterFrame (s : State) (gr : Grid) (core bidx cand : Nat) : Option (Word × State) :=
  let cl := clusterOf core
  if gr.card.cwords = 0 then some (0, s)
  else
    match (assoc cl gr.clusters).filter fun h => s.live core gr.id h with
    | some h => some (h, s.addRef core h)
    | none =>
      let room := frameRoom 3 gr.card.cwords false
      let now := (s.core! core).share
      let try_ : Nat → Option (Nat × Nat) := fun h =>
        if s.shareOk cl h then ((s.setShare cl h).findShare core room cand).map fun b => (h, b) else none
      match ((List.range (257 - now)).map fun i => now + i).findSome? try_ with
      | none => none
      | some (h, b) =>
        let s := s.setShare cl h
        let (hd, s) := s.makeFrame core 3 b gr.card.cwords gr.id bidx false
        some (hd, s.updGrid gr.id fun x => { x with clusters := setAssoc cl hd x.clusters })

/-! ## Placing one copy of a block -/

/-- A group of a block: its lane frame and its group frame, with ARGS in L1.0 and L1.1. -/
def State.placeGroup (s : State) (gr : Grid) (bidx copy core i : Nat) (a : PlaceArgs) (d2 d3 : Word) : Option State :=
  let c := gr.card
  match s.findStore core (laneBytes c) (a.laneBases.getD i 0) with
  | none => none
  | some lb =>
    let (gid, s) := s.fresh
    let s := s.takeRun core lb (laneBytes c) (128 * c.lslots) (.lane gid) gr.id bidx
    match s.findStore core (groupBytes c) (a.groupBases.getD i 0) with
    | none => none
    | some gb =>
      let s := s.takeRun core gb (groupBytes c) (4 * max c.gslots 2) (.groupFrame gid) gr.id bidx
      let fr : Frames := { lslots := c.lslots, gslots := c.gslots, lbase := lb, gbase := gb, d2 := d2, d3 := d3, shift := 0 }
      let gc := ((s.node? gr.part gr.nid).map Node.gc).getD VClock.zero
      let hw := ((s.node? gr.part gr.nid).map Node.hw).getD 0
      let g := Group.make gid gr.id gr.part core .normal copy bidx i (s.parkId gr.part (a.parks.getD i 0)) gid fr (BitVec.allOnes 32) c.entry
      let s := s.addGroup { g with mm := { g.mm with gc := gc, hwAfter := hw, fresh := decide (gc ≠ VClock.zero) } }
      some (s.pokeStore core (cellsAt gb (leBytes 8 c.args.toNat)))

/-- Groups 0 .. n - 1. -/
def State.placeGroups (s : State) (gr : Grid) (bidx copy core : Nat) (a : PlaceArgs) (d2 d3 : Word) : Nat → Option State
  | 0 => some s
  | n + 1 => (s.placeGroups gr bidx copy core a d2 d3 n).bind fun s => s.placeGroup gr bidx copy core n a d2 d3

/-- The regions whose L1 lines a node drops where it is placed: those that its edges carry, and all of its own when a producer left the
window before it came (R140). -/
def Node.acquires (n : Node) : List Span := n.carried ++ if n.late then n.regions else []

/-- The L1 lines of regions are dropped on a core. -/
def State.dropRegions (s : State) (core : Nat) (rs : List Span) : State :=
  s.updCore core fun k => { k with l1 := k.l1.filter fun l => !(rs.any fun r => decide (r.base < 128 * l.line + 128) && decide (128 * l.line < r.base + r.len)) }

/-- Places one copy of a block on a core; none when it has no room there. -/
def State.placeCopy (s : State) (gr : Grid) (bidx copy core : Nat) (a : PlaceArgs) : Option State :=
  let c := gr.card
  let cl := clusterOf core
  let share := max (s.core! core).share c.cshare
  if 48 < s.slotsUsed core + c.groups ∨ 128 < s.tilesUsed core + c.acct ∨ s.shareOk cl share = false then none
  else
    match (s.setShare cl share).clusterFrame gr core bidx a.clusterOff with
    | none => none
    | some (d3, s) =>
      match s.findStore core (blockBytes c) a.blockBase with
      | none => none
      | some bb =>
        let (d2, s) := s.makeFrame core 2 bb c.bwords gr.id bidx false
        match (if c.scratch = 0 then some 0 else s.findStore core (1024 * c.scratch) a.scratchBase) with
        | none => none
        | some sb =>
          let s := if c.scratch = 0 then s else s.takeRun core sb (1024 * c.scratch) (1024 * c.scratch) .scratch gr.id bidx
          let s := s.dropRegions core (((s.node? gr.part gr.nid).map Node.acquires).getD [])
          let s := { s with blocks := s.blocks ++ [{ grid := gr.id, bidx := bidx, copy := copy, core := core, scratchBase := sb, d2 := d2, d3 := d3
                                                     acc := [], accPoison := [], pair := none, saved := none : Block }] }
          s.placeGroups gr bidx copy core a d2 d3 c.groups

/-! ## Where a block goes (R145, R182) -/

/-- The logical cores in deal order from one of them. -/
def dealFrom (cores : List Nat) (i : Nat) : List Nat := (cores.drop i) ++ cores.take i

/-- Places a block with its primary on a core. The twin of a paired block goes on the first core of another cluster, in deal
order from the primary's, that has room; the block starts only with both. -/
def State.placeOn (s : State) (p : Part) (gr : Grid) (core : Nat) (a : PlaceArgs) (twin : Option PlaceArgs) : Option State :=
  let bidx := gr.next
  match s.placeCopy gr bidx 0 core a with
  | none => none
  | some s =>
    let done : State → State := fun s => s.updGrid gr.id fun x => { x with next := x.next + 1 }
    if gr.card.flags % 2 = 0 then some (done s)
    else
      let cores := s.logical p
      let order := (dealFrom cores (s.lcoreOf p core)).filter fun c => decide (clusterOf c ≠ clusterOf core)
      let gr := (s.grid? gr.id).getD gr
      match order.findSome? fun c => (s.placeCopy gr bidx 1 c (twin.getD a)).map fun t => (c, t) with
      | none => none
      | some (c, s) =>
        match s.block? gr.id bidx 0 with
        | none => none
        | some b =>
          let n0 := s.snapOf b 0 core
          let n1 := s.snapOf b 1 c
          let pr : Pair := { core1 := c, held0 := [], held1 := [], snap0 := n0, snap1 := n1, again := false, sync := false, bad := false, took := [] }
          some (done (s.updBlock gr.id bidx 0 fun b => { b with pair := some pr }))

/-- The cores that a grid's next block may take, in the order in which they are tried. -/
def State.tryCores (s : State) (p : Part) (gr : Grid) : List Nat :=
  let cores := s.logical p
  if gr.card.place = 1 then (cores[gr.card.pincore]?).toList else dealFrom cores (p.cursor % max cores.length 1)

/-- The first core with room for a grid's next block, with the state after its placement. -/
def State.firstRoom (s : State) (p : Part) (gr : Grid) (a : PlaceArgs) (twin : Option PlaceArgs) : Option (Nat × State) :=
  (s.tryCores p gr).findSome? fun c => (s.placeOn p gr c a twin).map fun t => (c, t)

def PlaceArgs.none : PlaceArgs := { laneBases := [], groupBases := [], blockBase := 0, scratchBase := 0, clusterOff := 0, parks := [] }

/-- A grid that has started and is not fully placed. -/
def Grid.unplaced (g : Grid) : Bool := g.kill.isNone && decide (g.next < g.card.blocks)

/-! ## Restore (R150, R178) -/

def Place.no? : Place → Option Nat
  | .evicted n => some n
  | _ => none

/-- Regions can go back to their former places. -/
def Core.roomFor (k : Core) (rs : List Region) : Bool :=
  let top := storeBytes - 1024 * k.share
  decide (k.taken + (rs.map Region.len).sum + 1024 * k.share ≤ 1472 * 1024)
    && rs.all fun r => decide (r.base + r.len ≤ top) && k.regions.all fun q => decide (q.base + q.len ≤ r.base) || decide (r.base + r.len ≤ q.base)

def State.putBack (s : State) (core : Nat) (v : Saved) : State :=
  s.updCore core fun k => { k with
    regions := k.regions ++ v.regions
    store := v.regions.foldl (fun w r =>
      let w := w.clear r.base r.len
      let x := v.view.slice r.base r.len
      { mem := Mem.writeCells w.mem x.mem, marks := x.marks ++ w.marks }) k.store }

/-- A group goes back to its core with its frames at their former addresses, its block's room first when that was given up;
none without room. -/
def State.restore (s : State) (g : Group) : Option State :=
  match g.saved with
  | none => some (s.updGrp g.gid fun g => { g.bound (s.bindPort g.core) with evFor := none })
  | some v =>
    let b := s.block? g.grid g.bidx g.copy
    let bs := (b.bind Block.saved)
    let rs := v.regions ++ (bs.map Saved.regions).getD []
    let tiles := if bs.isSome then ((s.grid? g.grid).map fun x => x.card.acct).getD 0 else 0
    if 48 ≤ s.slotsUsed g.core ∨ 128 < s.tilesUsed g.core + tiles ∨ (s.core! g.core).roomFor rs = false then none
    else
      let s := match b, bs with
        | some b, some w =>
          let s := s.putBack b.core w
          let frame := w.regions.any fun (r : Region) => decide (r.kind = RegionKind.blockFrame)
          let s : State := if frame then { s with frames := s.frames ++
            [{ depth := 2, place := b.core, off := hOff b.d2, grid := b.grid, opened := false, bidx := b.bidx, shut := false : FrameRec }] } else s
          s.updBlock b.grid b.bidx b.copy fun b => { b with saved := none }
        | _, _ => s
      some ((s.putBack g.core v).updGrp g.gid fun g => { g.bound (s.bindPort g.core) with saved := none, evFor := none })

/-- The evicted groups of a core that no earlier eviction precedes. -/
def State.nextRestore (s : State) (core : Nat) : Option Group :=
  (sortBy (fun (g : Group) => (g.place.no?).getD 0) (s.groups.filter fun g => decide (g.core = core) && g.place.no?.isSome)).head?

/-! ## Who makes room (R144, R149, R151) -/

/-- The groups of some cores that may make room for PRIO p, in the order in which they go: those already parked, demoted ones,
then the lowest PRIO, then the youngest. A restore takes demoted ones alone (DEDUCED, log 53). -/
def State.victims (s : State) (part : Nat) (cores : List Nat) (prio : Option Nat) : List Group :=
  let prioOf : Group → Nat := fun g => ((s.grid? g.grid).map fun x => x.card.prio).getD 0
  let parked : Group → Bool := fun g => match g.place with | .parked _ => true | _ => false
  let ok := s.groups.filter fun g =>
    decide (g.part = part) && cores.contains g.core && decide (g.kind = .normal) && g.saved.isNone && g.stop.isNone
      && (parked g || (decide (g.place = .resident) && (g.mm.demoted || match prio with | some p => decide (prioOf g < p) | none => false)))
  let youngest := (sortBy Group.age ok).reverse
  let rank : Group → Nat := fun g => if parked g then 0 else if g.mm.demoted then 1 else 2 + prioOf g
  sortBy rank youngest

/-- The choices of `n` elements of a list, earlier elements first. -/
def choices {α : Type} : Nat → List α → List (List α)
  | 0, _ => [[]]
  | _ + 1, [] => []
  | n + 1, x :: xs => (choices n xs).map (x :: ·) ++ choices (n + 1) xs

/-- The fewest groups whose room meets a need, and of those the first in the order in which they go. -/
def State.fewest (s : State) (need : State → Bool) (gs : List Group) : List Nat :=
  (((List.range gs.length).flatMap fun n => choices (n + 1) gs).find? fun c => need (c.foldl (fun s g => s.giveUp g.gid) s)).getD []
    |>.map Group.gid

def Group.leaving (g : Group) : Bool := g.saved.isNone && decide (g.stop.map Stop.why = some .evict)

/-- The state once the groups that are being evicted have gone. -/
def State.emptied (s : State) : State := (s.groups.filter Group.leaving).foldl (fun s g => s.giveUp g.gid) s

/-- The cores whose groups can make room for a grid's block on a core: its own; those of its cluster, whose share may have to rise
(R144); and for a paired block the partition's, where its twin goes (DEDUCED, log 53). -/
def State.makers (s : State) (p : Part) (gr : Grid) (core : Nat) : List Nat :=
  if gr.card.flags % 2 = 1 then s.logical p else s.clusterCores (clusterOf core)

/-- The groups that must go for a grid's block to find room on a core (R149). -/
def State.evictFor (s : State) (p : Part) (gr : Grid) (core : Nat) : List Nat :=
  let need : State → Bool := fun s => (s.placeOn p gr core PlaceArgs.none none).isSome
  let t := s.emptied
  if gr.unplaced = false ∨ need t = true ∨ (s.tryCores p gr).contains core = false then []
  else t.fewest need (t.victims p.id (s.makers p gr core) (some gr.card.prio))

/-- The groups that must go from the partition for a grid's block that has no room on any core, those on their way among them. The core
that is pre-empted is the first, in the order in which they are tried, on which eviction makes room (DESIGN CHOICE, log 115). -/
def State.evictsFor (s : State) (p : Part) (gr : Grid) : List Nat :=
  if gr.unplaced = false ∨ (s.firstRoom p gr PlaceArgs.none none).isSome then []
  else ((s.groups.filter fun g => g.leaving && decide (g.evFor = some (gr.id, gr.next))).map Group.gid)
    ++ if (s.tryCores p gr).any fun c => (s.emptied.placeOn p gr c PlaceArgs.none none).isSome then []
      else (((s.tryCores p gr).map (s.evictFor p gr)).find? fun c => !c.isEmpty).getD []

/-- A group evicted for a block stands back until that block is placed, while its grid still makes room for it, or has it (R149, R151)
(DEDUCED, log 26). -/
def State.standsBack (s : State) (p : Part) (g : Group) : Bool :=
  match g.evFor.bind fun e => s.grid? e.1 with
  | none => false
  | some gr => gr.unplaced && decide (g.evFor = some (gr.id, gr.next)) && ((s.firstRoom p gr PlaceArgs.none none).isSome || !(s.evictsFor p gr).isEmpty)

/-- The group whose restore is next on a core, when it can be restored now. -/
def State.restorable (s : State) (p : Part) (g : Group) : Bool :=
  decide ((s.nextRestore g.core).map Group.gid = some g.gid) && (s.restore g).isSome && !(s.standsBack p g)

/-- GROUP_RESTORE (R150, R178): in eviction order, to the core it left. -/
def execGroupRestore (gid : Nat) (s : State) : Out' :=
  .next (match (s.grp? gid).bind fun g => (s.part? g.part).map fun p => (g, p) with
    | none => s
    | some (g, p) =>
      if s.restorable p g = false then s
      else match s.restore g with
        | some t => t.after gid
        | none => s)

/-! ## BLOCK_PLACE (R145) -/

/-- A grid whose next block comes before those of another: higher PRIO, then started earlier. -/
def Grid.before (a b : Grid) : Bool :=
  decide (b.card.prio < a.card.prio) || (decide (a.card.prio = b.card.prio) && decide (a.order < b.order))

/-- Grids in the order in which their next blocks come (R145). -/
def byTurn (gs : List Grid) : List Grid := sortBy (fun (g : Grid) => 2 ^ 32 - g.card.prio) (sortBy Grid.order gs)

/-- A group that gave way for a grid's next block, or for one that comes after it, does not go before that block. -/
def State.gaveWay (s : State) (g : Group) (gr : Grid) : Bool :=
  decide (g.evFor = some (gr.id, gr.next)) || (g.evFor.bind fun e => s.grid? e.1).any fun h =>
    h.unplaced && decide (g.evFor = some (h.id, h.next)) && gr.before h

/-- An evicted group of the partition that goes before a grid's next block: one that can be restored, or one of an earlier-started grid,
and that did not give way for this block or a later one (R145, R150) (DEDUCED, log 26). -/
def State.restoreFirst (s : State) (p : Part) (gr : Grid) : Bool :=
  s.groups.any fun g => decide (g.part = gr.part) && g.place.no?.isSome && !(s.gaveWay g gr) &&
    (s.restorable p g || ((s.grid? g.grid).map fun x => decide (x.order < gr.order)).getD false)

/-- BLOCK_PLACE (R145, R182): the next block of a grid that comes first among those with room. -/
def execBlockPlace (grid : Nat) (a : PlaceArgs) (twin : Option PlaceArgs) (s : State) : Out' :=
  .next (match s.grid? grid with
    | none => s
    | some gr =>
      match s.part? gr.part with
      | none => s
      | some p =>
        if gr.unplaced = false ∨ s.restoreFirst p gr = true then s
        else if s.grids.any fun h => decide (h.part = gr.part) && h.unplaced && h.before gr && !(s.restoreFirst p h) && (s.firstRoom p h PlaceArgs.none none).isSome then s
        else match s.firstRoom p gr a twin with
          | none => s
          | some (c, t) =>
            if gr.card.place = 1 then t
            else t.updPart p.id fun q => { q with cursor := (s.lcoreOf p c + 1) % max (s.logical p).length 1 })

/-! ## GROUP_EVICT (R149, R151, R178) -/

/-- The groups that must go: for a restore that has no room on a core, or for a block that finds none, the blocks in their turn (R145); with
that block. -/
def State.evictions (s : State) (p : Part) (core : Nat) : List (Nat × Option (Nat × Nat)) :=
  let back := match s.nextRestore core with
    | some g =>
      if (s.emptied.restore g).isSome ∨ s.standsBack p g = true then []
      else s.emptied.fewest (fun s => (s.restore g).isSome) (s.emptied.victims p.id [core] none)
    | none => []
  let grids := byTurn (s.grids.filter fun h => decide (h.part = p.id) && !(s.restoreFirst p h))
  back.map (fun g => (g, none)) ++ grids.flatMap fun h => (s.evictsFor p h).map fun g => (g, some (h.id, h.next))

/-- GROUP_EVICT (R149): the group is to stop at its next clause boundary; one that is parked already gives up its room (R178), and does not count
in EVICTIONS (R154) (DESIGN CHOICE, log 124). -/
def execGroupEvict (gid : Nat) (s : State) : Out' :=
  .next (match (s.grp? gid).bind fun g => (s.part? g.part).map fun p => (g, p) with
    | none => s
    | some (g, p) =>
      match (s.evictions p g.core).find? fun e => decide (e.1 = gid) with
      | none => s
      | some (_, h) =>
        let s := s.updGrp gid fun g => { g with evFor := h }
        if g.place ≠ .resident then s.giveUp gid
        else if g.stop.isSome then s
        else (s.updGrp gid fun g => { g with stop := some { why := .evict, sid := 2 ^ 64, code := 0, tlm := 0, taddr := 0, tpc := 0, clause := none } }).settleStop gid)

/-! ## WATCHDOG_EXPIRE (R153) -/

/-- Whether the watchdog's time runs for a grid: it has a group that is not parked off its core (DEDUCED, log 56). -/
def State.watched (s : State) (g : Grid) : Bool :=
  s.groups.any fun x => decide (x.grid = g.id) && match x.place with | .parked _ => false | _ => true

/-- WATCHDOG_EXPIRE: no group of the grid has retired a clause for WATCHDOG µs. -/
def execWatchdogExpire (grid : Nat) (s : State) : Out' :=
  .next (match s.grid? grid with
    | none => s
    | some g =>
      match s.part? g.part with
      | none => s
      | some p =>
        if p.regs.watchdog = 0 ∨ g.kill.isSome ∨ g.ended = true ∨ s.watched g = false ∨ s.dev.up < g.lastRet + 1000 * p.regs.watchdog then s
        else (s.updPart p.id fun p => { p with cnt := { p.cnt with wdKills := p.cnt.wdKills + 1 } }).killGrid grid 2)

end Sys2Proof.Machine
end

