-- ==== Sys2Proof/Machine/Fabric.lean ====
section
/-!
DEFINITION. The fabric: switches and route words (R28-R33), route checks (R34, R35, R45), `msg` and `route` (R36, R42, R338,
R339), packets at their destination (R42, R43), handler groups (R38, R43, R44), die links that fail (R41, R49), and the acceptance of a
write (R275), with the rewrite of DETOUR after a map's last one (R49).
-/

namespace Sys2Proof.Machine

/-! ## Route words (R31-R33) -/

def hops (w : Word) : Nat := w.toNat % 8
/-- PORT hop field i. -/
def hopField (w : Word) (i : Nat) : Nat := w.toNat / 2 ^ (3 * i + 3) % 8
def setHop (w : Word) (i out : Nat) : Word :=
  (w &&& ~~~ (BitVec.ofNat 32 (7 * 2 ^ (3 * i + 3)))) ||| BitVec.ofNat 32 (out % 8 * 2 ^ (3 * i + 3))
def routeClass (w : Word) : Nat := w.toNat / 2 ^ 24 % 2
def routeCore (w : Word) : Nat := w.toNat / 2 ^ 25 % 4
def routeEp (w : Word) : Bool := w.getLsbD 27

/-- HOPS = 0 or a nonzero reserved bit: the synchronous route fault (R34). -/
def routeBad (w : Word) : Bool := decide (hops w = 0) || decide (w.toNat / 2 ^ 28 ≠ 0)

/-- What the destination splitter writes: CORE becomes the sending core's number in its cluster, EP 0. -/
def deliveredWord (w : Word) (core : Nat) : Word :=
  (w &&& ~~~ (0x0E000000 : Word)) ||| BitVec.ofNat 32 (core % 4 * 2 ^ 25)

/-! ## Route checks (R34, R45) -/

/-- The bridge gate on an output port passes the partition's packets (R45): only gates toward a quadrant can stop them. -/
def State.gatePasses (s : State) (part : Nat) : PLoc → Nat → Bool
  | .central d _, out => !(decide (out < 4)) || decide ((s.ownerOf (4 * d + out)).map Part.id = some part)
  | _, _ => true

/-- The status of the first check that fails at a crossbar, or 0. -/
def State.hopStatus (s : State) (part : Nat) (w : Word) (i : Nat) (l : PLoc) : Nat :=
  let out := hopField w i
  let mask := match l with | .localX q _ => s.localMask q | .central d _ => s.centralMask d | _ => 0
  let inp := match l with | .localX _ p => p | .central _ p => p | _ => 0
  let isLocal := match l with | .localX .. => true | _ => false
  let ends := if isLocal then decide (out ≠ 7) else decide (out = 7)
  let cluster := isLocal && decide (out < 6)
  if mask / 2 ^ out % 2 = 0 then 1
  else if out = inp ∧ cluster = false then 2
  else if s.gatePasses part l out = false then 3
  else if i + 1 = hops w ∧ ends = false then 4
  else if i + 1 < hops w ∧ ends = true then 5
  else if ends = true ∧ routeEp w = cluster then 6
  else
    let core := match l with | .localX q _ => 24 * q + 4 * out + routeCore w | _ => 0
    if cluster = true ∧ routeEp w = false ∧ s.present core = false then 7 else 0

/-- Where a packet stands after it leaves a crossbar on a port. -/
def PLoc.next : PLoc → Nat → PLoc
  | .localX q _, out => if out < 6 then .splitter q out else if out = 6 then .complexEnd else .central (q / 4) (q % 4)
  | .central d _, out =>
    if out < 4 then .localX (4 * d + out) 7
    else if out = 7 then .complexEnd
    else .central ((d + out - 3) % 4) ((4 - (out - 3)) % 4 + 3)
  | l, _ => l

/-- Where a core's packets start: its quadrant's local crossbar, on its cluster's port. -/
def startLoc (core : Nat) : PLoc := .localX (core / 24) (core % 24 / 4)

/-! ## `msg` (R36, R338) -/

/-- A lane of a `msg` has its status. -/
def State.msgLane (s : State) (oid lane status : Nat) : State :=
  (s.holders oid).foldl (fun s g => s.updOp g.gid oid fun o => { o with kind := match o.kind with
    | .msg ls st nw => .msg (ls.filter fun l => decide (l ≠ lane)) (st ++ [(lane, status)]) nw
    | k => k }) s

/-- Injects a lane's packet. -/
def Ctx.inject (x : Ctx) (s : State) (oid lane : Nat) : State :=
  let w := x.slot x.f.sa 0 lane
  let (pid, s) := s.fresh
  let p : Packet := { pid := pid, part := x.g.part, grid := x.g.grid, core := x.g.core, gid := x.gid, oid := oid, lane := lane, orig := w, word := w
                      hop := 0, loc := startLoc x.g.core, hid := (x.slot x.f.sc 0 lane).toNat % 16
                      payload := (List.range (x.f.lo + 1)).map fun k => x.slot x.f.sb k lane, gc := x.g.mm.gc, fault := none }
  { s with packets := s.packets ++ [p] }

/-- Sends the lanes' packets in ascending order; in the non-waiting form some lanes find no room (DESIGN CHOICE, log 8). -/
def Ctx.send (x : Ctx) (nw : Bool) (pn : Nat) : Eff :=
  let bad := x.lanes.filter fun l => routeBad (x.slot x.f.sa 0 l)
  if x.grid.card.msgtab = 0 then .trap 0x31 x.act 0
  else if !bad.isEmpty then .trap 0x30 (maskOf bad) 0
  else
    let refused : Mask := if nw then Config.freeMask x.s.free &&& x.act else 0
    let s : State := if nw then { x.s with free := x.s.free + 1 } else x.s
    let go := x.lanes.filter fun l => !(refused.getLsbD l)
    let (oid, s) := x.issueOp s x.f.dst (.msg go ((lanesOf refused).map fun l => (l, 11)) (if nw then some (pn, refused) else none))
    .done (go.foldl (fun s l => x.inject s oid l) s)

/-- `msg` in its waiting form; a reply-class handler group's runs as `.nw` with N = 7 (R38). -/
def execMsg (f : Fld) (s : State) : Out' := .next (runLanes (.msg f) (fun x => x.send (decide (x.g.kind = .reply)) 7) s)

/-- `msg` with `.nw`; in a reply-class handler group N counts as 7. -/
def execMsgNw (f : Fld) (s : State) : Out' :=
  .next (runLanes (.msgNw f) (fun x => x.send true (if x.g.kind = .reply then 7 else f.mod.toNat / 32)) s)

/-- MSG_STATUS (R35, R338): every lane has its status; statuses and the predicate of `.nw` are written in one step. -/
def execMsgStatus (gid oid : Nat) (s : State) : Out' :=
  .next (match (s.grp? gid).bind fun g => g.op? oid with
    | none => s
    | some o =>
      match o.kind with
      | .msg [] st nw =>
        let s := match nw with
          | some (n, refused) => (s.holders oid).foldl (fun (s : State) (g : Group) => s.updGrp g.gid fun g =>
              (lanesOf o.mask).foldl (fun (g : Group) (l : Nat) => g.setPred l n (refused.getLsbD l)) g) s
          | none => s
        s.completeOp oid (st.map fun (e : Nat × Nat) => (e.1, words1 (BitVec.ofNat 32 e.2))) (st.any fun (e : Nat × Nat) => decide (1 ≤ e.2) && decide (e.2 ≤ 10))
      | _ => s)

/-! ## Packets in flight (R32, R35, R36) -/

/-- No packet of the same core, route word and class that was sent earlier stands behind it (R36). A route-fault reply waits for none. -/
def Packet.first (s : State) (p : Packet) : Bool :=
  p.fault.isSome || !((s.packets.takeWhile fun q => decide (q.pid ≠ p.pid)).any fun q =>
    q.fault.isNone && decide (q.core = p.core) && decide (q.orig = p.orig) && decide (q.hop ≤ p.hop))

/-- ReturnRoute of the first `n` hop fields of a route word (R33, R35). -/
def returnRoute (w : Word) (n : Nat) : Word :=
  let v := (List.range n).foldl (fun v j => setHop v j (hopField w (n - 1 - j))) (BitVec.ofNat 32 n)
  v ||| (w &&& 0x0E000000) ||| 0x01000000

/-- The port a packet arrives on at a crossbar. -/
def PLoc.port : PLoc → Nat
  | .localX _ q => q
  | .central _ q => q
  | _ => 0

/-- What a crossbar sends back for a packet that fails a check (R35): a reply with the status and the hop index, which leaves on the port
the packet came by and follows ReturnRoute of the fields rotated so far. -/
def Packet.refused (p : Packet) (st : Nat) : Packet :=
  { p with fault := some (st, p.hop), word := returnRoute p.word p.hop, hop := 0, loc := p.loc.next p.loc.port }

/-- A packet passes a crossbar: its hop field becomes the port it came by (R32). -/
def Packet.rotated (p : Packet) : Packet :=
  { p with word := setHop p.word p.hop p.loc.port, hop := p.hop + 1, loc := p.loc.next (hopField p.word p.hop) }

def State.setPacket (s : State) (q : Packet) : State := { s with packets := s.packets.map fun r => if r.pid = q.pid then q else r }

def State.dropPacket (s : State) (pid : Nat) : State := { s with packets := s.packets.filter fun q => decide (q.pid ≠ pid) }

/-- CROSSBAR_HOP (R32-R35): the checks in order, then rotation; a packet that fails is dropped, and a reply goes back in its stead. No
check stops a reply (DEDUCED, log 96). -/
def execCrossbarHop (pkt : Nat) (s : State) : Out' :=
  .next (match s.packets.find? fun p => decide (p.pid = pkt) with
    | none => s
    | some p =>
      match p.loc with
      | .splitter .. => s
      | .complexEnd => s
      | l =>
        if p.first s = false then s
        else
          let st := s.hopStatus p.part p.word p.hop l
          s.setPacket (if st ≠ 0 ∧ p.fault = none then p.refused st else p.rotated))

/-- The mem-block that holds entry h of a grid's handler table is filled (R73). -/
def State.handlerFill (s : State) (g : Grid) (core hid : Nat) : State :=
  match (s.part? g.part).map fun p => s.locate p core (g.card.msgtab + 8 * hid) with
  | some (.mem a) => s.expandAt g.part a 8
  | _ => s

/-- Entry h of a grid's handler table as a core reads it; 0 when it cannot be read, or is poisoned (DEDUCED, log 63). -/
def State.handlerEntry (s : State) (g : Grid) (core hid : Nat) : Nat :=
  match s.part? g.part with
  | none => 0
  | some p => (((s.jobRead p core g.id true (g.card.msgtab + 8 * hid) 8).filter fun r => !r.2).map fun r => leNat r.1).getD 0

/-- PACKET_ARRIVAL (R33, R35, R42, R43): a route-fault reply completes its lane; a packet arrives at an EP = 1 endpoint, or at the core that CORE names once a buffer of the class is
free (DEDUCED, log 64). -/
def execPacketArrival (pkt : Nat) (s : State) : Out' :=
  .next (match s.packets.find? fun p => decide (p.pid = pkt) with
    | none => s
    | some p =>
      if p.first s = false then s
      else
        match p.loc, p.fault with
        | .localX .., _ => s
        | .central .., _ => s
        | _, some (st, _) => (s.dropPacket pkt).msgLane p.oid p.lane st
        | .complexEnd, none => (s.dropPacket pkt).msgLane p.oid p.lane 9
        | .splitter q c, none =>
          let core := 24 * q + 4 * c + routeCore p.word
          match (s.grid? p.grid).filter fun g => !g.ended with
          | none => (s.dropPacket pkt).msgLane p.oid p.lane 10
          | some g =>
            let s := s.handlerFill g core p.hid
            if s.handlerEntry g core p.hid = 0 then (s.dropPacket pkt).msgLane p.oid p.lane 9
            else
              let k := s.core! core
              let buf := if routeClass p.orig = 0 then k.bufReq else k.bufRep
              if 64 ≤ buf.length then s
              else
                let d : Packet := { p with word := deliveredWord p.word p.core }
                let s := (s.dropPacket pkt).msgLane p.oid p.lane 0
                if g.kill.isSome then s
                else s.updCore core fun k => if routeClass p.orig = 0 then { k with bufReq := k.bufReq ++ [d] } else { k with bufRep := k.bufRep ++ [d] })

/-! ## Handler groups (R38, R43, R44) -/

/-- The words of a lane of a handler group. -/
def Packet.slots (s : State) (p : Packet) : List Word :=
  let logical := match s.part? p.part with | some q => s.lcoreOf q p.core | none => 0
  p.payload ++ List.replicate (16 - p.payload.length) 0 ++ [p.word, BitVec.ofNat 32 logical, BitVec.ofNat 32 p.payload.length] ++ List.replicate 5 0

/-- HANDLER_GROUP_FORM (R43, R44): the oldest packet of a class and those of the same grid and handler, up to 32. Its start address is
read from the handler table here, not at arrival (DESIGN CHOICE, log 97). -/
def execHandlerGroupForm (core cls base : Nat) (park : Word) (s : State) : Out' :=
  let k := s.core! core
  let buf := if cls = 0 then k.bufReq else k.bufRep
  .next (match buf with
    | [] => s
    | p0 :: _ =>
      match (s.grid? p0.grid).filter fun g => !g.ended with
      | none => s
      | some gr =>
        let s := s.handlerFill gr core p0.hid
        let ps := (buf.filter fun p => decide (p.grid = p0.grid) && decide (p.hid = p0.hid)).take 32
        let rest := buf.filter fun p => !(ps.any fun q => decide (q.pid = p.pid))
        let room : Option (Nat × Nat × State) :=
          if cls = 0 then
            let slots := max gr.card.lslots 24
            let len := roundUp (128 * slots) 1024
            if 48 ≤ s.slotsUsed core then none
            else (s.findStore core len base).map fun b =>
              let r := s.fresh
              (b, slots, r.2.takeRun core b len (128 * slots) (.lane r.1) gr.id 0xFFFFFFFF)
          else if s.groups.any fun g => decide (g.core = core) && decide (g.kind = .reply) then none
          else
            let r := s.fresh
            some (0, 24, r.2.updCore core fun k => { k with
              store := k.store.clear 0 3072
              regions := k.regions.map fun q => if q.kind = .reply then { q with grid := gr.id } else q })
        match room with
        | none => s
        | some (b, slots, t) =>
          let gid := s.nextId
          let fr : Frames := { lslots := slots, gslots := 0, lbase := b, gbase := 0, d2 := 0, d3 := 0, shift := 0 }
          let lanes := (List.range ps.length).zip ps
          let gc := ps.foldl (fun c p => c.join p.gc) VClock.zero
          let g := Group.make gid gr.id gr.part core (if cls = 0 then .request else .reply) 0 0xFFFFFFFF 0 (s.parkId gr.part park) gid fr
            (maskOf (lanes.map (·.1))) (s.handlerEntry gr core p0.hid)
          let t := t.addGroup { g with mm := { g.mm with gc := gc, fresh := true } }
          let t := t.pokeStore core (lanes.flatMap fun e => laneCells g 0 e.1 (e.2.slots s))
          t.updCore core fun k => if cls = 0 then { k with bufReq := rest } else { k with bufRep := rest })

/-! ## `route` (R339) -/

/-- Follows a route word from a crossbar: status, hop index and where it ends. -/
def State.follow (s : State) (part : Nat) (w : Word) : Nat → Nat → PLoc → Nat × Nat × PLoc
  | 0, i, l => (0, i, l)
  | n + 1, i, l =>
    let st := s.hopStatus part w i l
    if st ≠ 0 then (st, i, l)
    else if i + 1 = hops w then (0, 0, match l with | .localX q _ => (if hopField w i = 6 then PLoc.complexEnd else .splitter q (hopField w i)) | l => l)
    else s.follow part w n (i + 1) (l.next (hopField w i))

/-- The word that `route` gives for a route word. -/
def State.routeWord (s : State) (p : Part) (core : Nat) (w : Word) : Word :=
  if routeBad w then 0xFFFF000F
  else
    let r := s.follow p.id w 8 0 (startLoc core)
    if r.1 ≠ 0 then BitVec.ofNat 32 (0xFFFF0000 + r.2.1 * 16 + r.1)
    else match r.2.2 with
      | .splitter q c => BitVec.ofNat 32 (s.lcoreOf p (24 * q + 4 * c + routeCore w) * 65536)
      | .complexEnd => 0xFFFE0000
      | _ => 0xFFFD0000

/-- `route` (R339). -/
def execRoute (f : Fld) (s : State) : Out' :=
  .next (runLanes (.route f) (fun x => .done (x.wr x.s f.dst fun l => words1 (x.s.routeWord x.part x.g.core (x.slot f.sa 0 (x.srcLane l))))) s)

/-! ## Link faults (R41, R49) -/

/-- Both directions of a link take a health value; every partition's map follows, and its DETOUR when that is done. -/
def State.setLink (s : State) (a b v : Nat) : State :=
  let s := s.updDev fun d => { d with links := (d.links.set (4 * a + b) v).set (4 * b + a) v }
  s.parts.foldl (fun s p => s.updateMap p.id) s

/-- The central port that a die's link to another die has (R29). -/
def linkPort (a b : Nat) : Nat := (b + 4 - a) % 4 + 3

/-- The lanes of a load whose requests are composed again, with the DETOUR that each then takes. -/
def State.redoLanes (s : State) (g : Group) (o : Op) (lanes : List (Nat × Nat)) : List (Nat × BitVec 32) :=
  match s.part? g.part with
  | none => []
  | some p => lanes.filterMap fun e =>
    if (assoc e.1 o.redo).isSome then none
    else match (s.locate p g.core e.2).linkDie p with
      | none => none
      | some d => (s.redoRoute p (o.detourOf e.1) none (dieOf g.core) d).map fun r => (e.1, r)

/-- A request to the Reel, which stands on die 0 (R13), is composed again too. -/
def State.redoReel (s : State) (g : Group) (o : Op) : List (Nat × BitVec 32) :=
  match s.part? g.part with
  | none => []
  | some p => if (assoc soleLane o.redo).isSome then [] else ((s.redoRoute p o.detour none (dieOf g.core) 0).map fun r => (soleLane, r)).toList

def State.redoOp (s : State) (g : Group) (o : Op) : Op :=
  match o.kind with
  | .load ls .. => { o with redo := o.redo ++ s.redoLanes g o ls }
  | .jrnl _ => { o with redo := o.redo ++ s.redoReel g o }
  | .emit _ => { o with redo := o.redo ++ s.redoReel g o }
  | _ => o

def State.redoWrite (s : State) (w : Write) : Write :=
  match s.part? w.part with
  | none => w
  | some p =>
    match (s.locate p w.core w.addr).linkDie p with
    | none => w
    | some d => { w with redo := s.redoRoute p w.detour w.redo (dieOf w.core) d }

def State.redoJob (s : State) (j : Job) : Job :=
  match s.part? j.part with
  | none => j
  | some p => { j with redo := (s.jobDies p j).foldl (fun r d => s.redoRoute p j.detour r (j.quad / 4) d) j.redo }

/-- Every hardware-composed request of a partition that a failed link has caught is composed again, once, with the DETOUR of now (R41). -/
def State.redoInFlight (s : State) (part : Nat) : State :=
  { s with
    writes := s.writes.map fun w => if w.part = part then s.redoWrite w else w
    groups := s.groups.map fun g => if g.part = part then { g with ops := g.ops.map (s.redoOp g) } else g
    jobs := s.jobs.map fun j => if j.part = part then s.redoJob j else j }

/-- DETOUR_REWRITE (R40, R49): once the even epoch of a map update is written, Fubebex rewrites DETOUR, and the partition's requests that a
failed link has caught go out again (R41). -/
def State.rewriteDetour (s : State) (w : Write) : State :=
  if (s.part? w.part).any fun p => p.endsUpdate w then
    (s.updPart w.part fun p => { p with regs := { p.regs with detour := s.detour } }).redoInFlight w.part
  else s

/-- LINK_DOWN (R41): a packet that has just crossed the link may be one that was caught on it, and is answered with status 8
(DESIGN CHOICE, log 4) (DEDUCED, log 65). A route-fault reply is not lost. -/
def execLinkDown (a b : Nat) (s : State) : Out' :=
  .next (if 4 ≤ a ∨ 4 ≤ b ∨ a = b ∨ s.linkHealth a b = 0 then s
    else
      let on := s.packets.filter fun p => p.fault.isNone && (decide (p.loc = .central b (linkPort b a)) || decide (p.loc = .central a (linkPort a b)))
      let caught := ((List.range on.length).zip on).filter fun e => Config.freeBit s.free e.1
      let s : State := { s with free := s.free + 1 }
      let s := caught.foldl (fun s e => (s.dropPacket e.2.pid).msgLane e.2.oid e.2.lane 8) s
      let s := s.logError 5 a 0 0 0xFFFF (linkPort a b) (s.parts.map Part.id)
      s.setLink a b 0)

/-- LINK_DEGRADED (R41): the link runs at reduced width. -/
def execLinkDegraded (a b : Nat) (s : State) : Out' :=
  .next (if 4 ≤ a ∨ 4 ≤ b ∨ a = b ∨ s.linkHealth a b ≠ 1 then s else s.setLink a b 2)

/-! ## STORE_ACCEPT (R275) -/

/-- STORE_ACCEPT (R275, R58, R83); a write that reaches no home is an uncorrectable access and ends with error (R41). A release of a
narrow scope may be accepted early (R356, log 12). With the last write of a map update DETOUR is rewritten (R49). -/
def execStoreAccept (wid : Nat) (s : State) : Out' :=
  .next (match s.writes.find? fun w => decide (w.wid = wid) with
    | some w =>
      let t : State := { s with writes := s.writes.filter fun v => decide (v.wid ≠ wid) }
      if s.mayPerform w = false then
        if s.mayEarly w = false ∨ s.writeLost w = true ∨ s.writeFault w ≠ none then s
        else if Config.freeBit s.free 0 then ((({ t with free := s.free + 1 } : State).goEarly w).acceptWrite w).after w.gid
        else { s with free := s.free + 1 }
      else if s.writeLost w then (t.discard true [w]).after w.gid
      else if s.writeFault w = none then ((t.acceptWrite w).rewriteDetour w).after w.gid
      else s
    | none => s)

end Sys2Proof.Machine
end

