-- ==== Sys2Proof/Machine/Lanes.lean ====
section
/-!
DEFINITION. Class 2: lane exchange, reductions, FMT, the quantiser and narrow codes (R253-R270).
-/

namespace Sys2Proof.Machine

/-- The source lane of `shfl` by its mode, exact and perhaps out of range (R256). -/
def shflLane (mode l b : Nat) : Int :=
  match mode with
  | 0 => Int.ofNat (b % 32)
  | 1 => Int.ofNat l - Int.ofNat b
  | 2 => Int.ofNat (l + b)
  | _ => Int.ofNat (l ^^^ (b % 32))

/-- The value `shfl` gives a lane (R256): its own when the source is out of range, 0 from a lane that takes no part. -/
def shuffled (x : Ctx) (f : Fld) (l : Nat) : DWord :=
  let j : Int := shflLane (f.hi % 4) l (x.rdB 2 1 l).toNat
  if j < 0 ∨ (31 : Int) < j then x.rdA (tyW f.lo) l
  else if x.act.getLsbD j.toNat then x.rdA (tyW f.lo) j.toNat else 0

/-- One combination of `red` and `scan` (R259): operation code, type, FTZ. -/
def combine (op t : Nat) (on : Bool) (a b : DWord) : DWord :=
  if t = 8 then
    BitVec.ofNat 64 (match op with
      | 0 => flushed2 on (FV.add 0) 0 a.toNat b.toNat
      | 1 => floatPick on true a.toNat b.toNat
      | _ => floatPick on false a.toNat b.toNat)
  else match op with
    | 0 => a + b
    | 1 => if toI t b < toI t a then b else a
    | 2 => if toI t a < toI t b then b else a
    | 3 => a &&& b
    | 4 => a ||| b
    | _ => a ^^^ b

def combineOpt (op t : Nat) (on : Bool) : Option DWord → Option DWord → Option DWord
  | none, v => v
  | u, none => u
  | some a, some b => some (combine op t on a b)

/-- One level of the fixed tree. -/
def treeLevel (op t : Nat) (on : Bool) : List (Option DWord) → List (Option DWord)
  | a :: b :: rest => combineOpt op t on a b :: treeLevel op t on rest
  | rest => rest

/-- DEDUCED, log 33. -/
def treeReduce (op t : Nat) (on : Bool) : Nat → List (Option DWord) → Option DWord
  | 0, ys => ys.headD none
  | n + 1, ys => treeReduce op t on n (treeLevel op t on ys)

/-- The result of `red` (R259): the fixed tree over the 32 lanes. -/
def reduced (x : Ctx) (f : Fld) : DWord :=
  let ys := (List.range 32).map fun l => if x.act.getLsbD l then some (x.rdA (tyW f.lo) l) else none
  (treeReduce f.mid f.lo (ftzOn x) 5 ys).getD 0

/-- The identities of R260. -/
def identity (op t : Nat) : DWord :=
  let w := 32 * tyW t
  match op with
  | 1 => if t = 8 then 0x7F800000 else if isSigned t then BitVec.ofNat 64 (2 ^ (w - 1) - 1) else BitVec.ofNat 64 (2 ^ w - 1)
  | 2 => if t = 8 then 0xFF800000 else if isSigned t then BitVec.ofNat 64 (2 ^ (w - 1)) else 0
  | 3 => BitVec.ofNat 64 (2 ^ w - 1)
  | _ => 0

/-- What `scan` gives a lane (R260): MOD[7] leaves out the lane's own value. -/
def scanned (x : Ctx) (f : Fld) (l : Nat) : DWord :=
  let before := x.lanes.filter fun j => if f.mod.getLsbD 7 then decide (j < l) else decide (j ≤ l)
  match before with
  | [] => identity f.mid f.lo
  | j :: js => js.foldl (fun a k => combine f.mid f.lo (ftzOn x) a (x.rdA (tyW f.lo) k)) (x.rdA (tyW f.lo) j)

/-- Whether a format code is T8, T6 or E2M1. -/
def narrowFmt (k : Nat) : Bool := decide (3 ≤ k) && decide (k ≤ 5)

/-- A selected field of `fmt` holds a reserved value (R263). -/
def fmtBad (mask : BitVec 8) (v : Word) : Bool :=
  (mask.getLsbD 0 && decide (5 < fmtA v)) || (mask.getLsbD 1 && decide (5 < fmtB v)) || (mask.getLsbD 2 && decide (5 < fmtOut v))
    || (mask.getLsbD 3 && decide (1 < nrnd v))

/-- The bits of FMT that a field mask selects. -/
def fmtBits (mask : BitVec 8) : Word :=
  (if mask.getLsbD 0 then 0x000F else 0) ||| (if mask.getLsbD 1 then 0x00F0 else 0) ||| (if mask.getLsbD 2 then 0x0F00 else 0)
    ||| (if mask.getLsbD 3 then 0x3000 else 0) ||| (if mask.getLsbD 4 then 0x4000 else 0) ||| (if mask.getLsbD 5 then 0x8000 else 0)

def fmtMerge (mask : BitVec 8) (old v : Word) : Word := (old &&& ~~~ (fmtBits mask)) ||| (v &&& fmtBits mask)

/-- A value times 2^n; beyond ±2000 nothing changes in a narrow result. -/
def scaleBy' (n : Int) : FV → FV
  | .fin neg m e => .fin neg m (e + max (-2000) (min 2000 n))
  | v => v

/-- Bits of a narrow code by type code (R215). -/
def codeBits (t : Nat) : Nat := if t = 11 then 8 else if t = 12 then 6 else 4

/-- Stream word i of the lanes' codes; 0 from word n on (R269). -/
def streamWord (n : Nat) (x : Ctx) (i : Nat) : Nat :=
  if i < n then
    let str := (List.range 32).foldl (fun a j => a + (if x.act.getLsbD j then (x.rdA 1 j).toNat % 2 ^ n else 0) * 2 ^ (n * j)) 0
    str / 2 ^ (32 * i) % 2 ^ 32
  else 0

/-- Element j of the stream of the first n lanes' words (R270). -/
def streamElem (n : Nat) (x : Ctx) (j : Nat) : Nat :=
  let str := (List.range n).foldl (fun a i => a + (if x.act.getLsbD i then (x.rdA 1 i).toNat else 0) * 2 ^ (32 * i)) 0
  str / 2 ^ (n * j) % 2 ^ n

/-- The masks of R258. -/
def laneMask (k : Nat) (x : Ctx) (l : Nat) : Mask :=
  match k with
  | 0 => maskOf ((List.range 32).filter fun i => i < l)
  | 1 => maskOf ((List.range 32).filter fun i => i ≤ l)
  | 2 => maskOf ((List.range 32).filter fun i => l < i)
  | 3 => maskOf ((List.range 32).filter fun i => l ≤ i)
  | 4 => maskOf [l]
  | 5 => x.act
  | _ => x.g.dead

/-! ## The instructions -/

/-- `shfl` (R256). -/
def execShfl (f : Fld) (s : State) : Out' :=
  alu (.shfl f) f (fun x l => wordsN (tyW f.lo) (shuffled x f l)) s

/-- `vote` (R257). -/
def execVote (f : Fld) (s : State) : Out' :=
  .next (runLanes (.vote f) (fun x =>
    let v : Nat → Bool := fun l => x.rdPred (f.sa.toNat % 8) l != f.mod.getLsbD 2
    let ones := x.lanes.filter v
    match f.mod.toNat % 4 with
    | 3 => .done (x.wr x.s f.dst fun _ => words1 (maskOf ones))
    | k =>
      let r := if k = 0 then decide (ones.length = x.lanes.length) else if k = 1 then !ones.isEmpty
        else ones.isEmpty || decide (ones.length = x.lanes.length)
      if f.mod.getLsbD 3 then .done (x.s.updGrp x.gid fun g => g.setGpred (f.dst.toNat % 8) r)
      else .done (x.wrPred x.s (f.dst.toNat % 8) fun _ => r)) s)

/-- `red` (R259). -/
def execRed (f : Fld) (s : State) : Out' :=
  alu (.red f) f (fun x _ => wordsN (tyW f.lo) (reduced x f)) s

/-- `scan` (R260). -/
def execScan (f : Fld) (s : State) : Out' :=
  alu (.scan f) f (fun x l => wordsN (tyW f.lo) (scanned x f l)) s

/-- `match` (R261): the lanes whose a has the same bits. -/
def execMatchLanes (f : Fld) (s : State) : Out' :=
  alu (.matchLanes f) f (fun x l => words1 (maskOf (x.lanes.filter fun j => x.rdA (tyW f.lo) j = x.rdA (tyW f.lo) l))) s

/-- `bcast` (R262). -/
def execBcast (f : Fld) (s : State) : Out' :=
  alu (.bcast f) f (fun x _ =>
    let j := if f.mod.getLsbD 4 then lowest x.act else (x.rdB 2 1 (lowest x.act)).toNat % 32
    wordsN (tyW f.lo) (if x.act.getLsbD j then x.rdA (tyW f.lo) j else 0)) s

/-- `fmt` (R263): writes selected fields of the split's FMT; a reserved value traps and changes nothing. -/
def execFmt (f : Fld) (s : State) : Out' :=
  .next (runLanes (.fmt f) (fun x =>
    let v : Word := if f.i then f.imm.setWidth 32 else (x.val f.sb 1 (lowest x.act)).setWidth 32
    if fmtBad f.mod v then .trap 0x03 (maskOf [lowest x.act]) 0
    else .done (x.s.updGrp x.gid fun g => g.updSplit x.p.sid fun p => { p with fmt := fmtMerge f.mod p.fmt v })) s)

/-- `fmtrd` (R264). -/
def execFmtrd (f : Fld) (s : State) : Out' :=
  alu (.fmtrd f) f (fun x _ => words1 (x.p.fmt &&& 0xFFFF)) s

/-- `qnt` (R265): one block over the lanes; a lane outside Active supplies 0. -/
def execQnt (f : Fld) (s : State) : Out' :=
  .next (runLanes (.qnt f) (fun x =>
    if narrowFmt (fmtOut x.p.fmt) then
      let xs := (List.range 32).map fun l =>
        if x.act.getLsbD l then (floatFmt f.lo).decode ((x.rdA 1 l).toNat % 2 ^ (floatFmt f.lo).width) else FV.fin false 0 0
      let q := quantise (fmtOut x.p.fmt) (nrnd x.p.fmt) xs
      let s := x.wr x.s f.dst fun l => bits1 (q.2.1.getD l 0) ++ bits1 q.1
      .done (if q.2.2 then x.setQsat s else s)
    else .trap 0x02 x.act 0) s)

/-- `dqnt` (R266). -/
def execDqnt (f : Fld) (s : State) : Out' :=
  .next (runLanes (.dqnt f) (fun x =>
    if narrowFmt (fmtA x.p.fmt) then
      let sc := (x.rdB 2 1 (lowest x.act)).toNat % 256
      .done (x.wr x.s f.dst fun l => bits1 (dequant (floatFmt f.lo) (fmtA x.p.fmt) (x.rdA 1 l).toNat sc))
    else .trap 0x02 x.act 0) s)

/-- `tenc` (R267): overflow and NaN set QSAT. -/
def execTenc (f : Fld) (s : State) : Out' :=
  .next (runLanes (.tenc f) (fun x =>
    let r : Nat → Nat × Bool := fun l =>
      let e := ((x.rdB 2 1 l).setWidth 32 : Word).toInt
      toNarrow (f.lo - 8) (nrnd x.p.fmt)
        (scaleBy' (-e) ((floatFmt f.hi).decode ((x.rdA 1 l).toNat % 2 ^ (floatFmt f.hi).width)))
    let s := x.wr x.s f.dst fun l => bits1 (r l).1
    .done (if x.lanes.any fun l => (r l).2 then x.setQsat s else s)) s)

/-- `tdec` (R268): MOD[7] says whether a scale is present. -/
def execTdec (f : Fld) (s : State) : Out' :=
  alu (.tdec f) f (fun x l =>
    bits1 (dequant (floatFmt f.lo) (3 + f.mid) (x.rdA 1 l).toNat (if f.mod.getLsbD 7 then (x.rdB 2 1 l).toNat % 256 else 127))) s

/-- `pack` (R269): word i of the stream of all lanes' codes. -/
def execPack (f : Fld) (s : State) : Out' :=
  alu (.pack f) f (fun x l => bits1 (streamWord (codeBits f.lo) x l)) s

/-- `unpack` (R270): element j of the stream of the first lanes' words. -/
def execUnpack (f : Fld) (s : State) : Out' :=
  alu (.unpack f) f (fun x l => bits1 (streamElem (codeBits f.lo) x l)) s

/-- `lmask` (R258). -/
def execLmask (f : Fld) (s : State) : Out' :=
  alu (.lmask f) f (fun x l => words1 (laneMask f.mod.toNat x l)) s

end Sys2Proof.Machine
end

