-- ==== Sys2Proof/Machine/Reel.lean ====
section
/-!
DEFINITION. The Reel (R118-R134): configuration, streams and records, the partner protocol and its states, emission,
truncation, replay, and `publish` (R113, R320).
-/

namespace Sys2Proof.Machine

/-! ## Streams (R118, R123, R126) -/

def noSeq : Nat := 0xFFFFFFFF

def Journal.stream (j : Journal) (jsid : Nat) : Option Stream := j.streams.find? fun x => decide (x.jsid = jsid)
def Journal.updStream (j : Journal) (jsid : Nat) (f : Stream → Stream) : Journal :=
  { j with streams := updFirst (fun x => decide (x.jsid = jsid)) f j.streams }
/-- JLIVE. -/
def Journal.liveRecs (j : Journal) : Nat := (j.streams.map fun x => x.recs.length).sum
def Journal.inRange (j : Journal) (jsid : Nat) : Bool := decide (j.p.jbase ≤ jsid) && decide (jsid < j.p.jbase + j.p.jcount)
/-- JSTATE. -/
def Journal.stateWord (j : Journal) : Nat :=
  match j.st with
  | .off => 0x700
  | .live k => 256 * k + 1
  | .switch k => 256 * k + 2
  | .down => 0x703

/-- The index of the current partner. -/
def Journal.partner (j : Journal) : Option Nat := match j.st with | .live k => some k | .switch k => some k | _ => none

/-- The sequence up to which a stream's records have been sent to the partner: those that wait for its connection have not. -/
def Journal.sentOf (j : Journal) (x : Stream) : Nat :=
  match (j.unsent.flatMap fun m => match m with | .append es => es | _ => []).find? fun e => decide (e.rcd.jsid = x.jsid) with
  | some e => e.seq - 1
  | none => x.last

/-- Records sent to the partner are not all acknowledged. -/
def Journal.unacked (j : Journal) : Bool := j.streams.any fun x => decide (x.durable < j.sentOf x)

def State.updJr (s : State) (part : Nat) (f : Journal → Journal) : State := s.updPart part fun p => { p with jr := f p.jr }
def State.jr (s : State) (part : Nat) : Journal := ((s.part? part).map Part.jr).getD Journal.off

/-- Lists of at most 64 entries (R124). -/
def chunks64 {α : Type} : Nat → List α → List (List α)
  | 0, _ => []
  | n + 1, xs => if xs.isEmpty then [] else xs.take 64 :: chunks64 n (xs.drop 64)

/-- The endpoint address of an entry of the partner list. -/
def Journal.addr (j : Journal) (k : Nat) : Nat := ((j.p.partners[k]?).map PartnerEntry.addr).getD 0

/-- Sends messages to the current partner; in OFF and DOWN nothing is sent. While the partner has no connection nothing flows (R92): the messages
wait for it, since each appended record is sent (R124) (DEDUCED, log 118). -/
def State.toPartner (s : State) (part : Nat) (ms : List PeerMsg) : State :=
  let j := s.jr part
  match j.partner with
  | none => s
  | some k =>
    if s.dev.conns.contains (j.addr k) then ms.foldl (fun s m => s.output (.peer part (j.addr k) s.dev.fuses.serial m)) s
    else s.updJr part fun j => { j with unsent := j.unsent ++ ms }

/-- The current partner has its connection: what waited for it is sent, and the ACK timeout runs from then (R124, R125). -/
def State.sendUnsent (s : State) (part : Nat) : State :=
  let j := s.jr part
  (s.updJr part fun j => { j with unsent := [], ackAt := if j.unacked then j.ackAt else s.dev.up }).toPartner part j.unsent

/-- The request of an operation to the Reel, on die 0 (R13), is lost (R40, R41) (DEDUCED, log 66), or waits to be composed again. -/
def State.opLost (s : State) (g : Group) (o : Op) : Bool :=
  (s.part? g.part).any fun p => s.lost p o.detour (assoc soleLane o.redo) (dieOf g.core) 0
def State.opCaught (s : State) (g : Group) (o : Op) : Bool :=
  (s.part? g.part).any fun p => s.caught p o.detour (assoc soleLane o.redo) (dieOf g.core) 0

/-- A request composed now would be lost, or would wait. -/
def State.reelAway (s : State) (g : Group) : Bool := (s.part? g.part).any fun p => s.lost p p.regs.detour none (dieOf g.core) 0
def State.reelCaught (s : State) (g : Group) : Bool := (s.part? g.part).any fun p => s.caught p p.regs.detour none (dieOf g.core) 0

def appends (es : List SeqRec) : List PeerMsg := (chunks64 (es.length / 64 + 1) es).map .append

/-- Sends records; the ACK timeout runs from the first that is not acknowledged (R125). -/
def State.sendRecs (s : State) (part : Nat) (wasClear : Bool) (es : List SeqRec) : State :=
  if es.isEmpty then s
  else (s.updJr part fun j => if wasClear then { j with ackAt := s.dev.up } else j).toPartner part (appends es)

/-! ## Appending (R122, R316) -/

/-- Appends a record: its sequence number, or none where R122 lets it fail. The bytes of the buffer's pages stay as they are (DESIGN CHOICE, log 114). -/
def State.appendRec (s : State) (part : Nat) (r : JRec) : Option (Nat × State) :=
  let j := s.jr part
  let old := j.stream r.jsid
  let last := (old.map Stream.last).getD 0
  let opened := (s.parts.map fun p => p.jr.streams.length).sum
  if j.st = .off ∨ j.inRange r.jsid = false ∨ r.type = 0 ∨ 4 < r.type
      ∨ (old.isNone ∧ (65536 ≤ j.streams.length ∨ 262144 ≤ opened)) ∨ last + 1 = noSeq ∨ j.p.buflen / 32 ≤ j.liveRecs then none
  else
    let e : SeqRec := ⟨last + 1, r⟩
    let new : Stream := { jsid := r.jsid, trunc := 0, last := last + 1, durable := 0, recs := [e], cursor := none, adopted := 0 }
    some (last + 1, s.updJr part fun j => match old with
      | some _ => j.updStream r.jsid fun x => { x with last := last + 1, recs := x.recs ++ [e] }
      | none => { j with streams := j.streams ++ [new] })

/-- The record held in four slots (R119, R316). -/
def recOf (ws : List Word) : JRec :=
  let w := ws.getD 0 0
  { jsid := w.toNat % 2 ^ 24, type := w.toNat / 2 ^ 24, pos := ws.getD 1 0, lo := ws.getD 2 0, hi := ws.getD 3 0 }

/-- `jrnl` (R316): the fields are read at issue. -/
def execJrnl (f : Fld) (s : State) : Out' :=
  .next (runLanes (.jrnl f) (fun x => .done (x.issueOp x.s f.dst (.jrnl (x.lanes.map fun l => (l, recOf (x.words f.sa 4 l))))).2) s)

/-- JRNL_COMPLETE (R41, R122): the lanes' records reach the local buffer in ascending lane order; a group's in its issue order. One of a killed
group ends with error (R321). -/
def execJrnlComplete (gid oid : Nat) (s : State) : Out' :=
  .next (match (s.grp? gid).bind fun g => (g.op? oid).map fun o => (g, o) with
    | none => s
    | some (g, o) =>
      match o.kind with
      | .jrnl recs =>
        if s.killed g then s.finishOp oid true
        else if s.opLost g o then s.completeOp oid (recs.map fun e => (e.1, words1 (BitVec.ofNat 32 noSeq))) true
        else if s.opCaught g o then s
        else if g.ops.any fun q => decide (q.seq < o.seq) && match q.kind with | .jrnl _ => true | _ => false then s
        else
          let clear := !(s.jr g.part).unacked
          let r := recs.foldl (fun (r : State × List (Nat × Nat) × List SeqRec) e =>
            match r.1.appendRec g.part e.2 with
            | some (q, s) => (s, r.2.1 ++ [(e.1, q)], r.2.2 ++ [⟨q, e.2⟩])
            | none => (r.1, r.2.1 ++ [(e.1, noSeq)], r.2.2)) (s, [], [])
          (r.1.sendRecs g.part clear r.2.2).completeOp oid (r.2.1.map fun v => (v.1, words1 (BitVec.ofNat 32 v.2))) (r.2.1.any fun v => decide (v.2 = noSeq))
      | _ => s)

/-! ## Publishing a window (R112, R113, R320) -/

def Part.window? (p : Part) (n : Nat) : Option Window := p.windows.find? fun w => decide (w.num = n)
def Part.openWin (p : Part) (n : Nat) : Bool := (p.window? n).any fun w => !w.closing

/-- An RMA write of the window is in flight. -/
def State.winBusy (s : State) (part win : Nat) : Bool := s.rmas.any fun r => decide (r.part = part) && decide (r.win = win)

/-- The version write that an operation or a group waits for is in flight. -/
def State.versionOut (s : State) (gid oid : Nat) : Bool := s.rmas.any fun r => r.version && decide (r.gid = gid) && decide (r.oid = oid)

/-- Publishes an open window none of whose writes is in flight: the counter rises and its new value goes to the host. -/
def State.sendVersion (s : State) (part win gid seq oid : Nat) : DWord × State :=
  match (s.part? part).bind fun p => p.window? win with
  | none => (0, s)
  | some w =>
    let v := w.version + 1
    let s := s.updPart part fun p => { p with windows := p.windows.map fun x => if x.num = win then { x with version := v } else x }
    (v, { s with rmas := s.rmas ++ [{ part := part, win := win, gid := gid, seq := seq, oid := oid, cells := cellsAt w.ver (leBytes 8 v.toNat)
                                      version := true, wid := 0, stamp := VClock.zero }] })

/-- RMA writes to the host, one for each 8-byte word. -/
def State.sendRma (s : State) (part win gid seq oid : Nat) (cells : List Host.Cell) : State :=
  { s with rmas := s.rmas ++ (hostWords cells).map fun r => { part := part, win := win, gid := gid, seq := seq, oid := oid, cells := r, version := false, wid := 0, stamp := VClock.zero } }

/-- `publish` (R320). -/
def execPublish (f : Fld) (s : State) : Out' :=
  .next (runLanes (.publish f) (fun x =>
    let num : Nat → Nat := fun l => if f.i then ((immFor 2 f).setWidth 32 : Word).toNat else (x.slot f.sb 0 (x.srcLane l)).toNat
    .done (x.issueOp x.s f.dst (.publish (x.lanes.map fun l => (l, num l)) [] false)).2) s)

/-- PUBLISH_COMPLETE (R113, R320): the next window's version write starts once the window has no write in flight; after the last
one has completed at the host the lanes get their versions. -/
def execPublishComplete (gid oid : Nat) (s : State) : Out' :=
  .next (match (s.grp? gid).bind fun g => (g.op? oid).map fun o => (g, o) with
    | none => s
    | some (g, o) =>
      match o.kind, s.part? g.part with
      | .publish lanes got out, some p =>
        let put : State → List (Nat × DWord) → Bool → Bool → State := fun s got out err => (s.holders oid).foldl (fun s h =>
          s.updOp h.gid oid fun o => { o with kind := .publish lanes got out, err := o.err || err }) s
        if s.killed g then s.finishOp oid true
        else if out && s.versionOut gid oid then s
        else
          match (sortBy id (lanes.map (·.2))).find? fun w => (assoc w got).isNone with
          | some w =>
            if p.openWin w = false then put s (got ++ [(w, 0)]) false true
            else if s.winBusy g.part w then put s got false false
            else
              let (v, s) := s.sendVersion g.part w gid o.seq oid
              put s (got ++ [(w, v)]) true false
          | none => s.completeOp oid (lanes.map fun l => (l.1, words2 ((assoc l.2 got).getD 0))) false
      | _, _ => s)

/-! ## Emission (R127-R129, R317) -/

/-- `emit` (R317): what R128 judges at once is judged at issue. -/
def Ctx.emitLane (x : Ctx) (lane : Nat) : EmitLane :=
  let j := x.part.jr
  let jsid := (x.slot x.f.sa 0 lane).toNat % 2 ^ 24
  let seq := (x.slot x.f.sa 1 lane).toNat
  let got := ((j.stream jsid).bind fun t => t.recs.find? fun r => decide (r.seq = seq)).filter fun r => decide (r.rcd.type = 1) && j.inRange jsid
  let e : EmitLane := { lane := lane, seq := seq, rcd := (got.map SeqRec.rcd).getD default, phase := 0, status := none }
  if j.st = .off then { e with status := some 2 }
  else if got.isNone then { e with status := some 3 }
  else if j.st = .down then { e with status := some 1 }
  else if seq ≤ ((j.stream jsid).map Stream.durable).getD 0 then { e with phase := 1 }
  else e

def execEmit (f : Fld) (s : State) : Out' :=
  .next (runLanes (.emit f) (fun x => .done (x.issueOp x.s f.dst (.emit (x.lanes.map x.emitLane))).2) s)

/-- Host address of a stream's area in the emission window (R127). -/
def Journal.area (j : Journal) (host jsid : Nat) : Nat := host + (jsid - j.p.jbase) * (64 + 16 * 2 ^ j.p.ringk)

/-- The 16 bytes of a record (R119). -/
def recBytes (r : JRec) : List Byte := leBytes 4 (r.jsid + 2 ^ 24 * r.type) ++ leBytes 4 r.pos.toNat ++ leBytes 4 r.lo.toNat ++ leBytes 4 r.hi.toNat

/-- What a replay grid's `.sys` acquire load of `delivered` does besides (R112, R128, R278): GC joins the stamp of what it reads, the home L2
copy and the L1 line are fetched anew, and the group reads no older copy of a window's line. -/
def State.deliveredRead (s : State) (g : Group) (o : Op) (w : Window) (a : Nat) : State :=
  let st := (View.mk [] s.hostMarks).stampN a 8
  let va := w.va + (a - w.host)
  let s := s.joinGc g.gid o.seq st
  let s := match s.xlat g.part va with
    | .host _ _ h =>
      if h = a then
        let r := s.readView g .host va
        s.installLine g .host false va r.1 r.2
      else s
    | _ => s
  s.acquired g.gid 5

/-- The next thing that a durable lane of an `emit` does: suppression in a replay grid, the write of the ring slot and of
`emitted` (R354), the publish, the end (DEDUCED, log 67). In mode 0 there is no emission window (R128). One whose stream was closed meanwhile goes by
the window, jbase and ring order in force at the write (DESIGN CHOICE, log 119). -/
def State.emitStep (s : State) (g : Group) (o : Op) (e : EmitLane) : State × EmitLane :=
  match s.part? g.part with
  | none => (s, e)
  | some p =>
    let j := p.jr
    let n := 2 ^ j.p.ringk
    let replay := ((s.grid? g.grid).map fun x => decide (x.card.flags / 4 % 2 = 1)).getD false
    match e.status, e.phase, (if j.st = .off then none else p.window? j.p.window) with
    | none, 1, some w =>
      let a := j.area w.host e.rcd.jsid
      let d := memDWord s.host a
      let s := if replay then s.deliveredRead g o w a else s
      if replay && ((s.grp? g.gid).map fun g => !(s.covered g)).getD false then (s, e)
      else if replay && decide (e.rcd.pos.toNat ≤ d.toNat) then (s, { e with status := some 0 })
      else if w.closing then (s, { e with status := some 4 })
      else
        let slot := a + 64 + 16 * (e.rcd.pos.toNat % n)
        let em : DWord := BitVec.ofNat 64 ((assoc e.rcd.jsid j.emitted).getD 0 + 1)
        let s := s.updJr g.part fun j => { j with emitted := setAssoc e.rcd.jsid em.toNat j.emitted }
        let s := s.sendRma g.part w.num g.gid o.seq o.oid (cellsAt slot (recBytes e.rcd))
        (s.sendRma g.part w.num g.gid o.seq o.oid (cellsAt (a + 8) (leBytes 8 em.toNat)), { e with phase := 2 })
    | none, 2, some w =>
      if w.closing then (s, { e with status := some 4 })
      else if s.winBusy g.part w.num then (s, e)
      else ((s.sendVersion g.part w.num g.gid o.seq o.oid).2, { e with phase := 3 })
    | none, 3, _ => if s.versionOut g.gid o.oid then (s, e) else (s, { e with status := some 0 })
    | none, 1, none => (s, { e with status := some 4 })
    | none, 2, none => (s, { e with status := some 4 })
    | _, _, _ => (s, e)

/-- EMIT_DURABLE (R41, R128): each durable lane goes on; once every lane has its status the `emit` completes. -/
def execEmitDurable (gid oid : Nat) (s : State) : Out' :=
  .next (match (s.grp? gid).bind fun g => (g.op? oid).map fun o => (g, o) with
    | none => s
    | some (g, o) =>
      match o.kind with
      | .emit lanes =>
        if s.killed g || s.opLost g o then s.finishOp oid true
        else if s.opCaught g o then s
        else
        let r := lanes.foldl (fun (r : State × List EmitLane) e =>
          let t := r.1.emitStep g o e
          (t.1, r.2 ++ [t.2])) (s, [])
        let s := (r.1.holders oid).foldl (fun (s : State) (h : Group) => s.updOp h.gid oid fun o => { o with kind := .emit r.2 }) r.1
        if r.2.all fun e => e.status.isSome then
          s.completeOp oid (r.2.map fun e => (e.lane, words1 (BitVec.ofNat 32 (e.status.getD 0)))) (r.2.any fun e => decide (3 ≤ e.status.getD 0))
        else s
      | _ => s)

/-- Marks the waiting lanes of every `emit` of the partition: durable ones may go on; with `lost`, the others end with status 1
(R128). -/
def State.markEmits (s : State) (part : Nat) (lost : Bool) : State :=
  let j := s.jr part
  let lane : EmitLane → EmitLane := fun e =>
    if e.status.isSome ∨ e.phase ≠ 0 then e
    else if e.seq ≤ ((j.stream e.rcd.jsid).map Stream.durable).getD noSeq then { e with phase := 1 }
    else if lost then { e with status := some 1 } else e
  let op : Op → Op := fun o => match o.kind with | .emit ls => { o with kind := .emit (ls.map lane) } | _ => o
  { s with groups := s.groups.map fun g => if g.part = part then { g with ops := g.ops.map op } else g }

/-! ## Truncation (R130, R319) -/

/-- What a lane of a `jtrunc` meets: it fails, waits, or is performed. -/
inductive TruncNow where
  | fails | waits | go
deriving DecidableEq, Repr

def Journal.truncNow (j : Journal) (t : TruncLane) : TruncNow :=
  match j.partner, j.stream t.jsid with
  | some _, some x =>
    match t.seq with
    | some a =>
      if x.recs.any fun r => decide (r.seq = a) && decide (r.rcd.type = 4) then (if a ≤ x.durable then .go else .waits) else .fails
    | none => if x.last ≤ x.durable then .go else .waits
  | _, _ => .fails

/-- Frees a stream's records and tells the partner. -/
def State.truncStream (s : State) (part : Nat) (t : TruncLane) : State :=
  match t.seq with
  | some a =>
    (s.updJr part fun j => j.updStream t.jsid fun x => { x with trunc := a - 1, recs := x.recs.filter fun r => decide (a ≤ r.seq) }).toPartner part
      [.trunc t.jsid (a - 1)]
  | none => (s.updJr part fun j => { j with
      streams := j.streams.filter fun x => decide (x.jsid ≠ t.jsid), goal := j.goal.filter fun e => decide (e.1 ≠ t.jsid) }).toPartner part [.trunc t.jsid noSeq]

/-- Performs lanes in order until one must wait; `lost` ends those that wait (R130) (DEDUCED, log 69). -/
def State.truncLanes (s : State) (g : Group) (d : Dest) (lost : Bool) : List TruncLane → List TruncLane × State
  | [] => ([], s)
  | t :: ts =>
    match (if s.reelAway g then .fails else if s.reelCaught g then .waits else (s.jr g.part).truncNow t) with
    | .fails => (s.truncResult g d t.lane 1).truncLanes g d lost ts
    | .go => ((s.truncStream g.part t).truncResult g d t.lane 0).truncLanes g d lost ts
    | .waits => if lost then (s.truncResult g d t.lane 1).truncLanes g d lost ts else (t :: ts, s)

/-- A split's `jtrunc` goes on as far as it can; then the split, and its twin's, issue again. -/
def State.truncGo (s : State) (gid sid : Nat) (lost : Bool) : State :=
  match (s.grp? gid).bind fun g => (g.split? sid).map fun p => (g, p) with
  | none => s
  | some (g, p) =>
    match p.wait with
    | .jtrunc lanes d =>
      if s.killed g then (s.endTruncs g p).after gid
      else
      let r := s.truncLanes g d lost lanes
      let set : Wait → Group → Group := fun w g => g.updSplit sid fun p => { p with wait := w }
      if r.1.isEmpty then
        let s := r.2.updGrp gid (set .none)
        let s := match s.twin g with | some t => s.updGrp t.gid (set .none) | none => s
        s.after gid
      else r.2.updGrp gid (set (.jtrunc r.1 d))
    | _ => s

/-- `jtrunc` in either form (R319): lanes in ascending order; the split waits at the first that must. -/
def Ctx.truncate (x : Ctx) (close : Bool) : Eff :=
  let a : Nat → Nat := fun l => if x.f.i then ((immFor 2 x.f).setWidth 32 : Word).toNat else (x.slot x.f.sb 0 l).toNat
  let lanes : List TruncLane := x.lanes.map fun l =>
    { lane := l, jsid := (x.slot x.f.sa 0 l).toNat % 2 ^ 24, seq := if close then none else some (a l) }
  let d := x.dest x.f.dst
  let r := x.s.truncLanes x.g d false lanes
  .done (if r.1.isEmpty then r.2 else r.2.updGrp x.gid fun g => g.updSplit x.p.sid fun p => { p with wait := .jtrunc r.1 d })

def execJtrunc (f : Fld) (s : State) : Out' := .next (runLanes (.jtrunc f) (fun x => x.truncate false) s)
def execJtruncClose (f : Fld) (s : State) : Out' := .next (runLanes (.jtruncClose f) (fun x => x.truncate true) s)

/-- JTRUNC_DURABLE (R130, R319). -/
def execJtruncDurable (gid sid : Nat) (s : State) : Out' := .next (s.truncGo gid sid false)

/-! ## Partners (R124, R125) -/

/-- Every waiting `jtrunc` of the partition is performed as far as it can be; the rest ends with the partner (R130). -/
def State.loseTruncs (s : State) (part : Nat) : State :=
  s.groups.foldl (fun s g => if g.part = part then g.splits.foldl (fun s p => s.truncGo g.gid p.sid true) s else s) s

/-- A SWITCH ends when its goal is acknowledged. -/
def State.settleSwitch (s : State) (part : Nat) : State :=
  s.updJr part fun j => match j.st with
    | .switch k =>
      if j.goal.all fun e => match j.stream e.1 with | some x => decide (e.2 ≤ x.durable) | none => true then { j with st := .live k, goal := [] } else j
    | _ => j

/-- The current partner goes: `emit`s and `jtrunc`s that wait for it end, a new partner list among the reasons (R128, R130; DESIGN CHOICE,
log 108). -/
def State.partnerGone (s : State) (part : Nat) : State := (s.markEmits part true).loseTruncs part

/-- A switch (R125) to partner `k` of the list in force, or to DOWN: durable marks return to the truncation points, PARTNER_LOST
is raised, and every live record is sent again. -/
def State.switchTo (s : State) (part k : Nat) : State :=
  let s := s.partnerGone part
  let j := s.jr part
  let old := (j.partner).getD 0xFF
  let down := decide (j.p.npart ≤ k)
  let s := s.updPart part fun p => { p with
    cnt := { p.cnt with jSwitches := p.cnt.jSwitches + 1 }
    jr := { p.jr with
      st := if down then .down else .switch k
      streams := p.jr.streams.map fun x => { x with durable := x.trunc }
      unsent := []
      goal := p.jr.streams.map fun x => (x.jsid, x.last) } }
  let s := s.raise part (.partnerLost j.p.jbase j.p.jcount old (if down then 0xFF else k))
  (s.sendRecs part true (j.streams.flatMap Stream.recs)).settleSwitch part

/-- The current partner is lost. -/
def State.losePartner (s : State) (part : Nat) : State :=
  match (s.jr part).partner with
  | some k => s.switchTo part (k + 1)
  | none => s

/-- The durable marks that an ACK raises. -/
def Journal.acked (j : Journal) (es : List AckEntry) : Journal :=
  es.foldl (fun j e => j.updStream e.jsid fun x => { x with durable := max x.durable (min e.durable x.last) }) j

/-- ACK (R92, R124, R125): from the current partner, over its connection. It is applied whole; then status 1 in some entry loses the partner. A loss waits for a place
for its event (R111). -/
def execAck (part partner : Nat) (es : List AckEntry) (s : State) : Out' :=
  let full := es.any fun e => decide (e.status = 1)
  .next (if (s.jr part).partner = some partner ∧ s.dev.conns.contains ((s.jr part).addr partner) = true ∧ (full = false ∨ s.evRoom part 1 = true) then
      let s := s.updJr part fun j => { j.acked es with ackAt := s.dev.up }
      let s := (s.settleSwitch part).markEmits part false
      if full then s.losePartner part else s
    else s)

/-- PARTNER_CONNECTION_FAIL (R125). -/
def execPartnerConnectionFail (part partner : Nat) (s : State) : Out' :=
  .next (if (s.jr part).partner = some partner ∧ s.evRoom part 1 = true then s.losePartner part else s)

/-- ACK_TIMEOUT (R125): no ACK for `timeout` µs while records sent are not acknowledged. -/
def execAckTimeout (part : Nat) (s : State) : Out' :=
  let j := s.jr part
  .next (if j.partner.isSome ∧ s.evRoom part 1 = true ∧ j.unacked = true ∧ j.ackAt + 1000 * j.p.timeout ≤ s.dev.up then s.losePartner part else s)

/-! ## This device as a partner (R121, R124) -/

/-- The job identifiers that a partition admits (R95, R114). -/
def State.admits (s : State) (p : Part) (job : Nat) : Bool := p.jobs.contains job || decide (s.dev.supJob = some job)

/-- The store, of a configured partition. -/
def Journal.room (j : Journal) : Nat := if j.st = .off then 0 else j.p.storelen / 32
def Journal.held (j : Journal) (serial : DWord) (jsid : Nat) : List Stored := j.store.filter fun r => decide (r.serial = serial) && decide (r.jsid = jsid)
def lastHeld (rs : List Stored) : Nat := rs.foldl (fun m r => max m r.seq) 0

/-- One entry of an APPEND; true when the store is full, or absent, whatever it held before (R121, R124). -/
def Journal.keep (j : Journal) (serial : DWord) (e : SeqRec) : Journal × Bool :=
  let held := j.held serial e.rcd.jsid
  if j.room = 0 then (j, true)
  else if held.isEmpty ∨ e.seq = lastHeld held + 1 then
    if j.room ≤ j.store.length then (j, true)
    else ({ j with store := j.store ++ [⟨serial, e.rcd.jsid, e.seq, e.rcd⟩] }, false)
  else (j, false)

/-- APPEND (R121, R124): stored in order, then acknowledged for each stream of the message. A peer that was refused or never connected sends
nothing (R92). -/
def execAppend (part : Nat) (src : Sender) (job : Nat) (es : List SeqRec) (s : State) : Out' :=
  .next (match s.part? part with
    | none => s
    | some p =>
      if s.admits p job = false ∨ s.dev.conns.contains src.peer = false then s
      else
        let r := es.foldl (fun (r : Journal × List Nat) e =>
          let k := r.1.keep src.serial e
          (k.1, if k.2 then e.rcd.jsid :: r.2 else r.2)) (p.jr, [])
        let acks := (dedupN (es.map fun e => e.rcd.jsid)).map fun q =>
          ({ jsid := q, status := if r.2.contains q then 1 else 0, durable := lastHeld (r.1.held src.serial q) } : AckEntry)
        (s.updJr part fun _ => r.1).output (.peer part src.peer s.dev.fuses.serial (.ack acks)))

/-- TRUNC (R124). -/
def execTrunc (part : Nat) (src : Sender) (es : List (Nat × Nat)) (s : State) : Out' :=
  .next (if s.dev.conns.contains src.peer = false then s else s.updJr part fun j => { j with store := j.store.filter fun r =>
    !(es.any fun e => decide (r.serial = src.serial) && decide (r.jsid = e.1) && (decide (e.2 = noSeq) || decide (r.seq ≤ e.2))) })

/-- The record of type 0 that ends an answer (R124). -/
def endRec : SeqRec := ⟨0, { jsid := 0, type := 0, pos := 0, lo := 0, hi := 0 }⟩

/-- The serials of the devices whose stream `jsid` is kept here. -/
def Journal.serials (j : Journal) (jsid : Nat) : List DWord :=
  (j.store.filter fun r => decide (r.jsid = jsid)).foldl (fun l r => if l.contains r.serial then l else l ++ [r.serial]) []

/-- FETCH (R124): the stored records from the first sequence upward, then the end record, to the peer that asked. The message carries the
asking device's serial, as every message does its sender's, and names a jsid alone: where streams of several devices have it, which of them is
answered is free (DESIGN CHOICE, log 99). -/
def execFetch (part : Nat) (src : Sender) (jsid first count : Nat) (s : State) : Out' :=
  .next (match s.part? part with
    | none => s
    | some p =>
      if s.dev.conns.contains src.peer = false then s
      else
      let who := p.jr.serials jsid
      let (k, s) := s.drawNat
      let rs := ((sortBy Stored.seq (p.jr.held (who.getD (k % max who.length 1) 0) jsid)).filter fun r => decide (first ≤ r.seq)).take count
      let es := rs.map (fun r => (⟨r.seq, r.rcd⟩ : SeqRec)) ++ [endRec]
      (chunks64 (es.length / 64 + 1) es).foldl (fun s c => s.output (.peer part src.peer s.dev.fuses.serial (.fetched c))) s)

/-- FETCHED (R124, R131): an answer for the REPLAY_BIND that Fubebex is in. -/
def execFetched (part jsid : Nat) (es : List SeqRec) (s : State) : Out' :=
  .next (match s.dev.busy with
    | some ⟨h, .replayBind b⟩ =>
      if h.part ≠ part ∨ s.dev.conns.contains b.holder = false ∨ jsid < b.jfirst ∨ b.jfirst + b.jn ≤ jsid ∨ (s.jr part).bindDone.contains jsid = true then s
      else
        let body := es.takeWhile fun e => !(decide (e.seq = 0) && decide (e.rcd.type = 0))
        let ended := es.any fun e => decide (e.seq = 0) && decide (e.rcd.type = 0)
        s.updJr part fun j => { j with
          bindGot := j.bindGot ++ body.map fun e => ⟨b.serial, jsid, e.seq, e.rcd⟩
          bindDone := if ended then jsid :: j.bindDone else j.bindDone }
    | _ => s)

/-! ## Replay (R131, R132) -/

/-- Adopts the records of a range: one stream for each jsid that has any. -/
def adopted (b : BindParams) (rs : List Stored) : List Stream :=
  (sortBy id (dedupN ((rs.filter fun r => decide (b.jfirst ≤ r.jsid) && decide (r.jsid < b.jfirst + b.jn)).map Stored.jsid))).map fun q =>
    let mine := sortBy Stored.seq (rs.filter fun r => decide (r.jsid = q))
    let first := (mine.map Stored.seq).headD 1
    let last := lastHeld mine
    { jsid := q, trunc := first - 1, last := last, durable := first - 1, recs := mine.map fun r => ⟨r.seq, r.rcd⟩, cursor := some first, adopted := last }

/-- A stream of the range is open here. -/
def Journal.binds (j : Journal) (b : BindParams) : Bool := j.streams.any fun x => decide (b.jfirst ≤ x.jsid) && decide (x.jsid < b.jfirst + b.jn)

/-- Adopts the records, or refuses: 6 before 8 (R94, R118, R131). The failed device's records leave the store. -/
def State.finishBind (s : State) (h : CmdHdr) (b : BindParams) (rs : List Stored) : State :=
  let j := s.jr h.part
  let new := adopted b rs
  let n := (new.map fun x => x.recs.length).sum
  let opened := (s.parts.map fun p => p.jr.streams.length).sum
  let s := s.updJr h.part fun j => { j with bindDone := [], bindGot := [] }
  if j.p.buflen / 32 < j.liveRecs + n ∨ 65536 < j.streams.length + new.length ∨ 262144 < opened + new.length then s.complete h 6 .none
  else if j.binds b then s.complete h 8 .none
  else
    let s := s.updJr h.part fun j => { j with
      streams := j.streams ++ new
      store := j.store.filter fun r => decide (r.serial ≠ b.serial) }
    (s.sendRecs h.part (!j.unacked) (new.flatMap Stream.recs)).complete h 0 .none

/-- REPLAY_BIND (R131). While it waits for a holder's answers the holder may be found out of reach (DESIGN CHOICE, log 4)
(DESIGN CHOICE, log 68): then the number that is known to apply and is lowest is returned (R94). -/
def execReplayBind (h : CmdHdr) (b : BindParams) (s : State) : Out' :=
  .next (match s.part? h.part with
    | none => s.complete h 4 .none
    | some p =>
      let j := p.jr
      if h.rsvP then s.complete h 1 .none
      else if 2 ^ 24 ≤ b.jfirst ∨ b.jn = 0 ∨ 65536 < b.jn ∨ j.st = .off ∨ b.jfirst < j.p.jbase ∨ j.p.jbase + j.p.jcount < b.jfirst + b.jn then
        s.complete h 2 .none
      else if b.holder = 0 then s.finishBind h b (j.store.filter fun r => decide (r.serial = b.serial))
      else
        let ids := (List.range b.jn).map fun i => b.jfirst + i
        let waits := decide (s.dev.busy = some ⟨h, .replayBind b⟩)
        if waits ∧ (ids.all fun q => j.bindDone.contains q) = true then s.finishBind h b j.bindGot
        else
          let ok := s.dev.conns.contains b.holder && Config.freeBit s.free 0
          let s : State := { s with free := s.free + 1 }
          if ok = false then (s.updJr h.part fun j => { j with bindDone := [], bindGot := [] }).complete h (if j.binds b then 8 else 11) .none
          else if waits then s
          else
            let s := ids.foldl (fun (s : State) q => s.output (.peer h.part b.holder s.dev.fuses.serial (.fetch q 0 noSeq))) s
            s.updDev fun d => { d with busy := some ⟨h, .replayBind b⟩ })

/-- `jrd` (R132, R318): the record at each lane's stream's cursor, in ascending lane order. At a cursor whose record `jtrunc` has freed it gives type
0, and the cursor stays (DESIGN CHOICE, log 114). -/
def execJrd (f : Fld) (s : State) : Out' :=
  .next (runLanes (.jrd f) (fun x =>
    let replay := decide (x.grid.card.flags / 4 % 2 = 1)
    let one : State × List (Nat × List Word) × Bool → Nat → State × List (Nat × List Word) × Bool := fun r l =>
      let jsid := (x.slot f.sa 0 l).toNat % 2 ^ 24
      let bad := (r.1, r.2.1 ++ [(l, List.replicate 5 (0 : Word))], true)
      if replay = false ∨ x.s.reelAway x.g = true then bad
      else match (r.1.jr x.g.part).stream jsid with
        | none => bad
        | some t =>
          match t.cursor with
          | none => bad
          | some c =>
            match (t.recs.find? fun e => decide (e.seq = c)).filter fun _ => decide (c ≤ t.adopted) with
            | none => (r.1, r.2.1 ++ [(l, List.replicate 5 (0 : Word))], r.2.2)
            | some e =>
              let s := r.1.updJr x.g.part fun j => j.updStream jsid fun t => { t with cursor := some (c + 1) }
              (s, r.2.1 ++ [(l, bytesToWords (recBytes e.rcd) ++ [BitVec.ofNat 32 c])], r.2.2)
    if replay = true ∧ x.s.reelCaught x.g = true then .wait x.s
    else
    let r := x.lanes.foldl one (x.s, [], false)
    let (oid, s) := x.issueOp r.1 f.dst (.job 0)
    .done (s.completeOp oid r.2.1 r.2.2)) s)

/-! ## Configuration (R120, R125) -/

/-- The pages of a run are mapped and raw-pinned. A run of length 0 has none; of one that starts or ends within a page every page it touches counts
(DESIGN CHOICE, log 113). -/
def State.rawPages (s : State) (part va len : Nat) : Bool :=
  decide (len = 0) || (List.range ((va + len + 65535) / 65536 - va / 65536)).all fun i => (s.page? part (va / 65536 + i)).any fun pg => decide (pg.cls = 1) && pg.hw.isNone && !pg.own

/-- The checks of R120 on a configuration of mode 1. A buffer of length 0 passes (DESIGN CHOICE, log 113). -/
def State.journalOk (s : State) (p : Part) (c : JournalParams) : Bool :=
  let clash := s.parts.any fun q => decide (q.id ≠ p.id) && decide (q.jr.st ≠ .off) && decide (c.jbase < q.jr.p.jbase + q.jr.p.jcount)
    && decide (q.jr.p.jbase < c.jbase + c.jcount)
  decide (c.jbase < 2 ^ 24) && decide (1 ≤ c.jcount) && decide (c.jcount ≤ 2 ^ 24 - c.jbase) && decide (c.npart ≤ 4) && decide (c.window ≤ 255)
    && decide (4 ≤ c.ringk) && decide (c.ringk ≤ 12) && decide (c.buflen % 65536 = 0) && decide (c.storelen % 65536 = 0)
    && decide (100 ≤ c.timeout) && decide (c.timeout ≤ 1000000) && decide (c.npart ≤ c.partners.length)
    && ((c.partners.take c.npart).all fun e => decide (e.kind = 1) || decide (e.kind = 2)) && !clash
    && ((p.window? c.window).any fun w => !w.closing && decide (c.jcount * (64 + 16 * 2 ^ c.ringk) ≤ w.len))
    && s.rawPages p.id c.bufva c.buflen && s.rawPages p.id c.storeva c.storelen

/-- Fubebex clears W on the pages of a run. -/
def State.sealPages (s : State) (part va len : Nat) : State :=
  { s with pages := s.pages.map fun pg =>
      if pg.part = part ∧ 0 < len ∧ va / 65536 ≤ pg.vpn ∧ pg.vpn < (va + len + 65535) / 65536 then { pg with w := false } else pg }

/-- JOURNAL_CONFIG (R120, R125). Entries of the partner list at or above npart count in telling a new list, and with no place for an event (R111) a
JOURNAL_CONFIG in mode 1 waits, one without a switch too (DESIGN CHOICE, log 113). The stored records stay whatever changes, in mode 0 too (DESIGN
CHOICE, log 114). -/
def execJournalConfig (h : CmdHdr) (c : JournalParams) (s : State) : Out' :=
  .next (match s.part? h.part with
    | none => s.complete h 4 .none
    | some p =>
      let j := p.jr
      let same := decide ({ c with npart := j.p.npart, partners := j.p.partners, timeout := j.p.timeout } = j.p)
      if h.rsvP then s.complete h 1 .none
      else if 1 < c.mode ∨ (c.mode = 1 ∧ s.journalOk p c = false) then s.complete h 2 .none
      else if !j.streams.isEmpty && !same then s.complete h 8 .none
      else if c.mode = 0 then (s.updJr p.id fun j => { Journal.off with store := j.store }).complete h 0 .none
      else if j.st ≠ .off ∧ s.evRoom p.id 1 = false then s.updDev fun d => { d with busy := some ⟨h, .journalConfig c⟩ }
      else
        let s := (s.sealPages p.id c.bufva c.buflen).sealPages p.id c.storeva c.storelen
        let switch : Bool := match j.st with
          | .off => false
          | .down => decide (c.npart ≠ 0)
          | _ => decide (c.npart ≠ j.p.npart) || decide (c.partners ≠ j.p.partners)
        let s := if switch then s.partnerGone p.id else s
        let s := s.updJr p.id fun j => { j with p := c, st := if j.st = .off then (if c.npart = 0 then .down else .live 0) else j.st }
        (if switch then s.switchTo p.id 0 else s).complete h 0 .none)

end Sys2Proof.Machine
end

