-- ==== Sys2Proof/Machine/Service.lean ====
section
/-!
DEFINITION. Special registers and time (R342, R343, and the register tables of R17, R23, R25, R40, R46, R64, R81, R109, R132, R154,
R171, R176, R181), `trap` and `brk` (R341), `svc` with the request ring and SVC_DONE (R103, R179, R340, R346, R347), and
FAULT_RESOLVE (R56, R57, R363).
-/

namespace Sys2Proof.Machine

/-! ## Special registers (R9, R108, R342) -/

/-- Registers 0x000 to 0x0FF: per group and per core. FMT is the reading split's. -/
def State.groupReg (s : State) (g : Group) (p : Split) (n : Nat) : Option DWord :=
  let pt := (s.part? g.part).getD default
  match n with
  | 0x000 => some (BitVec.ofNat 64 (s.lcoreOf pt g.core))
  | 0x001 => some (BitVec.ofNat 64 (dieOf g.core))
  | 0x002 => some (BitVec.ofNat 64 (quadOf g.core % 4))
  | 0x003 => some (g.park.setWidth 64)
  | 0x010 => some (g.trap.tlm.setWidth 64)
  | 0x011 => some (BitVec.ofNat 64 (g.trap.code.toNat + if g.trap.inH then 256 else 0))
  | 0x012 => some g.trap.tpc
  | 0x013 => some g.trap.taddr
  | 0x020 => some (p.fmt.setWidth 16 |>.setWidth 64)
  | 0x021 => some (g.dead.setWidth 64)
  | 0x022 => some g.wake
  | 0x023 => some (g.flagErr.setWidth 64)
  | 0x030 => some (BitVec.ofNat 32 (s.core! g.core).credit |>.setWidth 64)
  | _ => none

/-- Registers 0x100 to 0x1FF: per partition. BALLOON_ACK is write-only and reads zero. -/
def State.partReg (s : State) (p : Part) (n : Nat) : Option DWord :=
  match n with
  | 0x100 => some (BitVec.ofInt 64 p.avail)
  | 0x101 => some (BitVec.ofNat 64 (p.cnt.faults.toNat * 2 ^ 32 + s.parkedCap p.id % 2 ^ 16 * 256
      + (if (s.agent p.id).isSome then 4 else 0) + p.level))
  | 0x102 => some 0
  | 0x103 => some (BitVec.ofInt 64 p.free)
  | 0x104 => some (BitVec.ofNat 64 p.pledged)
  | 0x110 => some (BitVec.ofNat 64 p.topoVa)
  | 0x111 => some (BitVec.ofNat 64 (p.topoVa + s.capOff p))
  | 0x120 => some p.cnt.leaseGrants
  | 0x121 => some p.cnt.leaseWait
  | 0x122 => some p.cnt.leaseLong
  | 0x123 => some p.cnt.throttleCnt
  | 0x124 => some (BitVec.ofNat 64 (p.quads.foldl (fun m q => m + if (s.quad! q).decTed then 2 ^ q else 0) 0))
  | 0x125 => some p.cnt.eccSwitch
  | 0x130 => some p.cnt.ttSkips
  | 0x131 => some p.cnt.ttDefers
  | 0x132 => some p.cnt.ttAborts
  | 0x133 => some (s.dev.logOverflow.setWidth 64)
  | 0x140 => some (BitVec.ofNat 64 p.jr.stateWord)
  | 0x141 => some (BitVec.ofNat 64 p.jr.liveRecs)
  | 0x142 => some p.cnt.jSwitches
  | 0x143 => some (BitVec.ofNat 64 p.jr.streams.length)
  | 0x150 => some p.cnt.evictions
  | 0x151 => some p.cnt.demotions
  | 0x152 => some p.cnt.wdKills
  | 0x153 => some (BitVec.ofNat 64 (s.liveNodes p.id).length)
  | 0x160 => some p.cnt.mismatches
  | _ => none

/-- Registers 0x800 to 0x8FF: the partition's control registers. -/
def Part.ctlReg (p : Part) (n : Nat) : Option DWord :=
  match n with
  | 0x801 => some (BitVec.ofNat 64 p.regs.ratio)
  | 0x802 => some (BitVec.ofNat 64 p.regs.chunk)
  | 0x803 => some (BitVec.ofNat 64 p.regs.floor)
  | 0x804 => some (BitVec.ofNat 64 p.regs.pwrCap)
  | 0x805 => some (p.regs.detour.setWidth 64)
  | 0x806 => some (BitVec.ofNat 64 p.regs.balloonTimeout)
  | 0x807 => some (BitVec.ofNat 64 p.regs.watchdog)
  | 0x808 => some (BitVec.ofNat 64 (p.regs.ringK * 256 + p.regs.ringWin))
  | 0x809 => some p.regs.rmaKey
  | _ => none

/-- Registers 0x900 to 0x9FF: the device's (PTP_STATE). -/
def Dev.devReg (d : Dev) (n : Nat) : Option DWord :=
  if n = 0x900 then some (BitVec.ofNat 64 (d.ptpPort.toNat * 4 + d.ptpMode)) else none

/-- Mapped bytes, as the promise counts them (R80). -/
def State.mappedBytes (s : State) (part : Nat) : Nat :=
  65536 * (s.pages.filter fun g => decide (g.part = part) && g.hw.isNone && !g.own).length

/-- The promise at a RATIO (R80). -/
def promise (ratio quads : Nat) : Nat := ratio * quads * 3000000000

/-- DETOUR as a write leaves it: the fields of a die pair (a, a) are reserved (R40). -/
def detourBits (v : DWord) : BitVec 32 := v.setWidth 32 &&& ~~~ (0xC0300C03 : BitVec 32)

/-- A write of a control register, with its clamping (R23, R81, R109, R154, R181). -/
def State.setCtl (s : State) (part n : Nat) (v : DWord) : State :=
  s.updPart part fun p =>
    let x := v.toNat
    let q := p.quads.length
    match n with
    | 0x801 =>
      let r := x % 64
      if 16 ≤ r ∧ r ≤ 32 ∧ s.mappedBytes part ≤ promise r q then { p with regs := { p.regs with ratio := r } } else p
    | 0x802 => { p with regs := { p.regs with chunk := max 8 (min 4096 (x % 8192)) / 8 * 8 } }
    | 0x803 => { p with regs := { p.regs with floor := x } }
    | 0x804 => { p with regs := { p.regs with pwrCap := max (165 * q) (min (250 * q) (x % 65536)) } }
    | 0x805 => { p with regs := { p.regs with detour := detourBits v } }
    | 0x806 => { p with regs := { p.regs with balloonTimeout := x % 2 ^ 32 } }
    | 0x807 => { p with regs := { p.regs with watchdog := x % 2 ^ 32 } }
    | 0x808 =>
      let k := x / 256 % 16
      if 4 ≤ k ∧ k ≤ 12 then { p with regs := { p.regs with ringWin := x % 256, ringK := k } } else p
    | 0x809 => { p with regs := { p.regs with rmaKey := v } }
    | _ => p

/-- A write of a privileged register: the partition's, or PTP_STATE.PORT. Pressure follows a new RESERVE_FLOOR (R87). -/
def State.setPriv (s : State) (part n : Nat) (v : DWord) : State :=
  if n = 0x900 then s.updDev fun d => { d with ptpPort := v.extractLsb' 2 3 }
  else
    let s := s.setCtl part n v
    if n = 0x803 then s.settlePressure part else s

/-- A number that a register holds, bit 11 clear. -/
def State.assigned (s : State) (g : Group) (p : Split) (n : Nat) : Option DWord :=
  match s.groupReg g p n with
  | some v => some v
  | none => s.partReg ((s.part? g.part).getD default) n

/-- `rdsr` (R342). -/
def execRdsr (f : Fld) (s : State) : Out' :=
  .next (runLanes (.rdsr f) (fun x =>
    let n := f.imm.toNat
    if 0x800 ≤ n then .trap 0x50 x.act 0
    else match x.s.assigned x.g x.p n with
      | some v => .done (x.wr x.s f.dst fun _ => words2 v)
      | none => .trap 0x03 x.act 0) s)

/-- FMT's reserved format and NRND values, which a write refuses (R171, R342). -/
def fmtReserved (v : DWord) : Bool := fmtBad 0x0F (v.setWidth 32)

/-- DEDUCED, log 60. -/
def Group.writeFmt (g : Group) (sid : Nat) (v : DWord) : Group :=
  if fmtReserved v then g else g.updSplit sid fun p => { p with fmt := v.setWidth 16 |>.setWidth 32 }
def Group.writeTpc (g : Group) (v : DWord) : Group := if g.trap.inH then { g with trap := { g.trap with tpc := v } } else g
def Group.clearErr (g : Group) (v : DWord) : Group := { g with flagErr := g.flagErr &&& ~~~ (v.setWidth 12) }

/-- A group of the partition's agent grid, which alone may write BALLOON_ACK (R81). -/
def State.isAgent (s : State) (g : Group) : Bool := decide ((s.agent g.part).map Grid.id = some g.grid)

/-- An acknowledgement of cells, from either agent (R89, R344). -/
def State.ackCells (s : State) (part : Nat) (v : DWord) : State := s.balloonAck part (v.toNat % 2 ^ 32)

/-- `wrsr` (R342). -/
def execWrsr (f : Fld) (s : State) : Out' :=
  .next (runLanes (.wrsr f) (fun x =>
    let n := f.imm.toNat
    let v := x.val f.sa (if f.mod.getLsbD 0 then 1 else 2) (lowest x.act)
    if 0x800 ≤ n then .trap 0x50 x.act 0
    else match n with
      | 0x020 => if fmtReserved v then .trap 0x03 x.act 0 else .done (x.s.updGrp x.gid fun g => g.writeFmt x.p.sid v)
      | 0x012 => .done (x.s.updGrp x.gid fun g => g.writeTpc v)
      | 0x023 => .done (x.s.updGrp x.gid fun g => g.clearErr v)
      | 0x102 => if x.s.isAgent x.g then .done (x.s.ackCells x.g.part v) else .trap 0x50 x.act 0
      | _ => if (x.s.assigned x.g x.p n).isSome then .done x.s else .trap 0x03 x.act 0) s)

/-- REGISTER_WRITE (R342, R108): the write of a register that has no row of its own. Registers below 0x800 do not change. -/
def execRegisterWrite (part num : Nat) (v : DWord) (s : State) : Out' :=
  .next (if 0x800 ≤ num then s.setPriv part num v else s)

/-- BALLOON_ACK_WRITE (R81): a write of BALLOON_ACK by a group of the agent grid. -/
def execBalloonAckWrite (gid : Nat) (v : DWord) (s : State) : Out' :=
  .next (match s.grp? gid with
    | some g => if s.isAgent g then s.ackCells g.part v else s
    | none => s)

/-- FLAGERR_WRITE (R206). -/
def execFlagerrWrite (gid : Nat) (v : DWord) (s : State) : Out' := .next (s.updGrp gid fun g => g.clearErr v)

/-- TPC_WRITE (R176). -/
def execTpcWrite (gid : Nat) (v : DWord) (s : State) : Out' := .next (s.updGrp gid fun g => g.writeTpc v)

/-- FMT_WRITE (R342): a reserved value raises trap 0x03 at the split's word and leaves FMT unchanged. -/
def execFmtWrite (gid sid : Nat) (v : DWord) (s : State) : Out' :=
  .next (match (s.grp? gid).bind fun g => (g.split? sid).map fun p => (g, p) with
    | some (g, p) =>
      if fmtReserved v then s.raiseTrap gid sid 0x03 (amask g p) 0 p.pc p.clause else s.updGrp gid fun g => g.writeFmt sid v
    | none => s)

/-! ## Time (R17, R343) -/

/-- `time.tod`. -/
def execTimeTod (f : Fld) (s : State) : Out' :=
  .next (runLanes (.timeTod f) (fun x => .done (x.wr x.s f.dst fun _ => words2 (BitVec.ofNat 64 x.s.dev.tod))) s)

/-- `time.cyc`: the core's cycle count, whose distance from the cycles since device reset is the core's own (R343) (DEDUCED, log 102). -/
def execTimeCyc (f : Fld) (s : State) : Out' :=
  .next (runLanes (.timeCyc f) (fun x =>
    .done (x.wr x.s f.dst fun _ => words2 (BitVec.ofNat 64 (x.s.dev.cycles + Config.coreCycles x.g.core)))) s)

/-! ## Traps and breakpoints (R341) -/

/-- `trap n`: cause 0x41. -/
def execTrap (f : Fld) (s : State) : Out' := .next (runLanes (.trap f) (fun x => .trap 0x41 x.act f.imm.toNat) s)

/-- The ring's window is open, and the ring can hold `n` entries (R179, R346). -/
def Part.ringTakes (p : Part) (n : Nat) : Bool := p.openWin p.regs.ringWin && decide (n ≤ 2 ^ p.regs.ringK)

/-- L0.0 to L0.7 of each active lane, at the D0 in force (R347). -/
def Ctx.svcArgs (x : Ctx) : List (Nat × List Word) := x.lanes.map fun l => (l, (List.range 8).map fun k => x.slot 0 k l)

/-- `brk n`: cause 0x42. Without a handler it parks the group as `svc` 0xFFFF does, or raises trap 0x40 where an `svc` would. -/
def execBrk (f : Fld) (s : State) : Out' :=
  .next (runLanes (.brk f) (fun x =>
    let bare := decide (x.s.handlerOf x.g = 0) && !x.g.trap.inH && decide (x.g.kind ≠ .reply) && x.g.mm.fault.isNone
    if bare = false then .trap 0x42 x.act f.imm.toNat
    else if x.part.ringTakes x.lanes.length = false then .trap 0x40 x.act 0
    else if x.g.stopsElse x.p.sid then .wait (x.s.updGrp x.gid fun g => g.holdSplit x.p.sid)
    else
      let r : SvcReq := { code := 0xFFFF, lanes := x.svcArgs, q0 := 0, phase := 0, sid := x.p.sid, oid := none, shift := x.g.fr.shift }
      let s := x.s.updGrp x.gid fun g => { g with svc := some r }
      .wait (s.raiseTrap x.gid x.p.sid 0x42 x.act f.imm.toNat x.p.pc (some x.c))) s)

/-! ## Service calls (R179, R340, R346, R347) -/

/-- `svc n` (R340): the group stops after this clause and parks; its entries follow at SVC_RING_WRITE. While another split's stop is
decided, it waits for that (R173). -/
def execSvc (f : Fld) (s : State) : Out' :=
  .next (runLanes (.svc f) (fun x =>
    if x.part.ringTakes x.lanes.length = false then .trap 0x40 x.act 0
    else if x.g.stopsElse x.p.sid then .wait (x.s.updGrp x.gid fun g => g.holdSplit x.p.sid)
    else
      let (oid, s) := x.issueOp x.s f.dst .svc
      let r : SvcReq := { code := f.imm.toNat, lanes := x.svcArgs, q0 := 0, phase := 0, sid := x.p.sid, oid := some oid, shift := x.g.fr.shift }
      let st : Stop := { why := .svc, sid := x.p.sid, code := 0, tlm := x.act, taddr := 0, tpc := x.c.next, clause := none }
      .done (s.updGrp x.gid fun g => { (g.updSplit x.p.sid fun p => { p with wait := .svc }) with svc := some r, stop := some st })) s)

/-- The 64 bytes of a ring entry (R179). -/
def ringEntry (q : Nat) (park : Word) (lane : Nat) (last : Bool) (code : Nat) (args : List Word) : List Byte :=
  leBytes 8 q ++ leBytes 4 park.toNat ++ leBytes 1 lane ++ leBytes 1 (if last then 1 else 0) ++ leBytes 2 code
    ++ wordsToBytes (args.take 8) ++ List.replicate 16 0

/-- Host address of ring sequence `q` in a window at `host` with 2^k entries. -/
def ringSlot (host k q : Nat) : Nat := host + 64 + 64 * (q % 2 ^ k)

/-- The entries of a request, from sequence `q`. -/
def ringCells (host k : Nat) (park : Word) (code : Nat) : Nat → List (Nat × List Word) → List Host.Cell
  | _, [] => []
  | q, e :: es => cellsAt (ringSlot host k q) (ringEntry q park e.1 es.isEmpty code e.2) ++ ringCells host k park code (q + 1) es

/-- SVC_RING_WRITE (R346): the request at the head of the ring's order goes one step on. Its entries are written once there is
room; the window is published once they, and the group's earlier writes, are at the host; then SVC_REQUEST is raised, which waits for
a free event slot (R111). -/
def execSvcRingWrite (part : Nat) (s : State) : Out' :=
  .next (match s.part? part with
    | none => s
    | some p =>
      match p.ringWait.head?.bind fun gid => (s.grp? gid).bind fun g => g.svc.map fun r => (g, r) with
      | none => s
      | some (g, r) =>
        let put : Nat → State → State := fun k s => s.updGrp g.gid fun g => { g with svc := g.svc.map fun r => { r with phase := k } }
        match p.window? p.regs.ringWin with
        | none => s
        | some w =>
          if w.closing then s
          else if r.phase = 0 then
            let c := (memDWord s.host w.host).toNat
            if r.q0 + r.lanes.length ≤ c + 2 ^ p.regs.ringK + 1 then
              put 1 (s.sendRma part w.num g.gid g.seq 0 (ringCells w.host p.regs.ringK g.park r.code r.q0 r.lanes))
            else s
          else if r.phase = 1 then
            if s.winBusy part w.num || !(s.writesDone g g.seq) then s else put 2 (s.sendVersion part w.num g.gid g.seq 0).2
          else if s.versionOut g.gid 0 || !(s.evRoom part 1) then s
          else
            let s := put 3 (s.raise part (.svcRequest r.q0 r.lanes.length))
            s.updPart part fun p => { p with ringWait := p.ringWait.drop 1 })

/-- A command from the host is an acquire for the group that goes on (R113, R114). -/
def State.cmdAcquire (s : State) (part gid : Nat) : State :=
  match s.grp? gid, s.part? part with
  | some g, some p => (s.joinGc gid g.seq p.hostGc).acquired gid 5
  | _, _ => s

/-- What SVC_DONE reads for one lane: three results and the status, or R347's values when the slot holds another entry. -/
def State.svcResult (s : State) (p : Part) (q : Nat) : List Word :=
  let lost : List Word := [0, 0, 0, 0xFFFFFFFF]
  match p.window? p.regs.ringWin with
  | none => lost
  | some w =>
    let a := ringSlot w.host p.regs.ringK q
    if memDWord s.host a = BitVec.ofNat 64 q then bytesToWords (Mem.readN s.host (a + 48) 16) else lost

/-- Writes L0.0 to L0.3 of a lane of a parked group, at the shift of its `svc`, in its frame or in the record that keeps it (R103, R149,
R347). -/
def State.parkWrite (s : State) (gid shift lane : Nat) (ws : List Word) : State :=
  match s.grp? gid with
  | none => s
  | some g =>
    let cs := laneCells g shift lane ws
    match g.saved with
      | some _ => s.updGrp gid fun g => { g with saved := g.saved.map fun v => { v with view := { v.view with mem := Mem.writeCells v.view.mem cs } } }
      | none => s.pokeStore g.core cs

/-- A command that acts on the partition its header names: status 4 when there is none, status 1 for a nonzero reserved
parameter field (R94, R95). -/
def State.onPart (s : State) (h : CmdHdr) (f : Part → State) : State :=
  match s.part? h.part with
  | none => s.complete h 4 .none
  | some p => if h.rsvP then s.complete h 1 .none else f p

/-- SVC_DONE (R103, R340, R346, R347) (DEDUCED, log 62). -/
def execSvcDone (h : CmdHdr) (park : Word) (s : State) : Out' :=
  .next (s.onPart h fun p =>
      match s.groups.find? fun g => decide (g.part = h.part) && decide (g.park = park) && decide (g.svc.map SvcReq.phase = some 3) with
      | none =>
        if p.killedSvc.contains park && !(s.groups.any fun g => decide (g.part = h.part) && decide (g.park = park)) then
          (s.updPart h.part fun p => { p with killedSvc := p.killedSvc.filter fun k => decide (k ≠ park) }).complete h 9 .none
        else s.complete h 8 .none
      | some g =>
        let r := (g.svc).getD default
        let gids := g.gid :: match s.twin g with | some t => [t.gid] | none => []
        let res := ((List.range r.lanes.length).zip r.lanes).map fun e => (e.2.1, s.svcResult p (r.q0 + e.1))
        let s := gids.foldl (fun (s : State) gid => res.foldl (fun (s : State) e => s.parkWrite gid r.shift e.1 e.2) s) s
        let s := match r.oid with | some o => s.finishOp o false | none => s
        let s := gids.foldl (fun (s : State) gid => s.updGrp gid fun g => { (g.updSplit r.sid fun p => { p with
          wait := if p.wait = .svc then .none else p.wait }) with svc := none }) s
        ((s.cmdAcquire h.part g.gid).resume g.gid).complete h 0 .none)

/-! ## FAULT_RESOLVE (R56, R57, R363) -/

/-- Accepts stores held for replay in order, up to the first that meets a fault; what is left, and that fault's cause. Their requests are
composed anew (R40), and one that no link takes to its home is lost (R41). -/
def State.replayStores (s : State) : List Write → State × List Write × Option (BitVec 8)
  | [] => (s, [], none)
  | w :: ws =>
    let w := { w with detour := ((s.part? w.part).map fun p => p.regs.detour).getD w.detour, redo := none }
    if s.writeLost w then (s.discard true [w]).replayStores ws
    else
    match s.writeFault w with
    | some c => (s, w :: ws, some (c.getD 0x10))
    | none => (s.acceptWrite w).replayStores ws

/-- Loads queued behind stores that are discarded (R57). -/
def Group.queuedOps (g : Group) (dropped : List Write) : List Nat :=
  (g.ops.filter fun o => match o.kind with
    | .load ls .. => ls.any fun l => dropped.any fun w => decide (w.addr / 65536 = l.2 / 65536) && decide (w.seq < o.seq)
    | _ => false).map Op.oid

/-- The loads whose page faults are refused are over: the lanes without a fault have their data, and no error is recorded (R56, R294). -/
def State.endHeld (s : State) (gid : Nat) : State :=
  match s.grp? gid with
  | none => s
  | some g => ((g.ops.filter fun o => !o.held.isEmpty).map Op.oid).foldl (fun s oid => (s.writeBest oid).1.finishOp oid (!(s.writeBest oid).2)) s

/-- A cause is delivered to a parked group (R177): it takes the trap once what it still has outstanding is over. -/
def State.deliver (s : State) (gid : Nat) (st : Stop) : State :=
  if (s.grp? gid).any fun g => g.ops.any fun o => decide (o.flag < 12) && decide (o.kind ≠ .svc) then
    (((s.updGrp gid fun g => { g with stop := some { st with why := .trap } }).comeBack gid).settleStop gid)
  else s.takeTrap gid st

/-- Discards what is held, with the pledges refunded; the cause `f` is then delivered at the stop point, or when a park that
is not a page fault's ends, and every other fault of the group is over with it (DEDUCED, log 45). -/
def State.refuseFault (s : State) (gid : Nat) (held : List Write) (f : BitVec 8 × Mask × Nat) : State :=
  match s.grp? gid with
  | none => s
  | some g =>
    let s := s.updGrp gid fun g => { g with mm := { g.mm with replay := [], pages := [], fault := some f, prot := none } }
    let s := ((s.discard false held).failOps (g.queuedOps held)).endHeld gid
    match g.place with
    | .parked st =>
      if st.why = .page then
        (s.updGrp gid fun g => { g with mm := { g.mm with fault := none } }).deliver gid { st with code := f.1, tlm := f.2.1, taddr := f.2.2 }
      else s
    | _ => s

/-- None of the pages that a group's faults wait for is mapped: they fault again. -/
def State.faultsAgain (s : State) (g : Group) : Bool := !g.mm.pages.isEmpty && g.mm.pages.all fun v => decide (s.xlat g.part (65536 * v) = .unmapped)

/-- The group's faults on pages that are mapped now are over: loads go on for their faulting lanes, and the held stores are
replayed in order. One that meets a page which is no longer mapped is reported again (R57, R363). -/
def State.resolveFault (s : State) (g : Group) : State :=
  let up : Nat → Bool := fun vpn => decide (s.xlat g.part (65536 * vpn) ≠ .unmapped)
  if s.faultsAgain g then
    let pages := g.mm.pages
    pages.foldl (fun (s : State) v => s.raise g.part (.pageFault g.park (65536 * v) ((g.mm.fault.map fun f => f.2.1).getD 0)
      (g.mm.replay.any fun w => decide (w.addr / 65536 = v)))) s
  else
    let detour := ((s.part? g.part).map fun p => p.regs.detour).getD 0
    let free : Op → Op := fun o => match o.kind with
      | .load ls .. =>
        let back := o.held.filter fun l => !(ls.any fun e => decide (e.1 = l) && !(up (e.2 / 65536)))
        { o.resend back detour with held := o.held.filter fun l => !(back.contains l) }
      | _ => o
    let held := g.mm.replay
    let s := s.updGrp g.gid fun g => { g with ops := g.ops.map free, mm := { g.mm with pages := g.mm.pages.filter fun v => !(up v), replay := [] } }
    let (s, left, why) := s.replayStores held
    match why, left with
    | some c, w :: _ =>
      if c = 0x11 then
        let lanes := maskOf ((left.filter fun v => decide (v.seq = w.seq)).map Write.lane)
        s.refuseFault g.gid left (0x11, lanes, w.addr)
      else
        let lanes := maskOf ((left.filter fun v => decide (v.seq = w.seq) && decide (v.addr / 65536 = w.addr / 65536)).map Write.lane)
        (s.updGrp g.gid fun g => { g with mm := { g.mm with replay := left } }).reportPage g.gid w.addr lanes true
    | _, _ =>
      match s.grp? g.gid with
      | none => s
      | some x =>
        if x.faultPending then s
        else
          match (if (x.mm.fault.map Prod.fst) = some 0x11 then x.mm.fault else x.mm.prot.map fun q => (0x11, q.1, q.2)) with
          | some f => s.refuseFault g.gid [] f
          | none =>
            let s := s.updGrp g.gid fun g => { g with mm := { g.mm with fault := none } }
            match x.place with
            | .parked st => if st.why = .page then (s.comeBack g.gid).settleStop g.gid else s
            | _ => s

/-- The group is parked with a page fault to resolve, or its park for `svc` or capacity waits for nothing else (R177) (DEDUCED, log 70). -/
def State.awaitsVerdict (s : State) (g : Group) : Bool :=
  match g.place with
  | .parked st => decide (st.why = .page) || g.faultPending
  | .resident => g.faultPending && g.stop.any fun st => (decide (st.why = .svc) || decide (st.why = .capacity)) && s.stopReady g { st with why := .page }
  | _ => false

/-- The supervisor queue's number. -/
def supQ : Nat := 0xFF

/-- A command goes back to the head of its queue (R96) (DEDUCED, log 76). -/
def State.requeue (s : State) (h : CmdHdr) (b : CmdBody) : State :=
  if h.queue = supQ then s.updDev fun d => { d with supQueue := ⟨h, b⟩ :: d.supQueue }
  else s.updPart h.part fun p => { p with queues := p.queues.modify h.queue fun q => { cmds := ⟨h, b⟩ :: q.cmds, wake := q.wake ||| h.wake } }

/-- What a verdict does to a group: 0 resolved, else refused. -/
def State.giveVerdict (s : State) (part : Nat) (g : Group) (verdict : Nat) : State :=
  let s := s.cmdAcquire part g.gid
  (if verdict = 0 then (match s.grp? g.gid with | some g => s.resolveFault g | none => s)
    else s.refuseFault g.gid g.mm.replay ((g.mm.fault).getD (0x10, 0, 0))).settleBarriers

/-- Events that the partition keeps. -/
def State.kept (s : State) (part : Nat) : Nat := (((s.part? part).map Part.evq).getD []).length

/-- FAULT_RESOLVE: verdict 0 resolved, 1 refused. Events that it raises again wait for places, and so does the command (R111). -/
def execFaultResolve (h : CmdHdr) (park : Word) (verdict : Nat) (s : State) : Out' :=
  .next (s.onPart h fun _ =>
    if 2 ≤ verdict then s.complete h 2 .none
    else match s.groups.find? fun g => decide (g.part = h.part) && decide (g.park = park) && s.awaitsVerdict g with
      | none => s.complete h 8 .none
      | some g =>
        let t := s.giveVerdict h.part g verdict
        if s.kept g.part < t.kept g.part ∧ t.evRoom g.part 0 = false then s.requeue h (.faultResolve park verdict) else t.complete h 0 .none)

end Sys2Proof.Machine
end

