-- ==== Sys2Proof/Machine/Fubebex.lean ====
section
/-!
DEFINITION. The commands of Fubebex (R92-R109, R111, R112, R114): arrival, identity and quotes, partitions, mapping, windows,
code, launches, kills, patches; event delivery, connections, and inbound RMA.
-/

namespace Sys2Proof.Machine

/-! ## Arrival (R93-R95) -/

/-- Commands that act on no partition (R95). -/
def cmdNoPart : CmdBody → Bool
  | .identify => true | .logRead .. => true | .patchLoad _ => true | .partCreate .. => true
  | _ => false

/-- Commands that only the supervisor queue accepts (R95). -/
def cmdSupOnly : CmdBody → Bool
  | .partCreate .. => true | .partDestroy => true | .resetPart => true | .partConfig .. => true | .patchLoad _ => true
  | .logRead _ _ free => free
  | _ => false

/-- The partition exists and is not being destroyed. -/
def State.alive (s : State) (part : Nat) : Bool :=
  (s.part? part).isSome && !(match s.dev.busy with | some ⟨h, .partDestroy⟩ => decide (h.part = part) | _ => false)

/-- The status that refuses a command on arrival, in the order 1, 2, 4, 3, 5; 0 queues it (R94) (DEDUCED, log 71). More parameter bytes than
R93 allows are out of range. -/
def State.arrivalStatus (s : State) (h : CmdHdr) (b : CmdBody) : Nat :=
  let sup := decide (h.queue = supQ)
  let unknown := match b with | .unknown _ => true | _ => false
  if unknown || h.rsvH then 1
  else if (sup = false ∧ 16 ≤ h.queue) ∨ 65536 < h.plen then 2
  else if (sup = false ∨ cmdNoPart b = false) ∧ s.alive h.part = false then 4
  else if sup then
    if h.hold ∨ s.dev.supJob ≠ some h.job then 3 else if 64 ≤ s.dev.supQueue.length then 5 else 0
  else
    let p := (s.part? h.part).getD default
    if cmdSupOnly b ∨ s.admits p h.job = false then 3
    else if 64 ≤ ((p.queues[h.queue]?).map fun q => q.cmds.length).getD 64 then 5 else 0

/-- COMMAND_ARRIVAL (R92-R95), from a peer that has a connection. The first command to reach the supervisor queue fixes the supervisor job. -/
def execCommandArrival (h : CmdHdr) (b : CmdBody) (s : State) : Out' :=
  .next (if s.dev.running = false ∨ s.dev.conns.contains h.src = false then s
    else
      let s := if h.queue = supQ ∧ s.dev.supJob = none then s.updDev fun d => { d with supJob := some h.job, supPeer := h.src } else s
      let c : Command := ⟨h, b⟩
      match s.arrivalStatus h b with
      | 0 =>
        if h.queue = supQ then s.updDev fun d => { d with supQueue := d.supQueue ++ [c] }
        else s.updPart h.part fun p => { p with queues := p.queues.modify h.queue fun q => { q with cmds := q.cmds ++ [c] } }
      | st => s.answer h st .none)

/-- A command that acts on no partition (R95). -/
def State.onNone (s : State) (h : CmdHdr) (f : State) : State :=
  if h.rsvP then s.complete h 1 .none
  else if h.queue = supQ ∧ h.part ≠ 0xFFFF then s.complete h 2 .none
  else f

/-- Fubebex stays in a command and goes on with it at its next visit. -/
def State.stay (s : State) (h : CmdHdr) (b : CmdBody) : State := s.updDev fun d => { d with busy := some ⟨h, b⟩ }
def State.inside (s : State) (h : CmdHdr) (b : CmdBody) : Bool := decide (s.dev.busy = some ⟨h, b⟩)

/-! ## Identity, capabilities, quotes, log (R98, R105-R108, R110) -/

/-- IDENTIFY: part number, serial, ROM version, patch level, identity public key, the ports' addresses. -/
def execIdentify (h : CmdHdr) (s : State) : Out' :=
  .next (s.onNone h (s.complete h 0 (.ident "VM-S4-768" s.dev.fuses.serial Config.romVersion s.dev.patchLevel
    (Config.identityKey s.dev.fuses.seed) ((List.range 8).map Config.portAddress))))

/-- CAP_READ, selector 0. -/
def execCapReadList (h : CmdHdr) (s : State) : Out' := .next (s.onPart h fun _ => s.complete h 0 (.data s.capBytes))

/-- A register as CAP_READ reads it (R108). -/
def State.capReg (s : State) (p : Part) (sup : Bool) (n : Nat) : Option DWord :=
  if n < 0x100 then none
  else match s.partReg p n, p.ctlReg n with
    | some v, _ => some v
    | none, some v => some v
    | none, none => if sup then s.dev.devReg n else none

/-- CAP_READ with a selector other than 0: the registers named for selector 1, and no other (R94, R98, R108) (DEDUCED, log 72). -/
def execCapReadRegisters (h : CmdHdr) (sel : Nat) (regs : List Nat) (s : State) : Out' :=
  .next (s.onPart h fun p =>
    if sel ≠ 1 ∨ 64 < regs.length then s.complete h 2 .none
    else
      let vs := regs.map (s.capReg p (decide (h.queue = supQ)))
      let errs := ((List.range regs.length).zip vs).foldl (fun m e => m + if e.2.isNone then 2 ^ e.1 else 0) 0
      s.complete h 0 (.regs (vs.map fun v => v.getD 0) (BitVec.ofNat 64 errs)))

/-- Bytes 0 to 191 of a quote (R106). -/
def State.quote (s : State) (p : Part) (nonce : List Byte) : List Byte :=
  leBytes 4 1 ++ leBytes 2 s.dev.patchLevel ++ leBytes 2 p.id ++ leBytes 8 s.dev.fuses.serial.toNat
    ++ (List.range 32).map (fun i => nonce.getD i 0) ++ digestBytes s.dev.romMeas ++ digestBytes s.dev.patchMeas ++ digestBytes p.codeMeas
    ++ leBytes 2 (quadMask p) ++ leBytes 2 0 ++ leBytes 4 p.epoch ++ leBytes 8 s.dev.tod ++ digestBytes (Config.identityKey s.dev.fuses.seed)

/-- ATTEST (R106): the quote's signature is SLH-DSA's, 17,088 bytes. -/
def execAttest (h : CmdHdr) (nonce : List Byte) (s : State) : Out' :=
  .next (s.onPart h fun p =>
    let q := s.quote p nonce
    let sig := Config.slhSign s.dev.fuses.seed q
    s.complete h 0 (.data (q ++ (List.range 17088).map fun i => sig.getD i 0)))

/-- The log from a sequence on; after the count has wrapped, the record that carries it is the first (DEDUCED, log 73). -/
def logFrom (log : List LogRec) (first : Nat) : List LogRec :=
  if log.any fun r => decide (r.seq.toNat = first) then log.dropWhile fun r => decide (r.seq.toNat ≠ first)
  else log.filter fun r => decide (first ≤ r.seq.toNat)

/-- LOG_READ (R98, R110). -/
def execLogRead (h : CmdHdr) (first count : Nat) (free : Bool) (s : State) : Out' :=
  .next (s.onNone h (
    if count = 0 ∨ 64 < count then s.complete h 2 .none
    else
      let rs := logFrom s.dev.log first
      (if free then s.updDev fun d => { d with log := rs } else s).complete h 0 (.log (rs.take count))))

/-- The bytes of a patch image (R105). -/
def imageHead (img : PatchImage) : List Byte :=
  leBytes 4 img.format ++ leBytes 2 img.code ++ leBytes 2 img.level ++ leBytes 4 img.body.length ++ leBytes 4 0
    ++ (List.range 32).map (fun i => img.key.getD i 0) ++ img.body
def imageBytes (img : PatchImage) : List Byte := imageHead img ++ (List.range 7856).map fun i => img.sig.getD i 0

/-- The codes of R98 that have a handler. -/
def commandCodes : List Nat :=
  [0x01, 0x02, 0x03, 0x04, 0x05, 0x10, 0x11, 0x12, 0x20, 0x21, 0x22, 0x23, 0x30, 0x31, 0x40, 0x41, 0x42, 0x43, 0x44, 0x45, 0x50, 0x51,
   0x60, 0x62, 0x70, 0x71]

/-- PATCH_LOAD (R105): limits give status 2, a failed verification status 7; either is logged (DEDUCED, log 75). -/
def execPatchLoad (h : CmdHdr) (img : PatchImage) (s : State) : Out' :=
  .next (s.onNone h (
    let d := s.dev
    let mine := assoc img.code d.patches
    let limit := decide (img.format ≠ 1) || !(commandCodes.contains img.code) || decide (img.code = 0x01) || decide (img.code = 0x70)
      || decide (img.body.length = 0) || decide (57632 < img.body.length) || decide (img.level < d.fuses.floor.toNat)
      || decide (img.level < mine.getD 0) || (mine.isNone && decide (32 ≤ d.patches.length))
    let good := decide (sha256 ((List.range 32).map fun i => img.key.getD i 0) = d.fuses.keyHash) && Config.slhVerify img.key (imageHead img) img.sig
    let refuse : Nat → State := fun st => (s.logError 8 0 0 0 0xFFFF 0 []).complete h st .none
    if limit then refuse 2
    else if good = false then refuse 7
    else
      let s := s.updDev fun d => { d with
        patches := setAssoc img.code img.level d.patches
        patchMeas := sha256 (digestBytes d.patchMeas ++ digestBytes (sha256 (imageBytes img))) }
      s.updateCaps.complete h 0 .none))

/-- TOPO_READ (R46): the map as Fubebex has written it. -/
def execTopoRead (h : CmdHdr) (s : State) : Out' :=
  .next (s.onPart h fun p => s.complete h 0 (.data ((List.range (s.mapLen p)).map fun i => s.mapByte p (p.topoVa + i))))

/-! ## Mapping (R55, R59, R66, R80, R90, R99) -/

/-- Takes a page out of the page table: its cells and pledges return, and its lines are dropped without writeback. -/
def State.unmapPage (s : State) (part vpn : Nat) : State :=
  match s.page? part vpn with
  | none => s
  | some pg =>
    let used := if pg.own ∨ pg.hw.isSome then 0 else if pg.cls = 0 then 4 + pg.used else 1024
    let kept := (pg.dirty.map (·.2)).sum
    let a := 65536 * vpn
    let inside : Nat → Bool := fun va => decide (va / 65536 = vpn)
    let cut : Apply → Apply := fun x => if x.part = part then { x with bytes := x.bytes.filter (fun c => !(inside c.1)), poison := x.poison.filter fun b => !(inside (32 * b.1)) } else x
    let s : State := { s with
      pages := s.pages.filter fun q => !(decide (q.part = part) && decide (q.vpn = vpn)), applies := s.applies.map cut }
    let s := s.updPart part fun p => { p with
      views := p.views.map fun (v : View) => v.clear a 65536
      poison := p.poison.filter fun k => !(inside (32 * k))
      repPoison := p.repPoison.filter fun e => !(inside (32 * e.2))
      replicas := p.replicas.filter fun r => !(inside (128 * r.2))
      hwLines := p.hwLines.filter fun l => !(inside (128 * l.line)) }
    s.addFP part used kept

/-- A run of pages that a command names: aligned, below 2^48, at least one page. -/
def runOk (va count : Nat) : Bool := decide (va % 65536 = 0) && decide (1 ≤ count) && decide (va + 65536 * count ≤ 2 ^ 48)

/-- NBROW as R55 allows it for a class. -/
def nbrowOk (cls nbrow : Nat) : Bool :=
  if cls = 2 then [1, 2, 4, 8, 16, 32, 64, 128, 256, 512, 1024].contains nbrow else decide (nbrow = 0)

/-- A new page; a raw-pinned or near-bank one takes its extent now. None when its stack has no room for that. -/
def State.newPage (s : State) (p : Part) (m : MapParams) (i : Nat) (ix : Option Nat) : Option State :=
  let vpn := m.va / 65536 + i
  let pg : Page := { part := p.id, vpn := vpn, w := m.w, cls := m.cls, key := m.key, nbrow := m.nbrow, cl := true, extent := 0
                     hw := (m.window).bind fun w => ix.map fun k => (w, k + i), cap := 0, hwm := 0, table := [], dict := [], moves := 0
                     dirty := [], cells := [], own := false }
  if m.cls = 0 ∨ m.window.isSome then some { s with pages := s.pages ++ [pg] }
  else
    let (cand, s) := s.drawNat
    (s.place (homeQuad p (65536 * vpn)) 1024 (cand % stackCells / 1024 * 1024) (65536, 0)).map fun b =>
      { s with pages := s.pages ++ [{ pg with extent := b, cap := 1024, hwm := 1024 }] }

def State.newPages (p : Part) (m : MapParams) (ix : Option Nat) : List Nat → State → Option State
  | [], s => some s
  | i :: is, s => (s.newPage p m i ix).bind (State.newPages p m ix is)

/-- MAP (R80, R99): all the pages or none (DEDUCED, log 74). -/
def execMap (h : CmdHdr) (m : MapParams) (s : State) : Out' :=
  .next (s.onPart h fun p =>
    let win := m.window.bind fun w => (p.window? w).filter fun x => !x.closing
    let ix := win.map fun x => (m.va - x.va) / 65536
    let outside := match win with
      | some x => decide (m.va < x.va) || decide (x.len < m.va - x.va + 65536 * m.count)
      | none => false
    let cells := if m.window.isSome then 0 else m.count * (if m.cls = 0 then 4 else 1024)
    let bytes := if m.window.isSome then 0 else 65536 * m.count
    let retired := decide (m.cls = 2) && m.window.isNone && (List.range m.count).any fun i => !((s.quad! (homeQuad p (m.va + 65536 * i))).retired.isEmpty)
    if runOk m.va m.count = false ∨ 2 < m.cls ∨ nbrowOk m.cls m.nbrow = false ∨ 3 < m.key ∨ 255 < m.window.getD 0 ∨ outside = true then
      s.complete h 2 .none
    else if p.avail < (cells : Int) ∨ promise p.regs.ratio p.quads.length < s.mappedBytes p.id + bytes then s.complete h 6 .none
    else match State.newPages p m ix (List.range m.count) s with
      | none => s.complete h 6 .none
      | some t =>
        if !(s.pagesIn p.id (m.va / 65536) m.count).isEmpty || (m.window.isSome && win.isNone) || retired then s.complete h 8 .none
        else (t.addF p.id (-(cells : Int))).complete h 0 .none)

/-- UNMAP (R59, R80, R90): pages not mapped are skipped; moves that run hold it at the head of its queue. -/
def execUnmap (h : CmdHdr) (va count : Nat) (s : State) : Out' :=
  .next (s.onPart h fun p =>
    let pgs := s.pagesIn p.id (va / 65536) count
    if runOk va count = false then s.complete h 2 .none
    else if pgs.any Page.own then s.complete h 8 .none
    else if pgs.any fun g => decide (0 < g.moves) then s.requeue h (.unmap va count)
    else (pgs.foldl (fun (s : State) g => s.unmapPage p.id g.vpn) s).complete h 0 .none)

/-- PROTECT (R59). -/
def execProtect (h : CmdHdr) (va count : Nat) (w : Bool) (s : State) : Out' :=
  .next (s.onPart h fun p =>
    let pgs := s.pagesIn p.id (va / 65536) count
    if runOk va count = false then s.complete h 2 .none
    else if pgs.any Page.own then s.complete h 8 .none
    else (pgs.foldl (fun (s : State) g => s.updPage p.id g.vpn fun q => { q with w := w }) s).complete h 0 .none)

/-! ## Windows (R112) -/

/-- WINDOW_OPEN (R112): binds the number; maps nothing. A length of 0 is refused with 2, a number already open with 8 (DESIGN CHOICE, log 121). -/
def execWindowOpen (h : CmdHdr) (w : WindowParams) (s : State) : Out' :=
  .next (s.onPart h fun p =>
    if 255 < w.num ∨ w.len = 0 ∨ w.len % 65536 ≠ 0 ∨ 2 ^ 32 < w.len ∨ w.ver % 8 ≠ 0 ∨ (w.host < w.ver + 8 ∧ w.ver < w.host + w.len)
        ∨ w.va % 65536 ≠ 0 ∨ 2 ^ 48 ≤ w.va then s.complete h 2 .none
    else if (p.window? w.num).isSome then s.complete h 8 .none
    else
      let x : Window := { num := w.num, host := w.host, len := w.len, key := w.key, ver := w.ver, va := w.va, version := 0, closing := false }
      (s.updPart p.id fun p => { p with windows := p.windows ++ [x] }).complete h 0 .none)

/-- A copy that has started reads or writes far-tier addresses of the window. -/
def State.farJobs (s : State) (part num : Nat) : Bool := s.jobs.any fun j => decide (j.part = part) && j.started && match j.kind with
  | .cpy d => ((copyD d).farSrc && decide (farWin (copyD d).src = num)) || ((copyD d).farDst && decide (farWin (copyD d).dst = num))
  | _ => false

/-- WINDOW_CLOSE (R112): waits for every RMA of the window in flight, then unmaps its pages. A number that is not open is refused with 8 (DESIGN CHOICE,
log 121). -/
def execWindowClose (h : CmdHdr) (num : Nat) (s : State) : Out' :=
  .next (s.onPart h fun p =>
    if 255 < num then s.complete h 2 .none
    else
      let mine := s.inside h (.windowClose num)
      match p.window? num with
      | none => s.complete h 8 .none
      | some w =>
        if w.closing && !mine then s.complete h 8 .none
        else
          let s := s.updPart p.id fun p => { p with windows := p.windows.map fun x => if x.num = num then { x with closing := true } else x }
          if s.winBusy p.id num || s.farJobs p.id num then s.stay h (.windowClose num)
          else
            let pgs := s.pages.filter fun g => decide (g.part = p.id) && decide (g.hw.map Prod.fst = some num)
            let s := pgs.foldl (fun (s : State) g => s.unmapPage p.id g.vpn) s
            (s.updPart p.id fun p => { p with windows := p.windows.filter fun x => decide (x.num ≠ num) }).complete h 0 .none)

/-! ## Writes of the host agent (R100, R114) -/

/-- Pledges 8 cells for each mem-block from A, writes as the host agent, and settles the pledges at the homes; none when A does
not cover them, which raises hard pressure (DEDUCED, log 58). -/
def State.hostWrite (s : State) (part : Nat) (mbs : List Nat) (cells : List Host.Cell) : Option (VClock × State) :=
  let need := 8 * mbs.length
  match s.part? part with
  | none => none
  | some p =>
    if p.avail < (need : Int) then none
    else
      let s := mbs.foldl (fun s mb => s.expandBlockAt part mb) (s.addP part need 0)
      let (st, s) := s.performRun part 0 p.hostGc cells
      some (st, mbs.foldl (fun (s : State) mb => s.settlePledge part nodeCore mb 8) s)

/-- LOAD_CODE (R100, R106). Whether the host accepts the key is the host's affair. -/
def execLoadCode (h : CmdHdr) (va len host : Nat) (_key : DWord) (s : State) : Out' :=
  .next (s.onPart h fun p =>
    let data := Mem.readN s.host host len
    let vpns := if len = 0 then [] else (List.range ((va + len - 1) / 65536 + 1 - va / 65536)).map fun i => va / 65536 + i
    let ok : Nat → Bool := fun v => (s.page? p.id v).any fun g => g.w && g.hw.isNone
    let mbs := (spanBlocks va len).filter fun mb => (s.page? p.id (mb / 128)).any fun g => decide (g.cls = 0)
    match s.hostWrite p.id mbs (cellsAt va data) with
    | none => (s.hardPressure p.id).complete h 6 .none
    | some (st, t) =>
      if vpns.all ok = false then s.complete h 8 .none
      else
        let s := t
        (s.updPart p.id fun p => { p with
          hostGc := p.hostGc.join st
          codeMeas := sha256 (digestBytes p.codeMeas ++ leBytes 8 va ++ leBytes 8 len ++ digestBytes (sha256 data)) }).complete h 0 .none)

/-- What an inbound RMA request must meet (R114): the job, the key, and partition memory that is mapped and no window's (DEDUCED, log 86). -/
def State.rmaAdmitted (s : State) (r : RmaReq) (n : Nat) : Bool :=
  match s.part? r.part with
  | none => false
  | some p =>
    s.admits p r.job && decide (r.key = p.regs.rmaKey) && decide (r.va + n ≤ 2 ^ 48)
      && (List.range n).all fun i => (s.page? r.part ((r.va + i) / 65536)).any fun g => g.hw.isNone

/-- INBOUND_RMA_WRITE (R114): pledged and performed at home; acknowledged once every die has applied it. A refused peer has
no connection, and no traffic of its flows (R92). -/
def execInboundRmaWrite (r : RmaReq) (data : List Byte) (s : State) : Out' :=
  .next (if !(s.dev.conns.contains r.src) then s
    else
      let fail : State → State := fun s => s.output (.rma r.src false [])
      let writable := (List.range data.length).all fun i => (s.page? r.part ((r.va + i) / 65536)).any fun g => g.w
      if s.rmaAdmitted r data.length = false ∨ writable = false then fail s
      else match s.hostWrite r.part (spanBlocks r.va data.length) (cellsAt r.va data) with
        | none => fail (s.hardPressure r.part)
        | some (st, t) =>
          let wids := (t.applies.drop s.applies.length).map Apply.wid
          State.settleAcks { t with acks := t.acks ++ [{ part := r.part, src := r.src, wids := wids, gc := st }] })

/-- INBOUND_RMA_READ (R114): the home value of each byte. A move that the request stands for is over in its step (R90, log 100). -/
def execInboundRmaRead (r : RmaReq) (len : Nat) (s : State) : Out' :=
  .next (if !(s.dev.conns.contains r.src) then s
    else
      let s := if s.rmaAdmitted r len then s.expandAt r.part r.va len else s
      match s.part? r.part with
      | none => s.output (.rma r.src false [])
      | some p =>
        if s.rmaAdmitted r len = false ∨ p.poisoned r.va len = true then s.output (.rma r.src false [])
        else s.output (.rma r.src true ((List.range len).map fun i => (p.views.getD (homeDie p (r.va + i)) View.empty).read (r.va + i))))

/-- A peer's connection is set up: what the partitions keep for a partner there is sent (R124). -/
def State.peerUp (s : State) (peer : Nat) : State :=
  (s.parts.filter fun p => p.jr.partner.any fun k => decide (p.jr.addr k = peer)).foldl (fun (s : State) p => s.sendUnsent p.id) s

/-- CONNECTION_SETUP (R92): a peer that asks for a feature outside the table is refused, and no traffic flows to it or from it any more. -/
def execConnectionSetup (peer : Nat) (f : UetFeatures) (s : State) : Out' :=
  .next (if s.dev.running = false then s
    else
      let ok := f.modes.all (fun m => decide (m ≤ 2)) && f.ops.all (fun o => decide (o ≤ 3)) && !f.hpc && !f.otherCongestion && !f.other
      let s := (s.updDev fun d => { d with conns := if ok then dedupN (peer :: d.conns) else d.conns.filter fun c => decide (c ≠ peer) }).output (.connected peer ok)
      if ok then s.peerUp peer else s)

/-! ## Launches and kills (R101, R102, R141) -/

/-- LAUNCH: the completion follows when the node ends. -/
def execLaunch (h : CmdHdr) (card : Nat) (s : State) : Out' :=
  .next (s.onPart h fun p =>
    let s := s.fillNode p 1 card
    match s.readCard p card with
    | .error st => s.complete h st .none
    | .ok r => if s.windowRoom p.id 1 then (s.submit p.id r [] p.hostGc s.nextId (some h) none).2 else s.requeue h (.launch card))

/-- Submits the nodes of a list in order; the command's completion goes with the last. -/
def State.submitAll (s : State) (p : Part) (h : CmdHdr) : List NodeReq → State
  | [] => s
  | r :: rs => State.submitAll (s.submit p.id r [] p.hostGc s.nextId (if rs.isEmpty then some h else none) none).2 p h rs

/-- GRAPH_SUBMIT (R141): the whole list is validated first. -/
def execGraphSubmit (h : CmdHdr) (nodes : List NodeRec) (s : State) : Out' :=
  .next (s.onPart h fun p =>
    let s := nodes.foldl (fun (s : State) n => s.fillNode p n.kind n.addr) s
    let reqs := nodes.map fun n => if n.rsv then Except.error 1 else s.readNode p n.kind n.addr n.tag
    let bad := reqs.filterMap fun r => match r with | .error st => some st | .ok _ => none
    let bad := if nodes.isEmpty ∨ 256 < nodes.length then 2 :: bad else bad
    match sortBy id bad with
    | st :: _ => s.complete h st .none
    | [] =>
      if s.windowRoom p.id nodes.length = false then s.requeue h (.graphSubmit nodes)
      else s.submitAll p h (reqs.filterMap fun r => match r with | .ok r => some r | .error _ => none))

/-- KILL (R101). -/
def execKill (h : CmdHdr) (tag : Nat) (s : State) : Out' :=
  .next (s.onPart h fun p => if tag = 0 ∨ 65535 < tag then s.complete h 2 .none else (s.killTag p.id tag 0 9).complete h 0 .none)

/-- BALLOON_ACK (R89): the host agent's acknowledgement. -/
def execBalloonAck (h : CmdHdr) (cells : Nat) (s : State) : Out' :=
  .next (s.onPart h fun p =>
    let waiting := s.groups.filter fun g => decide (g.part = p.id) && g.cap.isSome
    let s := waiting.foldl (fun (s : State) g => s.cmdAcquire p.id g.gid) s
    (s.ackCells p.id (BitVec.ofNat 64 cells)).complete h 0 .none)

/-! ## Partitions (R45, R46, R60, R61, R95, R98, R108) -/

/-- The time table's commands that wait end with a status: the run's, those that wait for the cycle's end, a re-phase's. -/
def TimeTable.cmds (t : TimeTable) : List (CmdHdr × Bool) :=
  (match t.run with | some r => [(r.cmd, true)] | none => []) ++ t.stop.map (fun h => (h, false))
    ++ (match t.rephase with | some r => [(r.cmd, true)] | none => [])

/-- RESET_PART's effects: every grid killed, every node ended, the queues' commands discarded, the time table cleared. -/
def State.resetPart (s : State) (part : Nat) : State :=
  let t := ((s.part? part).map Part.tt).getD TimeTable.empty
  let s := s.updPart part fun p => { p with tt := { TimeTable.empty with live := p.tt.live } }
  let s := (s.liveNodes part).foldl (fun (s : State) n => s.endNode n 4 9) s
  let s := (s.grids.filter fun g => decide (g.part = part)).foldl (fun (s : State) g => s.killGrid g.id 4) s
  match s.part? part with
  | none => s
  | some p =>
    let gone := p.queues.flatMap CmdQueue.cmds
    let s := gone.foldl (fun (s : State) c => s.answer c.h 9 .none) s
    let s := t.cmds.foldl (fun (s : State) e => s.answer e.1 (if e.2 then 9 else 0) .none) s
    s.updPart part fun p => { p with queues := p.queues.map fun q => { q with cmds := [] } }

/-- Nothing of the partition runs. -/
def State.partIdle (s : State) (part : Nat) : Bool :=
  !(s.groups.any fun g => decide (g.part = part)) && !(s.grids.any fun g => decide (g.part = part))
    && !(s.nodes.any fun n => decide (n.part = part)) && !(s.jobs.any fun j => decide (j.part = part))
    && !(s.writes.any fun w => decide (w.part = part) && decide (w.gid ≠ 0))

/-- RESET_PART (R98): completes once what it killed has ended (DEDUCED, log 59). -/
def execResetPart (h : CmdHdr) (s : State) : Out' :=
  .next (s.onPart h fun p =>
    let s := if s.inside h .resetPart then s else s.resetPart p.id
    if s.partIdle p.id then s.complete h 0 .none else s.stay h .resetPart)

/-- A partition id not in use. -/
def State.newPartId (s : State) (cand : Nat) : Nat :=
  let used : Nat → Bool := fun i => s.parts.any fun p => decide (p.id = i)
  if used (cand % 0xFFFF) then ((List.range 0xFFFF).find? fun i => !(used i)).getD 0 else cand % 0xFFFF

/-- The quadrants of a mask, in logical order. -/
def quadsOf (mask : BitVec 16) : List Nat := (List.range 16).filter fun q => mask.getLsbD q

/-- PART_CREATE (R46, R60, R98): gates follow the owner of each quadrant; the map page is Fubebex's own, raw-pinned in an extent of
1,024 cells (R55); without room for that the answer is 6 (DESIGN CHOICE, log 104). -/
def execPartCreate (h : CmdHdr) (mask : BitVec 16) (jobs : List Nat) (dest : Nat) (s : State) : Out' :=
  .next (s.onNone h (
    let quads := quadsOf mask
    if quads.isEmpty ∨ 4 < jobs.length then s.complete h 2 .none
    else if quads.any fun q => (s.ownerOf q).isSome then s.complete h 8 .none
    else
      let id := s.newPartId (Config.freeNat s.free)
      let va := 65536 * (Config.freeNat (s.free + 1) % 2 ^ 32)
      let p := Part.make id quads jobs dest va (Config.freeRmaKey s.free) (Config.freeKey s.free)
      match s.place (homeQuad p va) 1024 (Config.freeNat (s.free + 2) % stackCells / 1024 * 1024) (65536, 0) with
      | none => ({ s with free := s.free + 3 } : State).complete h 6 .none
      | some ext =>
        let bytes := ({ s with parts := s.parts ++ [p] } : State).mapPage p 0
        let pg : Page := { part := id, vpn := va / 65536, w := false, cls := 1, key := 0, nbrow := 0, cl := false, extent := ext, hw := none, cap := 1024
                           hwm := 1024, table := [], dict := [], moves := 0, dirty := (List.range ((bytes.length + 511) / 512)).map fun b => (b, 0)
                           cells := [], own := true }
        let s : State := { s with free := s.free + 3, pages := s.pages ++ [pg], parts := s.parts ++ [p] }
        let s := s.updPart id fun p => { p with views := p.views.modify (homeDie p va) fun v => v.poke va bytes }
        s.complete h 0 (.partition id)))

/-- Events that are kept leave in their order. -/
def State.flushEvents (s : State) (p : Part) : State :=
  ((List.range p.evq.length).zip p.evq).foldl (fun (s : State) e => s.sendTo p.dest (.event p.id (p.evSeq + 1 + e.1) e.2)) s

/-- The partition is taken apart: pages, keys, windows, journal, packets and what its quadrants hold; the generations of frame
offsets stay (R61, R98, R162). -/
def State.destroyPart (s : State) (p : Part) : State :=
  let s := s.flushEvents p
  let mine : Nat → Bool := fun q => p.quads.contains q
  let wipeCore : Nat → Core → Core := fun c k => if mine (c / 24) then { Core.reset with gens := k.gens, gensShare := k.gensShare } else k
  let wipeQuad : Nat → Quad → Quad := fun q k =>
    if mine q then { Quad.reset with decTed := k.decTed, railOk := k.railOk, retired := k.retired, remap := k.remap } else k
  { s with
    parts := s.parts.filter fun q => decide (q.id ≠ p.id)
    pages := s.pages.filter fun g => decide (g.part ≠ p.id)
    writes := s.writes.filter fun w => decide (w.part ≠ p.id)
    early := s.early.filter fun e => decide (e.part ≠ p.id)
    ordered := s.ordered.filter fun o => decide (o.part ≠ p.id)
    rels := s.rels.filter fun r => decide (r.part ≠ p.id)
    applies := s.applies.map fun a => if a.part = p.id then { a with bytes := [], poison := [] } else a
    refunds := s.refunds.filter fun r => decide (r.part ≠ p.id)
    packets := s.packets.filter fun k => decide (k.part ≠ p.id)
    blocks := s.blocks.filter fun b => !(mine (b.core / 24))
    frames := s.frames.filter fun f => !(mine (if f.depth = 2 then f.place / 24 else f.place / 6))
    cores := s.cores.mapIdx wipeCore
    quads := s.quads.mapIdx wipeQuad }

/-- PART_DESTROY (R45, R61, R98): as RESET_PART; then, with nothing running, the partition goes. -/
def execPartDestroy (h : CmdHdr) (s : State) : Out' :=
  .next (s.onPart h fun p =>
    let s := if s.inside h .partDestroy then s else s.resetPart p.id
    if s.partIdle p.id then (s.destroyPart ((s.part? p.id).getD p)).complete h 0 .none else s.stay h .partDestroy)

/-- A number that PART_CONFIG may write (R108). -/
def configurable (n : Nat) : Bool := (decide (0x801 ≤ n) && decide (n ≤ 0x809)) || decide (n = 0x900)

/-- PART_CONFIG (R60, R108): the pairs in order, then the key slot. Cells sealed under a slot's former key still read as plain data
(DESIGN CHOICE, log 101). -/
def execPartConfig (h : CmdHdr) (pairs : List (Nat × DWord)) (key : Nat) (s : State) : Out' :=
  .next (s.onPart h fun p =>
    let inView : Nat → Bool := fun n => decide (0x800 ≤ n) && decide (n ≤ 0x9FF)
    if 32 < pairs.length ∨ 3 < key ∨ (pairs.any fun e => inView e.1 && !(configurable e.1)) = true then s.complete h 2 .none
    else if pairs.any fun e => !(inView e.1) then s.complete h 3 .none
    else
      let s := pairs.foldl (fun (s : State) e => s.setPriv p.id e.1 e.2) s
      let s : State := if key = 0 then s else
        ({ s with free := s.free + 1 } : State).updPart p.id fun p => { p with keys := p.keys.set key (some (Config.freeKey s.free)) }
      s.complete h 0 .none)

/-! ## Events (R111) -/

/-- EVENT_DELIVERY: the destination accepts the oldest event kept for a partition, or for the supervisor job (part 0xFFFF), at the peer whose command
fixed it (DESIGN CHOICE, log 117). One that has no connection accepts none (R92). -/
def execEventDelivery (part : Nat) (s : State) : Out' :=
  .next (if part = 0xFFFF then
      match s.dev.evq, s.dev.supJob with
      | e :: es, some _ => if s.dev.conns.contains s.dev.supPeer = false then s else (s.updDev fun d => { d with evq := es, evSeq := d.evSeq + 1 }).output (.event part (s.dev.evSeq + 1) e)
      | _, _ => s
    else match s.part? part with
      | none => s
      | some p =>
        match p.evq with
        | e :: es => if s.dev.conns.contains p.dest = false then s else (s.updPart part fun p => { p with evq := es, evSeq := p.evSeq + 1 }).output (.event part (p.evSeq + 1) e)
        | [] => s)

end Sys2Proof.Machine
end

