-- ==== Sys2Proof/Machine/Power.lean ====
section
/-!
DEFINITION. Power and time as the management core sees them (R17, R22), and device reset (R26, R27, R64, R104).
-/

namespace Sys2Proof.Machine

/-- A sample of the average of the module draw: it has not stayed below 3,800 W when it is at or above that now (R22). -/
def State.sampleDraw (s : State) (draw : Nat) : State :=
  s.updDev fun d => { d with coolAt := if 3800 ≤ draw then none else d.coolAt.or (some s.dev.up) }

/-- THROTTLE_SET (R22): the 1 ms average of the module draw is sampled; THROTTLE is set at or above 4,000 W. -/
def execThrottleSet (draw : Nat) (s : State) : Out' :=
  let s := s.sampleDraw draw
  .next (if draw < 4000 ∨ s.dev.throttle = true then s
    else
      let s := s.updDev fun d => { d with throttle := true }
      { s with parts := s.parts.map fun p => { p with cnt := { p.cnt with throttleCnt := p.cnt.throttleCnt + 1 } } })

/-- THROTTLE_CLEAR (R22): the average is sampled; THROTTLE clears once it has stayed below 3,800 W for 1 ms. -/
def execThrottleClear (draw : Nat) (s : State) : Out' :=
  let s := s.sampleDraw draw
  .next (if s.dev.coolAt.any fun t => decide (t + 1000000 ≤ s.dev.up) then s.updDev fun d => { d with throttle := false } else s)

/-- PTP_PORT_LOST (R17): a locked time of day runs on in holdover, without a step (DEDUCED, log 78). -/
def execPtpPortLost (s : State) : Out' := .next (s.updDev fun d => { d with ptpMode := if d.ptpMode = 1 then 2 else d.ptpMode })

/-- PTP_RESUME (R17): discipline resumes, `off` ns away from the grandmaster. The time of day is slewed by that much as time
passes (`State.passTime`), and not stepped. -/
def execPtpResume (off : Int) (s : State) : Out' := .next (s.updDev fun d => { d with ptpMode := 1, slew := off })

/-- DEVICE_RESET (R26, R27, R64, R104): the fuses stay; an integrity failure leaves Fubebex not started; each quadrant's L2 starts
in the mode that its rail selects. Host memory and what has left the device are outside it (DESIGN CHOICE, log 79). -/
def execDeviceReset (rails : List (BitVec 8)) (s : State) : Out' :=
  let f := s.dev.fuses
  let mode : Nat → Quad → Quad := fun q k => { k with decTed := decide ((rails.getD q (BitVec.allOnes 8)).toNat < f.threshold.toNat) }
  .next { State.reset with
    agenda := s.agenda, free := s.free, nextId := s.nextId, host := s.host, out := s.out
    dev := { Dev.reset with fuses := f, running := f.intact }, quads := State.reset.quads.mapIdx mode }

end Sys2Proof.Machine
end

