-- ==== Sys2Proof/Machine/Sync.lean ====
section
/-!
DEFINITION. Barriers and teams (R310-R313), `sleep` and `wake` (R180, R314, R315).
-/

namespace Sys2Proof.Machine

/-- The split waits at a barrier, at its fall-through header. -/
def Ctx.arrive (x : Ctx) (k : BarKind) (id : Nat) : Eff :=
  .placed ((x.s.jump x x.c.next).updGrp x.gid fun g => g.updSplit x.p.sid fun p => { p with wait := .bar k id })

/-- `bar` (R310). -/
def execBar (f : Fld) (s : State) : Out' := .next (runIsa (.bar f) (fun x => x.arrive .bar (f.mod.toNat % 16)) s)

/-- `barc` (R311). -/
def execBarc (f : Fld) (s : State) : Out' := .next (runIsa (.barc f) (fun x => x.arrive .barc (f.mod.toNat % 16)) s)

/-- The members of a team on a core. -/
def Core.members (k : Core) (grid t : Nat) : List Nat :=
  ((k.teams.find? fun e => decide (e.grid = grid) && decide (e.t = t)).map Team.members).getD []

def Core.setMembers (k : Core) (grid t : Nat) (ms : List Nat) : Core :=
  let this : Team → Bool := fun e => decide (e.grid = grid) && decide (e.t = t)
  let old : Team := (k.teams.find? this).getD { grid := grid, t := t, members := [], last := 0, urgent := none }
  { k with teams := (if ms.isEmpty then [] else [{ old with members := ms }]) ++ k.teams.filter fun e => !(this e) }

/-- The member that executes a `tbar` of its team is the latest to do so (R147). -/
def State.lastAt (s : State) (g : Group) (t : Nat) : State :=
  s.updCore g.core fun k => { k with teams := k.teams.map fun e => if e.grid = g.grid ∧ e.t = t then { e with last := g.gid } else e }

/-- `tjoin` (R312). -/
def execTjoin (f : Fld) (s : State) : Out' :=
  .next (runLanes (.tjoin f) (fun x =>
    let t := f.mod.toNat % 8
    .done (x.s.updCore x.g.core fun k =>
      let ms := k.members x.g.grid t
      if ms.contains x.gid then k else k.setMembers x.g.grid t (ms ++ [x.gid]))) s)

/-- `tleave` (R312). -/
def execTleave (f : Fld) (s : State) : Out' :=
  .next (runLanes (.tleave f) (fun x =>
    let t := f.mod.toNat % 8
    .done (x.s.updCore x.g.core fun k => k.setMembers x.g.grid t ((k.members x.g.grid t).filter fun m => decide (m ≠ x.gid)))) s)

/-- `tbar` (R312): a group outside the team traps; on an empty team there is nothing to wait for (DEDUCED, log 40). -/
def execTbar (f : Fld) (s : State) : Out' :=
  .next (runIsa (.tbar f) (fun x =>
    let t := f.mod.toNat % 8
    let ms := (x.s.core! x.g.core).members x.g.grid t
    if ms.isEmpty then .done x.s
    else if ms.contains x.gid then ({ x with s := x.s.lastAt x.g t } : Ctx).arrive .tbar t
    else .trap 0x03 x.act 0) s)

/-- `sleep` (R180, R314): waits for a nonzero wake register, and no other split of the group issues meanwhile; a `.dev` acquire of what
the wakes carried. -/
def execSleep (f : Fld) (s : State) : Out' :=
  .next (runLanes (.sleep f) (fun x =>
    let gc := x.g.mm.gc.join x.g.wakeGc
    let wait : Wait → State → State := fun w s => s.updGrp x.gid fun g => g.updSplit x.p.sid fun p => { p with wait := w }
    if x.g.wake = 0 ∨ x.g.readsDone x.g.seq = false ∨ gc.le (x.s.die! (dieOf x.g.core)).av = false then
      .wait ((wait .sleep x.s).awaitReads x.g x.p x.c true)
    else
      let s := x.wr (wait .none x.s) f.dst fun _ => words2 x.g.wake
      .done (((s.updGrp x.gid fun g => { g with wake := 0, wakeGc := VClock.zero, mm := { g.mm with gc := g.mm.gc.join gc } }).clearL1 x.g.core).pairTook x.g)) s)

/-- The value that `wake` ORs in. -/
def Ctx.wakeVal (x : Ctx) (lane : Nat) : DWord := if x.f.i then x.f.imm.signExtend 64 else x.val x.f.sb 2 lane

/-- Each lane's wake in turn. -/
def Ctx.wakes (x : Ctx) (one : State → Word → DWord → State) : Eff :=
  .done (x.units.foldl (fun s l => one s (x.slot x.f.sa 0 (x.srcLane l)) (x.wakeVal l)) x.s)

/-- `wake.park` (R315). -/
def execWakePark (f : Fld) (s : State) : Out' :=
  .next (runLanes (.wakePark f) (fun x => x.wakes fun s a v =>
    if v = 0 then s
    else match s.groups.find? fun g => decide (g.part = x.g.part) && decide (g.park = a) with
      | some t => s.wakeGroup t v x.g.mm.gc
      | none => s) s)

/-- `wake.queue` (R97, R315). -/
def execWakeQueue (f : Fld) (s : State) : Out' :=
  .next (runLanes (.wakeQueue f) (fun x => x.wakes fun s a v =>
    if 15 < a.toNat then s
    else s.updPart x.g.part fun p => { p with queues := p.queues.modify a.toNat fun q => { q with wake := q.wake ||| v } }) s)

/-- `wake.mgmt` (R315). -/
def execWakeMgmt (f : Fld) (s : State) : Out' :=
  .next (runLanes (.wakeMgmt f) (fun x => x.wakes fun s _ v => s.updDev fun d => { d with mgmtWake := d.mgmtWake ||| v }) s)

end Sys2Proof.Machine
end

