-- ==== Sys2Proof/Machine/Tables.lean ====
section
/-!
DEFINITION. Time-triggered launches (R115-R117): TT_LOAD, TT_START, the slots, and the boundary between two cycles.
-/

namespace Sys2Proof.Machine

def State.updTT (s : State) (part : Nat) (f : TimeTable → TimeTable) : State := s.updPart part fun p => { p with tt := f p.tt }

/-- The cycle lengths that slots must lie below: the run's, and that of a re-phase to come. -/
def TimeTable.cycles (t : TimeTable) : List Nat := (t.run.toList ++ t.rephase.toList).map TTRun.cycle

/-- Slots in non-decreasing order, policies 0 to 2. -/
def ttOrdered : Nat → List TTEntry → Bool
  | _, [] => true
  | lo, e :: es => decide (lo ≤ e.slot) && decide (e.policy ≤ 2) && ttOrdered e.slot es

/-- TT_LOAD (R115): at once, or at the next cycle boundary of a running table. -/
def execTtLoad (h : CmdHdr) (entries : List TTEntry) (s : State) : Out' :=
  .next (s.onPart h fun p =>
    if 256 < entries.length ∨ ttOrdered 0 entries = false ∨ (entries.any fun e => p.tt.cycles.any fun c => decide (c ≤ e.slot)) = true then
      s.complete h 2 .none
    else (s.updTT p.id fun t => if t.run.isSome then { t with pending := some entries } else { t with entries := entries }).complete h 0 .none)

/-- A start advanced by whole cycles: to the first boundary at or after `t`. -/
def boundaryFrom (start cycle t : Nat) : Nat := if t ≤ start then start else start + (t - start + cycle - 1) / cycle * cycle

/-- TT_START with the run flag set (R116): starts the table, or re-phases it. A start already past moves to a boundary still
ahead. -/
def execTtStartRun (h : CmdHdr) (cycle start : Nat) (s : State) : Out' :=
  .next (s.onPart h fun p =>
    let inForce := p.tt.pending.getD p.tt.entries
    if cycle < 10000 ∨ 4000000000 < cycle ∨ (inForce.any fun e => decide (cycle ≤ e.slot)) = true then s.complete h 2 .none
    else
      let now := s.dev.tod
      let first := if start < now then boundaryFrom start cycle (now + 1) else start
      let r : TTRun := { start := first, cycle := cycle, k := 0, next := 0, cmd := h }
      s.updTT p.id fun t =>
        if t.run.isSome then { t with rephase := some { r with start := start }, stop := t.stop ++ (t.rephase.map TTRun.cmd).toList }
        else { t with run := some r })

/-- TT_START with the run flag clear (R116): the table stops after the cycle in progress. -/
def execTtStartStop (h : CmdHdr) (s : State) : Out' :=
  .next (s.onPart h fun p =>
    if p.tt.run.isNone then s.complete h 0 .none
    else s.updTT p.id fun t => { t with stop := t.stop ++ (t.rephase.map TTRun.cmd).toList ++ [h], rephase := none })

/-- TT_SLOT (R117): the next entry's slot falls due. It launches, or its overrun policy is applied (DEDUCED, log 77). -/
def execTtSlot (part entry : Nat) (s : State) : Out' :=
  .next (match s.part? part with
    | none => s
    | some p =>
      match p.tt.run, p.tt.entries[entry]? with
      | some r, some e =>
        let t := r.start + r.k * r.cycle + e.slot
        if entry ≠ r.next ∨ s.dev.tod < t then s
        else
          let go : State → State := fun s => s.updTT part fun t => { t with run := some { r with next := r.next + 1 } }
          let count : State → (Counters → Counters) → State := fun s f => s.updPart part fun p => { p with cnt := f p.cnt }
          let pending := (assoc entry p.tt.abort).isSome || (assoc entry p.tt.deferred).isSome
          if (assoc entry p.tt.live).isNone && !pending then (if s.windowRoom part 1 then (go s).ttSubmit part entry e.card else s)
          else
            let s := (go s).raise part (.ttOverrun entry e.policy t)
            if e.policy = 0 then count s fun c => { c with ttSkips := c.ttSkips + 1 }
            else if e.policy = 1 then
              if (assoc entry p.tt.deferred).isSome then count s fun c => { c with ttSkips := c.ttSkips + 1 }
              else
                let s := s.updTT part fun t => { t with deferred := (entry, e.card) :: t.deferred }
                count s fun c => { c with ttDefers := c.ttDefers + 1 }
            else if (assoc entry p.tt.abort).isSome then s
            else
              let s := s.updTT part fun t => { t with abort := (entry, e.card) :: t.abort }
              let s := count s fun c => { c with ttAborts := c.ttAborts + 1 }
              match (assoc entry p.tt.live).bind (s.node? part) with
              | some n => s.endNode n 3 9
              | none => s.ttNext part entry
      | _, _ => s)

/-- TT_CYCLE_BOUNDARY (R115, R116): every slot of the cycle has fallen due and the cycle is over. A loaded table replaces the old
one; a stop or a re-phase takes effect, and the commands that it ends complete with status 0. Pending DEFER and ABORT launches outlast the stop
(DESIGN CHOICE, log 123). -/
def execTtCycleBoundary (part : Nat) (s : State) : Out' :=
  .next (match s.part? part with
    | none => s
    | some p =>
      match p.tt.run with
      | none => s
      | some r =>
        let ends := r.start + (r.k + 1) * r.cycle
        if r.next < p.tt.entries.length ∨ s.dev.tod < ends then s
        else
          let s := s.updTT part fun t => { t with entries := t.pending.getD t.entries, pending := none }
          if p.tt.stop.isEmpty ∧ p.tt.rephase = none then s.updTT part fun t => { t with run := some { r with k := r.k + 1, next := 0 } }
          else
            let s := (r.cmd :: p.tt.stop).foldl (fun (s : State) h => s.answer h 0 .none) s
            s.updTT part fun t => { t with
              stop := [], rephase := none
              run := p.tt.rephase.map fun q => { q with start := boundaryFrom q.start q.cycle ends } })

end Sys2Proof.Machine
end

