-- ==== Sys2Proof/Machine/Dispatch.lean ====
section
/-!
DEFINITION. One arm per row of the opcode table: the call of its meaning.
-/

namespace Sys2Proof.Machine

def exec (i : Instr) (s : State) : Host.Outcome State Fault Refusal :=
  match i with
  | .deviceReset rails => Sys2Proof.Machine.execDeviceReset rails s
  | .commandArrival h b => Sys2Proof.Machine.execCommandArrival h b s
  | .identify h => Sys2Proof.Machine.execIdentify h s
  | .capReadList h => Sys2Proof.Machine.execCapReadList h s
  | .capReadRegisters h sel regs => Sys2Proof.Machine.execCapReadRegisters h sel regs s
  | .attest h nonce => Sys2Proof.Machine.execAttest h nonce s
  | .logRead h first count free => Sys2Proof.Machine.execLogRead h first count free s
  | .resetPart h => Sys2Proof.Machine.execResetPart h s
  | .partCreate h mask jobs dest => Sys2Proof.Machine.execPartCreate h mask jobs dest s
  | .partDestroy h => Sys2Proof.Machine.execPartDestroy h s
  | .partConfig h pairs key => Sys2Proof.Machine.execPartConfig h pairs key s
  | .map h p => Sys2Proof.Machine.execMap h p s
  | .unmap h va count => Sys2Proof.Machine.execUnmap h va count s
  | .protect h va count w => Sys2Proof.Machine.execProtect h va count w s
  | .faultResolve h park verdict => Sys2Proof.Machine.execFaultResolve h park verdict s
  | .windowOpen h p => Sys2Proof.Machine.execWindowOpen h p s
  | .windowClose h num => Sys2Proof.Machine.execWindowClose h num s
  | .loadCode h va len host key => Sys2Proof.Machine.execLoadCode h va len host key s
  | .launch h card => Sys2Proof.Machine.execLaunch h card s
  | .graphSubmit h nodes => Sys2Proof.Machine.execGraphSubmit h nodes s
  | .ttLoad h entries => Sys2Proof.Machine.execTtLoad h entries s
  | .ttStartRun h cycle start => Sys2Proof.Machine.execTtStartRun h cycle start s
  | .ttStartStop h => Sys2Proof.Machine.execTtStartStop h s
  | .kill h tag => Sys2Proof.Machine.execKill h tag s
  | .balloonAck h cells => Sys2Proof.Machine.execBalloonAck h cells s
  | .svcDone h park => Sys2Proof.Machine.execSvcDone h park s
  | .journalConfig h p => Sys2Proof.Machine.execJournalConfig h p s
  | .replayBind h p => Sys2Proof.Machine.execReplayBind h p s
  | .patchLoad h img => Sys2Proof.Machine.execPatchLoad h img s
  | .topoRead h => Sys2Proof.Machine.execTopoRead h s
  | .eventDelivery part => Sys2Proof.Machine.execEventDelivery part s
  | .connectionSetup peer f => Sys2Proof.Machine.execConnectionSetup peer f s
  | .inboundRmaWrite r data => Sys2Proof.Machine.execInboundRmaWrite r data s
  | .inboundRmaRead r len => Sys2Proof.Machine.execInboundRmaRead r len s
  | .leaseGrant quad => Sys2Proof.Machine.execLeaseGrant quad s
  | .leaseIntervalEnd quad job => Sys2Proof.Machine.execLeaseIntervalEnd quad job s
  | .throttleSet draw => Sys2Proof.Machine.execThrottleSet draw s
  | .throttleClear draw => Sys2Proof.Machine.execThrottleClear draw s
  | .ptpPortLost => Sys2Proof.Machine.execPtpPortLost s
  | .ptpResume off => Sys2Proof.Machine.execPtpResume off s
  | .crossbarHop pkt => Sys2Proof.Machine.execCrossbarHop pkt s
  | .packetArrival pkt => Sys2Proof.Machine.execPacketArrival pkt s
  | .handlerGroupForm core cls base park => Sys2Proof.Machine.execHandlerGroupForm core cls base park s
  | .linkDown a b => Sys2Proof.Machine.execLinkDown a b s
  | .linkDegraded a b => Sys2Proof.Machine.execLinkDegraded a b s
  | .storeAccept wid => Sys2Proof.Machine.execStoreAccept wid s
  | .refund k => Sys2Proof.Machine.execRefund k s
  | .replicaApply k => Sys2Proof.Machine.execReplicaApply k s
  | .replicaFill part die line => Sys2Proof.Machine.execReplicaFill part die line s
  | .storeFaultReport wid => Sys2Proof.Machine.execStoreFaultReport wid s
  | .writeback part vpn mb base => Sys2Proof.Machine.execWriteback part vpn mb base s
  | .compaction part vpn base => Sys2Proof.Machine.execCompaction part vpn base s
  | .dramUncorrectable part sector => Sys2Proof.Machine.execDramUncorrectable part sector s
  | .mapCacheError part vpn relayout => Sys2Proof.Machine.execMapCacheError part vpn relayout s
  | .rowRemapVote quad bank copies bases => Sys2Proof.Machine.execRowRemapVote quad bank copies bases s
  | .eccSwitchDecTed quad rail => Sys2Proof.Machine.execEccSwitchDecTed quad rail s
  | .eccSwitchSecDed quad rail => Sys2Proof.Machine.execEccSwitchSecDed quad rail s
  | .creditRefill core => Sys2Proof.Machine.execCreditRefill core s
  | .balloonTimeout part => Sys2Proof.Machine.execBalloonTimeout part s
  | .append part src job es => Sys2Proof.Machine.execAppend part src job es s
  | .ack part partner es => Sys2Proof.Machine.execAck part partner es s
  | .trunc part src es => Sys2Proof.Machine.execTrunc part src es s
  | .fetch part src jsid first count => Sys2Proof.Machine.execFetch part src jsid first count s
  | .fetched part jsid es => Sys2Proof.Machine.execFetched part jsid es s
  | .partnerConnectionFail part partner => Sys2Proof.Machine.execPartnerConnectionFail part partner s
  | .ackTimeout part => Sys2Proof.Machine.execAckTimeout part s
  | .ttSlot part entry => Sys2Proof.Machine.execTtSlot part entry s
  | .nodeStart part nid => Sys2Proof.Machine.execNodeStart part nid s
  | .nodeEnd part nid => Sys2Proof.Machine.execNodeEnd part nid s
  | .blockPlace grid a twin => Sys2Proof.Machine.execBlockPlace grid a twin s
  | .groupEvict gid => Sys2Proof.Machine.execGroupEvict gid s
  | .groupRestore gid => Sys2Proof.Machine.execGroupRestore gid s
  | .gridEnd grid => Sys2Proof.Machine.execGridEnd grid s
  | .watchdogExpire grid => Sys2Proof.Machine.execWatchdogExpire grid s
  | .calleeDrain core laneBase groupBase park => Sys2Proof.Machine.execCalleeDrain core laneBase groupBase park s
  | .clauseStart gid sid => Sys2Proof.Machine.execClauseStart gid sid s
  | .loadReply gid oid lanes src => Sys2Proof.Machine.execLoadReply gid oid lanes src s
  | .atomicReply gid oid => Sys2Proof.Machine.execAtomicReply gid oid s
  | .divideComplete gid oid => Sys2Proof.Machine.execDivideComplete gid oid s
  | .spindleGrant core => Sys2Proof.Machine.execSpindleGrant core s
  | .jobStart jid => Sys2Proof.Machine.execJobStart jid s
  | .jobComplete jid fetched => Sys2Proof.Machine.execJobComplete jid fetched s
  | .msgStatus gid oid => Sys2Proof.Machine.execMsgStatus gid oid s
  | .jrnlComplete gid oid => Sys2Proof.Machine.execJrnlComplete gid oid s
  | .emitDurable gid oid => Sys2Proof.Machine.execEmitDurable gid oid s
  | .jtruncDurable gid sid => Sys2Proof.Machine.execJtruncDurable gid sid s
  | .publishComplete gid oid => Sys2Proof.Machine.execPublishComplete gid oid s
  | .svcRingWrite part => Sys2Proof.Machine.execSvcRingWrite part s
  | .registerWrite part num v => Sys2Proof.Machine.execRegisterWrite part num v s
  | .balloonAckWrite gid v => Sys2Proof.Machine.execBalloonAckWrite gid v s
  | .flagerrWrite gid v => Sys2Proof.Machine.execFlagerrWrite gid v s
  | .tpcWrite gid v => Sys2Proof.Machine.execTpcWrite gid v s
  | .fmtWrite gid sid v => Sys2Proof.Machine.execFmtWrite gid sid v s
  | .nop f => Sys2Proof.Machine.execNop f s
  | .mov f => Sys2Proof.Machine.execMov f s
  | .add f => Sys2Proof.Machine.execAdd f s
  | .sub f => Sys2Proof.Machine.execSub f s
  | .mul f => Sys2Proof.Machine.execMul f s
  | .mulhi f => Sys2Proof.Machine.execMulhi f s
  | .mad f => Sys2Proof.Machine.execMad f s
  | .madw f => Sys2Proof.Machine.execMadw f s
  | .div f => Sys2Proof.Machine.execDiv f s
  | .rem f => Sys2Proof.Machine.execRem f s
  | .min f => Sys2Proof.Machine.execMin f s
  | .max f => Sys2Proof.Machine.execMax f s
  | .abs f => Sys2Proof.Machine.execAbs f s
  | .neg f => Sys2Proof.Machine.execNeg f s
  | .and f => Sys2Proof.Machine.execAnd f s
  | .or f => Sys2Proof.Machine.execOr f s
  | .xor f => Sys2Proof.Machine.execXor f s
  | .not f => Sys2Proof.Machine.execNot f s
  | .andn f => Sys2Proof.Machine.execAndn f s
  | .shl f => Sys2Proof.Machine.execShl f s
  | .shr f => Sys2Proof.Machine.execShr f s
  | .sar f => Sys2Proof.Machine.execSar f s
  | .fshl f => Sys2Proof.Machine.execFshl f s
  | .fshr f => Sys2Proof.Machine.execFshr f s
  | .bfx f => Sys2Proof.Machine.execBfx f s
  | .bfi f => Sys2Proof.Machine.execBfi f s
  | .popc f => Sys2Proof.Machine.execPopc f s
  | .clz f => Sys2Proof.Machine.execClz f s
  | .ctz f => Sys2Proof.Machine.execCtz f s
  | .brev f => Sys2Proof.Machine.execBrev f s
  | .sel f => Sys2Proof.Machine.execSel f s
  | .setp f => Sys2Proof.Machine.execSetp f s
  | .plop f => Sys2Proof.Machine.execPlop f s
  | .pmovGet f => Sys2Proof.Machine.execPmovGet f s
  | .pmovSet f => Sys2Proof.Machine.execPmovSet f s
  | .ext f => Sys2Proof.Machine.execExt f s
  | .adr f => Sys2Proof.Machine.execAdr f s
  | .dot4 f => Sys2Proof.Machine.execDot4 f s
  | .fadd f => Sys2Proof.Machine.execFadd f s
  | .fsub f => Sys2Proof.Machine.execFsub f s
  | .fmul f => Sys2Proof.Machine.execFmul f s
  | .ffma f => Sys2Proof.Machine.execFfma f s
  | .fdiv f => Sys2Proof.Machine.execFdiv f s
  | .fmin f => Sys2Proof.Machine.execFmin f s
  | .fmax f => Sys2Proof.Machine.execFmax f s
  | .fsetp f => Sys2Proof.Machine.execFsetp f s
  | .fneg f => Sys2Proof.Machine.execFneg f s
  | .fabs f => Sys2Proof.Machine.execFabs f s
  | .fclass f => Sys2Proof.Machine.execFclass f s
  | .frcp f => Sys2Proof.Machine.execFrcp f s
  | .frsq f => Sys2Proof.Machine.execFrsq f s
  | .fsqrt f => Sys2Proof.Machine.execFsqrt f s
  | .fex2 f => Sys2Proof.Machine.execFex2 f s
  | .flg2 f => Sys2Proof.Machine.execFlg2 f s
  | .fsin f => Sys2Proof.Machine.execFsin f s
  | .fcos f => Sys2Proof.Machine.execFcos f s
  | .ftanh f => Sys2Proof.Machine.execFtanh f s
  | .fscale f => Sys2Proof.Machine.execFscale f s
  | .frnd f => Sys2Proof.Machine.execFrnd f s
  | .fcvt f => Sys2Proof.Machine.execFcvt f s
  | .f2i f => Sys2Proof.Machine.execF2i f s
  | .i2f f => Sys2Proof.Machine.execI2f f s
  | .pfma f => Sys2Proof.Machine.execPfma f s
  | .padd f => Sys2Proof.Machine.execPadd f s
  | .pmul f => Sys2Proof.Machine.execPmul f s
  | .shfl f => Sys2Proof.Machine.execShfl f s
  | .vote f => Sys2Proof.Machine.execVote f s
  | .red f => Sys2Proof.Machine.execRed f s
  | .scan f => Sys2Proof.Machine.execScan f s
  | .matchLanes f => Sys2Proof.Machine.execMatchLanes f s
  | .bcast f => Sys2Proof.Machine.execBcast f s
  | .fmt f => Sys2Proof.Machine.execFmt f s
  | .fmtrd f => Sys2Proof.Machine.execFmtrd f s
  | .qnt f => Sys2Proof.Machine.execQnt f s
  | .dqnt f => Sys2Proof.Machine.execDqnt f s
  | .tenc f => Sys2Proof.Machine.execTenc f s
  | .tdec f => Sys2Proof.Machine.execTdec f s
  | .pack f => Sys2Proof.Machine.execPack f s
  | .unpack f => Sys2Proof.Machine.execUnpack f s
  | .lmask f => Sys2Proof.Machine.execLmask f s
  | .ld f => Sys2Proof.Machine.execLd f s
  | .st f => Sys2Proof.Machine.execSt f s
  | .stm f => Sys2Proof.Machine.execStm f s
  | .atom f => Sys2Proof.Machine.execAtom f s
  | .mred f => Sys2Proof.Machine.execMred f s
  | .prf f => Sys2Proof.Machine.execPrf f s
  | .cln f => Sys2Proof.Machine.execCln f s
  | .inv f => Sys2Proof.Machine.execInv f s
  | .invAll f => Sys2Proof.Machine.execInvAll f s
  | .fence f => Sys2Proof.Machine.execFence f s
  | .fenceTotal f => Sys2Proof.Machine.execFenceTotal f s
  | .blkz f => Sys2Proof.Machine.execBlkz f s
  | .cres f => Sys2Proof.Machine.execCres f s
  | .cresRet f => Sys2Proof.Machine.execCresRet f s
  | .bra f => Sys2Proof.Machine.execBra f s
  | .brx f => Sys2Proof.Machine.execBrx f s
  | .split f => Sys2Proof.Machine.execSplit f s
  | .call f => Sys2Proof.Machine.execCall f s
  | .callx f => Sys2Proof.Machine.execCallx f s
  | .ret f => Sys2Proof.Machine.execRet f s
  | .exit f => Sys2Proof.Machine.execExit f s
  | .loop f => Sys2Proof.Machine.execLoop f s
  | .fopen f => Sys2Proof.Machine.execFopen f s
  | .fclose f => Sys2Proof.Machine.execFclose f s
  | .fref f => Sys2Proof.Machine.execFref f s
  | .disp f => Sys2Proof.Machine.execDisp f s
  | .disprd f => Sys2Proof.Machine.execDisprd f s
  | .yield f => Sys2Proof.Machine.execYield f s
  | .tret f => Sys2Proof.Machine.execTret f s
  | .bar f => Sys2Proof.Machine.execBar f s
  | .barc f => Sys2Proof.Machine.execBarc f s
  | .tjoin f => Sys2Proof.Machine.execTjoin f s
  | .tleave f => Sys2Proof.Machine.execTleave f s
  | .tbar f => Sys2Proof.Machine.execTbar f s
  | .sleep f => Sys2Proof.Machine.execSleep f s
  | .wakePark f => Sys2Proof.Machine.execWakePark f s
  | .wakeQueue f => Sys2Proof.Machine.execWakeQueue f s
  | .wakeMgmt f => Sys2Proof.Machine.execWakeMgmt f s
  | .jrnl f => Sys2Proof.Machine.execJrnl f s
  | .emit f => Sys2Proof.Machine.execEmit f s
  | .jrd f => Sys2Proof.Machine.execJrd f s
  | .jtrunc f => Sys2Proof.Machine.execJtrunc f s
  | .jtruncClose f => Sys2Proof.Machine.execJtruncClose f s
  | .publish f => Sys2Proof.Machine.execPublish f s
  | .mma f => Sys2Proof.Machine.execMma f s
  | .mmag f => Sys2Proof.Machine.execMmag f s
  | .accz f => Sys2Proof.Machine.execAccz f s
  | .accrd f => Sys2Proof.Machine.execAccrd f s
  | .accrdQ f => Sys2Proof.Machine.execAccrdQ f s
  | .accwr f => Sys2Proof.Machine.execAccwr f s
  | .cpy f => Sys2Proof.Machine.execCpy f s
  | .nbkVload f => Sys2Proof.Machine.execNbkVload f s
  | .nbkMv f => Sys2Proof.Machine.execNbkMv f s
  | .nbkDrain f => Sys2Proof.Machine.execNbkDrain f s
  | .nbkClear f => Sys2Proof.Machine.execNbkClear f s
  | .nbkFence f => Sys2Proof.Machine.execNbkFence f s
  | .spawn f => Sys2Proof.Machine.execSpawn f s
  | .node f => Sys2Proof.Machine.execNode f s
  | .msg f => Sys2Proof.Machine.execMsg f s
  | .msgNw f => Sys2Proof.Machine.execMsgNw f s
  | .route f => Sys2Proof.Machine.execRoute f s
  | .svc f => Sys2Proof.Machine.execSvc f s
  | .trap f => Sys2Proof.Machine.execTrap f s
  | .brk f => Sys2Proof.Machine.execBrk f s
  | .rdsr f => Sys2Proof.Machine.execRdsr f s
  | .wrsr f => Sys2Proof.Machine.execWrsr f s
  | .timeTod f => Sys2Proof.Machine.execTimeTod f s
  | .timeCyc f => Sys2Proof.Machine.execTimeCyc f s
  | .ttCycleBoundary part => Sys2Proof.Machine.execTtCycleBoundary part s

end Sys2Proof.Machine
end

