-- ==== Sys2Proof/Machine/HostSide.lean ====
section
/-!
DEFINITION. What the outside world does between the device's steps: time passes (R16, R17, R153), the host writes its memory
(R112), and an RMA write arrives there (R113).
-/

namespace Sys2Proof.Machine

/-- `n` cycles of 5/6 ns pass. The watchdog's time stands still for a grid whose groups are all parked off their cores.
What is left of a slew when the port is lost is slewed on in holdover (DESIGN CHOICE, log 110). -/
def State.passTime (s : State) (n : Nat) : State :=
  let six := s.dev.sixths + 5 * n
  let ns := six / 6
  let (k, s) := s.drawNat
  let d := s.dev.slew
  let part := k % (min d.natAbs ns + 1)
  let turn : Int := if 0 ≤ d then part else -(part : Int)
  let keep : Grid → Grid := fun g => if s.watched g then g else { g with lastRet := g.lastRet + ns }
  { s with
    dev := { s.dev with
      cycles := s.dev.cycles + n, sixths := six % 6, up := s.dev.up + ns
      tod := ((s.dev.tod : Int) + ns + turn).toNat % 2 ^ 64, slew := d - turn }
    grids := s.grids.map keep }

/-- The host stores to its own memory. -/
def State.hostStore (s : State) (a : Nat) (bs : List Byte) : State := s.hostPut (cellsAt a bs)

/-- RMA write `k` of those in flight completes at the host, after the earlier ones of the same bytes: a location has one order of
writes there too (R112, R113, R275) (DEDUCED, log 93). -/
def State.rmaArrive (s : State) (k : Nat) : State :=
  match s.rmas[k]? with
  | none => s
  | some r =>
    if (s.rmas.take k).any fun q => overlaps q.cells r.cells then s
    else ({ s with rmas := s.rmas.eraseIdx k } : State).hostLand r.wid r.stamp r.cells

end Sys2Proof.Machine
end

