-- ==== Sys2Proof/Machine/Agenda.lean ====
section
/-!
DEFINITION. What each move of the agenda does (DESIGN CHOICE, log 1): a split issues, Fubebex visits a queue (R96), another agent takes a step of
the table, the outside world acts; and how one instruction is put where the next step issues it (DESIGN CHOICE, log 3).
-/

namespace Sys2Proof.Machine

/-- A split's next step: its clause header, or the instruction word at its PC (R202, R212). -/
def splitStep (s : State) (gid sid : Nat) : Out' :=
  let s := { s with cur := some ⟨gid, sid⟩ }
  match s.grp? gid with
  | none => .next s
  | some g =>
    match g.split? sid with
    | none => .next s
    | some p =>
      match p.clause with
      | none => exec (.clauseStart gid sid) s
      | some c =>
        if g.mayIssue sid = false then .next s
        else if s.killed g then .next (s.exitKilled g)
        else if (g.stop.map Stop.sid) = some sid then .next (s.settleStop gid)
        else if p.wait.mayIssue = false then .next s
        else
          let s := s.fetchFill g p.pc
          match s.fetch g p.pc with
          | .word w =>
            match ofWord w with
            | some i => exec i s
            | none => .next (s.raiseTrap gid sid 0x01 (amask g p) 0 p.pc (some c))
          | r => .next (s.fetchFault g p r)

/-! ## Issue ports (R146) -/

def Group.prio (s : State) (g : Group) : Nat := ((s.grid? g.grid).map fun x => x.card.prio).getD 0

/-- A group is urgent for a team of its core (R147). -/
def State.urgent (s : State) (g : Group) : Bool :=
  (s.core! g.core).teams.any fun t => decide (t.grid = g.grid) && t.members.contains g.gid && decide (t.urgent = some g.gid)

/-- Group `a` goes before `b` on their port: one that has not issued for 64 of the port's steps first, the oldest of those; then by urgency,
PRIO and age (R146) (DEDUCED, log 109). -/
def State.goesBefore (s : State) (a b : Group) : Bool :=
  let late : Group → Bool := fun g => decide (64 ≤ g.unissued)
  let ua := s.urgent a
  let ub := s.urgent b
  if late a || late b then late a && (!(late b) || decide (a.age < b.age))
  else if ua ≠ ub then ua
  else decide (b.prio s < a.prio s) || (decide (a.prio s = b.prio s) && decide (a.age < b.age))

/-- No split of the group has a step that changes anything: it is not ready (R146) (DEDUCED, log 109). -/
def State.blocked (s : State) (g : Group) : Bool :=
  g.splits.all fun p => match splitStep s g.gid p.sid with
    | .next t => decide (t = { s with cur := some ⟨g.gid, p.sid⟩ })
    | _ => false

/-- Another group of its port, ready to issue, goes before the group (R146). -/
def State.outranked (s : State) (g : Group) : Bool :=
  s.groups.any fun x => decide (x.core = g.core) && decide (x.port = g.port) && decide (x.gid ≠ g.gid) && decide (x.place = .resident)
    && s.goesBefore x g && !(s.blocked x)

/-- The group takes its port's step. -/
def State.takePort (s : State) (g : Group) : State :=
  { s with groups := s.groups.map fun x =>
      if x.gid = g.gid then { x with unissued := 0 }
      else if x.core = g.core ∧ x.port = g.port ∧ x.place = .resident then { x with unissued := x.unissued + 1 } else x }

/-- A split's step, when its group's port gives it to the group (R146). -/
def issueStep (s : State) (gid sid : Nat) : Out' :=
  match s.grp? gid with
  | none => splitStep s gid sid
  | some g => if s.outranked g then .next { s with cur := some ⟨gid, sid⟩ } else splitStep (s.takePort g) gid sid

/-- Fubebex's next visit (R96). A handler that PATCH_LOAD has replaced has no effect that the spec gives (R105). -/
def visitStep (s : State) : Out' :=
  if s.dev.running = false then .next s
  else match s.visit with
  | (none, s) => .next s
  | (some c, s) =>
    if s.dev.patches.any fun p => decide (p.1 = cmdCode c.b) then .fault (.patchedHandler (cmdCode c.b))
    else match c.instr with
      | some i => exec i s
      | none => .next s

/-- A register write that is part of a `wrsr` and no step of another agent (DEDUCED, log 80). -/
def isWrsrPart : Instr → Bool
  | .balloonAckWrite .. => true | .flagerrWrite .. => true | .tpcWrite .. => true | .fmtWrite .. => true
  | _ => false

/-- A step of another agent. Instructions issue from splits and commands run at visits, never as events. -/
def eventStep (s : State) (i : Instr) : Out' :=
  if (info i).isSome || isCommand i || isWrsrPart i then .next s else exec i { s with cur := none }

def runMove (s : State) : Move → Out'
  | .issue gid sid => issueStep s gid sid
  | .event i => eventStep s i
  | .visit => visitStep s
  | .pass n => .next (s.passTime n)
  | .hostWrite a bs => .next (s.hostStore a bs)
  | .rmaDone k => .next (s.rmaArrive k)
  | .evictLine c l => .next (s.dropL1Line c l)
  | .jobStep j => .next (s.jobStep j)

/-- The next move, and the state without it: the agenda's first, or a free one when the agenda is empty (DESIGN CHOICE, log 1). -/
def State.nextMove (s : State) : Move × State :=
  match s.agenda with
  | m :: ms => (m, { s with agenda := ms })
  | [] => (Config.freeMove s.free, { s with free := s.free + 1 })

/-! ## A program of one instruction (DESIGN CHOICE, log 3) -/

/-- The header of a clause of one instruction: the mark, LEN 1, A = f0 and B = f1 valid (R202). -/
def probeHeader : DWord := 0x00000000A0610001

def probeCard : Card :=
  { entry := 65536, blocks := 1, groups := 1, lslots := 240, gslots := 128, acct := 128, bwords := 0, cwords := 0, scratch := 0, cshare := 0
    prio := 0, place := 0, pincore := 0, tag := 0, flags := 0, handler := 0, msgtab := 65536, args := 0, foot := 0, footn := 0, rsv := false }

/-- What stands for the creation of a partition, the load of the word, and the launch of a grid of one group on core 0, whose split
stands at the word: the next move issues it. -/
def State.loadWord (s : State) (w : DWord) : State :=
  let gid := s.nextId
  let grid := gid + 1
  let nid := gid + 2
  let p := Part.make 0 [0] [] 0 131072 0 0
  let p := { p with views := p.views.modify 0 fun (v : View) => v.poke 65536 (leBytes 8 probeHeader.toNat ++ leBytes 8 w.toNat) }
  let pg : Page := { part := 0, vpn := 1, w := true, cls := 0, key := 0, nbrow := 0, cl := true, extent := 0, hw := none, cap := 0, hwm := 0
                     table := [], dict := [], moves := 0, dirty := [], cells := [], own := false }
  let fr : Frames := { lslots := 240, gslots := 128, lbase := 4096, gbase := 36864, d2 := 0, d3 := 0, shift := 0 }
  let g := Group.make gid grid 0 0 .normal 0 0 0 1 gid fr (BitVec.allOnes 32) 65536
  let g := g.updSplit 0 fun p => { p with pc := 65544, clause := some ⟨65536, probeHeader⟩ }
  let rs : List Region := [⟨4096, 30720, 30720, .lane gid, grid, 0⟩, ⟨36864, 3072, 512, .groupFrame gid, grid, 0⟩]
  let nd : Node := { nid := nid, part := 0, order := nid, kind := .launch probeCard [], tag := 0, regions := [], preds := [], carried := [], late := false, ancestors := []
                     started := true, runs := grid, writers := [], result := none, byTag := false, cmd := none, tt := none, cap := none
                     gc := VClock.zero, hw := 0 }
  { s with
    agenda := [.issue gid 0], nextId := gid + 3
    parts := p :: s.parts.filter fun q => decide (q.id ≠ 0) && !(q.quads.contains 0)
    pages := pg :: s.pages.filter fun q => decide (q.part ≠ 0)
    grids := { id := grid, part := 0, nid := nid, card := probeCard, foot := [], next := 1, order := grid, kill := none, lastRet := s.dev.up, spins := []
               clusters := [], gids := [gid], ended := false, anc := [] } :: s.grids
    blocks := { grid := grid, bidx := 0, copy := 0, core := 0, scratchBase := 0, d2 := 0, d3 := 0, acc := [], accPoison := [], pair := none
                saved := none } :: s.blocks
    groups := g :: s.groups.filter fun x => decide (x.core ≠ 0), nodes := nd :: s.nodes
    cores := s.cores.modify 0 fun k => { k with regions := k.regions ++ rs } }

end Sys2Proof.Machine
end

