-- ==== Sys2Proof/Machine/Step.lean ====
section
/-!
DEFINITION. One step of the machine: the next move of the agenda. `withFetchWord` stands for the load of a program (DESIGN CHOICE, log 3).
-/

namespace Sys2Proof.Machine

/-- One step: the next move (DESIGN CHOICE, log 1). -/
def step (s : State) : Host.Outcome State Fault Refusal := runMove s.nextMove.2 s.nextMove.1

/-- The state whose very next step issues the instruction with these bits (DESIGN CHOICE, log 3). -/
def State.withFetchWord (s : State) (nbits w : Nat) : State := s.loadWord (BitVec.ofNat 64 (w % 2 ^ nbits))

end Sys2Proof.Machine
end

