-- ==== Sys2Proof/Safety.lean ====
section
/-!
DEFINITION. The terms in which claims are made: what counts as a safe run (every step answers a next state, every memory of the
machine keeps its canonical form), when a split issues an instruction with nothing in its way, and how the issue ends.
-/

namespace Sys2Proof.Machine

def View.wf (v : View) : Bool := v.mem.wf

def Line.wf (l : Line) : Bool := l.view.wf

def Saved.wf (v : Saved) : Bool := v.view.wf

def Core.wf (k : Core) : Bool := k.store.wf && k.shareMem.wf && k.l1.all Line.wf

def Quad.wf (q : Quad) : Bool := q.scratch.wf && q.nbVec.wf && q.nbSum.wf

def Part.wf (p : Part) : Bool := p.views.all View.wf && p.hwLines.all Line.wf

def optAll {α : Type} (f : α → Bool) : Option α → Bool
  | none => true
  | some x => f x

def Group.wf (g : Group) : Bool := optAll Saved.wf g.saved

def Pair.wf (p : Pair) : Bool := p.snap0.acc.wf && p.snap1.acc.wf && p.snap0.groups.all Group.wf && p.snap1.groups.all Group.wf

def Block.wf (b : Block) : Bool := b.acc.wf && optAll Pair.wf b.pair && optAll Saved.wf b.saved

/-- Every memory of the machine is in its canonical form. -/
def State.memWf (s : State) : Bool :=
  s.host.wf && s.cores.all Core.wf && s.quads.all Quad.wf && s.parts.all Part.wf && s.blocks.all Block.wf && s.groups.all Group.wf

/-- The first `n` steps each answer a next state. -/
def State.safeFor : Nat → State → Prop
  | 0, _ => True
  | n + 1, s => ∃ t, step s = .next t ∧ State.safeFor n t

/-! ## Issue of an instruction (R146, R201, R211, R212) -/

/-- The lanes for which an instruction runs (R201); the entries without a guard run for every lane of the split that is not dead.
(DEDUCED, log 84). -/
def lanesFor (g : Group) (p : Split) (k : OpInfo) : Mask := if k.guard then activeOf g p k.fld else amask g p

/-- Nothing in the group's state or around it holds the instruction back: no store held for replay that it must follow (R363), no
release that is not ready (R58, R338), no atomic still on its way to a slot it uses (R156), the request entries it takes (R57), and room
on its flag (R204). -/
def State.unheld (s : State) (g : Group) (c : Clause) (i : Instr) (k : OpInfo) (act : Mask) : Bool :=
  !(waitsHeld i && !g.mm.replay.isEmpty) && (!(isHandover i) || s.releaseReady g 4 g.seq) && !(s.slotBusy g k.fld (uses i))
    && s.entriesFree g.core i act && !(k.long && decide (63 ≤ g.flagCount ((flagOf c.word k.fld.fs).getD noFlag)))

/-- The context in which the current split issues `i`: its group is resident in a live grid and decides no stop, the split stands
at an instruction word and waits for nothing but that instruction, its block is not a paired one (R182), and the word passes the checks of R212 and
R163 with nothing that holds it back. None where one of these fails. -/
def issuing (i : Instr) (s : State) : Option Ctx :=
  match info i, s.cur with
  | some k, some cur =>
    match s.grp? cur.gid with
    | none => none
    | some g =>
      match g.split? cur.sid with
      | none => none
      | some p =>
        match p.clause with
        | none => none
        | some c =>
          let act := lanesFor g p k
          if g.mayIssue p.sid && !(s.killed g) && g.stop.isNone && p.wait.mayIssue && (s.pairBlock g).isNone
              && (issueFault s g p c i k).isNone && (decide (act = 0) || (staleUse s g k.fld (uses i)).isNone && s.unheld g c i k act) then
            some { s := s, g := g, p := p, c := c, f := k.fld, act := act, us := uses i }
          else none
  | _, _ => none

/-- How an issue ends that has left the state `t`: the split goes past its word, and what follows a change of its group happens. -/
def Ctx.finish (x : Ctx) (t : State) : State := ((t.hearSlots x).advance x).after x.gid

/-- The state after an issue whose instruction's own part has ended so. -/
def Ctx.ends (x : Ctx) : Eff → State
  | .done t => x.finish t
  | .placed t => t.after x.gid
  | .wait t => t.after x.gid
  | .trap code m a => x.s.raiseTrap x.gid x.p.sid code m a x.p.pc (some x.c)

/-- The issue of an instruction that traps for a fault of its encoding: as `issuing`, but the word fails a check of R212 with `code`. -/
def faulting (i : Instr) (s : State) : Option (Ctx × BitVec 8) :=
  match info i, s.cur with
  | some k, some cur =>
    match s.grp? cur.gid with
    | none => none
    | some g =>
      match g.split? cur.sid with
      | none => none
      | some p =>
        match p.clause with
        | none => none
        | some c =>
          let act := lanesFor g p k
          if g.mayIssue p.sid && !(s.killed g) && g.stop.isNone && p.wait.mayIssue then
            match issueFault s g p c i k with
            | some code => some ({ s := s, g := g, p := p, c := c, f := k.fld, act := act, us := uses i }, code)
            | none =>
              match (if act = 0 then none else staleUse s g k.fld (uses i)) with
              | some _ => some ({ s := s, g := g, p := p, c := c, f := k.fld, act := act, us := uses i }, 0x22)
              | none => none
          else none
  | _, _ => none

end Sys2Proof.Machine
end

