-- ==== Sys2Proof/Certificates/Slice0/Obligations.lean ====
section
/-!
DEFINITION. The statements for the provers. Each says what it formalises: a numbered rule of spec/, or the model's own choice where it
says so. The shapes that many of them share stand first.
-/

namespace Sys2Proof.Claim

open Sys2Proof.Machine

/-! ## Shapes -/

/-- The instruction writes each active lane's value to its destination, and its split goes past the word; with no active lane nothing
is written (R201). -/
def Writes (i : Instr) (f : Fld) (v : Ctx → Nat → List Word) : Prop :=
  ∀ s x, issuing i s = some x → exec i s = .next (x.finish (x.wr s f.dst (v x)))

/-- With an active lane, and where `p` holds, the instruction has the effect `e`, and its split goes past the word. -/
def Does (i : Instr) (p : Ctx → Prop) (e : Ctx → State) : Prop :=
  ∀ s x, issuing i s = some x → x.act ≠ 0 → p x → exec i s = .next (x.finish (e x))

/-- With an active lane, and where `p` holds, the instruction has the effect `e`, which places its split itself. -/
def Goes (i : Instr) (p : Ctx → Prop) (e : Ctx → State) : Prop :=
  ∀ s x, issuing i s = some x → x.act ≠ 0 → p x → exec i s = .next ((e x).after x.gid)

/-- With an active lane, and where `p` holds, the instruction raises a trap at its word, and no lane of it is performed (R173). -/
def TrapsWith (i : Instr) (p : Ctx → Prop) (code : BitVec 8) (lanes : Ctx → Mask) (addr : Ctx → Nat) : Prop :=
  ∀ s x, issuing i s = some x → x.act ≠ 0 → p x →
    exec i s = .next (s.raiseTrap x.gid x.p.sid code (lanes x) (addr x) x.p.pc (some x.c))

/-- With no active lane the instruction only lets its split go past the word. -/
def Idles (i : Instr) : Prop := ∀ s x, issuing i s = some x → x.act = 0 → exec i s = .next (x.finish s)

/-- An entry of the instruction set: its opcode, and the words that R208 and R222 let it have: FS 0, an immediate only where it has that form,
and a MOD that it defines. Any other is ill formed in its modifiers (trap 0x02). -/
def Encodes (mk : Fld → Instr) (op : Nat) (imm : Bool) (mods : List Nat) : Prop := ∀ f : Fld,
  (∃ w, encode (mk f) = some w ∧ w.toNat % 2 ^ 9 = op)
  ∧ (Instr.check (mk f) = some .modifier ↔ ¬(f.fs = false ∧ (f.i = true → imm = true) ∧ f.mod.toNat ∈ mods))
/-- MOD values of a type alone. -/
def ints : List Nat := [2, 3, 4, 5]
def bits : List Nat := [6, 7]
/-- MOD values of a type with a code from `his` in MOD[7:4]. -/
def withHi (los his : List Nat) : List Nat := his.flatMap fun h => los.map fun l => 16 * h + l

/-! ## Operand values of class 0 (R222) -/

/-- The width of the type in MOD[3:0]. -/
def width (f : Fld) : Nat := 32 * tyW f.lo
/-- Sources a, b and c as integers of the type: signed for `.i`, unsigned otherwise. -/
def intA (f : Fld) (x : Ctx) (l : Nat) : Int := toI f.lo (x.rdA (tyW f.lo) l)
def intB (f : Fld) (x : Ctx) (l : Nat) : Int := toI f.lo (x.rdB f.lo (tyW f.lo) l)
/-- Source B of an entry without an immediate form. -/
def intB' (f : Fld) (x : Ctx) (l : Nat) : Int := toI f.lo (x.val f.sb (tyW f.lo) l)
def intC (f : Fld) (x : Ctx) (l : Nat) : Int := toI f.lo (x.rdC (tyW f.lo) l)
/-- The slots of an exact result modulo 2^w. -/
def low (f : Fld) (z : Int) : List Word := ofInt (tyW f.lo) z
/-- Source a, and the amount of a shift, as numbers. -/
def natA (f : Fld) (x : Ctx) (l : Nat) : Nat := (x.rdA (tyW f.lo) l).toNat
def amount (x : Ctx) (l : Nat) : Nat := (x.rdB 2 1 l).toNat
/-- Bit i of source a. -/
def bitA (f : Fld) (x : Ctx) (l i : Nat) : Bool := (x.rdA (tyW f.lo) l).getLsbD i
/-- A number in one slot. -/
def slot1 (n : Nat) : List Word := [BitVec.ofNat 32 n]

/-- The compare codes 0 to 5 of R215 on integers: eq ne lt le gt ge. -/
def IntRel (code : Nat) (a b : Int) : Prop :=
  (code = 0 ∧ a = b) ∨ (code = 1 ∧ a ≠ b) ∨ (code = 2 ∧ a < b) ∨ (code = 3 ∧ a ≤ b) ∨ (code = 4 ∧ a > b) ∨ (code = 5 ∧ a ≥ b)

end Sys2Proof.Claim

open Sys2Proof Sys2Proof.Machine Sys2Proof.Claim

/-! ## Class 0 -/

/-- R225: the arithmetic of class 0 on exact integers modulo 2^w, and the words that each entry has. -/
def Obligations.IntegerArithmetic : Prop := ∀ f : Fld,
  Writes (.add f) f (fun x l => low f (intA f x l + intB f x l))
  ∧ Writes (.sub f) f (fun x l => low f (intA f x l - intB f x l))
  ∧ Writes (.mul f) f (fun x l => low f (intA f x l * intB f x l))
  ∧ Writes (.mulhi f) f (fun x l => low f (intA f x l * intB f x l / 2 ^ width f))
  ∧ Writes (.mad f) f (fun x l => low f (intA f x l * intB' f x l + intC f x l))
  ∧ Writes (.madw f) f (fun x l => ofInt 2 (toI f.lo (x.rdA 1 l) * toI f.lo (x.val f.sb 1 l) + (x.rdC 2 l).toInt))
  ∧ Writes (.min f) f (fun x l => low f (min (intA f x l) (intB f x l)))
  ∧ Writes (.max f) f (fun x l => low f (max (intA f x l) (intB f x l)))
  ∧ Writes (.abs f) f (fun x l => low f (intA f x l).natAbs)
  ∧ Writes (.neg f) f (fun x l => low f (-(intA f x l)))
  ∧ Encodes .add 0x002 true ints ∧ Encodes .sub 0x003 true ints ∧ Encodes .mul 0x004 true ints ∧ Encodes .mulhi 0x005 true ints
  ∧ Encodes .mad 0x006 false ints ∧ Encodes .madw 0x007 false [2, 3] ∧ Encodes .min 0x00A true ints ∧ Encodes .max 0x00B true ints
  ∧ Encodes .abs 0x00C false [2, 4] ∧ Encodes .neg 0x00D false [2, 4]

/-- R226: the values of a division: all ones and a for a divisor of 0, a and 0 for the one signed overflow, else the quotient rounded
toward zero and a − q × b. -/
def Sys2Proof.Claim.Quotient (t : Nat) (a b q r : Int) : Prop :=
  (b = 0 → q = -1 ∧ r = a)
  ∧ (b ≠ 0 → isSigned t = true → a = -(2 ^ (32 * tyW t - 1)) → b = -1 → q = a ∧ r = 0)
  ∧ (b ≠ 0 → ¬(isSigned t = true ∧ a = -(2 ^ (32 * tyW t - 1)) ∧ b = -1) → q = a.tdiv b ∧ r = a - q * b)

/-- R226, R204: `div` and `rem` count on their flag at issue, with the results of every lane, and write nothing yet. -/
def Obligations.DivisionIssue : Prop := ∀ f : Fld,
  (∀ s x, issuing (.div f) s = some x → x.act ≠ 0 → ∃ q : Nat → Int,
    (∀ l, ∃ r, Quotient f.lo (intA f x l) (intB f x l) (q l) r)
    ∧ exec (.div f) s = .next (x.finish (x.issueOp s f.dst (.div (x.lanes.map fun l => (l, low f (q l))))).2))
  ∧ (∀ s x, issuing (.rem f) s = some x → x.act ≠ 0 → ∃ r : Nat → Int,
    (∀ l, ∃ q, Quotient f.lo (intA f x l) (intB f x l) q (r l))
    ∧ exec (.rem f) s = .next (x.finish (x.issueOp s f.dst (.div (x.lanes.map fun l => (l, low f (r l))))).2))

/-- R227, R228, R229: logic, shifts and funnel shifts. -/
def Obligations.LogicAndShifts : Prop := ∀ f : Fld,
  Writes (.and f) f (fun x l => wordsN (tyW f.lo) (x.rdA (tyW f.lo) l &&& x.rdB f.lo (tyW f.lo) l))
  ∧ Writes (.or f) f (fun x l => wordsN (tyW f.lo) (x.rdA (tyW f.lo) l ||| x.rdB f.lo (tyW f.lo) l))
  ∧ Writes (.xor f) f (fun x l => wordsN (tyW f.lo) (x.rdA (tyW f.lo) l ^^^ x.rdB f.lo (tyW f.lo) l))
  ∧ Writes (.not f) f (fun x l => wordsN (tyW f.lo) (~~~ x.rdA (tyW f.lo) l))
  ∧ Writes (.andn f) f (fun x l => wordsN (tyW f.lo) (x.rdA (tyW f.lo) l &&& ~~~ x.rdB f.lo (tyW f.lo) l))
  ∧ Writes (.shl f) f (fun x l => low f (if amount x l < width f then natA f x l * 2 ^ amount x l else 0 : Nat))
  ∧ Writes (.shr f) f (fun x l => low f (if amount x l < width f then natA f x l / 2 ^ amount x l else 0 : Nat))
  ∧ (isSigned f.lo = true → Writes (.sar f) f (fun x l =>
      low f (if amount x l < width f then intA f x l / 2 ^ amount x l else if intA f x l < 0 then -1 else 0)))
  ∧ Writes (.fshl f) f (fun x l =>
      slot1 ((((x.rdA 1 l).toNat * 2 ^ 32 + (x.val f.sb 1 l).toNat) * 2 ^ ((x.rdC 1 l).toNat % 32) / 2 ^ 32) % 2 ^ 32))
  ∧ Writes (.fshr f) f (fun x l =>
      slot1 ((((x.rdA 1 l).toNat * 2 ^ 32 + (x.val f.sb 1 l).toNat) / 2 ^ ((x.rdC 1 l).toNat % 32)) % 2 ^ 32))
  ∧ Encodes .and 0x00E true bits ∧ Encodes .or 0x00F true bits ∧ Encodes .xor 0x010 true bits ∧ Encodes .not 0x011 false bits
  ∧ Encodes .andn 0x012 true bits ∧ Encodes .shl 0x013 true bits ∧ Encodes .shr 0x014 true bits ∧ Encodes .sar 0x015 true [2, 4]
  ∧ Encodes .fshl 0x016 false [6] ∧ Encodes .fshr 0x017 false [6]

/-- R230, R231: bit fields and counts. `bfx` reads bits [pos, pos + len) of a as a field of the type; `bfi` puts b's low bits there. -/
def Obligations.BitFieldsAndCounts : Prop := ∀ f : Fld,
  Writes (.bfx f) f (fun x l =>
      let len := min (amount x l / 256 % 256) (width f)
      let pos := amount x l % 256
      let v := (if pos < width f then natA f x l / 2 ^ pos else 0) % 2 ^ len
      low f (if isSigned f.lo = true ∧ 0 < len ∧ v / 2 ^ (len - 1) = 1 then (v : Int) - 2 ^ len else v))
  ∧ (∀ s x, issuing (.bfi f) s = some x → ∃ v : Nat → DWord,
      (∀ l i, i < width f → (v l).getLsbD i =
        (let pos := (x.rdC 1 l).toNat % 256
         let len := (x.rdC 1 l).toNat / 256 % 256
         if pos ≤ i ∧ i < pos + len then (x.val f.sb (tyW f.lo) l).getLsbD (i - pos) else bitA f x l i))
      ∧ exec (.bfi f) s = .next (x.finish (x.wr s f.dst fun l => wordsN (tyW f.lo) (v l))))
  ∧ Writes (.popc f) f (fun x l => slot1 ((List.range (width f)).filter (bitA f x l)).length)
  ∧ Writes (.clz f) f (fun x l => slot1 ((List.range (width f)).takeWhile fun i => !bitA f x l (width f - 1 - i)).length)
  ∧ Writes (.ctz f) f (fun x l => slot1 ((List.range (width f)).takeWhile fun i => !bitA f x l i).length)
  ∧ (∀ s x, issuing (.brev f) s = some x → ∃ v : Nat → DWord,
      (∀ l i, i < width f → (v l).getLsbD i = bitA f x l (width f - 1 - i))
      ∧ exec (.brev f) s = .next (x.finish (x.wr s f.dst fun l => wordsN (tyW f.lo) (v l))))
  ∧ Encodes .bfx 0x018 true ints ∧ Encodes .bfi 0x019 false bits ∧ Encodes .popc 0x01A false bits ∧ Encodes .clz 0x01B false bits
  ∧ Encodes .ctz 0x01C false bits ∧ Encodes .brev 0x01D false bits

/-- R232 to R235: selection, compares, truth tables, and the predicates as a byte. -/
def Obligations.PredicateInstructions : Prop := ∀ f : Fld,
  Writes (.sel f) f (fun x l => wordsN (tyW f.lo)
      (if xor (x.rdPred (f.mod.toNat / 16 % 8) l) (f.mod.getLsbD 7) then x.rdA (tyW f.lo) l else x.rdB f.lo (tyW f.lo) l))
  ∧ (∀ s x, issuing (.setp f) s = some x → x.act ≠ 0 → ∃ v : Nat → Bool,
      (∀ l, v l = true ↔ IntRel (f.mod.toNat / 16 % 8) (intA f x l) (intB f x l))
      ∧ exec (.setp f) s = .next (x.finish (x.wrPred s (f.dst.toNat % 8) v)))
  ∧ Does (.plop f) (fun _ => True) (fun x => x.wrPred x.s (f.dst.toNat % 8) fun l =>
      f.mod.getLsbD (4 * (x.rdPred (f.sa.toNat % 8) l).toNat + 2 * (x.rdPred (f.sb.toNat % 8) l).toNat + (x.rdPred (f.sc.toNat % 8) l).toNat))
  ∧ (∀ s x, issuing (.pmovGet f) s = some x → ∃ v : Nat → Word,
      (∀ l i, (v l).getLsbD i = (decide (i < 8) && if f.g then x.g.gpred i else x.g.pred l i))
      ∧ exec (.pmovGet f) s = .next (x.finish (x.wr s f.dst fun l => [v l])))
  ∧ (f.g = true → Does (.pmovSet f) (fun _ => True) (fun x => x.s.updGrp x.gid fun g =>
      { g with gp := (x.rdA 1 (lowest x.act)).setWidth 8 &&& 0x7F }))
  ∧ (f.g = false → Does (.pmovSet f) (fun _ => True) (fun x => x.s.updGrp x.gid fun g =>
      x.lanes.foldl (fun g l => { g with preds := g.preds.set l ((x.rdA 1 l).setWidth 8 &&& 0x7F) }) g))
  ∧ Encodes .sel 0x01E true (withHi bits (List.range 16)) ∧ Encodes .plop 0x020 false (List.range 256)
  ∧ Encodes .setp 0x01F true (withHi ints (List.range 6) ++ withHi bits [0, 1]) ∧ Encodes .pmovGet 0x021 false [0] ∧ Encodes .pmovSet 0x021 false [1]

/-- R236 to R239: `nop`, `mov`, widening, address arithmetic and the byte product. -/
def Obligations.MovesAndAddresses : Prop := ∀ f : Fld,
  (∀ s x, issuing (.nop f) s = some x → exec (.nop f) s = .next (x.finish s))
  ∧ (f.i = false → Writes (.mov f) f (fun x l => wordsN (tyW f.lo) (x.rdA (tyW f.lo) l)))
  ∧ (f.i = true → Writes (.mov f) f (fun _ _ => low f f.imm.toInt))
  ∧ Writes (.ext f) f (fun x l =>
      let a := (x.rdA 1 l).setWidth 32
      low f (match f.mod.toNat / 16 with
        | 0 => (a.setWidth 8).toInt
        | 1 => (a.setWidth 16).toInt
        | 2 => a.toInt
        | 3 => a.toNat
        | 4 => (a.toNat % 2 ^ 8 : Nat)
        | _ => (a.toNat % 2 ^ 16 : Nat)))
  ∧ (∀ s x, issuing (.adr f) s = some x → ∃ b : Nat → Int,
      (∀ l, (f.i = true → b l = f.imm.toInt) ∧ (f.i = false → f.lo = 2 → b l = ((x.val f.sb 1 l).setWidth 32).toInt)
        ∧ (f.i = false → f.lo ≠ 2 → b l = (x.val f.sb (tyW f.lo) l).toNat))
      ∧ exec (.adr f) s = .next (x.finish (x.wr s f.dst fun l => ofInt 2 ((x.rdA 2 l).toNat + b l * 2 ^ (f.mod.toNat / 16 % 8)))))
  ∧ Writes (.dot4 f) f (fun x l =>
      let byte (u : Bool) (v : DWord) (i : Nat) : Int := if u then (v.toNat / 2 ^ (8 * i) % 256 : Nat) else (v.extractLsb' (8 * i) 8).toInt
      let p (i : Nat) := byte (f.mod.getLsbD 0) (x.rdA 1 l) i * byte (f.mod.getLsbD 1) (x.val f.sb 1 l) i
      ofInt 1 ((x.rdC 1 l).toNat + (p 0 + p 1 + p 2 + p 3)))
  ∧ Encodes .mov 0x001 true bits ∧ Encodes .ext 0x022 false (withHi [2, 4] (List.range 6)) ∧ Encodes .adr 0x023 true (withHi ints (List.range 8))
  ∧ Encodes .dot4 0x024 false (List.range 4)

/-! ## Class 1 -/

namespace Sys2Proof.Claim

/-- Sources a, b and c of one slot as numbers. -/
def numA (x : Ctx) (l : Nat) : Nat := (x.rdA 1 l).toNat
def numB (x : Ctx) (l : Nat) : Nat := (x.rdB 8 1 l).toNat
def numB' (x : Ctx) (l : Nat) : Nat := (x.val x.f.sb 1 l).toNat
def numC (x : Ctx) (l : Nat) : Nat := (x.rdC 1 l).toNat
/-- The value of an FP32 code, its subnormals flushed when FMT.FTZ is set (R185). -/
def in32 (x : Ctx) (c : Nat) : FV := f32.decode (ftz (ftzOn x) c)
/-- FP32 lane arithmetic: one rounding of an exact result, flushed (R185, R241). -/
def out32 (x : Ctx) (mode : Nat) (v : FV) : List Word := slot1 (ftz (ftzOn x) (f32.encode mode v))
/-- The rounding code of MOD[5:4] (R240). -/
def rounding (f : Fld) : Nat := f.mod.toNat / 16 % 4
/-- The format of MOD[3:0], or of MOD[7:6] for the conversions with integers (R215, R251). -/
def fmtOf (f : Fld) : Fmt := floatFmt (f.mod.toNat % 16)
def fmtOf' (f : Fld) : Fmt := floatFmt (8 + f.mod.toNat / 64)
/-- An FP32 value of class "NaN" is the canonical NaN (R186). -/
def nan32 : Nat := 0x7FC00000
/-- The value that a compare sees. -/
def cmpVal (f : Fld) (x : Ctx) (v : DWord) : FV :=
  if f.mod.toNat % 16 = 8 then in32 x (v.toNat % 2 ^ 32) else (fmtOf f).decode (v.toNat % 2 ^ 16)
/-- The compare codes of R244: ordered 0 to 5, unordered 6 to 11, `ord` and `uno`. -/
def FloatRel (code : Nat) (a b : FV) : Prop :=
  let nan := a.isNan = true ∨ b.isNan = true
  let lt := a.lt b = true
  let gt := b.lt a = true
  let rel (c : Nat) : Prop :=
    (c = 0 ∧ ¬lt ∧ ¬gt) ∨ (c = 1 ∧ (lt ∨ gt)) ∨ (c = 2 ∧ lt) ∨ (c = 3 ∧ ¬gt) ∨ (c = 4 ∧ gt) ∨ (c = 5 ∧ ¬lt)
  (code < 6 ∧ ¬nan ∧ rel code) ∨ (6 ≤ code ∧ code < 12 ∧ (nan ∨ rel (code - 6))) ∨ (code = 12 ∧ ¬nan) ∨ (code = 13 ∧ nan)
/-- The bit that `fclass` sets for a code of a format (R246): from its sign, exponent and fraction. -/
def classBit (k : Fmt) (c : Nat) : Nat :=
  let neg := decide (2 ^ (k.eb + k.mb) ≤ c)
  let e := c / 2 ^ k.mb % 2 ^ k.eb
  let frac := c % 2 ^ k.mb
  if e = 2 ^ k.eb - 1 then
    if frac = 0 then (if neg then 0 else 7)
    else if frac < 2 ^ (k.mb - 1) then 8 else 9
  else if e = 0 then
    if frac = 0 then (if neg then 3 else 4)
    else (if neg then 2 else 5)
  else if neg then 1 else 6
/-- Element i of a packed slot (R252). -/
def elem (f : Fld) (i v : Nat) : FV := (fmtOf f).decode (v / 2 ^ (16 * i) % 2 ^ 16)
/-- b of a packed instruction: bits [15:0] of the immediate serve both elements. -/
def elemB (f : Fld) (x : Ctx) (i l : Nat) : FV := if f.i then elem f 0 (f.imm.toNat % 2 ^ 16) else elem f i (numB' x l)
/-- Two packed results, each rounded once. -/
def pair16 (f : Fld) (e : Nat → FV) : List Word :=
  slot1 ((fmtOf f).encode (rounding f) (e 0) + 2 ^ 16 * (fmtOf f).encode (rounding f) (e 1))

end Sys2Proof.Claim

/-- R242, R247, R248, R249, R251, R252: each computes the exact result and rounds once by its rounding code; FP32 lane arithmetic
flushes under FMT.FTZ. -/
def Obligations.FloatArithmetic : Prop := ∀ f : Fld,
  Writes (.fadd f) f (fun x l => out32 x (rounding f) ((in32 x (numA x l)).add (rounding f) (in32 x (numB x l))))
  ∧ Writes (.fsub f) f (fun x l => out32 x (rounding f) ((in32 x (numA x l)).add (rounding f) (in32 x (numB x l)).neg))
  ∧ Writes (.fmul f) f (fun x l => out32 x (rounding f) ((in32 x (numA x l)).mul (in32 x (numB x l))))
  ∧ Writes (.ffma f) f (fun x l =>
      out32 x (rounding f) (((in32 x (numA x l)).mul (in32 x (numB' x l))).add (rounding f) (in32 x (numC x l))))
  ∧ Does (.fdiv f) (fun _ => True) (fun x => (x.issueOp x.s f.dst (.div (x.lanes.map fun l =>
      (l, out32 x (rounding f) ((in32 x (numA x l)).div (in32 x (numB x l))))))).2)
  ∧ Writes (.fsqrt f) f (fun x l => out32 x (rounding f) (in32 x (numA x l)).sqrt)
  ∧ Writes (.fscale f) f (fun x l => out32 x (rounding f) (scaleBy ((x.rdB 2 1 l).setWidth 32).toInt (in32 x (numA x l))))
  ∧ Writes (.frnd f) f (fun x l => out32 x (rounding f) (integral (rounding f) (in32 x (numA x l))))
  ∧ Writes (.f2i f) f (fun x l => low f (toInteger f.lo (rounding f) ((fmtOf' f).decode (numA x l))))
  ∧ Writes (.i2f f) f (fun x l => slot1 ((fmtOf' f).encode (rounding f) (ofInteger (intA f x l))))
  ∧ Writes (.pfma f) f (fun x l => pair16 f fun i =>
      ((elem f i (numA x l)).mul (elem f i (numB' x l))).add (rounding f) (elem f i (numC x l)))
  ∧ Writes (.padd f) f (fun x l => pair16 f fun i => (elem f i (numA x l)).add (rounding f) (elemB f x i l))
  ∧ Writes (.pmul f) f (fun x l => pair16 f fun i => (elem f i (numA x l)).mul (elemB f x i l))

/-- R243 to R246: the instructions that do not round. -/
def Obligations.FloatSelections : Prop := ∀ f : Fld,
  (∀ s x, issuing (.fmin f) s = some x → ∃ v : Nat → Nat,
    (∀ l, let a := ftz (ftzOn x) (numA x l)
          let b := ftz (ftzOn x) (numB x l)
      ((f32.decode a).isNan = true → (f32.decode b).isNan = true → v l = nan32)
      ∧ ((f32.decode a).isNan = true → (f32.decode b).isNan = false → v l = b)
      ∧ ((f32.decode a).isNan = false → (f32.decode b).isNan = true → v l = a)
      ∧ ((f32.decode a).isNan = false → (f32.decode b).isNan = false → v l = a ∨ v l = b)
      ∧ ((f32.decode a).lt (f32.decode b) = true → v l = a) ∧ ((f32.decode b).lt (f32.decode a) = true → v l = b)
      ∧ (a = 2 ^ 31 → b = 0 → v l = a) ∧ (a = 0 → b = 2 ^ 31 → v l = b))
    ∧ exec (.fmin f) s = .next (x.finish (x.wr s f.dst fun l => slot1 (v l))))
  ∧ (∀ s x, issuing (.fmax f) s = some x → ∃ v : Nat → Nat,
    (∀ l, let a := ftz (ftzOn x) (numA x l)
          let b := ftz (ftzOn x) (numB x l)
      ((f32.decode a).isNan = true → (f32.decode b).isNan = true → v l = nan32)
      ∧ ((f32.decode a).isNan = true → (f32.decode b).isNan = false → v l = b)
      ∧ ((f32.decode a).isNan = false → (f32.decode b).isNan = true → v l = a)
      ∧ ((f32.decode a).isNan = false → (f32.decode b).isNan = false → v l = a ∨ v l = b)
      ∧ ((f32.decode a).lt (f32.decode b) = true → v l = b) ∧ ((f32.decode b).lt (f32.decode a) = true → v l = a)
      ∧ (a = 2 ^ 31 → b = 0 → v l = b) ∧ (a = 0 → b = 2 ^ 31 → v l = a))
    ∧ exec (.fmax f) s = .next (x.finish (x.wr s f.dst fun l => slot1 (v l))))
  ∧ (∀ s x, issuing (.fsetp f) s = some x → x.act ≠ 0 → ∃ v : Nat → Bool,
    (∀ l, v l = true ↔ FloatRel (f.mod.toNat / 16) (cmpVal f x (x.rdA 1 l)) (cmpVal f x (x.rdB f.lo 1 l)))
    ∧ exec (.fsetp f) s = .next (x.finish (x.wrPred s (f.dst.toNat % 8) v)))
  ∧ (∀ s x, issuing (.fneg f) s = some x → ∃ v : Nat → Word,
    (∀ l i, (v l).getLsbD i = (decide (i < (fmtOf f).width) && ((x.rdA 1 l).getLsbD i != decide (i + 1 = (fmtOf f).width))))
    ∧ exec (.fneg f) s = .next (x.finish (x.wr s f.dst fun l => [v l])))
  ∧ (∀ s x, issuing (.fabs f) s = some x → ∃ v : Nat → Word,
    (∀ l i, (v l).getLsbD i = (decide (i + 1 < (fmtOf f).width) && (x.rdA 1 l).getLsbD i))
    ∧ exec (.fabs f) s = .next (x.finish (x.wr s f.dst fun l => [v l])))
  ∧ (∀ s x, issuing (.fclass f) s = some x → ∃ k : Nat → Nat,
    (∀ l, k l = classBit (fmtOf f) (numA x l % 2 ^ (fmtOf f).width)
      ∧ ((fmtOf f).decode (numA x l) = .inf true ↔ k l = 0) ∧ ((fmtOf f).decode (numA x l) = .inf false ↔ k l = 7)
      ∧ ((fmtOf f).decode (numA x l) = .nan ↔ k l = 8 ∨ k l = 9) ∧ ((∃ e, (fmtOf f).decode (numA x l) = .fin true 0 e) ↔ k l = 3)
      ∧ ((∃ e, (fmtOf f).decode (numA x l) = .fin false 0 e) ↔ k l = 4))
    ∧ exec (.fclass f) s = .next (x.finish (x.wr s f.dst fun l => slot1 (2 ^ k l))))

namespace Sys2Proof.Claim

/-- The number that a finite value is. -/
def ratOf (neg : Bool) (m : Nat) (e : Int) : Rat := (if neg then -1 else 1) * m * 2 ^ e
/-- A unit in the last place of an FP32 value of magnitude q is 2^u. -/
def IsUlp (u : Int) (q : Rat) : Prop := -149 ≤ u ∧ q < 2 ^ (u + 24) ∧ (u = -149 ∨ 2 ^ (u + 23) ≤ q)
/-- An FP32 code has a finite value r that meets the test. -/
def Finite (c : Nat) (p : Rat → Prop) : Prop := ∃ neg m e, f32.decode c = .fin neg m e ∧ p (ratOf neg m e)
/-- r lies within b of q. -/
def Near (q b r : Rat) : Prop := q - b ≤ r ∧ r ≤ q + b
/-- The arguments of `fex2`, `flg2`, `fsin`, `fcos` and `ftanh` for which the table of R247 states a bound and nothing else. -/
def Bounded (fn : Nat) (neg : Bool) (m : Nat) (e : Int) : Prop :=
  let q := ratOf false m e
  m ≠ 0 ∧ ((fn = 3 ∧ (if neg then q < 151 else q < 128)) ∨ (fn = 4 ∧ neg = false) ∨ ((fn = 5 ∨ fn = 6) ∧ q ≤ 2 ^ (20 : Int)) ∨ (fn = 7 ∧ q < 10))
/-- The bound of R247 for such an argument of magnitude q, where the result has a unit in the last place of 2^u. -/
def boundOf (fn : Nat) (q : Rat) (u : Int) : Rat :=
  match fn with
  | 3 => 2 * 2 ^ u
  | 4 => if 1 / 2 ≤ q ∧ q ≤ 2 then 2 ^ (-22 : Int) else 2 * 2 ^ u
  | 7 => 2 ^ (-21 : Int)
  | _ => 2 ^ (-20 : Int)

end Sys2Proof.Claim

/-- R247: the special functions write one result per input. Those of `frcp` and `frsq` lie within one unit in the last place of the function, said on
exact rationals (1/√a as what squares to 1/a). The bound of the others is said about the approximation `specApprox` that the model holds a result to
(the model's choice, log 15); where the table calls a result exact, it is. `frcp` of a magnitude up to 2^-128, whose reciprocal no FP32 value reaches,
gives an infinity (the model's choice, log 15). -/
def Sys2Proof.Claim.SpecialBounds : Prop :=
  (∀ a neg m e u, f32.decode a = .fin neg m e → m ≠ 0 → 2 ^ (-128 : Int) < ratOf false m e → IsUlp u (1 / ratOf false m e) →
      Finite (specFn 0 a) (Near (1 / ratOf neg m e) (2 ^ u)))
  ∧ (∀ a neg m e, f32.decode a = .fin neg m e → m ≠ 0 → ratOf false m e ≤ 2 ^ (-128 : Int) →
      specFn 0 a = if neg then 0xFF800000 else 0x7F800000)
  ∧ (∀ a m e (u : Int), f32.decode a = .fin false m e → m ≠ 0 →
      2 ^ (2 * u + 46) * ratOf false m e ≤ 1 → 1 < 2 ^ (2 * u + 48) * ratOf false m e →
      Finite (specFn 1 a) fun r => 2 ^ u ≤ r ∧ (r - 2 ^ u) * (r - 2 ^ u) * ratOf false m e ≤ 1 ∧ 1 ≤ (r + 2 ^ u) * (r + 2 ^ u) * ratOf false m e)
  ∧ (∀ fn a neg m e tneg tm te u, f32.decode a = .fin neg m e → Bounded fn neg m e → specApprox fn neg m e = .fin tneg tm te →
      IsUlp u (ratOf false tm te) → Finite (specFn fn a) (Near (ratOf tneg tm te) (boundOf fn (ratOf false m e) u)))
  ∧ (∀ fn a neg m e, fn = 5 ∨ fn = 6 → f32.decode a = .fin neg m e → 2 ^ (20 : Int) < ratOf false m e → Finite (specFn fn a) (Near 0 1))
  ∧ (∀ a neg m e (k : Int), f32.decode a = .fin neg m e → ratOf neg m e = k → -149 ≤ k → k ≤ 127 →
      specFn 3 a = if -126 ≤ k then (k + 127).toNat * 2 ^ 23 else 2 ^ (k + 149).toNat)
  ∧ (∀ a m e (k : Int), f32.decode a = .fin false m e → ratOf false m e = 2 ^ k → Finite (specFn 4 a) fun r => r = k)

/-- R247: the results of the special functions, and the special cases of the table. -/
def Sys2Proof.Claim.SpecialCases : Prop :=
  (∀ f : Fld,
    Writes (.frcp f) f (fun x l => slot1 (ftz (ftzOn x) (specFn 0 (ftz (ftzOn x) (numA x l)))))
    ∧ Writes (.frsq f) f (fun x l => slot1 (ftz (ftzOn x) (specFn 1 (ftz (ftzOn x) (numA x l)))))
    ∧ Writes (.fex2 f) f (fun x l => slot1 (ftz (ftzOn x) (specFn 3 (ftz (ftzOn x) (numA x l)))))
    ∧ Writes (.flg2 f) f (fun x l => slot1 (ftz (ftzOn x) (specFn 4 (ftz (ftzOn x) (numA x l)))))
    ∧ Writes (.fsin f) f (fun x l => slot1 (ftz (ftzOn x) (specFn 5 (ftz (ftzOn x) (numA x l)))))
    ∧ Writes (.fcos f) f (fun x l => slot1 (ftz (ftzOn x) (specFn 6 (ftz (ftzOn x) (numA x l)))))
    ∧ Writes (.ftanh f) f (fun x l => slot1 (ftz (ftzOn x) (specFn 7 (ftz (ftzOn x) (numA x l))))))
  ∧ (∀ fn a, f32.decode a = .nan → specFn fn a = nan32)
  ∧ specFn 0 0 = 0x7F800000 ∧ specFn 0 0x80000000 = 0xFF800000 ∧ specFn 0 0x7F800000 = 0 ∧ specFn 0 0xFF800000 = 0x80000000
  ∧ specFn 1 0 = 0x7F800000 ∧ specFn 1 0x80000000 = 0xFF800000 ∧ specFn 1 0x7F800000 = 0
  ∧ (∀ a m e, f32.decode a = .fin true m e → m ≠ 0 → specFn 1 a = nan32 ∧ specFn 4 a = nan32)
  ∧ (∀ a m e, f32.decode a = .fin false m e → dyLe 128 0 m e = true → specFn 3 a = 0x7F800000)
  ∧ (∀ a m e, f32.decode a = .fin true m e → dyLe 151 0 m e = true → specFn 3 a = 0)
  ∧ specFn 3 0x7F800000 = 0x7F800000 ∧ specFn 3 0xFF800000 = 0
  ∧ specFn 4 0 = 0xFF800000 ∧ specFn 4 0x80000000 = 0xFF800000 ∧ specFn 4 0x7F800000 = 0x7F800000
  ∧ specFn 5 0 = 0 ∧ specFn 5 0x80000000 = 0x80000000 ∧ specFn 6 0 = 0x3F800000 ∧ specFn 6 0x80000000 = 0x3F800000
  ∧ (∀ fn, fn = 5 ∨ fn = 6 → specFn fn 0x7F800000 = nan32 ∧ specFn fn 0xFF800000 = nan32)
  ∧ specFn 7 0 = 0 ∧ specFn 7 0x80000000 = 0x80000000 ∧ specFn 7 0x7F800000 = 0x3F800000 ∧ specFn 7 0xFF800000 = 0xBF800000
  ∧ (∀ a neg m e, f32.decode a = .fin neg m e → dyLe 10 0 m e = true → specFn 7 a = if neg then 0xBF800000 else 0x3F800000)

/-- R247: the special functions, their special cases, their bounds and their exact results; what the bound of all but `frcp` and `frsq` is held to, and
`frcp` of the least magnitudes, is the model's choice (log 15). -/
def Obligations.SpecialFunctions : Prop := Claim.SpecialCases ∧ Claim.SpecialBounds

/-- R184, R186, R242: rounding changes no value that the format holds, whatever the rounding code. -/
def Obligations.EncodeOfDecode : Prop :=
  ∀ k : Fmt, k = f32 ∨ k = bf16 ∨ k = f16 → ∀ c mode, c < 2 ^ k.width →
    k.encode mode (k.decode c) = if (k.decode c).isNan then k.nan else c

/-! ## Class 2 -/

namespace Sys2Proof.Claim

/-- The mask of the lanes that meet a test. -/
def lanesWith (p : Nat → Bool) : Mask := maskOf ((List.range 32).filter p)
/-- Lane j takes part (R253). -/
def takesPart (x : Ctx) (j : Nat) : Bool := x.act.getLsbD j
/-- The lane that `shfl` reads, exact (R256). -/
def shflFrom (f : Fld) (l b : Nat) : Int :=
  match f.mod.toNat / 16 % 4 with
  | 0 => (b % 32 : Nat)
  | 1 => (l : Int) - b
  | 2 => (l : Int) + b
  | _ => (l ^^^ (b % 32) : Nat)
/-- One combination of `red.add.f32`: the sum rounded once, flushed (R259, R241). -/
def sum32 (x : Ctx) (a b : Nat) : Nat := ftz (ftzOn x) (f32.encode 0 ((in32 x a).add 0 (in32 x b)))
/-- The tree of R259: position i of level k combines positions 2i and 2i + 1 of level k − 1; what is absent passes the other on. -/
def treeSum (x : Ctx) : Nat → Nat → Option Nat
  | 0, i => if takesPart x i then some (numA x i) else none
  | k + 1, i =>
    match treeSum x k (2 * i), treeSum x k (2 * i + 1) with
    | none, v => v
    | u, none => u
    | some u, some v => some (sum32 x u v)

end Sys2Proof.Claim

/-- R256, R258, R261, R262: exchange between lanes. -/
def Sys2Proof.Claim.LaneExchange : Prop := ∀ f : Fld,
  Writes (.shfl f) f (fun x l => wordsN (tyW f.lo)
      (let j := shflFrom f l (amount x l)
       if j < 0 ∨ 31 < j then x.rdA (tyW f.lo) l else if takesPart x j.toNat then x.rdA (tyW f.lo) j.toNat else 0))
  ∧ Writes (.lmask f) f (fun x l => [match f.mod.toNat with
      | 0 => lanesWith fun i => decide (i < l)
      | 1 => lanesWith fun i => decide (i ≤ l)
      | 2 => lanesWith fun i => decide (i > l)
      | 3 => lanesWith fun i => decide (i ≥ l)
      | 4 => maskOf [l]
      | 5 => x.act
      | _ => x.g.dead])
  ∧ Writes (.matchLanes f) f (fun x l => [maskOf (x.lanes.filter fun j => x.rdA (tyW f.lo) j = x.rdA (tyW f.lo) l)])
  ∧ Writes (.bcast f) f (fun x _ =>
      let j := if f.mod.getLsbD 4 then lowest x.act else amount x (lowest x.act) % 32
      wordsN (tyW f.lo) (if takesPart x j then x.rdA (tyW f.lo) j else 0))

/-- R257: votes over the active lanes. -/
def Sys2Proof.Claim.Votes : Prop := ∀ (f : Fld) (s : State) (x : Ctx), issuing (.vote f) s = some x → x.act ≠ 0 →
  let p (l : Nat) : Bool := xor (x.rdPred (f.sa.toNat % 8) l) (f.mod.getLsbD 2)
  let result (b : Bool) : State :=
    if f.mod.getLsbD 3 then s.updGrp x.gid fun g => g.setGpred (f.dst.toNat % 8) b else x.wrPred s (f.dst.toNat % 8) fun _ => b
  (f.mod.toNat % 4 = 0 → ∃ b : Bool, (b = true ↔ ∀ l ∈ x.lanes, p l = true) ∧ exec (.vote f) s = .next (x.finish (result b)))
  ∧ (f.mod.toNat % 4 = 1 → ∃ b : Bool, (b = true ↔ ∃ l ∈ x.lanes, p l = true) ∧ exec (.vote f) s = .next (x.finish (result b)))
  ∧ (f.mod.toNat % 4 = 2 → ∃ b : Bool, (b = true ↔ ∃ v, ∀ l ∈ x.lanes, p l = v) ∧ exec (.vote f) s = .next (x.finish (result b)))
  ∧ (f.mod.toNat % 4 = 3 → exec (.vote f) s = .next (x.finish (x.wr s f.dst fun _ => [maskOf (x.lanes.filter p)])))

/-- R259, R260: reductions in the fixed tree, and scans in ascending lane order. -/
def Sys2Proof.Claim.ReductionsAndScans : Prop :=
  (∀ f : Fld, Writes (.red f) f (fun x _ => wordsN (tyW f.lo) (reduced x f))
    ∧ Writes (.scan f) f (fun x l => wordsN (tyW f.lo)
        (match x.lanes.filter fun j => if f.mod.getLsbD 7 then decide (j < l) else decide (j ≤ l) with
          | [] => identity (f.mod.toNat / 16 % 8) f.lo
          | j :: js => js.foldl (fun a k => combine (f.mod.toNat / 16 % 8) f.lo (ftzOn x) a (x.rdA (tyW f.lo) k)) (x.rdA (tyW f.lo) j))))
  ∧ (∀ (f : Fld) (s : State) (x : Ctx), issuing (.red f) s = some x → f.lo ≠ 8 → f.mod.toNat / 16 % 8 = 0 → x.act ≠ 0 →
      wordsN (tyW f.lo) (reduced x f) = low f ((x.lanes.map fun l => ((x.rdA (tyW f.lo) l).toNat : Int)).sum))
  ∧ (∀ f : Fld, f.lo = 8 → f.mod.toNat / 16 % 8 = 0 → Writes (.red f) f (fun x _ => slot1 ((treeSum x 5 0).getD 0)))

/-- R256 to R262: what passes between the lanes of a group. -/
def Obligations.LaneOperations : Prop := Claim.LaneExchange ∧ Claim.Votes ∧ Claim.ReductionsAndScans

/-- R263, R264: `fmt` writes the fields that its mask selects, or traps on a reserved value and changes nothing; `fmtrd` reads FMT. -/
def Obligations.FormatRegister : Prop := ∀ f : Fld,
  (∀ s x, issuing (.fmt f) s = some x → x.act ≠ 0 →
    let v : Word := if f.i then f.imm.setWidth 32 else (x.val f.sb 1 (lowest x.act)).setWidth 32
    let n (i w : Nat) : Nat := v.toNat / 2 ^ i % 2 ^ w
    let m (i : Nat) : Bool := f.mod.getLsbD i
    let bad := (m 0 = true ∧ n 0 4 > 5) ∨ (m 1 = true ∧ n 4 4 > 5) ∨ (m 2 = true ∧ n 8 4 > 5) ∨ (m 3 = true ∧ n 12 2 > 1)
    (bad → exec (.fmt f) s = .next (s.raiseTrap x.gid x.p.sid 0x03 (maskOf [lowest x.act]) 0 x.p.pc (some x.c)))
    ∧ (¬bad → ∃ w : Word,
        (∀ i, i < 16 → w.getLsbD i =
          if m (if i < 4 then 0 else if i < 8 then 1 else if i < 12 then 2 else if i < 14 then 3 else if i = 14 then 4 else 5)
          then v.getLsbD i else x.p.fmt.getLsbD i)
        ∧ (∀ i, 16 ≤ i → w.getLsbD i = x.p.fmt.getLsbD i)
        ∧ exec (.fmt f) s = .next (x.finish (s.updGrp x.gid fun g => g.updSplit x.p.sid fun p => { p with fmt := w }))))
  ∧ Writes (.fmtrd f) f (fun x _ => slot1 (x.p.fmt.toNat % 2 ^ 16))

namespace Sys2Proof.Claim

/-- The narrow format of a code of FMT is T8, T6 or E2M1. -/
def IsNarrow (k : Nat) : Prop := k = 3 ∨ k = 4 ∨ k = 5
/-- FMT's fields (R171). -/
def outf (x : Ctx) : Nat := x.p.fmt.toNat / 2 ^ 8 % 16
def af (x : Ctx) : Nat := x.p.fmt.toNat % 16
def narrowRnd (x : Ctx) : Nat := x.p.fmt.toNat / 2 ^ 12 % 4
/-- QSAT set in the issuing split's FMT when `b`. -/
def withQsat (x : Ctx) (b : Bool) (s : State) : State := if b then x.setQsat s else s

end Sys2Proof.Claim

/-- R250, R265 to R268: conversions between formats, and the quantiser over the lanes; a saturating one sets QSAT. -/
def Sys2Proof.Claim.NarrowFormats : Prop := ∀ f : Fld,
  Does (.fcvt f) (fun _ => True) (fun x =>
      let r (l : Nat) := convert (f.mod.toNat % 16) (f.mod.toNat / 16) (narrowRnd x) (numA x l)
      withQsat x ((if f.g then [lowest x.act] else x.lanes).any fun l => (r l).2) (x.wr x.s f.dst fun l => slot1 (r l).1))
  ∧ Does (.qnt f) (fun x => IsNarrow (outf x)) (fun x =>
      let q := quantise (outf x) (narrowRnd x) ((List.range 32).map fun j =>
        if takesPart x j then (fmtOf f).decode (numA x j % 2 ^ (fmtOf f).width) else .fin false 0 0)
      withQsat x q.2.2 (x.wr x.s f.dst fun l => slot1 (q.2.1.getD l 0) ++ slot1 q.1))
  ∧ TrapsWith (.qnt f) (fun x => ¬IsNarrow (outf x)) 0x02 (fun x => x.act) (fun _ => 0)
  ∧ Does (.dqnt f) (fun x => IsNarrow (af x)) (fun x =>
      x.wr x.s f.dst fun l => slot1 ((fmtOf f).encode 0 (scaled (amount x (lowest x.act) % 256) (narrowDecode (af x) (numA x l)))))
  ∧ TrapsWith (.dqnt f) (fun x => ¬IsNarrow (af x)) 0x02 (fun x => x.act) (fun _ => 0)
  ∧ Does (.tenc f) (fun _ => True) (fun x =>
      let k := floatFmt (f.mod.toNat / 16)
      let r (l : Nat) := toNarrow (f.mod.toNat % 16 - 8) (narrowRnd x)
        (scaleBy' (-((x.rdB 2 1 l).setWidth 32).toInt) (k.decode (numA x l % 2 ^ k.width)))
      withQsat x (x.lanes.any fun l => (r l).2) (x.wr x.s f.dst fun l => slot1 (r l).1))
  ∧ Writes (.tdec f) f (fun x l => slot1 ((fmtOf f).encode 0
      (scaled (if f.mod.getLsbD 7 then amount x l % 256 else 127) (narrowDecode (3 + f.mod.toNat / 16 % 8) (numA x l)))))

/-- R269, R270: `pack` lays lane j's code at stream bits n × j upward and gives lane i word i; `unpack` gives lane j element j. -/
def Sys2Proof.Claim.PackAndUnpack : Prop := ∀ f : Fld, ∀ n, n = codeBits f.lo →
  (∀ s x, issuing (.pack f) s = some x → ∃ w : Nat → Word,
    (∀ l, l < 32 → ∀ b, b < 32 → (w l).getLsbD b =
      (decide (l < n) && takesPart x ((32 * l + b) / n) && (x.rdA 1 ((32 * l + b) / n)).getLsbD ((32 * l + b) % n)))
    ∧ exec (.pack f) s = .next (x.finish (x.wr s f.dst fun l => [w l])))
  ∧ (∀ s x, issuing (.unpack f) s = some x → ∃ w : Nat → Word,
    (∀ l, l < 32 → ∀ b, (w l).getLsbD b =
      (decide (b < n) && takesPart x ((n * l + b) / 32) && (x.rdA 1 ((n * l + b) / 32)).getLsbD ((n * l + b) % 32)))
    ∧ exec (.unpack f) s = .next (x.finish (x.wr s f.dst fun l => [w l])))

/-- R250, R265 to R270: conversions between formats, and their packing. -/
def Obligations.FormatsOfLanes : Prop := Claim.NarrowFormats ∧ Claim.PackAndUnpack

/-! ## Class 3 -/

namespace Sys2Proof.Claim

/-- The lanes of an access with the cells that each writes, those that write none left out. -/
def writeUnits (x : Ctx) (cells : Nat → List Host.Cell) : List (Nat × List Host.Cell) :=
  (x.units.map fun l => (l, cells l)).filter fun u => !u.2.isEmpty
/-- The distinct mem-blocks of partition memory that cells touch (R82). -/
def memBlocks (us : List (Nat × List Host.Cell)) : List Nat :=
  dedupN (((us.flatMap fun u => u.2).filter fun c => decide (c.1 < 2 ^ 48)).map fun c => c.1 / 512)
/-- The mem-block that a capacity fault would name: that of the lowest active lane's first byte (R86). -/
def firstBlock (us : List (Nat × List Host.Cell)) : Nat := ((us.flatMap fun u => u.2).headD (0, 0)).1 / 512 * 512
/-- The first trap of R274 for an access: a lane with an address that is not its to use (of an aligned access, any byte of it), then a
misaligned one. -/
def accessTrap (x : Ctx) (align : Nat) (us : List (Nat × List Nat)) (addr : Nat → Nat) : Option (BitVec 8 × Mask × Nat) :=
  let bad := us.filter fun u => if addr u.1 % align = 0 then u.2.any x.badAddr else x.badAddr (addr u.1)
  let odd := us.filter fun u => decide (addr u.1 % align ≠ 0)
  match bad.head?, odd.head? with
  | some b, _ => some (0x11, maskOf (bad.map (·.1)), addr b.1)
  | none, some b => some (0x14, maskOf (odd.map (·.1)), addr b.1)
  | none, none => none
/-- The place that the issuing split holds among its core's instructions that wait for credit (R84). -/
def mine (x : Ctx) (w : Waiter) : Bool := decide (w.gid = x.gid) && decide (w.sid = x.p.sid)
/-- No other instruction waits before it. -/
def foremost (x : Ctx) (k : Machine.Core) : Bool := k.waiters.head?.all (mine x)
/-- It has the credit it needs, and its turn. -/
def Affords (x : Ctx) (n : Nat) : Prop := foremost x (x.s.core! x.g.core) = true ∧ n ≤ (x.s.core! x.g.core).credit
/-- Its place is given up. -/
def unqueued (x : Ctx) (s : State) : State := s.updCore x.g.core fun k => { k with waiters := k.waiters.filter fun w => !(mine x w) }
/-- CREDIT less what an instruction pledges; its place is given up. -/
def charged (x : Ctx) (s : State) (n : Nat) : State := (unqueued x s).updCore x.g.core fun k => { k with credit := k.credit - n }
/-- The instruction waits: it keeps its place, or takes the last one, and the first of them asks for a refill unless one is on its way (R84). -/
def queued (x : Ctx) (n first : Nat) (cres : Bool) : State := x.s.updCore x.g.core fun k =>
  let last : Waiter := { gid := x.gid, sid := x.p.sid, need := n, cres := cres, tlm := x.act, taddr := first, denied := false, asked := false, own := false }
  let ws := if k.waiters.any (mine x) then k.waiters else k.waiters ++ [last]
  if foremost x k = true ∧ k.refill = none then
    { k with waiters := ws.map fun w => { w with asked := mine x w }, refill := some (refillSize (x.s.chunkOf x.g.core) n k.credit) }
  else { k with waiters := ws }
/-- An instruction that pledges n cells is issued, as `sent`, at once when it pledges none, and with its pledge when it affords it; else it waits. -/
def Pledges (i : Instr) (s : State) (x : Ctx) (n first : Nat) (sent : State → State) : Prop :=
  (n = 0 → exec i s = .next (x.finish (sent s)))
  ∧ (n ≠ 0 → Affords x n → exec i s = .next (x.finish (sent (charged x s n))))
  ∧ (n ≠ 0 → ¬Affords x n → exec i s = .next ((queued x n first false).after x.gid))

/-- An access touches the group's own frames while an earlier acquire is open, or, a release, before what a release waits for (R277). -/
def Held (x : Ctx) (addrs : List Nat) (rel : Bool) (scope : Nat) : Prop :=
  (∃ a ∈ addrs, x.s.ownFrame x.g (x.s.locate x.part x.g.core a) = true)
    ∧ (x.g.acqBefore x.g.seq = true ∨ (rel = true ∧ x.s.releaseReady x.g scope x.g.seq = false))
/-- The split waits at its word for reads, every one of them or those that acquire; where one of these is held until a verdict, the word is a stop
point (the model's reading of R363, log 42). -/
def waits (x : Ctx) (all : Bool) : State := x.s.awaitReads x.g x.p x.c all
/-- The addresses of the bytes that an access writes. -/
def bytesOf (us : List (Nat × List Host.Cell)) : List Nat := us.flatMap fun u => u.2.map (·.1)

/-- An instruction that writes memory (R274, R277, R82, R84, R86): it traps before any lane is performed, or waits at its own frames, or
pledges 8 cells per mem-block and sends its writes as `sent`, or waits for credit, behind those that wait already, with nothing sent. -/
def SendsWrites (i : Instr) (align : Nat) (addr : Ctx → Nat → Nat) (cells : Ctx → Nat → List Host.Cell) (rel : Bool) (scope : Ctx → Nat)
    (at_ : Ctx → List (Nat × List Host.Cell) → List Nat) (sent : Ctx → State → State) : Prop :=
  ∀ s x, issuing i s = some x → x.act ≠ 0 →
    let us := writeUnits x (cells x)
    let n := 8 * (memBlocks us).length
    let tr := accessTrap x align (us.map fun u => (u.1, u.2.map (·.1))) (addr x)
    (∀ code m a, tr = some (code, m, a) → exec i s = .next (s.raiseTrap x.gid x.p.sid code m a x.p.pc (some x.c)))
    ∧ (tr = none → Held x (at_ x us) rel (scope x) → exec i s = .next ((waits x rel).after x.gid))
    ∧ (tr = none → ¬Held x (at_ x us) rel (scope x) → Pledges i s x n (firstBlock us) (sent x))

/-- What the writes of a `st` or `stm` share. -/
def asStore (f : Fld) (x : Ctx) : SendAs :=
  { kind := fun _ => .store, rel := decide (f.ord = 2), acq := false, scope := if f.ord = 2 then f.scope else 0, oid := 0, seq := x.g.seq }
/-- The bytes of a lane's data at its address, modulo 2^64 (R271, R281). -/
def dataCells (f : Fld) (x : Ctx) (l : Nat) : List Host.Cell := (bytesFrom (x.addr l) (2 ^ f.size)).zip (x.data f.dst f.size l)
/-- Those that the lane's mask selects (R282). -/
def maskedCells (f : Fld) (x : Ctx) (l : Nat) : List Host.Cell :=
  ((List.range (dataCells f x l).length).zip (dataCells f x l)).filterMap fun e => if (x.rdC 1 l).getLsbD e.1 then some e.2 else none
/-- The writes of an instruction, each lane's in naturally aligned 16 B spans (R279). -/
def spanned (us : List (Nat × List Host.Cell)) : List (Nat × List (List Host.Cell)) := us.map fun u => (u.1, spansOf u.2)

end Sys2Proof.Claim

/-- R271, R274, R277, R281, R282, R82, R86: `st` and `stm`. -/
def Obligations.Stores : Prop := ∀ f : Fld,
  SendsWrites (.st f) (2 ^ f.size) (fun x => x.addr) (dataCells f) (decide (f.ord = 2)) (fun _ => f.scope) (fun _ => bytesOf) (fun x s =>
    x.sendAll (s.noteMem x.gid) (spanned (writeUnits x (dataCells f x))) (asStore f x))
  ∧ SendsWrites (.stm f) 1 (fun x => x.addr) (maskedCells f) (decide (f.ord = 2)) (fun _ => f.scope) (fun _ => bytesOf) (fun x s =>
    x.sendAll (s.noteMem x.gid) (spanned (writeUnits x (maskedCells f x))) (asStore f x))

/-- R271, R274, R277, R280, R204, R156, R151: a load counts on its flag, with the lanes that wait for data; lanes of the group's own frames read
at once, once no earlier acquire is open, and the group's clock joins their stamps. What they return is noted, of an acquire's lowest lane for the
demotion run (the model's reading, log 44), and so is which releases they show (log 107). -/
def Obligations.Loads : Prop := ∀ (f : Fld) (s : State) (x : Ctx), issuing (.ld f) s = some x → x.act ≠ 0 →
  let n := 2 ^ f.size
  let us := x.units.map fun l => (l, bytesFrom (x.addr l) n)
  let acq : Bool := decide (f.ord = 1)
  let own (l : Nat) : Bool := s.ownFrame x.g (s.locate x.part x.g.core (x.addr l))
  let s0 := if acq then s else s.endRun x.gid
  let away := (x.units.filter fun l => !(own l)).map fun l => (l, s0.canon x.part x.g.core (x.addr l))
  let op : OpKind := .load away n (decide (f.ord = 0) && decide (f.mod.toNat / 32 % 4 = 3)) acq (if acq then f.scope else 0) f.g
  (∀ code m a, accessTrap x n us x.addr = some (code, m, a) →
    exec (.ld f) s = .next (s.raiseTrap x.gid x.p.sid code m a x.p.pc (some x.c)))
  ∧ (accessTrap x n us x.addr = none → (∀ l ∈ x.units, own l = false) →
      exec (.ld f) s = .next (x.finish (x.issueOp s0 f.dst op).2))
  ∧ (accessTrap x n us x.addr = none → (∃ l ∈ x.units, own l = true) → x.g.acqBefore x.g.seq = true →
      exec (.ld f) s = .next ((waits x false).after x.gid))
  ∧ (accessTrap x n us x.addr = none → x.g.acqBefore x.g.seq = false →
      exec (.ld f) s = .next (x.finish ((x.units.filter own).foldl (fun r l =>
        let at_ := r.locate x.part x.g.core
        let bytes := (bytesFrom (x.addr l) n).map fun a => r.byteAt x.part (dieOf x.g.core) (at_ a)
        let stamp := (bytesFrom (x.addr l) n).foldl (fun c a => c.join (r.markAt x.part (dieOf x.g.core) (at_ a)).stamp) VClock.zero
        let seen := r.placesAt x.part x.g.core ((bytesFrom (x.addr l) n).map fun a => r.canon x.part x.g.core a)
        ((((r.joinGc x.gid x.g.seq stamp).hear x.gid x.g.seq (acq && decide (1 ≤ f.scope)) seen).giveLanes s.nextId
          ((if f.g then x.lanes else [l]).map fun k => (k, bytesToWords bytes))).1).noteLoad x.gid (acq && decide (l = lowest x.act))
          (r.canon x.part x.g.core (x.addr l)) bytes)
        (x.issueOp s0 f.dst op).2)))

/-- The scope of an atomic's ordering: `.blk` in the core window, `.clu` in the cluster window, `.dev` elsewhere (R283). -/
def Sys2Proof.Claim.scopeAt (a : Nat) : Nat := if coreWin ≤ a ∧ a < clusterWin then 1 else if clusterWin ≤ a ∧ a < scratchWin then 2 else 4

/-- R283 to R286: `atom` and `mred` at their base addresses. A returning or acquiring one is outstanding until it is performed. All but a `.cas`,
which the home judges (R352), end the group's runs of loads (the model's reading of R151, log 44). -/
def Sys2Proof.Claim.Atomics : Prop :=
  let size (f : Fld) : Nat := if f.cls < 2 then 4 else 8
  let cells (f : Fld) (x : Ctx) (l : Nat) : List Host.Cell := (bytesFrom (x.addr0 l) (size f)).map fun a => (a, 0)
  let scopes (x : Ctx) : List Nat := x.units.map fun l => scopeAt (x.addr0 l)
  let asAtomic (f : Fld) (x : Ctx) (ret red : Bool) (oid : Nat) : SendAs :=
    { kind := fun l => .atomic f.lo f.cls (x.atomB l) (x.rdC (size f / 4) l) ret red
      rel := decide (2 ≤ f.aord), acq := decide (f.aord % 2 = 1), scope := (scopes x).foldl max 0, oid := oid, seq := x.g.seq }
  let spans (f : Fld) (x : Ctx) := (writeUnits x (cells f x)).map fun u => (u.1, [u.2])
  ∀ f : Fld,
  let bases (x : Ctx) (_ : List (Nat × List Host.Cell)) : List Nat := x.units.map x.addr0
  SendsWrites (.mred f) (size f) (fun x => x.addr0) (cells f) (decide (2 ≤ f.aord)) (fun x => (scopes x).foldl max 0) bases (fun x s =>
    x.sendAll (s.noteMem x.gid) (spans f x) (asAtomic f x false true 0))
  ∧ SendsWrites (.atom f) (size f) (fun x => x.addr0) (cells f) (decide (2 ≤ f.aord)) (fun x => (scopes x).foldl max 0) bases (fun x s =>
    let acq : Bool := decide (f.aord % 2 = 1)
    let ret : Bool := !f.dstZero
    let s := if f.lo ≠ 7 then s.noteMem x.gid else if acq then s else s.endRun x.gid
    if ret || acq then
      let r := x.pushOp s (if ret then (flagOf x.c.word f.fs).getD noFlag else noFlag) (x.dest f.dst)
        (.atomic x.units [] acq f.g ((scopes x).any fun k => decide (2 ≤ k)))
      x.sendAll r.2 (spans f x) (asAtomic f x ret false r.1)
    else x.sendAll s (spans f x) (asAtomic f x ret false 0))

/-- R284: what an atomic writes, on the w low bits of its operands; a failing `.cas` performs no write. -/
def Sys2Proof.Claim.AtomicValues : Prop := ∀ (cls : Nat) (old b c : DWord), cls < 4 →
  let w := if cls < 2 then 32 else 64
  let low (v : DWord) : Nat := v.toNat % 2 ^ w
  let key (v : DWord) : Int := if cls % 2 = 1 then (BitVec.ofNat w v.toNat).toInt else low v
  let new (op : Nat) : Option Nat := (atomicNew op cls old b c).map fun v => v.toNat % 2 ^ w
  new 0 = some ((low old + low b) % 2 ^ w)
  ∧ (key old < key b → new 1 = some (low old) ∧ new 2 = some (low b)) ∧ (key b < key old → new 1 = some (low b) ∧ new 2 = some (low old))
  ∧ new 3 = some (low old &&& low b) ∧ new 4 = some (low old ||| low b) ∧ new 5 = some (low old ^^^ low b) ∧ new 6 = some (low b)
  ∧ (low old = low b → new 7 = some (low c)) ∧ (low old ≠ low b → new 7 = none)
  ∧ (cls = 0 → new 8 = some (if low old ≥ low b then 0 else low old + 1))
  ∧ (cls = 0 → new 9 = some (f32.encode 0 ((f32.decode (low old)).add 0 (f32.decode (low b)))))

/-- R283 to R286: atomics at issue, and the values that they write. -/
def Obligations.Atomics : Prop := Claim.Atomics ∧ Claim.AtomicValues

/-- R277, R287 to R289, R292: `prf` changes no value, `cln` asks for writebacks, `inv` drops L1 lines, the latter two once no acquire before them
is open, and `blkz` sends one write of 512 zero bytes per mem-block without a pledge, or traps. -/
def Sys2Proof.Claim.CacheAndZero : Prop := ∀ f : Fld,
  let free (x : Ctx) : Prop := x.g.acqBefore x.g.seq = false
  Does (.prf f) (fun _ => True) (fun x => x.s.noteMem x.gid)
  ∧ Does (.inv f) free (fun x => x.units.foldl (fun s l => s.dropL1Line x.g.core (x.addr l / 128)) (x.s.noteMem x.gid))
  ∧ Does (.invAll f) free (fun x => (x.s.noteMem x.gid).clearL1 x.g.core)
  ∧ Goes (.inv f) (fun x => ¬free x) (fun x => waits x false) ∧ Goes (.invAll f) (fun x => ¬free x) (fun x => waits x false)
  ∧ (∀ s x, issuing (.cln f) s = some x → x.act ≠ 0 →
      let bad := x.units.filter fun l => decide (s.locate x.part x.g.core (x.addr l) = .bad)
      (bad = [] → ¬free x → exec (.cln f) s = .next ((waits x false).after x.gid))
      ∧ (bad = [] → free x → ∃ ms : List (Nat × Nat),
        (∀ v b, (v, b) ∈ ms ↔ ∃ l ∈ x.units, ∃ a pg, s.locate x.part x.g.core (x.addr l) = .mem a ∧ s.xlat x.g.part a = .mem pg
          ∧ pg.cls = 0 ∧ (∃ n, (b, n) ∈ pg.dirty) ∧ v = a / 65536 ∧ b = a / 512 % 128)
        ∧ exec (.cln f) s = .next (x.finish ((s.noteMem x.gid).updGrp x.gid fun g => { g with mm := { g.mm with
            cleans := g.mm.cleans ++ ms.filter fun m => !(g.mm.cleans.contains m) } })))
      ∧ (bad ≠ [] → exec (.cln f) s = .next (s.raiseTrap x.gid x.p.sid 0x11 (maskOf bad) (x.addr (bad.headD 0)) x.p.pc (some x.c))))
  ∧ TrapsWith (.blkz f) (fun x => ∃ l ∈ x.units, 2 ^ 48 ≤ x.addr l) 0x11
      (fun x => maskOf (x.units.filter fun l => decide (2 ^ 48 ≤ x.addr l)))
      (fun x => x.addr ((x.units.filter fun l => decide (2 ^ 48 ≤ x.addr l)).headD 0))
  ∧ TrapsWith (.blkz f) (fun x => (∀ l ∈ x.units, x.addr l < 2 ^ 48) ∧ ∃ l ∈ x.units, x.addr l % 512 ≠ 0) 0x14
      (fun x => maskOf (x.units.filter fun l => decide (x.addr l % 512 ≠ 0)))
      (fun x => x.addr ((x.units.filter fun l => decide (x.addr l % 512 ≠ 0)).headD 0))
  ∧ (∀ s x, issuing (.blkz f) s = some x → x.act ≠ 0 → (∀ l ∈ x.units, x.addr l < 2 ^ 48 ∧ x.addr l % 512 = 0) →
      ∃ us : List (Nat × Nat), (us.map (·.2)).Nodup ∧ (∀ a, a ∈ us.map (·.2) ↔ ∃ l ∈ x.units, x.addr l = a)
        ∧ exec (.blkz f) s = .next (x.finish (x.sendAll (s.noteMem x.gid)
            (us.map fun u => (u.1, [cellsAt u.2 (List.replicate 512 0)]))
            { kind := fun _ => .blkz, rel := false, acq := false, scope := 0, oid := 0, seq := x.g.seq })))

namespace Sys2Proof.Claim

/-- The release conditions of R277 and R278, and the acquire conditions, for what the group has issued. -/
def Released (x : Ctx) (scope : Nat) : Prop := x.s.releaseReady x.g scope x.g.seq = true
def Acquired (x : Ctx) (scope : Nat) : Prop :=
  x.g.readsDone x.g.seq = true ∧ x.s.atomsDone x.g x.g.seq = true ∧ x.s.cleansDone x.g scope = true
    ∧ x.g.mm.gc.le (x.s.die! (dieOf x.g.core)).av = true

end Sys2Proof.Claim

/-- R290, R291, R277, R278, R288: a fence is passed once its conditions hold, and until then the split waits at it. An acquire of `.clu`
or wider drops the core's L1, and one of `.sys` lets the group read no copy of a window's line that was fetched before. `fence.total` joins the partition's TV with GC,
which becomes both, then waits until AV covers that. An acquire part first takes up what the group's relaxed reads have found for its scope, and a
release part of `.blk` or wider stands before what the group writes from then on (R164, R358 row 4; the model's record, log 107). A release fence narrower than `.dev` lets the group go on, when a free bit says so, before
the writes it orders are accepted: those in flight and held are noted, and readers within the scope wait for them (R356; the model's reading,
log 12). -/
def Sys2Proof.Claim.Fences : Prop := ∀ f : Fld,
  let acq : Bool := f.mod.getLsbD 0
  let rel : Bool := f.mod.getLsbD 1
  let scope := f.mod.toNat / 4 % 8
  let up (x : Ctx) (acq : Bool) (scope : Nat) : Ctx :=
    if acq then { x with s := x.s.takeHeard x.gid scope, g := ((x.s.takeHeard x.gid scope).grp? x.gid).getD x.g } else x
  let on (P : Ctx → Prop) (x : Ctx) : Prop := P (up x acq scope)
  let then_ (f : Ctx → State) (x : Ctx) : State := f (up x acq scope)
  let past (x : Ctx) (rel : Bool) (scope : Nat) (s : State) : State :=
    (s.noteMem x.gid).updMm x.gid fun m => if rel && decide (1 ≤ scope) then { m with fenced := x.g.seq } else m
  let ready (x : Ctx) : Prop := (rel = true → Released x scope) ∧ (acq = true → Acquired x scope)
  let gone (x : Ctx) : State := past x rel scope x.s
  let cleared (x : Ctx) : State := (gone x).clearL1 x.g.core
  let early (x : Ctx) : Prop := rel = true ∧ scope < 4 ∧ x.g.readsDone x.g.seq = true
    ∧ (acq = true → x.s.atomsDone x.g x.g.seq = true ∧ x.g.mm.gc.le (x.s.die! (dieOf x.g.core)).av = true)
  let drawn (x : Ctx) : State := { x.s with free := x.s.free + 1 }
  let goes (x : Ctx) : Prop := ¬ready x ∧ early x ∧ Config.freeBit x.s.free 0 = true
  let open_ (x : Ctx) : List Nat := ((x.s.writes ++ x.g.mm.replay).filter fun w => decide (w.gid = x.g.gid) && decide (w.seq < x.g.seq)).map Write.wid
  let passed (x : Ctx) : State := past x rel scope { drawn x with early := x.s.early ++
    [⟨x.g.part, x.g.gid, x.g.core, scope, [], open_ x, VClock.zero, some x.g.seq⟩] }
  Does (.fence f) (on fun x => ready x ∧ acq = true ∧ 2 ≤ scope ∧ scope ≠ 5) (then_ cleared)
  ∧ Does (.fence f) (on fun x => ready x ∧ acq = true ∧ scope = 5) (then_ fun x => (cleared x).fresh.2.updGrp x.gid fun g =>
      { g with mm := { g.mm with hwAfter := x.s.nextId } })
  ∧ Does (.fence f) (on fun x => ready x ∧ (acq = true → scope < 2)) (then_ gone)
  ∧ Goes (.fence f) (on fun x => ¬ready x ∧ ¬early x) (then_ fun x => waits x true)
  ∧ Goes (.fence f) (on fun x => ¬ready x ∧ early x ∧ Config.freeBit x.s.free 0 = false) (then_ drawn)
  ∧ Does (.fence f) (on fun x => goes x ∧ acq = true ∧ 2 ≤ scope) (then_ fun x => (passed x).clearL1 x.g.core)
  ∧ Does (.fence f) (on fun x => goes x ∧ (acq = true → scope < 2)) (then_ passed)
  ∧ (let on (P : Ctx → Prop) (x : Ctx) : Prop := P (up x true 4)
     let then_ (f : Ctx → State) (x : Ctx) : State := f (up x true 4)
     let tv (x : Ctx) : VClock := x.part.tv.join x.g.mm.gc
     let first (x : Ctx) : Prop := x.p.wait ≠ .total
     let total (x : Ctx) : Prop := Released x 4 ∧ Acquired x 4
     let covered (x : Ctx) : Prop := x.g.mm.gc.le (x.s.die! (dieOf x.g.core)).av = true
     Goes (.fenceTotal f) (on fun x => first x ∧ ¬total x) (then_ fun x => waits x true)
     ∧ Goes (.fenceTotal f) (on fun x => first x ∧ total x) (then_ fun x => (x.s.updPart x.g.part fun p => { p with tv := tv x }).updGrp x.gid fun g =>
         ({ g with mm := { g.mm with gc := tv x } } : Group).updSplit x.p.sid fun p => { p with wait := .total })
     ∧ Goes (.fenceTotal f) (on fun x => ¬first x ∧ ¬covered x) (then_ fun x => x.s)
     ∧ Does (.fenceTotal f) (on fun x => ¬first x ∧ covered x) (then_ fun x =>
         (past x true 4 (x.s.updGrp x.gid fun g => g.updSplit x.p.sid fun p => { p with wait := .none })).clearL1 x.g.core))

/-- R355, R358 row 4, R164: what a fence takes up of the group's relaxed reads. Whatever happened before a release that they show is ordered before
the group's accesses from then on, their clocks join GC, and L1 shows the group no byte that is older (the model's record, log 107). -/
def Sys2Proof.Claim.FenceTakesUp : Prop := ∀ (s : State) (gid scope : Nat) (g : Group), s.grp? gid = some g → ∀ h ∈ g.mm.heard, h.scope ≤ scope →
  (∀ r ∈ h.rels, ∀ o ∈ s.ordered, o.part = r.part → o.gid = r.gid → o.no ≤ r.no →
    { o with gid := gid, no := g.seq } ∈ (s.takeHeard gid scope).ordered)
  ∧ (∃ k, (s.takeHeard gid scope).grp? gid = some k ∧ h.clk.le k.mm.gc = true ∧ ∀ h' ∈ k.mm.heard, scope < h'.scope)
  ∧ ∀ o ∈ s.ordered, ∀ (p : Part) (v : View) (a n seq : Nat), o.part = p.id → o.gid = gid → o.no ≤ seq → a ≤ o.addr → o.addr < a + n →
      (v.markOf o.addr).place (homeDie p o.addr) < o.place → s.freshView p gid seq v a n = false

/-- R164, R277, R278, R287 to R292, R355, R358: caches, zeroing and fences. -/
def Obligations.CacheAndFences : Prop := Claim.CacheAndZero ∧ Claim.Fences ∧ Claim.FenceTakesUp

/-- R293, R84, R85, R277: `cres` answers 1 when it has its turn and CREDIT covers n, else 0 after a denial, and waits between; `cres.ret` returns
the credit that waiting instructions do not need. Both wait for an acquire before them. That credit which arrives before a denied `cres` issues
again gives 1 is the model's reading (log 91). -/
def Obligations.CreditReservation : Prop := ∀ f : Fld,
  let n (x : Ctx) : Nat := if f.i then (f.imm.signExtend 32).toNat else (x.slot f.sb 0 (lowest x.act)).toNat
  let core (x : Ctx) : Machine.Core := x.s.core! x.g.core
  let denied (x : Ctx) : Prop := (core x).waiters.any (fun w => mine x w && w.denied) = true
  let free (x : Ctx) : Prop := x.g.acqBefore x.g.seq = false
  TrapsWith (.cres f) (fun x => 4096 < n x) 0x03 (fun x => x.act) (fun _ => 0)
  ∧ Goes (.cres f) (fun x => n x ≤ 4096 ∧ ¬free x) (fun x => waits x false)
  ∧ Does (.cres f) (fun x => n x ≤ 4096 ∧ free x ∧ Affords x (n x)) (fun x => x.wr ((unqueued x x.s).noteMem x.gid) f.dst fun _ => slot1 1)
  ∧ Does (.cres f) (fun x => n x ≤ 4096 ∧ free x ∧ ¬Affords x (n x) ∧ denied x) (fun x => x.wr ((unqueued x x.s).noteMem x.gid) f.dst fun _ => slot1 0)
  ∧ Goes (.cres f) (fun x => n x ≤ 4096 ∧ free x ∧ ¬Affords x (n x) ∧ ¬denied x) (fun x => queued x (n x) 0 true)
  ∧ Goes (.cresRet f) (fun x => ¬free x) (fun x => waits x false)
  ∧ Does (.cresRet f) (fun x => free x ∧ (core x).needed < (core x).credit) (fun x =>
      let c := (core x).credit - (core x).needed
      x.wr ((x.s.returnCredit x.g.core x.g.part c).noteMem x.gid) f.dst fun _ => slot1 c)
  ∧ Does (.cresRet f) (fun x => free x ∧ (core x).credit ≤ (core x).needed) (fun x => x.wr (x.s.noteMem x.gid) f.dst fun _ => slot1 0)

/-! ## Class 4 -/

namespace Sys2Proof.Claim

/-- The split goes to a clause header with the mask given. -/
def sent (x : Ctx) (s : State) (pc : Nat) (m : Mask) : State :=
  (s.updGrp x.gid fun g => g.updSplit x.p.sid fun p => { p with pc := pc, mask := m, clause := none }).retireClause x
/-- All lanes of the split take part, or none. -/
def AllTake (x : Ctx) : Prop := x.rest = 0
/-- The target of the control form: the clause's address plus eight times the signed offset (R210). -/
def targetOf (x : Ctx) (f : Fld) : Nat := ((x.c.addr : Int) + 8 * f.imm.toInt).toNat
/-- An entry of the reconvergence stack. -/
def entry (x : Ctx) (pc : Nat) (m : Mask) (join : Nat) (k : EntryKind) : Entry := { pc := pc, mask := m, join := join, fmt := x.p.fmt, kind := k }
/-- The two paths of a `bra` in ascending address (R168, R296): the taken one `p` runs first when it lies below the fall-through header, that
of `q`; the other is pending over the reconvergence entry. -/
def diverged (x : Ctx) (s : State) (join : Nat) (p q : Nat × Mask) : State :=
  let a := if p.1 < q.1 then p else q
  let b := if p.1 < q.1 then q else p
  (s.updGrp x.gid fun g => g.updSplit x.p.sid fun r => { r with
    pc := a.1, mask := a.2, clause := none
    stack := entry x b.1 b.2 join .pending :: entry x join (amask x.g x.p) join .reconv :: r.stack }).retireClause x

/-- The target sets of a `brx` (R298): in ascending address, each with the lanes that name it, and the lanes whose guard fails with the
fall-through header. -/
def IsTargetSets (x : Ctx) (target : Nat → Nat) (paths : List (Nat × Mask)) : Prop :=
  paths.Pairwise (fun a b => a.1 < b.1) ∧ (∀ q ∈ paths, q.2 ≠ 0)
    ∧ ∀ l, l < 32 → ∀ a, (∃ q ∈ paths, q.1 = a ∧ q.2.getLsbD l = true) ↔
      (x.act.getLsbD l = true ∧ target l = a) ∨ (x.rest.getLsbD l = true ∧ x.c.next = a)
/-- Paths in ascending address (R168): the first runs, the others are pending over the reconvergence entry, the second on top. -/
def divergedOver (x : Ctx) (s : State) (join : Nat) (first : Nat × Mask) (others : List (Nat × Mask)) : State :=
  (s.updGrp x.gid fun g => g.updSplit x.p.sid fun r => { r with
    pc := first.1, mask := first.2, clause := none
    stack := others.map (fun q => entry x q.1 q.2 join .pending) ++ entry x join (amask x.g x.p) join .reconv :: r.stack }).retireClause x

end Sys2Proof.Claim

/-- R296, R168: `bra` with all lanes taking it, with none, and with some: the paths run in ascending address and reconverge at the join,
which must be given, and the stack must have room. -/
def Sys2Proof.Claim.Branches : Prop := ∀ f : Fld,
  Goes (.bra f) AllTake (fun x => x.s.jump x x.target)
  ∧ Idles (.bra f)
  ∧ TrapsWith (.bra f) (fun x => x.rest ≠ 0 ∧ f.joinOff = 0) 0x03 (fun x => x.act) (fun _ => 0)
  ∧ TrapsWith (.bra f) (fun x => x.rest ≠ 0 ∧ f.joinOff ≠ 0 ∧ 78 < x.g.depth) 0x20 (fun x => x.act) (fun _ => 0)
  ∧ (∀ s x, issuing (.bra f) s = some x → x.act ≠ 0 → x.rest ≠ 0 → x.g.depth ≤ 78 → ∀ j, x.joinAt f.joinOff = some j →
      exec (.bra f) s = .next ((diverged x s j (x.target, x.act) (x.c.next, x.rest)).after x.gid))
  ∧ (∀ s x, issuing (.bra f) s = some x → x.target < 2 ^ 63 → 0 ≤ (x.c.addr : Int) + 8 * f.imm.toInt → x.c.addr < 2 ^ 62 →
      x.target = targetOf x f)

/-- R298, R167, R168: `brx` with every target aligned: with one target for all lanes, or as one group, the split goes there; with more it
diverges over its target sets, which takes a join and room on the stack; a misaligned target traps, and TADDR is that of the lowest lane whose
target is misaligned (the model's reading, log 39). -/
def Sys2Proof.Claim.IndirectBranches : Prop := ∀ f : Fld,
  let target (x : Ctx) (l : Nat) : Nat := (x.rdA 2 l).toNat
  Idles (.brx f)
  ∧ TrapsWith (.brx f) (fun x => ∃ l ∈ x.units, target x l % 8 ≠ 0) 0x14
      (fun x => maskOf (x.units.filter fun l => decide (target x l % 8 ≠ 0)))
      (fun x => target x ((x.units.filter fun l => decide (target x l % 8 ≠ 0)).headD 0))
  ∧ (f.g = true → Goes (.brx f) (fun x => target x (lowest x.act) % 8 = 0)
      (fun x => (x.s.jump x (target x (lowest x.act))).hearSlots x))
  ∧ (f.g = false → Goes (.brx f) (fun x => AllTake x ∧ target x (lowest x.act) % 8 = 0 ∧ ∀ l ∈ x.lanes, target x l = target x (lowest x.act))
      (fun x => (x.s.jump x (target x (lowest x.act))).hearSlots x))
  ∧ (f.g = false → ∀ s x, issuing (.brx f) s = some x → x.act ≠ 0 → (∀ l ∈ x.lanes, target x l % 8 = 0) →
      ∃ paths, IsTargetSets x (target x) paths
        ∧ (∀ a m, paths = [(a, m)] → exec (.brx f) s = .next (((s.jump x a).hearSlots x).after x.gid))
        ∧ (2 ≤ paths.length → f.imm = 0 → exec (.brx f) s = .next (s.raiseTrap x.gid x.p.sid 0x03 x.act 0 x.p.pc (some x.c)))
        ∧ (2 ≤ paths.length → f.imm ≠ 0 → 80 < x.g.depth + paths.length →
            exec (.brx f) s = .next (s.raiseTrap x.gid x.p.sid 0x20 x.act 0 x.p.pc (some x.c)))
        ∧ (∀ j q r rs, paths = q :: r :: rs → x.joinAt f.imm = some j → x.g.depth + paths.length ≤ 80 →
            exec (.brx f) s = .next (((divergedOver x s j q (r :: rs)).hearSlots x).after x.gid)))

/-- R167, R168, R296, R298: branches, direct and indirect. Which lane's target TADDR of a misaligned `brx` names is the model's reading (log 39). -/
def Obligations.BranchesAndPaths : Prop := Claim.Branches ∧ Claim.IndirectBranches

/-- R167, R169, R299, R297: `split` gives each side a split of its own while fewer than four exist, and else acts as `bra`; `loop` goes back
with the lanes that stay, those that left waiting at the join. Without a join, or with no room on the stack, each traps and pushes nothing. -/
def Obligations.SplitsAndLoops : Prop := ∀ f : Fld,
  Goes (.split f) AllTake (fun x => x.s.jump x x.target)
  ∧ Idles (.split f)
  ∧ TrapsWith (.split f) (fun x => x.rest ≠ 0 ∧ f.joinOff = 0) 0x03 (fun x => x.act) (fun _ => 0)
  ∧ TrapsWith (.split f) (fun x => x.rest ≠ 0 ∧ f.joinOff ≠ 0 ∧ x.g.splits.length < 4 ∧ 80 ≤ x.g.depth) 0x20 (fun x => x.act) (fun _ => 0)
  ∧ TrapsWith (.split f) (fun x => x.rest ≠ 0 ∧ f.joinOff ≠ 0 ∧ 4 ≤ x.g.splits.length ∧ 78 < x.g.depth) 0x20 (fun x => x.act) (fun _ => 0)
  ∧ (∀ s x, issuing (.split f) s = some x → x.act ≠ 0 → x.rest ≠ 0 → x.g.splits.length < 4 → x.g.depth < 80 → ∀ j,
      x.joinAt f.joinOff = some j →
      exec (.split f) s = .next ((((s.fresh.2.updGrp x.gid fun g => { g.updSplit x.p.sid (fun p =>
          { p with pc := x.target, mask := x.act, clause := none, stack := [], merge := some s.nextId }) with
        nextSid := g.nextSid + 1
        splits := (g.updSplit x.p.sid fun p => { p with
            pc := x.target, mask := x.act, clause := none, stack := [], merge := some s.nextId }).splits ++
          [{ sid := g.nextSid, mask := x.rest, pc := x.c.next, clause := none, fmt := x.p.fmt, stack := [], merge := some s.nextId, wait := .none }]
        merges := { mid := s.nextId, join := j, mask := amask x.g x.p, fmt := x.p.fmt, members := [x.p.sid, g.nextSid], arrived := []
                    stack := x.p.stack, parent := x.p.merge } :: g.merges }).retireClause x)).after x.gid))
  ∧ (∀ s x, issuing (.split f) s = some x → x.act ≠ 0 → x.rest ≠ 0 → 4 ≤ x.g.splits.length → x.g.depth ≤ 78 → ∀ j,
      x.joinAt f.joinOff = some j →
      exec (.split f) s = .next ((diverged x s j (x.target, x.act) (x.c.next, x.rest)).after x.gid))
  ∧ Goes (.loop f) AllTake (fun x => x.s.jump x x.target)
  ∧ (∀ s x, issuing (.loop f) s = some x → x.rest ≠ 0 → x.act = 0 → exec (.loop f) s = .next (x.finish s))
  ∧ TrapsWith (.loop f) (fun x => x.rest ≠ 0 ∧ f.joinOff = 0) 0x03 (fun x => x.act) (fun _ => 0)
  ∧ TrapsWith (.loop f) (fun x => x.rest ≠ 0 ∧ f.joinOff ≠ 0 ∧ 80 ≤ x.g.depth
      ∧ (x.p.stack.head?.map fun e => (e.kind, some e.join)) ≠ some (.loop, x.joinAt f.joinOff)) 0x20 (fun x => x.act) (fun _ => 0)
  ∧ (∀ s x, issuing (.loop f) s = some x → x.act ≠ 0 → x.rest ≠ 0 → ∀ j, x.joinAt f.joinOff = some j →
      (x.p.stack.head?.map fun e => (e.kind, e.join)) = some (.loop, j) → exec (.loop f) s = .next ((sent x s x.target x.act).after x.gid))
  ∧ (∀ s x, issuing (.loop f) s = some x → x.act ≠ 0 → x.rest ≠ 0 → x.g.depth < 80 → ∀ j, x.joinAt f.joinOff = some j →
      (x.p.stack.head?.map fun e => (e.kind, e.join)) ≠ some (.loop, j) →
      exec (.loop f) s = .next ((sent x (s.updGrp x.gid fun g => g.updSplit x.p.sid fun p =>
        { p with stack := entry x j (amask x.g x.p) j .loop :: p.stack }) x.target x.act).after x.gid))

namespace Sys2Proof.Claim

/-- Return entries of the group, and whether a call's frame shift fits (R161, R170). -/
def calls (x : Ctx) : Nat := (x.g.rets.filter fun r => !r.marker).length
def shiftOf (f : Fld) : Nat := 8 * (f.mod.toNat % 32)
def CallFits (f : Fld) (x : Ctx) : Prop := x.g.fr.shift + shiftOf f < x.g.fr.lslots ∧ calls x < 72
/-- A call: its return entry, the shift, and the target. -/
def called (f : Fld) (x : Ctx) (target : Nat) : State :=
  (x.s.updGrp x.gid fun g => { g with
    rets := { sid := x.p.sid, addr := x.c.next, shift := shiftOf f, marker := false } :: g.rets
    fr := { g.fr with shift := g.fr.shift + shiftOf f } }).jump x target
/-- The words of a lane's callee item: L0.(s) to L0.(s+15) (R301). -/
def calleeItem (f : Fld) (x : Ctx) (l : Nat) : CalleeItem :=
  { gid := x.gid, sid := x.p.sid, lane := l, shift := x.g.fr.shift, s := shiftOf f
    words := (List.range 16).map fun k => storeWord x.s x.g.core (laneOff x.g (x.g.fr.shift + shiftOf f + k) l)
    d2 := x.g.fr.d2, d3 := x.g.fr.d3 }
/-- A `callx` whose active lanes name one aligned target, and one with several. -/
def OneTarget (x : Ctx) (target : Nat → Nat) : Prop := (∀ l ∈ x.lanes, target l % 8 = 0) ∧ ∀ l ∈ x.lanes, target l = target (lowest x.act)
def ManyTargets (x : Ctx) (target : Nat → Nat) : Prop := (∀ l ∈ x.lanes, target l % 8 = 0) ∧ ∃ l ∈ x.lanes, target l ≠ target (lowest x.act)
/-- The lanes leave the group; what remains of the split goes on at the fall-through header (R303). -/
def left (x : Ctx) (s : State) (lanes : Mask) : State := (s.jump x x.c.next).updGrp x.gid fun g => g.dropLanes lanes
/-- Each lane of a drained group returns its item (R301). -/
def returned (x : Ctx) : State := x.lanes.foldl (fun s l => s.returnItem x.gid l) x.s

end Sys2Proof.Claim

/-- R301: an item comes back: L0.0 to L0.3 of its lane go to the caller's L0.(s) to L0.(s+3), the references to its outer frames drop, and the
caller's split waits for the lane no longer. -/
def Sys2Proof.Claim.ItemReturns : Prop := ∀ (s : State) (g c : Group) (l : Nat) (i : CalleeItem), s.grp? g.gid = some g →
  assoc l g.items = some i → s.grp? i.gid = some c →
  let words := (List.range 4).map fun k => storeWord s g.core (laneOff g (g.fr.shift + k) l)
  s.returnItem g.gid l = (((((s.pokeStore c.core (laneCells c (i.shift + i.s) i.lane words)).dropRef g.core g.grid i.d2).dropRef g.core g.grid i.d3).updGrp i.gid
      fun c => c.updSplit i.sid fun p => { p with wait := match p.wait with
        | .callx send out =>
          if send = [] ∧ (out.filter fun l => decide (l ≠ i.lane)) = [] then .none else .callx send (out.filter fun l => decide (l ≠ i.lane))
        | w => w }).updGrp g.gid fun g => { g with items := g.items.filter fun e => decide (e.1 ≠ l) })

/-- R300, R301, R302, R170: `call` and `callx` push the fall-through header and the shift, a guard that holds in some lanes only traps 0x03 and a
full return stack or frame 0x22; `callx` with differing targets sends an item per lane, which takes room for it in the frame; `ret` pops the
split's youngest entry, and without one returns the items of a drained group and traps 0x21 in another. The TADDR of a misaligned target is that of
the lowest such lane, and a misaligned address that `ret` pops traps 0x14 (the model's reading of R210, log 39). -/
def Sys2Proof.Claim.CallsAndReturns : Prop := ∀ f : Fld,
  let target (x : Ctx) (l : Nat) : Nat := (x.rdA 2 l).toNat
  Idles (.call f) ∧ Idles (.callx f) ∧ Idles (.ret f)
  ∧ TrapsWith (.call f) (fun x => x.rest ≠ 0) 0x03 (fun x => x.act) (fun _ => 0)
  ∧ TrapsWith (.call f) (fun x => AllTake x ∧ ¬CallFits f x) 0x22 (fun x => x.act) (fun _ => 0)
  ∧ Goes (.call f) (fun x => AllTake x ∧ CallFits f x) (fun x => called f x x.target)
  ∧ TrapsWith (.callx f) (fun x => ∃ l ∈ x.lanes, target x l % 8 ≠ 0) 0x14
      (fun x => maskOf (x.lanes.filter fun l => decide (target x l % 8 ≠ 0)))
      (fun x => target x ((x.lanes.filter fun l => decide (target x l % 8 ≠ 0)).headD 0))
  ∧ TrapsWith (.callx f) (fun x => OneTarget x (target x) ∧ x.rest ≠ 0) 0x03 (fun x => x.act) (fun _ => 0)
  ∧ TrapsWith (.callx f) (fun x => OneTarget x (target x) ∧ AllTake x ∧ ¬CallFits f x) 0x22 (fun x => x.act) (fun _ => 0)
  ∧ TrapsWith (.callx f) (fun x => ManyTargets x (target x) ∧ x.g.fr.lslots < x.g.fr.shift + shiftOf f + 16) 0x22 (fun x => x.act) (fun _ => 0)
  ∧ Goes (.callx f) (fun x => OneTarget x (target x) ∧ AllTake x ∧ CallFits f x) (fun x => (called f x (target x (lowest x.act))).hearSlots x)
  ∧ Goes (.callx f) (fun x => ManyTargets x (target x) ∧ x.g.fr.shift + shiftOf f + 16 ≤ x.g.fr.lslots)
      (fun x => let items := x.lanes.map fun l => (target x l, calleeItem f x l)
        (((x.s.jump x x.c.next).updGrp x.gid fun g => g.updSplit x.p.sid fun p => { p with wait := .callx items [] }).enqueueAll x.gid x.p.sid
          items).hearSlots x)
  ∧ TrapsWith (.ret f) (fun x => x.rest ≠ 0) 0x03 (fun x => x.act) (fun _ => 0)
  ∧ TrapsWith (.ret f) (fun x => AllTake x ∧ x.g.ownRet x.p.sid = none ∧ x.g.kind ≠ .drained) 0x21 (fun x => x.act) (fun _ => 0)
  ∧ Goes (.ret f) (fun x => AllTake x ∧ x.g.ownRet x.p.sid = none ∧ x.g.kind = .drained) (fun x => left x (returned x) x.act)
  ∧ (∀ s x r, issuing (.ret f) s = some x → x.act ≠ 0 → AllTake x → x.g.ownRet x.p.sid = some r → r.addr % 8 ≠ 0 →
      exec (.ret f) s = .next (s.raiseTrap x.gid x.p.sid 0x14 x.act r.addr x.p.pc (some x.c)))
  ∧ (∀ s x r, issuing (.ret f) s = some x → x.act ≠ 0 → AllTake x → x.g.ownRet x.p.sid = some r → r.addr % 8 = 0 →
      exec (.ret f) s = .next (((s.updGrp x.gid fun g => { g with
        rets := dropFirst (fun e => decide (e.sid = x.p.sid)) g.rets
        fr := { g.fr with shift := g.fr.shift - r.shift } }).jump x r.addr).after x.gid))

/-- R301, R303, R304, R305: `exit` waits until every flag is 0, a stop point while a memory fault is pending (R363), and then its lanes leave
the group; in a drained group they return their items, or, below a call of their own, end them (the model's reading, log 28). `yield` only lets the split go on; `tret` returns
from the handler, a trap that was taken at a clause header having been taken in the clause that it opens. -/
def Sys2Proof.Claim.ExitYieldTret : Prop := ∀ f : Fld,
  Idles (.exit f)
  ∧ Goes (.exit f) (fun x => x.g.mm.fault = none ∧ x.g.allClear = false) (fun x => x.s)
  ∧ Goes (.exit f) (fun x => x.g.mm.fault ≠ none) (fun x => x.s.stopHere x.g x.p x.c)
  ∧ Goes (.exit f) (fun x => x.g.mm.fault = none ∧ x.g.allClear = true ∧ x.g.kind ≠ .drained) (fun x => left x x.s x.act)
  ∧ Goes (.exit f) (fun x => x.g.mm.fault = none ∧ x.g.allClear = true ∧ x.g.kind = .drained ∧ x.g.ownRet x.p.sid = none)
      (fun x => left x (returned x) x.act)
  ∧ Goes (.exit f) (fun x => x.g.mm.fault = none ∧ x.g.allClear = true ∧ x.g.kind = .drained ∧ x.g.ownRet x.p.sid ≠ none)
      (fun x => left x ((x.s.endItems x.g.core x.g.grid ((x.g.items.filter fun e => takesPart x e.1).map (·.2))).updGrp x.gid fun g =>
        { g with items := g.items.filter fun e => !(takesPart x e.1) }) x.act)
  ∧ (∀ s x, issuing (.yield f) s = some x → exec (.yield f) s = .next (x.finish s))
  ∧ (∀ s x, issuing (.tret f) s = some x →
      exec (.tret f) s = .next (((s.updGrp x.gid fun g => g.returnTrap x.p.sid (x.g.save.bind fun v => s.clauseAt x.g v.tpc)).retireClause x).after x.gid))

/-- R170, R300 to R305: calls, returns, and the ends of lanes. What TADDR of a misaligned `callx` or `ret` names, and that such a `ret` traps 0x14 (log 39),
and that an `exit` of a drained group's lanes below a call of their own ends their items (log 28), is the model's reading. -/
def Obligations.CallsAndExits : Prop := Claim.CallsAndReturns ∧ Claim.ItemReturns ∧ Claim.ExitYieldTret

/-- R306 to R309, R160, R163: frames opened, closed, referenced and displayed; a stale handle traps 0x22 with the handle in TADDR. Where a new frame
lies is the place that a free value proposes, else the first that is free (log 9), and its room is rounded as the model reads R306 (log 34). -/
def Obligations.FramesAndDisplays : Prop := ∀ f : Fld,
  let h (x : Ctx) : Word := x.slot f.sa 0 (lowest x.act)
  let live (x : Ctx) : Prop := x.s.live x.g.core x.g.grid (h x) = true
  let refs (x : Ctx) : Nat := hdrRefs (x.s.header x.g.core (hDepth (h x)) (hOff (h x)))
  let n (x : Ctx) : Nat := if f.i then (f.imm.signExtend 32).toNat else (x.slot f.sb 0 (lowest x.act)).toNat
  let depth : Nat := if f.mod.getLsbD 0 then 3 else 2
  let place (x : Ctx) : Option Nat :=
    let s := x.s.drawNat.2
    if f.mod.getLsbD 0 then s.findShare x.g.core (frameRoom 3 (n x) true) x.s.drawNat.1
    else s.findStore x.g.core (frameRoom 2 (n x) true) x.s.drawNat.1
  TrapsWith (.fopen f) (fun x => 256 < n x) 0x03 (fun x => x.act) (fun _ => 0)
  ∧ Does (.fopen f) (fun x => n x ≤ 256 ∧ place x = none) (fun x => x.wr x.s.drawNat.2 f.dst fun _ => slot1 0)
  ∧ (∀ s x base, issuing (.fopen f) s = some x → x.act ≠ 0 → n x ≤ 256 → place x = some base →
      let r := s.drawNat.2.makeFrame x.g.core depth base (n x) x.g.grid x.g.bidx true
      exec (.fopen f) s = .next (x.finish (x.wr r.2 f.dst fun _ => [r.1])))
  ∧ Does (.fclose f) live (fun x => x.s.dropRef x.g.core x.g.grid (h x))
  ∧ TrapsWith (.fclose f) (fun x => ¬live x) 0x22 (fun x => x.act) (fun x => (h x).toNat)
  ∧ Does (.fref f) (fun x => live x ∧ refs x < 32767) (fun x => x.s.addRef x.g.core (h x))
  ∧ TrapsWith (.fref f) (fun x => ¬(live x ∧ refs x < 32767)) 0x22 (fun x => x.act) (fun x => (h x).toNat)
  ∧ Does (.disp f) (fun x => live x ∧ hDepth (h x) = 2) (fun x => x.s.updGrp x.gid fun g => { g with fr := { g.fr with d2 := h x } })
  ∧ Does (.disp f) (fun x => live x ∧ hDepth (h x) ≠ 2) (fun x => x.s.updGrp x.gid fun g => { g with fr := { g.fr with d3 := h x } })
  ∧ TrapsWith (.disp f) (fun x => ¬live x) 0x22 (fun x => x.act) (fun x => (h x).toNat)
  ∧ Does (.disprd f) (fun _ => True) (fun x => x.wr x.s f.dst fun _ => words2 (match f.mod.toNat % 4 with
      | 0 => BitVec.ofNat 64 (coreWin + x.g.fr.lbase + 128 * x.g.fr.shift)
      | 1 => if x.g.kind = .request ∨ x.g.kind = .reply then 0 else BitVec.ofNat 64 (coreWin + x.g.fr.gbase)
      | 2 => x.g.fr.d2.setWidth 64
      | _ => x.g.fr.d3.setWidth 64))

/-! ## Class 5 -/

/-- R310 to R313: a generation of a barrier completes when every participant (a group that waits there counts itself, also a drained one: the
model's reading, log 28) has arrived with each of its splits, its earlier accesses are
performed, and its die has applied what any of them had seen; until then nothing changes. Then no split waits at the barrier, every
participant has seen what all had, and `barc` and `tbar` leave nothing in their cores' L1. -/
def Sys2Proof.Claim.Generations : Prop := ∀ (s : State) (g : Group) (k : BarKind) (id : Nat),
  let ps := s.participants g k id
  let seen := ps.foldl (fun c x => c.join x.mm.gc) VClock.zero
  let complete : Prop := ∀ x ∈ ps, x.splits ≠ [] ∧ (∀ p ∈ x.splits, p.wait = .bar k id) ∧ x.readsDone x.seq = true
    ∧ s.writesDone x x.seq = true ∧ seen.le (s.die! (dieOf x.core)).av = true
  (∀ x, x ∈ ps ↔ x ∈ s.groups ∧ (x.gid = g.gid ∨ (x.grid = g.grid ∧ x.copy = g.copy ∧ match k with
    | .bar => x.kind = .normal ∧ x.bidx = g.bidx
    | .barc => x.kind = .normal ∧ clusterOf x.core = clusterOf g.core
    | .tbar => x.core = g.core ∧ ∃ t ∈ (s.core! g.core).teams, t.grid = g.grid ∧ t.t = id ∧ x.gid ∈ t.members)))
  ∧ (¬complete → s.tryBarrier g k id = s)
  ∧ (complete → (s.groups.map Group.gid).Nodup →
      let t := s.tryBarrier g k id
      (∀ x ∈ ps, ∃ y, t.grp? x.gid = some y ∧ (∀ p ∈ y.splits, p.wait = .none) ∧ y.mm.gc = x.mm.gc.join seen
        ∧ y.splits.map (fun p => { p with wait := .none }) = x.splits.map (fun p => { p with wait := .none })
        ∧ (k ≠ .bar → (t.core! x.core).l1 = []))
      ∧ (∀ x ∈ s.groups, x ∉ ps → t.grp? x.gid = some x))

/-- R310 to R312: a barrier's split waits at its fall-through header, the last of a team's being noted (R147); a team on its core gains and loses
the group; `tbar` on an empty team completes at once, and by a group outside a team that has members traps 0x03. -/
def Sys2Proof.Claim.BarriersAndTeams : Prop := ∀ f : Fld,
  let at_ (k : BarKind) (id : Nat) (x : Ctx) : State :=
    (x.s.jump x x.c.next).updGrp x.gid fun g => g.updSplit x.p.sid fun p => { p with wait := .bar k id }
  let t : Nat := f.mod.toNat % 8
  let team (x : Ctx) : List Nat := (x.s.core! x.g.core).members x.g.grid t
  let marked (x : Ctx) : Ctx := { x with s := x.s.updCore x.g.core fun k => { k with
    teams := k.teams.map fun e => if e.grid = x.g.grid ∧ e.t = t then { e with last := x.gid } else e } }
  (∀ s x, issuing (.bar f) s = some x → exec (.bar f) s = .next ((at_ .bar (f.mod.toNat % 16) x).after x.gid))
  ∧ (∀ s x, issuing (.barc f) s = some x → exec (.barc f) s = .next ((at_ .barc (f.mod.toNat % 16) x).after x.gid))
  ∧ (∀ s x, issuing (.tbar f) s = some x → x.gid ∈ team x → exec (.tbar f) s = .next ((at_ .tbar t (marked x)).after x.gid))
  ∧ (∀ s x, issuing (.tbar f) s = some x → team x = [] → exec (.tbar f) s = .next (x.finish s))
  ∧ (∀ s x, issuing (.tbar f) s = some x → team x ≠ [] → x.gid ∉ team x →
      exec (.tbar f) s = .next (s.raiseTrap x.gid x.p.sid 0x03 x.act 0 x.p.pc (some x.c)))
  ∧ (∀ s x, issuing (.tjoin f) s = some x → x.act ≠ 0 → x.g.core < s.cores.length → ∃ u, exec (.tjoin f) s = .next (x.finish u)
      ∧ x.gid ∈ (u.core! x.g.core).members x.g.grid t ∧ (∀ m, m ≠ x.gid → (m ∈ (u.core! x.g.core).members x.g.grid t ↔ m ∈ team x))
      ∧ u.groups = s.groups ∧ ∀ c, c ≠ x.g.core → u.core! c = s.core! c)
  ∧ (∀ s x, issuing (.tleave f) s = some x → x.act ≠ 0 → x.g.core < s.cores.length → ∃ u, exec (.tleave f) s = .next (x.finish u)
      ∧ x.gid ∉ (u.core! x.g.core).members x.g.grid t ∧ (∀ m, m ≠ x.gid → (m ∈ (u.core! x.g.core).members x.g.grid t ↔ m ∈ team x))
      ∧ u.groups = s.groups ∧ ∀ c, c ≠ x.g.core → u.core! c = s.core! c)

/-- R310 to R313: barriers, teams and generations. That a drained group's own arrival counts is the model's reading (log 28). -/
def Obligations.BarriersAndTeams : Prop := Claim.BarriersAndTeams ∧ Claim.Generations

/-- R180, R314, R315: `sleep` waits for a wake, asleep, and then takes it; `wake` ORs a value into a group's wake register, in both copies of a
paired block (the model's reading, log 22), a queue's, or the management core's. -/
def Obligations.SleepAndWake : Prop := ∀ f : Fld,
  let awake (x : Ctx) : Prop := x.g.wake ≠ 0 ∧ x.g.readsDone x.g.seq = true
    ∧ (x.g.mm.gc.join x.g.wakeGc).le (x.s.die! (dieOf x.g.core)).av = true
  let value (x : Ctx) (l : Nat) : DWord := if f.i then f.imm.signExtend 64 else x.val f.sb 2 l
  let name (x : Ctx) (l : Nat) : Word := x.slot f.sa 0 (x.srcLane l)
  let put (w : Wait) (x : Ctx) : State := x.s.updGrp x.gid fun g => g.updSplit x.p.sid fun p => { p with wait := w }
  Idles (.sleep f)
  ∧ Goes (.sleep f) (fun x => ¬awake x) (fun x => (put .sleep x).awaitReads x.g x.p x.c true)
  ∧ Does (.sleep f) awake (fun x => ((x.wr (put .none x) f.dst fun _ => words2 x.g.wake).updGrp x.gid fun g => { g with
      wake := 0, wakeGc := VClock.zero, mm := { g.mm with gc := g.mm.gc.join (x.g.mm.gc.join x.g.wakeGc) } }).clearL1 x.g.core)
  ∧ (∀ s x l, issuing (.wakePark f) s = some x → x.units = [l] → x.act ≠ 0 → value x l ≠ 0 → ∀ t : Group,
      s.groups.find? (fun g => decide (g.part = x.g.part) && decide (g.park = name x l)) = some t →
      exec (.wakePark f) s = .next (x.finish { s with groups := s.groups.map fun u =>
        if u.gid = t.gid ∨ (t.kind = .normal ∧ u.kind = .normal ∧ u.grid = t.grid ∧ u.bidx = t.bidx ∧ u.gidx = t.gidx)
        then { u with wake := u.wake ||| value x l, wakeGc := u.wakeGc.join x.g.mm.gc } else u }))
  ∧ (∀ s x, issuing (.wakePark f) s = some x → x.act ≠ 0 →
      (∀ l ∈ x.units, value x l = 0 ∨ ∀ g ∈ s.groups, g.part = x.g.part → g.park ≠ name x l) → exec (.wakePark f) s = .next (x.finish s))
  ∧ Does (.wakeQueue f) (fun _ => True) (fun x => x.units.foldl (fun s l =>
      if (name x l).toNat ≤ 15 then s.updPart x.g.part fun p => { p with
        queues := p.queues.modify (name x l).toNat fun q => { q with wake := q.wake ||| value x l } }
      else s) x.s)
  ∧ Does (.wakeMgmt f) (fun _ => True) (fun x => x.units.foldl (fun s l => s.updDev fun d => { d with mgmtWake := d.mgmtWake ||| value x l }) x.s)

namespace Sys2Proof.Claim

/-- An operation that is issued with its flag counted and completes at once with its lanes' results. -/
def atOnce (x : Ctx) (f : Fld) (s : State) (vals : List (Nat × List Word)) (err : Bool) : State :=
  let r := x.issueOp s f.dst (.job 0)
  r.2.completeOp r.1 vals err
/-- The stream that a lane names (R119). -/
def jsidAt (f : Fld) (x : Ctx) (l : Nat) : Nat := (x.slot f.sa 0 l).toNat % 2 ^ 24
/-- The card of the group's grid sets FLAGS bit 2: a replay grid (R132). -/
def inReplay (x : Ctx) : Prop := x.grid.card.flags / 4 % 2 = 1
/-- What one lane of a `jrd` takes: the record at its stream's cursor, which moves on, zeros past the last adopted record, and zeros with
error for a stream that has not been adopted (R132). -/
def jrdLane (f : Fld) (x : Ctx) (r : State × List (Nat × List Word) × Bool) (l : Nat) : State × List (Nat × List Word) × Bool :=
  let zeros : List Word := [0, 0, 0, 0, 0]
  let id := jsidAt f x l
  match (r.1.jr x.g.part).stream id with
  | none => (r.1, r.2.1 ++ [(l, zeros)], true)
  | some t =>
    match t.cursor with
    | none => (r.1, r.2.1 ++ [(l, zeros)], true)
    | some c =>
      match t.recs.find? fun e => decide (e.seq = c) with
      | none => (r.1, r.2.1 ++ [(l, zeros)], r.2.2)
      | some e =>
        if c ≤ t.adopted then
          (r.1.updJr x.g.part fun j => j.updStream id fun t => { t with cursor := some (c + 1) },
           r.2.1 ++ [(l, bytesToWords (recBytes e.rcd) ++ [BitVec.ofNat 32 c])], r.2.2)
        else (r.1, r.2.1 ++ [(l, zeros)], r.2.2)
/-- A lane of a `jtrunc`: its stream, and the ANCHOR's sequence number, or none for the close form (R319). -/
def truncLane (f : Fld) (x : Ctx) (close : Bool) (l : Nat) : TruncLane :=
  { lane := l, jsid := jsidAt f x l
    seq := if close then none else some (if f.i then (f.imm.signExtend 32).toNat else (x.slot f.sb 0 l).toNat) }
/-- A `jtrunc` performs its lanes in order, and its split waits at the first that must (R319). -/
def truncates (f : Fld) (x : Ctx) (close : Bool) : State :=
  let r := x.s.truncLanes x.g (x.dest f.dst) false (x.lanes.map (truncLane f x close))
  if r.1 = [] then r.2
  else r.2.updGrp x.gid fun g => g.updSplit x.p.sid fun p => { p with wait := .jtrunc r.1 (x.dest f.dst) }

end Sys2Proof.Claim

/-- R316, R317, R320, R128: `jrnl`, `emit` and `publish` count on their flag at issue, with the fields of every lane read then; what
R128 refuses at once is refused then. -/
def Sys2Proof.Claim.JournalIssue : Prop := ∀ f : Fld,
  Does (.jrnl f) (fun _ => True) (fun x => (x.issueOp x.s f.dst (.jrnl (x.lanes.map fun l =>
      let w (k : Nat) := x.slot f.sa k (x.srcLane l)
      (l, { jsid := (w 0).toNat % 2 ^ 24, type := (w 0).toNat / 2 ^ 24, pos := w 1, lo := w 2, hi := w 3 })))).2)
  ∧ (∀ s x, issuing (.emit f) s = some x → x.act ≠ 0 → ∃ e : Nat → EmitLane,
    (∀ l, let j := x.part.jr
          let seq := (x.slot f.sa 1 l).toNat
          let token (r : SeqRec) : Prop := ∃ t, j.stream (jsidAt f x l) = some t ∧ t.recs.find? (fun r => decide (r.seq = seq)) = some r
            ∧ r.rcd.type = 1 ∧ j.inRange (jsidAt f x l) = true
      (e l).lane = l ∧ (e l).seq = seq
      ∧ (j.st = .off → (e l).status = some 2)
      ∧ (j.st ≠ .off → (∀ r, ¬token r) → (e l).status = some 3)
      ∧ (∀ r, token r → (e l).rcd = r.rcd
          ∧ (j.st = .down → (e l).status = some 1)
          ∧ (j.st ≠ .off → j.st ≠ .down → (e l).status = none
              ∧ ((e l).phase = 1 ↔ seq ≤ ((j.stream (jsidAt f x l)).map Stream.durable).getD 0))))
    ∧ exec (.emit f) s = .next (x.finish (x.issueOp s f.dst (.emit (x.lanes.map e))).2))
  ∧ Does (.publish f) (fun _ => True) (fun x => (x.issueOp x.s f.dst (.publish (x.lanes.map fun l =>
      (l, if f.i then (f.imm.signExtend 32).toNat else (x.slot f.sb 0 (x.srcLane l)).toNat)) [] false)).2)

/-- R318, R132: `jrd` outside a replay grid gives zeros with error status, as one that no path takes to the Reel does (R41); in a replay grid its
lanes take their records in ascending lane order, and it waits while its path is down and DETOUR is still to be rewritten (R41, R49). That a record
which `jtrunc` has freed reads as zeros, without error and with the cursor left there, is the model's own (log 114). -/
def Sys2Proof.Claim.JournalReads : Prop := ∀ f : Fld,
  Does (.jrd f) (fun x => ¬inReplay x ∨ x.s.reelAway x.g = true) (fun x => atOnce x f x.s (x.lanes.map fun l => (l, [0, 0, 0, 0, 0])) true)
  ∧ Goes (.jrd f) (fun x => inReplay x ∧ x.s.reelCaught x.g = true) (fun x => x.s)
  ∧ Does (.jrd f) (fun x => inReplay x ∧ x.s.reelAway x.g = false ∧ x.s.reelCaught x.g = false) (fun x =>
      let r := x.lanes.foldl (jrdLane f x) (x.s, [], false)
      atOnce x f r.1 r.2.1 r.2.2)

/-- R319, R130: a lane of `jtrunc` fails with 1 without a partner or a live ANCHOR, or without a path to the Reel (R41); it waits until the
ANCHOR (for `.close`, every record) is durable, or fails when the partner is lost; then it frees the records below (closes the stream), tells the
partner and gives 0. While its path to the Reel is down and DETOUR is still to be rewritten it waits (R41, R49). That the lanes are performed one by
one, some before others that wait, is the model's reading (log 69). -/
def Sys2Proof.Claim.JournalTruncation : Prop :=
  (∀ f : Fld, Does (.jtrunc f) (fun _ => True) (fun x => truncates f x false)
    ∧ Does (.jtruncClose f) (fun _ => True) (fun x => truncates f x true))
  ∧ (∀ (s : State) (g : Group) (d : Dest) (lost : Bool) (t : TruncLane) (ts : List TruncLane),
    let j := s.jr g.part
    let go (u : State) := s.truncLanes g d lost (t :: ts) = u.truncLanes g d lost ts
    let fails := go (s.truncResult g d t.lane 1)
    let waits (due done : Nat) (u : State) : Prop :=
      (done < due → lost = false → s.truncLanes g d lost (t :: ts) = (t :: ts, s))
      ∧ (done < due → lost = true → fails)
      ∧ (due ≤ done → go (u.truncResult g d t.lane 0))
    (s.reelAway g = true ∨ s.reelCaught g = false ∧ (j.partner = none ∨ j.stream t.jsid = none) → fails)
    ∧ (s.reelCaught g = true → waits 1 0 s)
    ∧ (∀ k q, s.reelAway g = false → s.reelCaught g = false → j.partner = some k → j.stream t.jsid = some q →
      (∀ a, t.seq = some a →
        ((∀ r ∈ q.recs, ¬(r.seq = a ∧ r.rcd.type = 4)) → fails)
        ∧ ((∃ r ∈ q.recs, r.seq = a ∧ r.rcd.type = 4) → waits a q.durable
          ((s.updJr g.part fun j => j.updStream t.jsid fun q =>
            { q with trunc := a - 1, recs := q.recs.filter fun r => decide (a ≤ r.seq) }).toPartner g.part [.trunc t.jsid (a - 1)])))
      ∧ (t.seq = none → waits q.last q.durable
          ((s.updJr g.part fun j => { j with streams := j.streams.filter fun q => decide (q.jsid ≠ t.jsid), goal := j.goal.filter fun e => decide (e.1 ≠ t.jsid) }).toPartner g.part
            [.trunc t.jsid 0xFFFFFFFF]))))

/-- R316 to R320, R128, R130, R132: the journal's instructions. The lane-by-lane truncation rests on log 69, and a `jrd` at a freed record on log 114. -/
def Obligations.JournalInstructions : Prop := Claim.JournalIssue ∧ Claim.JournalReads ∧ Claim.JournalTruncation

/-! ## Class 6 -/

namespace Sys2Proof.Claim

/-- The lowest active lane's view of the descriptor: n slots from a (R323). -/
def descr (f : Fld) (x : Ctx) (n : Nat) : List Word := (List.range n).map fun k => x.slot f.sa k 0
/-- FMT's format of B (R171). -/
def bf (x : Ctx) : Nat := x.p.fmt.toNat / 2 ^ 4 % 16
/-- The bit width of a pass format's elements. -/
def bitsOf (k : Nat) : Nat := match k with | 3 => 8 | 4 => 6 | 5 => 4 | _ => 16
/-- The limits of R325 on a pass descriptor, with the chunk of its format pair (R198). -/
def PassLimits (d : List Word) (a b : Nat) (gather : Bool) : Prop :=
  ∃ chunk,
    (((a = 1 ∨ a = 2) ∧ (b = 1 ∨ b = 2) ∧ chunk = 16) ∨ (IsNarrow a ∧ IsNarrow b ∧ chunk = if a = 5 ∧ b = 5 then 64 else 32))
    ∧ dw2 d 0 % 16 = 0 ∧ dw2 d 2 % 16 = 0
    ∧ dw d 4 % 16 = 0 ∧ dw d 6 * bitsOf a / 8 ≤ dw d 4 ∧ dw d 5 % 16 = 0 ∧ dw d 6 * bitsOf b / 8 ≤ dw d 5
    ∧ dw d 6 % chunk = 0 ∧ chunk ≤ dw d 6 ∧ dw d 6 ≤ 4096
    ∧ (gather = true → 1 ≤ dw d 7 ∧ dw d 7 ≤ 65535 ∧ dw2 d 8 % 2 = 0) ∧ (gather = false → dw d 7 = 64 ∧ dw2 d 8 = 0)
/-- A job on one tile (R328 to R330). -/
def tileOnly (x : Ctx) (flag : Bool) (n : Nat) (k : JKind) : State := x.job x.s flag { kind := k, spans := [], tile := some n, wants := [], pledges := [] }
/-- The control c of `accrd` and `accwr` (R329). -/
def ctl (f : Fld) (x : Ctx) : Nat := if f.i then (f.imm.signExtend 32).toNat else (x.slot f.sb 0 (lowest x.act)).toNat
/-- A job refused at issue completes its flag with error status (R324). -/
def refused (f : Fld) (x : Ctx) : State :=
  let r := x.issueOp x.s f.dst (.job 0)
  r.2.finishOp r.1 true
/-- An instruction that pledges `blocks` and issues the job `k` (R82, R84, R86, R323), or waits for credit with no job issued. -/
def IssuesJob (i : Instr) (p : Ctx → Prop) (blocks : Ctx → List Nat) (first : Ctx → Nat) (k : Ctx → JobSpec) : Prop :=
  ∀ s x, issuing i s = some x → x.act ≠ 0 → p x →
    Pledges i s x (8 * (blocks x).length) (first x / 512 * 512) fun s => x.job s true (k x)

end Sys2Proof.Claim

/-- R323, R325 to R330: the passes, refused outside R325's limits, and the jobs on accumulator tiles. -/
def Obligations.PassesAndTiles : Prop := ∀ f : Fld,
  let pass (gather : Bool) (x : Ctx) : State :=
    let d := descr f x 10
    x.job x.s true { kind := .pass (f.mod.toNat % 128) (f.mod.getLsbD 7) gather d (af x) (bf x), spans := passSpans d (af x) (bf x) gather
                     tile := some (f.mod.toNat % 128), wants := [quadOf x.g.core], pledges := [] }
  let ok (gather : Bool) (x : Ctx) : Prop := PassLimits (descr f x 10) (af x) (bf x) gather
  Does (.mma f) (ok false) (pass false) ∧ Does (.mma f) (fun x => ¬ok false x) (refused f)
  ∧ Does (.mmag f) (ok true) (pass true) ∧ Does (.mmag f) (fun x => ¬ok true x) (refused f)
  ∧ Does (.accz f) (fun _ => True) (fun x => tileOnly x false (f.mod.toNat % 128) (.accz (f.mod.toNat % 128)))
  ∧ Does (.accrd f) (fun _ => True) (fun x => tileOnly x true f.sa.toNat (.accrd f.sa.toNat (ctl f x) f.lo none))
  ∧ Does (.accrdQ f) (fun x => IsNarrow (outf x)) (fun x =>
      tileOnly x true f.sa.toNat (.accrd f.sa.toNat (ctl f x) 0 (some (outf x, narrowRnd x))))
  ∧ TrapsWith (.accrdQ f) (fun x => ¬IsNarrow (outf x)) 0x02 (fun x => x.act) (fun _ => 0)
  ∧ Does (.accwr f) (fun _ => True) (fun x => tileOnly x true f.dst.toNat (.accwr f.dst.toNat (ctl f x)
      (x.lanes.map fun l => (l, BitVec.ofNat 32 (f32.encode 0 ((if f.lo = 8 then f32 else fmtOf f).decode (numA x l % 2 ^ (fmtOf f).width)))))))

/-- R331, R332, R323, R82: `cpy` is refused when its descriptor breaks a limit; else it pledges 8 cells for every mem-block of its
destination in partition memory and becomes a job, which wants a lease above 65,536 bytes. -/
def Obligations.Copies : Prop := ∀ f : Fld,
  let d (x : Ctx) := descr f x 10
  let c (x : Ctx) := copyD (d x)
  let ok (x : Ctx) : Prop := copyStatus (d x) = 0 ∧ copyFarOk x.part (c x) = true
  Does (.cpy f) (fun x => ¬ok x) (refused f)
  ∧ IssuesJob (.cpy f) ok (fun x => copyBlocks (c x)) (fun x => (c x).dst) (fun x =>
      { kind := .cpy (d x), spans := copySpans (c x), tile := none
        wants := if 65536 < (c x).rowb * (c x).rows then [quadOf x.g.core] else [], pledges := (copyBlocks (c x)).map fun m => (m, 8) })
  ∧ (∀ w : List Word, copyStatus w = 0 ↔
      let e := match dw w 8 % 4 with | 0 => 0 | 1 => 1 | 2 => 2 | _ => 4
      let far (i : Nat) : Prop := dw w 8 / 2 ^ i % 2 = 1
      let rowb := dw w 6
      let rows := dw w 7
      let dRows := if e = 0 then rows else rowb / e
      let dLen := if e = 0 then rowb else rows * e
      let srcLen := (rows - 1) * dw w 4 + rowb
      let dstLen := (dRows - 1) * dw w 5 + dLen
      dw w 8 < 16 ∧ dw w 9 = 0 ∧ 1 ≤ rowb ∧ rowb ≤ 16777216 ∧ 1 ≤ rows ∧ rows ≤ 65535
      ∧ (1 < rows → rowb ≤ dw w 4) ∧ (1 < dRows → dLen ≤ dw w 5)
      ∧ (e ≠ 0 → rows % 16 = 0 ∧ rowb % e = 0 ∧ rowb / e % 16 = 0)
      ∧ ¬(far 2 ∧ far 3) ∧ (¬far 2 → ¬far 3 → dw2 w 2 + dstLen ≤ dw2 w 0 ∨ dw2 w 0 + srcLen ≤ dw2 w 2))

/-- R333, R334: a near-bank command that breaks a limit is refused; else it becomes a job, `.drain` with its destination's pledge. An `.mv` sets
the region that a later `.drain` keeps as it issues (the model's reading, log 47), and what stands in memory and in the stacks refuses as the model
reads R334 (log 48). -/
def Obligations.NearBank : Prop := ∀ f : Fld,
  let d (x : Ctx) := descr f x 6
  let ok (code : Nat) (x : Ctx) : Prop := nbkStatus code (d x) = 0 ∧ x.s.nbkRefused x.part x.gid code (d x) = false
  let job (code : Nat) (x : Ctx) : JobSpec :=
    { kind := .nbk code (if code = 2 then x.part.drainOf (d x) else d x), spans := x.s.nbkSpans x.part code (d x), tile := none
      wants := if code = 1 then x.s.nbkQuads x.part 1 (d x) else []
      pledges := if code = 2 then (spanBlocks (dw2 (d x) 0) (4 * dw (d x) 4)).map fun m => (m, 8) else [] }
  Does (.nbkVload f) (fun x => ¬ok 0 x) (refused f) ∧ Does (.nbkVload f) (ok 0) (fun x => x.job x.s true (job 0 x))
  ∧ Does (.nbkMv f) (fun x => ¬ok 1 x) (refused f) ∧ Does (.nbkMv f) (ok 1) (fun x => x.job (x.s.updPart x.part.id fun q =>
      { q with nbBase := dw2 (d x) 0, nbRow := x.s.rowLen x.part (dw2 (d x) 0) }) true (job 1 x))
  ∧ Does (.nbkDrain f) (fun x => ¬ok 2 x) (refused f)
  ∧ IssuesJob (.nbkDrain f) (ok 2) (fun x => spanBlocks (dw2 (d x) 0) (4 * dw (d x) 4)) (fun x => dw2 (d x) 0) (job 2)
  ∧ Does (.nbkClear f) (fun x => ¬ok 3 x) (refused f) ∧ Does (.nbkClear f) (ok 3) (fun x => x.job x.s true (job 3 x))
  ∧ Does (.nbkFence f) (fun _ => True) (fun x =>
      x.job x.s true { kind := .nbk 4 [0, 0, 0, 0, 0, 0], spans := [], tile := none, wants := [], pledges := [] })

namespace Sys2Proof.Claim

/-- The nodes of an instruction's lanes, submitted in order, with the value that each receives (R336). -/
def submits (x : Ctx) (one : Nat → Nat × Nat × Nat) : State × List (Nat × Nat) :=
  x.units.foldl (fun r l =>
    let v := r.1.submitFor x.g (one l).1 (one l).2.1 (one l).2.2
    (v.2, r.2 ++ (if x.f.g then x.lanes else [l]).map fun k => (k, v.1))) (x.s, [])
/-- The flag completes with the lanes' values, with error status unless all are 0. -/
def submitted (x : Ctx) (f : Fld) (r : State × List (Nat × Nat)) : State :=
  atOnce x f r.1 (r.2.map fun e => (e.1, slot1 e.2)) (r.2.any fun e => decide (e.2 ≠ 0))

end Sys2Proof.Claim

/-- R336, R139: `spawn` submits a launch for each active lane and `node` one node for its split; a submission gives 1 when the record is
refused, 2 when the window is full, and else 0, with the node's edges from the live nodes that it conflicts with, but for its submitter
and that one's ancestors. Its flag completes in the step of its issue (the model's reading, log 52). Reading a record first fills the mem-blocks in which
it stands (R73). -/
def Obligations.SpawnAndNode : Prop :=
  (∀ f : Fld,
    Does (.spawn f) (fun _ => True) (fun x => submitted x f (submits x fun l => (1, (x.rdA 2 l).toNat, 0)))
    ∧ Does (.node f) (fun _ => True) (fun x =>
        let t := if f.i then (f.imm.signExtend 32).toNat else (x.slot f.sb 0 (lowest x.act)).toNat
        let kind := f.mod.toNat % 4
        let r := x.s.submitFor x.g kind (x.val f.sa 2 (lowest x.act)).toNat (if kind = 1 then t else t % 65536)
        submitted x f (r.2, x.lanes.map fun l => (l, r.1))))
  ∧ (∀ (s : State) (g : Group) (p : Part) (kind va tag : Nat), s.part? g.part = some p →
    let t := s.fillNode p kind va
    (∀ st, t.readNode p kind va tag = .error st → s.submitFor g kind va tag = (1, t))
    ∧ (∀ r, t.readNode p kind va tag = .ok r →
      let live := t.nodes.filter fun n => decide (n.part = g.part)
      (256 ≤ live.length → s.submitFor g kind va tag = (2, t))
      ∧ (live.length < 256 → ∃ n, s.submitFor g kind va tag = (0, { t with nextId := t.nextId + 1, nodes := t.nodes ++ [n] })
          ∧ n.nid = t.nextId ∧ n.part = g.part ∧ n.kind = r.kind ∧ n.tag = r.tag ∧ n.regions = r.regions ∧ n.started = false ∧ n.result = none
          ∧ (∀ m, (∃ e, (m, e) ∈ n.preds) ↔ ∃ k ∈ live, k.nid = m ∧ ¬(m ∈ n.ancestors) ∧ ∃ a ∈ k.regions, ∃ b ∈ r.regions, a.meets b = true))))

/-- R338, R339, R34, R38: `msg` traps 0x31 without a handler table and 0x30 for a route word of no hops or with reserved bits; else its
lanes' packets start at the core's crossbar and its flag counts until each has its status. The lanes of `msg.nw`, or of a reply group's message, that
find no room are those of a free mask (the model's choice, log 8). `route` writes the word that R339 gives. -/
def Obligations.Messages : Prop := ∀ f : Fld,
  let word (x : Ctx) (l : Nat) : Word := x.slot f.sa 0 l
  let bad (x : Ctx) : List Nat := x.lanes.filter fun l => decide ((word x l).toNat % 8 = 0) || decide ((word x l).toNat / 2 ^ 28 ≠ 0)
  let packet (x : Ctx) (pid oid l : Nat) : Packet :=
    { pid := pid, part := x.g.part, grid := x.g.grid, core := x.g.core, gid := x.gid, oid := oid, lane := l, orig := word x l, word := word x l, hop := 0
      loc := .localX (x.g.core / 24) (x.g.core % 24 / 4), hid := (x.slot f.sc 0 l).toNat % 16
      payload := (List.range (f.lo + 1)).map fun k => x.slot f.sb k l, gc := x.g.mm.gc, fault := none }
  let sends (x : Ctx) (s : State) (go : List Nat) (st : List (Nat × Nat)) (nw : Option (Nat × Mask)) : State :=
    let r := x.issueOp s f.dst (.msg go st nw)
    { r.2 with nextId := s.nextId + 1 + go.length
               packets := s.packets ++ ((List.range go.length).zip go).map fun e => packet x (s.nextId + 1 + e.1) r.1 e.2 }
  let full (x : Ctx) (n : Nat) : State :=
    let m : Mask := Config.freeMask x.s.free &&& x.act
    sends x { x.s with free := x.s.free + 1 } (x.lanes.filter fun l => !(m.getLsbD l)) ((lanesOf m).map fun l => (l, 11)) (some (n, m))
  let table (x : Ctx) : Prop := x.grid.card.msgtab ≠ 0
  TrapsWith (.msg f) (fun x => ¬table x) 0x31 (fun x => x.act) (fun _ => 0)
  ∧ TrapsWith (.msg f) (fun x => table x ∧ bad x ≠ []) 0x30 (fun x => maskOf (bad x)) (fun _ => 0)
  ∧ Does (.msg f) (fun x => table x ∧ bad x = [] ∧ x.g.kind ≠ .reply) (fun x => sends x x.s x.lanes [] none)
  ∧ Does (.msg f) (fun x => table x ∧ bad x = [] ∧ x.g.kind = .reply) (fun x => full x 7)
  ∧ TrapsWith (.msgNw f) (fun x => ¬table x) 0x31 (fun x => x.act) (fun _ => 0)
  ∧ TrapsWith (.msgNw f) (fun x => table x ∧ bad x ≠ []) 0x30 (fun x => maskOf (bad x)) (fun _ => 0)
  ∧ Does (.msgNw f) (fun x => table x ∧ bad x = []) (fun x => full x (if x.g.kind = .reply then 7 else f.mod.toNat / 32))
  ∧ Writes (.route f) f (fun x l => [x.s.routeWord x.part x.g.core (x.slot f.sa 0 (x.srcLane l))])

/-! ## Commands -/

namespace Sys2Proof.Claim

/-- A command that acts on the partition `p` starts with no reserved parameter field set (R94, R95). -/
def On (s : State) (h : CmdHdr) (p : Part) : Prop := s.part? h.part = some p ∧ h.rsvP = false
/-- A command that acts on no partition starts (R94, R95). -/
def OnNone (h : CmdHdr) : Prop := h.rsvP = false ∧ ¬(h.queue = 0xFF ∧ h.part ≠ 0xFFFF)
/-- On partition `p` and where `c` holds, the command completes with status `st` and no other change. -/
def Refuses (i : Instr) (h : CmdHdr) (c : State → Part → Prop) (st : Nat) : Prop :=
  ∀ s p, On s h p → c s p → exec i s = .next (s.complete h st .none)
/-- On partition `p` and where `c` holds, the command has the effect `e` and completes with status 0 and the results `r`. -/
def Performs (i : Instr) (h : CmdHdr) (c : State → Part → Prop) (e : State → Part → State) (r : State → Part → Results) : Prop :=
  ∀ s p, On s h p → c s p → exec i s = .next ((e s p).complete h 0 (r s p))

end Sys2Proof.Claim

/-- R95, R94: a command that acts on a partition completes with status 4 when there is none and 1 for a reserved parameter field; one
that acts on none completes with 1 for the field, and with 2 on the supervisor queue unless part is 0xFFFF. Each changes nothing else. -/
def Sys2Proof.Claim.CommandRefusals : Prop := ∀ (c : Command) (i : Instr) (s : State), c.instr = some i →
  (cmdNoPart c.b = false →
    (s.part? c.h.part = none → exec i s = .next (s.complete c.h 4 .none))
    ∧ ((s.part? c.h.part).isSome = true → c.h.rsvP = true → exec i s = .next (s.complete c.h 1 .none)))
  ∧ (cmdNoPart c.b = true →
    (c.h.rsvP = true → exec i s = .next (s.complete c.h 1 .none))
    ∧ (c.h.rsvP = false → c.h.queue = 0xFF → c.h.part ≠ 0xFFFF → exec i s = .next (s.complete c.h 2 .none)))

/-- R92 to R95, R97: a command that arrives from a connected peer is refused with the first status that applies, or stands at the tail of its
queue; from any other peer nothing arrives. The first supervisor command fixes the job, even one that is refused, and a parameter length above
65,536 is judged at arrival (the model's reading, log 71); the peer that sent it gets the events of that job (the model's choice, log 117). -/
def Sys2Proof.Claim.CommandArrival : Prop := ∀ (h : CmdHdr) (b : CmdBody) (s : State),
  let sup := h.queue = 0xFF
  let fixed : State := if sup ∧ s.dev.supJob = none then { s with dev := { s.dev with supJob := some h.job, supPeer := h.src } } else s
  let known := (∀ c, b ≠ .unknown c) ∧ h.rsvH = false
  let placed := known ∧ (sup ∨ h.queue < 16) ∧ h.plen ≤ 65536
  let there := placed ∧ ((sup ∧ cmdNoPart b = true) ∨ s.alive h.part = true)
  let allowed := there ∧ (sup → h.hold = false ∧ fixed.dev.supJob = some h.job)
    ∧ (¬sup → cmdSupOnly b = false ∧ ∀ p, s.part? h.part = some p → s.admits p h.job = true)
  let waiting : Nat := if sup then s.dev.supQueue.length else match s.part? h.part with
    | some p => ((p.queues[h.queue]?).map fun q => q.cmds.length).getD 64
    | none => 64
  let refused (st : Nat) := exec (.commandArrival h b) s = .next (fixed.answer h st .none)
  (s.dev.running = false ∨ h.src ∉ s.dev.conns → exec (.commandArrival h b) s = .next s)
  ∧ (s.dev.running = true → h.src ∈ s.dev.conns →
    (¬known → refused 1) ∧ (known → ¬placed → refused 2) ∧ (placed → ¬there → refused 4) ∧ (there → ¬allowed → refused 3)
    ∧ (allowed → 64 ≤ waiting → refused 5)
    ∧ (allowed → waiting < 64 → sup → exec (.commandArrival h b) s =
        .next { fixed with dev := { fixed.dev with supQueue := s.dev.supQueue ++ [⟨h, b⟩] } })
    ∧ (allowed → waiting < 64 → ¬sup → exec (.commandArrival h b) s = .next (s.updPart h.part fun p =>
        { p with queues := p.queues.modify h.queue fun q => { q with cmds := q.cmds ++ [⟨h, b⟩] } })))

/-- R93 to R97: a command's arrival and start. That a supervisor command fixes the job even when it is refused, and that a length above 65,536 answers 2 at
arrival, is the model's reading (log 71), and that its peer gets the job's events the model's choice (log 117). -/
def Obligations.CommandQueues : Prop := Claim.CommandRefusals ∧ Claim.CommandArrival

/-- R98, R106, R107, R108, R110, R46: the commands that read: identity, capabilities, registers, a quote, the log, the topology map. A number in a
register's range that none has reads 0 with its error bit set (the model's reading, log 72), and the log is read from the oldest kept entry at or
after the number named, as after a wrap (log 73). -/
def Sys2Proof.Claim.InquiryCommands : Prop := ∀ h : CmdHdr,
  (∀ s, OnNone h → exec (.identify h) s = .next (s.complete h 0 (.ident "VM-S4-768" s.dev.fuses.serial Config.romVersion
      (s.dev.patches.foldl (fun m e => max m e.2) 0) (Config.identityKey s.dev.fuses.seed) ((List.range 8).map Config.portAddress))))
  ∧ Performs (.capReadList h) h (fun _ _ => True) (fun s _ => s) (fun s _ => .data s.capBytes)
  ∧ (∀ sel regs, Refuses (.capReadRegisters h sel regs) h (fun _ _ => sel ≠ 1 ∨ 64 < regs.length) 2)
  ∧ (∀ s p regs, On s h p → regs.length ≤ 64 → ∃ vals errs, exec (.capReadRegisters h 1 regs) s = .next (s.complete h 0 (.regs vals errs))
      ∧ vals.length = regs.length
      ∧ ∀ k (hk : k < regs.length),
        let n := regs[k]
        let v : Option DWord := if n < 0x100 then none else if n < 0x800 then s.partReg p n
          else if n < 0x900 then p.ctlReg n else if h.queue = 0xFF then s.dev.devReg n else none
        vals[k]? = some (v.getD 0) ∧ errs.getLsbD k = v.isNone)
  ∧ (∀ nonce, Performs (.attest h nonce) h (fun _ _ => True) (fun s _ => s) (fun s p =>
      .data (s.quote p nonce ++ (List.range 17088).map fun i => (Config.slhSign s.dev.fuses.seed (s.quote p nonce)).getD i 0)))
  ∧ (∀ s first count free, OnNone h → (count = 0 ∨ 64 < count) → exec (.logRead h first count free) s = .next (s.complete h 2 .none))
  ∧ (∀ s first count free, OnNone h → 1 ≤ count → count ≤ 64 →
      exec (.logRead h first count free) s = .next (({ s with dev := { s.dev with
        log := if free then logFrom s.dev.log first else s.dev.log } } : State).complete h 0 (.log ((logFrom s.dev.log first).take count))))
  ∧ Performs (.topoRead h) h (fun _ _ => True) (fun s _ => s) (fun s p => .data ((List.range (s.mapLen p)).map fun i => s.mapByte p (p.topoVa + i)))

/-- R98, R60, R108, R45, R46: PART_CREATE gives the named quadrants, when free, to a new partition with the defaults of its registers and a
topology page of Fubebex's own, for which a stack without an extent of 1,024 free cells has no room (status 6);
PART_CONFIG writes registers in order and fills a key slot; RESET_PART and PART_DESTROY stay in progress until nothing runs. -/
def Obligations.PartitionCommands : Prop := ∀ h : CmdHdr,
  (∀ s mask jobs dest, OnNone h →
    let quads := (List.range 16).filter fun q => mask.getLsbD q
    (quads = [] ∨ 4 < jobs.length → exec (.partCreate h mask jobs dest) s = .next (s.complete h 2 .none))
    ∧ (quads ≠ [] → jobs.length ≤ 4 → (∃ q ∈ quads, ∃ p ∈ s.parts, q ∈ p.quads) →
        exec (.partCreate h mask jobs dest) s = .next (s.complete h 8 .none))
    ∧ (quads ≠ [] → jobs.length ≤ 4 → (∀ q ∈ quads, ∀ p ∈ s.parts, q ∉ p.quads) → (∃ i, i < 0xFFFF ∧ ∀ p ∈ s.parts, p.id ≠ i) →
        exec (.partCreate h mask jobs dest) s = .next (({ s with free := s.free + 3 } : State).complete h 6 .none)
        ∨ ∃ (t : State) (id : Nat) (p : Part),
        exec (.partCreate h mask jobs dest) s = .next (t.complete h 0 (.partition id))
        ∧ t.parts = s.parts ++ [p] ∧ (∀ q ∈ s.parts, q.id ≠ id) ∧ p.id = id ∧ p.quads = quads ∧ p.jobs = jobs ∧ p.dest = dest ∧ p.regs.ratio = 16 ∧ p.regs.chunk = 256
        ∧ p.pledged = 0 ∧ p.keys.drop 1 = [none, none, none] ∧ p.windows = [] ∧ p.jr.st = .off ∧ p.tt.run = none ∧ p.queues.length = 16
        ∧ (∃ pg, t.pages = s.pages ++ [pg] ∧ pg.part = id ∧ pg.own = true ∧ pg.w = false ∧ pg.cls = 1 ∧ pg.cap = 1024 ∧ pg.extent % 1024 = 0 ∧ 65536 * pg.vpn = p.topoVa))
    ∧ (quads ≠ [] → jobs.length ≤ 4 → (∀ q ∈ quads, ∀ p ∈ s.parts, q ∉ p.quads) → (∀ pg ∈ s.pages, pg.cap = 0) → (∀ q, (s.quad! q).retired = []) →
        ∃ (t : State) (id : Nat), exec (.partCreate h mask jobs dest) s = .next (t.complete h 0 (.partition id))))
  ∧ (∀ pairs key, let held (n : Nat) : Prop := 0x800 ≤ n ∧ n ≤ 0x9FF
      let writable (n : Nat) : Prop := (0x801 ≤ n ∧ n ≤ 0x809) ∨ n = 0x900
      let out : Prop := 32 < pairs.length ∨ 3 < key ∨ ∃ e ∈ pairs, held e.1 ∧ ¬writable e.1
      Refuses (.partConfig h pairs key) h (fun _ _ => out) 2
      ∧ Refuses (.partConfig h pairs key) h (fun _ _ => ¬out ∧ ∃ e ∈ pairs, ¬held e.1) 3
      ∧ Performs (.partConfig h pairs key) h (fun _ _ => ¬out ∧ ∀ e ∈ pairs, held e.1)
          (fun s p => let t := pairs.foldl (fun s e => s.setPriv p.id e.1 e.2) s
            if key = 0 then t else ({ t with free := t.free + 1 } : State).updPart p.id fun p =>
              { p with keys := p.keys.set key (some (Config.freeKey t.free)) }) (fun _ _ => .none))
  ∧ (∀ s p, On s h p → s.dev.busy ≠ some ⟨h, .resetPart⟩ →
      let t := s.resetPart p.id
      (t.partIdle p.id = true → exec (.resetPart h) s = .next (t.complete h 0 .none))
      ∧ (t.partIdle p.id = false → exec (.resetPart h) s = .next { t with dev := { t.dev with busy := some ⟨h, .resetPart⟩ } }))
  ∧ (∀ s p, On s h p → s.dev.busy = some ⟨h, .resetPart⟩ → s.partIdle p.id = true → exec (.resetPart h) s = .next (s.complete h 0 .none))
  ∧ (∀ s p, On s h p → s.dev.busy ≠ some ⟨h, .partDestroy⟩ → (s.resetPart p.id).partIdle p.id = false →
      exec (.partDestroy h) s = .next ((s.resetPart p.id).updDev fun d => { d with busy := some ⟨h, .partDestroy⟩ }))
  ∧ (∀ s p, On s h p → s.dev.busy = some ⟨h, .partDestroy⟩ → s.partIdle p.id = true → ∃ t : State, exec (.partDestroy h) s = .next (t.complete h 0 .none)
      ∧ t.parts = s.parts.filter (fun q => decide (q.id ≠ p.id)) ∧ (∀ pg ∈ t.pages, pg.part ≠ p.id) ∧ (∀ w ∈ t.writes, w.part ≠ p.id))

namespace Sys2Proof.Claim

/-- A run of whole pages below 2^48, of at least one page (R54, R98). -/
def Run (va count : Nat) : Prop := va % 65536 = 0 ∧ 1 ≤ count ∧ va + 65536 * count ≤ 2 ^ 48
/-- The mapped pages of a run. -/
def inRun (s : State) (p : Part) (va count : Nat) : List Page :=
  s.pages.filter fun g => decide (g.part = p.id) && decide (va / 65536 ≤ g.vpn) && decide (g.vpn < va / 65536 + count)
/-- n cells from `base` are free in a stack: aligned, below its end, in no page's extent and in no retired bank (R3, R61, R79). (No page has the
partition number 65,536.) -/
def FreeCells (s : State) (quad base n : Nat) : Prop :=
  base % n = 0 ∧ base + n ≤ stackCells
    ∧ (∀ g ∈ s.pages, (g.part, g.vpn) ≠ (65536, 0) → g.hw = none → g.cap ≠ 0 → (∃ p, s.part? g.part = some p ∧ homeQuad p (65536 * g.vpn) = quad) →
        g.extent + g.cap ≤ base ∨ base + n ≤ g.extent)
    ∧ ∀ i, i < n → bankNo (base + i) ∉ (s.quad! quad).retired
/-- An open window of the partition. -/
def openWindow (p : Part) (n : Nat) : Option Window := (p.windows.find? fun w => decide (w.num = n)).filter fun w => !w.closing

end Sys2Proof.Claim

/-- R54, R55, R80, R94, R99: MAP with a parameter out of range, a run outside its window or pages already mapped changes nothing; a compressed
run takes 4 cells of F for each page, a raw or near-bank one an extent of 1,024 cells for each, which must be free in its stack, and a
window's pages take none. Where two of its conditions fail the lower status is the answer (the model's reading, log 74). UNMAP and PROTECT spare
Fubebex's own page, and UNMAP waits at the head of its queue for moves (R90). -/
def Obligations.PageCommands : Prop := ∀ h : CmdHdr,
  (∀ m : MapParams,
    let idx (w : Window) : Option Nat := if w.va ≤ m.va ∧ m.va - w.va + 65536 * m.count ≤ w.len then some ((m.va - w.va) / 65536) else none
    let out (p : Part) : Prop := ¬Run m.va m.count ∨ 2 < m.cls ∨ (m.cls = 2 ∧ ∀ k, k ≤ 10 → m.nbrow ≠ 2 ^ k) ∨ (m.cls ≠ 2 ∧ m.nbrow ≠ 0)
      ∨ 3 < m.key ∨ (∃ n, m.window = some n ∧ (255 < n ∨ ∃ w, openWindow p n = some w ∧ idx w = none))
    let cells : Nat := if m.window.isSome then 0 else m.count * (if m.cls = 0 then 4 else 1024)
    let poor (s : State) (p : Part) : Prop := p.avail < (cells : Int)
      ∨ p.regs.ratio * p.quads.length * 3000000000 < s.mappedBytes p.id + (if m.window.isSome then 0 else 65536 * m.count)
    let taken (s : State) (p : Part) : Prop := inRun s p m.va m.count ≠ [] ∨ ∃ n, m.window = some n ∧ openWindow p n = none
    let page (q : Part) (hw : Nat → Option (Nat × Nat)) (i : Nat) : Page :=
      { part := q.id, vpn := m.va / 65536 + i, w := m.w, cls := m.cls, key := m.key, nbrow := m.nbrow, cl := true, extent := 0, hw := hw i, cap := 0
        hwm := 0, table := [], dict := [], moves := 0, dirty := [], cells := [], own := false }
    Refuses (.map h m) h (fun _ p => out p) 2
    ∧ Refuses (.map h m) h (fun s p => ¬out p ∧ poor s p) 6
    ∧ ((m.cls = 0 ∨ m.window.isSome = true) → Refuses (.map h m) h (fun s p => ¬out p ∧ ¬poor s p ∧ taken s p) 8)
    ∧ (m.window = none → m.cls ≠ 0 → ∀ s p, On s h p → ¬out p → ¬poor s p →
        let retired : Prop := m.cls = 2 ∧ ∃ i, i < m.count ∧ (s.quad! (homeQuad p (m.va + 65536 * i))).retired ≠ []
        let raw (bases : List Nat) : List Page := ((List.range bases.length).zip bases).map fun e =>
          { page p (fun _ => none) e.1 with extent := e.2, cap := 1024, hwm := 1024 }
        let fits (before : List Nat) (b : Nat) : Prop :=
          FreeCells { s with pages := s.pages ++ raw before } (homeQuad p (65536 * (m.va / 65536 + before.length))) b 1024
        ∃ bases : List Nat, (∀ i b, bases[i]? = some b → fits (bases.take i) b)
          ∧ ((bases.length < m.count ∧ (∀ b, ¬fits bases b) ∧ exec (.map h m) s = .next (s.complete h 6 .none))
            ∨ (bases.length = m.count ∧ (taken s p ∨ retired) ∧ exec (.map h m) s = .next (s.complete h 8 .none))
            ∨ (bases.length = m.count ∧ ¬taken s p ∧ ¬retired ∧ exec (.map h m) s = .next ((({ s with
                free := s.free + m.count, pages := s.pages ++ raw bases } : State).addF p.id (-(cells : Int))).complete h 0 .none))))
    ∧ (m.window = none → m.cls = 0 → Performs (.map h m) h (fun s p => ¬out p ∧ ¬poor s p ∧ ¬taken s p)
        (fun s p => ({ s with pages := s.pages ++ (List.range m.count).map (page p fun _ => none) } : State).addF p.id (-(cells : Int))) (fun _ _ => .none))
    ∧ (∀ n, m.window = some n → Performs (.map h m) h (fun s p => ¬out p ∧ ¬poor s p ∧ ¬taken s p)
        (fun s p => let k := ((openWindow p n).bind idx).getD 0
          ({ s with pages := s.pages ++ (List.range m.count).map (page p fun i => some (n, k + i)) } : State).addF p.id 0) (fun _ _ => .none)))
  ∧ (∀ va count,
    let own (s : State) (p : Part) : Prop := ∃ g ∈ inRun s p va count, g.own = true
    let moving (s : State) (p : Part) : Prop := ∃ g ∈ inRun s p va count, 0 < g.moves
    Refuses (.unmap h va count) h (fun _ _ => ¬Run va count) 2
    ∧ Refuses (.unmap h va count) h (fun s p => Run va count ∧ own s p) 8
    ∧ (∀ s p, On s h p → Run va count → ¬own s p → moving s p → exec (.unmap h va count) s = .next (s.requeue h (.unmap va count)))
    ∧ Performs (.unmap h va count) h (fun s p => Run va count ∧ ¬own s p ∧ ¬moving s p)
        (fun s p => (inRun s p va count).foldl (fun s g => s.unmapPage p.id g.vpn) s) (fun _ _ => .none)
    ∧ (∀ w, Refuses (.protect h va count w) h (fun _ _ => ¬Run va count) 2
      ∧ Refuses (.protect h va count w) h (fun s p => Run va count ∧ own s p) 8
      ∧ Performs (.protect h va count w) h (fun s p => Run va count ∧ ¬own s p)
          (fun s p => (inRun s p va count).foldl (fun s g => s.updPage p.id g.vpn fun q => { q with w := w }) s) (fun _ _ => .none)))

/-- R112, R100, R106: WINDOW_OPEN binds a number and maps nothing, a length of 0 being out of range (2) and an open number in use (8), as a number not open
is for WINDOW_CLOSE (the model's choice, log 121); WINDOW_CLOSE waits for the window's RMA in flight, that of a running copy included,
occupying Fubebex meanwhile (the model's reading, log 76), and then unmaps its pages; LOAD_CODE pledges, which is judged first (status 6 before 8, log
74), writes mapped, writable pages only, and extends the code measurement. -/
def Obligations.WindowAndCodeCommands : Prop := ∀ h : CmdHdr,
  (∀ w : WindowParams,
    let out : Prop := 255 < w.num ∨ w.len = 0 ∨ w.len % 65536 ≠ 0 ∨ 2 ^ 32 < w.len ∨ w.ver % 8 ≠ 0
      ∨ (w.host < w.ver + 8 ∧ w.ver < w.host + w.len) ∨ w.va % 65536 ≠ 0 ∨ 2 ^ 48 ≤ w.va
    Refuses (.windowOpen h w) h (fun _ _ => out) 2
    ∧ Refuses (.windowOpen h w) h (fun _ p => ¬out ∧ ∃ x ∈ p.windows, x.num = w.num) 8
    ∧ Performs (.windowOpen h w) h (fun _ p => ¬out ∧ ∀ x ∈ p.windows, x.num ≠ w.num)
        (fun s p => s.updPart p.id fun p => { p with windows := p.windows ++
          [{ num := w.num, host := w.host, len := w.len, key := w.key, ver := w.ver, va := w.va, version := 0, closing := false }] }) (fun _ _ => .none))
  ∧ (∀ n,
    let marked (s : State) (p : Part) : State := s.updPart p.id fun p =>
      { p with windows := p.windows.map fun x => if x.num = n then { x with closing := true } else x }
    let mine (s : State) (p : Part) : List Page := s.pages.filter fun g => decide (g.part = p.id) && decide (g.hw.map Prod.fst = some n)
    let busy (s : State) (p : Part) : Prop := (∃ r ∈ s.rmas, r.part = p.id ∧ r.win = n)
      ∨ ∃ j ∈ s.jobs, j.part = p.id ∧ j.started = true ∧ ∃ d, j.kind = .cpy d
        ∧ (((copyD d).farSrc = true ∧ farWin (copyD d).src = n) ∨ ((copyD d).farDst = true ∧ farWin (copyD d).dst = n))
    let mayClose (s : State) (p : Part) : Prop := n ≤ 255 ∧ ∃ w, (p.windows.find? fun w => decide (w.num = n)) = some w
      ∧ (w.closing = false ∨ s.dev.busy = some ⟨h, .windowClose n⟩)
    Refuses (.windowClose h n) h (fun _ _ => 255 < n) 2
    ∧ Refuses (.windowClose h n) h (fun s p => n ≤ 255 ∧ ¬mayClose s p) 8
    ∧ (∀ s p, On s h p → mayClose s p → busy s p →
        exec (.windowClose h n) s = .next ((marked s p).updDev fun d => { d with busy := some ⟨h, .windowClose n⟩ }))
    ∧ Performs (.windowClose h n) h (fun s p => mayClose s p ∧ ¬busy s p)
        (fun s p => ((mine s p).foldl (fun s g => s.unmapPage p.id g.vpn) (marked s p)).updPart p.id fun p =>
          { p with windows := p.windows.filter fun x => decide (x.num ≠ n) }) (fun _ _ => .none))
  ∧ (∀ va len host key,
    let writable (s : State) (p : Part) : Prop := ∀ i, i < len → ∃ g, s.page? p.id ((va + i) / 65536) = some g ∧ g.w = true ∧ g.hw = none
    let data (s : State) : List Byte := Mem.readN s.host host len
    let mbs (s : State) (p : Part) : List Nat := (spanBlocks va len).filter fun mb => (s.page? p.id (mb / 128)).any fun g => decide (g.cls = 0)
    Refuses (.loadCode h va len host key) h (fun s p => (8 * (mbs s p).length : Nat) ≤ p.avail ∧ ¬writable s p) 8
    ∧ (∀ s p, On s h p → p.avail < (8 * (mbs s p).length : Nat) →
        exec (.loadCode h va len host key) s = .next ((s.hardPressure p.id).complete h 6 .none))
    ∧ (∀ s p, On s h p → writable s p → (8 * (mbs s p).length : Nat) ≤ p.avail → ∃ (t : State) (st : VClock),
        s.hostWrite p.id (mbs s p) (cellsAt va (data s)) = some (st, t)
        ∧ exec (.loadCode h va len host key) s = .next ((t.updPart p.id fun p => { p with
            hostGc := p.hostGc.join st
            codeMeas := sha256 (digestBytes p.codeMeas ++ leBytes 8 va ++ leBytes 8 len ++ digestBytes (sha256 (data s))) }).complete h 0 .none)))

/-- R73, R101, R102, R137, R139, R141: LAUNCH and GRAPH_SUBMIT fill the mem-blocks of what they read, validate every record before they submit, wait
at the head of their queue for room in the window, and complete later, when the last node ends; KILL ends every live node of a tag. -/
def Sys2Proof.Claim.LaunchCommands : Prop := ∀ h : CmdHdr,
  let live (s : State) : Nat := (s.nodes.filter fun n => decide (n.part = h.part)).length
  (∀ s p card, On s h p →
    let t := s.fillNode p 1 card
    (∀ st, t.readCard p card = .error st → exec (.launch h card) s = .next (t.complete h st .none))
    ∧ (∀ r, t.readCard p card = .ok r →
      (256 ≤ live t → exec (.launch h card) s = .next (t.requeue h (.launch card)))
      ∧ (live t < 256 → exec (.launch h card) s = .next (t.submit p.id r [] p.hostGc t.nextId (some h) none).2)))
  ∧ (∀ s p (nodes : List NodeRec), On s h p →
    let t := nodes.foldl (fun s n => s.fillNode p n.kind n.addr) s
    let read (n : NodeRec) : Except Nat NodeReq := if n.rsv then .error 1 else t.readNode p n.kind n.addr n.tag
    let long : Prop := nodes = [] ∨ 256 < nodes.length
    let fails (st : Nat) : Prop := (∃ n ∈ nodes, read n = .error st) ∨ (long ∧ st = 2)
    (∀ st, fails st → (∀ e, fails e → st ≤ e) → exec (.graphSubmit h nodes) s = .next (t.complete h st .none))
    ∧ (∀ rs : List NodeReq, ¬long → nodes.map read = rs.map Except.ok →
      (256 < live t + nodes.length → exec (.graphSubmit h nodes) s = .next (t.requeue h (.graphSubmit nodes)))
      ∧ (live t + nodes.length ≤ 256 → exec (.graphSubmit h nodes) s = .next (t.submitAll p h rs))))
  ∧ (∀ tag, Refuses (.kill h tag) h (fun _ _ => tag = 0 ∨ 65535 < tag) 2
    ∧ Performs (.kill h tag) h (fun _ _ => 1 ≤ tag ∧ tag ≤ 65535)
        (fun s p => ((s.nodes.filter fun n => decide (n.part = p.id)).filter fun n => decide (n.tag = tag) && n.result.isNone).foldl
          (fun s n => s.endNode n 0 9) s) (fun _ _ => .none))

/-- R89, R103, R56, R57, R346, R347, R363: the host's answers. BALLOON_ACK retries or delivers; SVC_DONE writes each entry's results in its
lane and lets the group go on; FAULT_RESOLVE resolves, waiting for room where it raises a PAGE_FAULT again (R111), or refuses;
the latter two name a park id that waits for them, or change nothing. The id of a killed group answers 9 once (the model's reading, log 62), and a
verdict of refused ends every fault that is pending (log 70). -/
def Sys2Proof.Claim.AnswerCommands : Prop := ∀ h : CmdHdr,
  (∀ cells, Performs (.balloonAck h cells) h (fun _ _ => True)
      (fun s p => ((s.groups.filter fun g => decide (g.part = p.id) && g.cap.isSome).foldl (fun s g => s.cmdAcquire p.id g.gid) s).balloonAck p.id
        (cells % 2 ^ 32)) (fun _ _ => .none))
  ∧ (∀ (s : State) (p : Part), s.faultOrder p.id = [] → ∀ cells, s.balloonAck p.id cells = s)
  ∧ (∀ park,
    let waits (s : State) : Option Group := s.groups.find? fun g =>
      decide (g.part = h.part) && decide (g.park = park) && decide (g.svc.map SvcReq.phase = some 3)
    let held (s : State) : Prop := ∃ g ∈ s.groups, g.part = h.part ∧ g.park = park
    Refuses (.svcDone h park) h (fun s p => waits s = none ∧ (park ∉ p.killedSvc ∨ held s)) 8
    ∧ (∀ s p, On s h p → waits s = none → park ∈ p.killedSvc → ¬held s → exec (.svcDone h park) s = .next ((s.updPart h.part fun p =>
        { p with killedSvc := p.killedSvc.filter fun k => decide (k ≠ park) }).complete h 9 .none))
    ∧ (∀ s p g r, On s h p → waits s = some g → g.svc = some r →
        let gids : List Nat := g.gid :: (match s.twin g with | some t => [t.gid] | none => [])
        let results : List (Nat × List Word) := ((List.range r.lanes.length).zip r.lanes).map fun e => (e.2.1, s.svcResult p (r.q0 + e.1))
        let t := gids.foldl (fun s k => results.foldl (fun s e => s.parkWrite k r.shift e.1 e.2) s) s
        let t := match r.oid with | some o => t.finishOp o false | none => t
        let t := gids.foldl (fun s k => s.updGrp k fun g =>
          { g.updSplit r.sid (fun p => { p with wait := if p.wait = .svc then .none else p.wait }) with svc := none }) t
        exec (.svcDone h park) s = .next (((t.cmdAcquire h.part g.gid).resume g.gid).complete h 0 .none)))
  ∧ (∀ park verdict,
    let waits (s : State) : Option Group := s.groups.find? fun g => decide (g.part = h.part) && decide (g.park = park) && s.awaitsVerdict g
    let full (s t : State) (k : Nat) : Prop := s.kept k < t.kept k ∧ t.evRoom k 0 = false
    Refuses (.faultResolve h park verdict) h (fun _ _ => 2 ≤ verdict) 2
    ∧ Refuses (.faultResolve h park verdict) h (fun s _ => verdict ≤ 1 ∧ waits s = none) 8
    ∧ (∀ s p g, On s h p → waits s = some g → verdict ≤ 1 →
        let t := s.giveVerdict h.part g verdict
        (full s t g.part → exec (.faultResolve h park verdict) s = .next (s.requeue h (.faultResolve park verdict)))
        ∧ (¬full s t g.part → exec (.faultResolve h park verdict) s = .next (t.complete h 0 .none)))
    ∧ (∀ s g, waits s = some g → ∃ g', (s.cmdAcquire h.part g.gid).grp? g.gid = some g'
        ∧ s.giveVerdict h.part g 0 = ((s.cmdAcquire h.part g.gid).resolveFault g').settleBarriers
        ∧ s.giveVerdict h.part g 1
          = ((s.cmdAcquire h.part g.gid).refuseFault g.gid g.mm.replay (g.mm.fault.getD (0x10, 0, 0))).settleBarriers))

/-- R56, R57, R89, R101 to R103, R137, R139, R141, R346, R347, R363: launches, and the answers to faults and services. That a killed park id answers 9 once
(log 62) and that a verdict of 1 ends every pending fault (log 70) is the model's reading. -/
def Obligations.LaunchAndAnswers : Prop := Claim.LaunchCommands ∧ Claim.AnswerCommands

/-- R115, R116: TT_LOAD takes ordered entries with legal policies and slots below the cycle, at once or at the boundary of a running table;
TT_START starts a table at its start time or the first boundary ahead, re-phases a running one, or stops it. -/
def Sys2Proof.Claim.TimeTableCommands : Prop := ∀ h : CmdHdr,
  (∀ es : List TTEntry,
    let bad (p : Part) : Prop := 256 < es.length ∨ (∃ (i j : Nat) (a b : TTEntry), i ≤ j ∧ es[i]? = some a ∧ es[j]? = some b ∧ b.slot < a.slot)
      ∨ (∃ e ∈ es, 2 < e.policy) ∨ (∃ e ∈ es, ∃ r, (p.tt.run = some r ∨ p.tt.rephase = some r) ∧ r.cycle ≤ e.slot)
    Refuses (.ttLoad h es) h (fun _ p => bad p) 2
    ∧ Performs (.ttLoad h es) h (fun _ p => ¬bad p ∧ p.tt.run = none) (fun s p => s.updPart p.id fun p => { p with tt := { p.tt with entries := es } })
        (fun _ _ => .none)
    ∧ Performs (.ttLoad h es) h (fun _ p => ¬bad p ∧ p.tt.run ≠ none)
        (fun s p => s.updPart p.id fun p => { p with tt := { p.tt with pending := some es } }) (fun _ _ => .none))
  ∧ (∀ cycle start,
    let bad (p : Part) : Prop := cycle < 10000 ∨ 4000000000 < cycle ∨ ∃ e ∈ p.tt.pending.getD p.tt.entries, cycle ≤ e.slot
    Refuses (.ttStartRun h cycle start) h (fun _ p => bad p) 2
    ∧ (∀ s p, On s h p → ¬bad p → p.tt.run = none → ∃ first,
        exec (.ttStartRun h cycle start) s = .next (s.updPart p.id fun p =>
          { p with tt := { p.tt with run := some { start := first, cycle := cycle, k := 0, next := 0, cmd := h } } })
        ∧ (s.dev.tod ≤ start → first = start)
        ∧ (start < s.dev.tod → ∃ n, first = start + n * cycle ∧ s.dev.tod < first ∧ first ≤ s.dev.tod + cycle))
    ∧ (∀ s p r, On s h p → ¬bad p → p.tt.run = some r → exec (.ttStartRun h cycle start) s = .next (s.updPart p.id fun p =>
        { p with tt := { p.tt with
          rephase := some { start := start, cycle := cycle, k := 0, next := 0, cmd := h }
          stop := p.tt.stop ++ (p.tt.rephase.map TTRun.cmd).toList } })))
  ∧ Performs (.ttStartStop h) h (fun _ p => p.tt.run = none) (fun s _ => s) (fun _ _ => .none)
  ∧ (∀ s p r, On s h p → p.tt.run = some r → exec (.ttStartStop h) s = .next (s.updPart p.id fun p =>
      { p with tt := { p.tt with stop := p.tt.stop ++ (p.tt.rephase.map TTRun.cmd).toList ++ [h], rephase := none } }))

namespace Sys2Proof.Claim

/-- Every page of a run of bytes is mapped, of CLASS 1, no window's and not Fubebex's (R120). -/
def RawRun (s : State) (p : Part) (va len : Nat) : Prop :=
  len = 0 ∨ ∀ v, va / 65536 ≤ v → v < (va + len + 65535) / 65536 → ∃ g, s.page? p.id v = some g ∧ g.cls = 1 ∧ g.hw = none ∧ g.own = false
/-- The limits of R120 on a configuration with mode 1. -/
def JournalLimits (s : State) (p : Part) (c : JournalParams) : Prop :=
  c.jbase < 2 ^ 24 ∧ 1 ≤ c.jcount ∧ c.jcount ≤ 2 ^ 24 - c.jbase ∧ c.npart ≤ 4 ∧ c.window ≤ 255 ∧ 4 ≤ c.ringk ∧ c.ringk ≤ 12
  ∧ c.buflen % 65536 = 0 ∧ c.storelen % 65536 = 0 ∧ 100 ≤ c.timeout ∧ c.timeout ≤ 1000000
  ∧ c.npart ≤ c.partners.length ∧ (∀ e ∈ c.partners.take c.npart, e.kind = 1 ∨ e.kind = 2)
  ∧ (∀ q ∈ s.parts, q.id ≠ p.id → q.jr.st ≠ .off → q.jr.p.jbase + q.jr.p.jcount ≤ c.jbase ∨ c.jbase + c.jcount ≤ q.jr.p.jbase)
  ∧ (∃ w, openWindow p c.window = some w ∧ c.jcount * (64 + 16 * 2 ^ c.ringk) ≤ w.len)
  ∧ RawRun s p c.bufva c.buflen ∧ RawRun s p c.storeva c.storelen
/-- A REPLAY_BIND's answers are forgotten. -/
def forgotten (s : State) (part : Nat) : State := s.updJr part fun j => { j with bindDone := [], bindGot := [] }

end Sys2Proof.Claim

/-- R120, R125, R111: JOURNAL_CONFIG refuses a configuration outside its limits, and any change but of the partners and the timeout while
streams are open; from OFF it goes to LIVE 0 or DOWN, and a new partner list is a switch to its entry 0, at which what waits for the old partner ends
(the model's choice, log 108). While streams are not off, a configuration of mode 1 waits for an event slot, also one without a switch (log 113).
R131: REPLAY_BIND adopts every stream of the range or nothing, and returns 6 before 8 (R94); from a holder it first sends a FETCH for each jsid,
with this device's serial (R124), and waits, and where the holder is not connected (R92) or out of reach, which a free value decides, it returns 8
before 11 (log 68, the model's choice: 6 is not known there). That mode 0, and a changed store length, keep the stored records is the model's choice
(log 114). -/
def Obligations.JournalCommands : Prop := ∀ h : CmdHdr,
  (∀ c : JournalParams,
    let ok (s : State) (p : Part) : Prop := c.mode = 0 ∨ (c.mode = 1 ∧ JournalLimits s p c)
    let fits (p : Part) : Prop := p.jr.streams = [] ∨ { c with npart := p.jr.p.npart, partners := p.jr.p.partners, timeout := p.jr.p.timeout } = p.jr.p
    let sealed (s : State) (p : Part) : State := (s.sealPages p.id c.bufva c.buflen).sealPages p.id c.storeva c.storelen
    let set (s : State) (p : Part) : State := (sealed s p).updJr p.id fun j => { j with p := c }
    let switched (s : State) (p : Part) : State := (((sealed s p).partnerGone p.id).updJr p.id fun j => { j with p := c }).switchTo p.id 0
    let i : Instr := .journalConfig h c
    Refuses i h (fun s p => ¬ok s p) 2
    ∧ Refuses i h (fun s p => ok s p ∧ ¬fits p) 8
    ∧ Performs i h (fun s p => ok s p ∧ fits p ∧ c.mode = 0) (fun s p => s.updJr p.id fun j => { Journal.off with store := j.store }) (fun _ _ => .none)
    ∧ Performs i h (fun s p => ok s p ∧ fits p ∧ c.mode = 1 ∧ p.jr.st = .off)
        (fun s p => (set s p).updJr p.id fun j => { j with st := if c.npart = 0 then .down else .live 0 }) (fun _ _ => .none)
    ∧ Performs i h (fun s p => ok s p ∧ fits p ∧ c.mode = 1 ∧ p.jr.st = .down ∧ s.evRoom p.id 1 = true)
        (fun s p => if c.npart = 0 then set s p else switched s p) (fun _ _ => .none)
    ∧ Performs i h (fun s p => ok s p ∧ fits p ∧ c.mode = 1 ∧ s.evRoom p.id 1 = true ∧ ∃ k, p.jr.st = .live k ∨ p.jr.st = .switch k)
        (fun s p => if c.npart = p.jr.p.npart ∧ c.partners = p.jr.p.partners then set s p else switched s p) (fun _ _ => .none)
    ∧ (∀ s p, On s h p → ok s p → fits p → c.mode = 1 → p.jr.st ≠ .off → s.evRoom p.id 1 = false →
        exec i s = .next { s with dev := { s.dev with busy := some ⟨h, .journalConfig c⟩ } }))
  ∧ (∀ b : BindParams,
    let out (p : Part) : Prop := 2 ^ 24 ≤ b.jfirst ∨ b.jn = 0 ∨ 65536 < b.jn ∨ p.jr.st = .off ∨ b.jfirst < p.jr.p.jbase
      ∨ p.jr.p.jbase + p.jr.p.jcount < b.jfirst + b.jn
    let inside (q : Nat) : Prop := b.jfirst ≤ q ∧ q < b.jfirst + b.jn
    let opened (p : Part) : Prop := ∃ x ∈ p.jr.streams, inside x.jsid
    let full (s : State) (p : Part) (rs : List Stored) : Prop :=
      p.jr.p.buflen / 32 < p.jr.liveRecs + ((adopted b rs).flatMap Stream.recs).length ∨ 65536 < p.jr.streams.length + (adopted b rs).length
      ∨ 262144 < (s.parts.map fun p => p.jr.streams.length).sum + (adopted b rs).length
    let i : Instr := .replayBind h b
    let binds (s : State) (p : Part) (rs : List Stored) : Prop :=
      (full s p rs → exec i s = .next ((forgotten s h.part).complete h 6 .none))
      ∧ (¬full s p rs → opened p → exec i s = .next ((forgotten s h.part).complete h 8 .none))
      ∧ (¬full s p rs → ¬opened p → exec i s = .next ((((forgotten s h.part).updJr h.part fun j => { j with
          streams := j.streams ++ adopted b rs
          store := j.store.filter fun r => decide (r.serial ≠ b.serial) }).sendRecs
            h.part (!p.jr.unacked) ((adopted b rs).flatMap Stream.recs)).complete h 0 .none))
    let waiting (s : State) : Prop := s.dev.busy = some ⟨h, .replayBind b⟩
    let answered (p : Part) : Prop := ∀ k, k < b.jn → b.jfirst + k ∈ p.jr.bindDone
    Refuses i h (fun _ p => out p) 2
    ∧ (∀ s p, On s h p → ¬out p → b.holder = 0 → binds s p (p.jr.store.filter fun r => decide (r.serial = b.serial)))
    ∧ (∀ s p, On s h p → ¬out p → b.holder ≠ 0 → waiting s → answered p → binds s p p.jr.bindGot)
    ∧ (∀ s p, On s h p → ¬out p → b.holder ≠ 0 → ¬(waiting s ∧ answered p) →
      let t : State := { s with free := s.free + 1 }
      let reached : Prop := b.holder ∈ s.dev.conns ∧ Config.freeBit s.free 0 = true
      (¬reached → opened p → exec i s = .next ((forgotten t h.part).complete h 8 .none))
      ∧ (¬reached → ¬opened p → exec i s = .next ((forgotten t h.part).complete h 11 .none))
      ∧ (reached → waiting s → exec i s = .next t)
      ∧ (reached → ¬waiting s → exec i s = .next { t with
          out := s.out ++ (List.range b.jn).map fun k => .peer h.part b.holder s.dev.fuses.serial (.fetch (b.jfirst + k) 0 0xFFFFFFFF)
          dev := { s.dev with busy := some ⟨h, .replayBind b⟩ } })))

/-- R105, R110: PATCH_LOAD outside its limits completes with status 2 and with a key or a signature that does not verify with 7, and either is
logged; an accepted image replaces the handler's level and extends the patch measurement. -/
def Sys2Proof.Claim.PatchCommand : Prop := ∀ (h : CmdHdr) (img : PatchImage) (s : State), OnNone h →
  let mine := assoc img.code s.dev.patches
  let limit : Prop := img.format ≠ 1 ∨ img.code ∉ commandCodes ∨ img.code = 0x01 ∨ img.code = 0x70 ∨ img.body = [] ∨ 57632 < img.body.length
    ∨ img.level < s.dev.fuses.floor.toNat ∨ img.level < mine.getD 0 ∨ (mine = none ∧ 32 ≤ s.dev.patches.length)
  let good : Prop := sha256 ((List.range 32).map fun i => img.key.getD i 0) = s.dev.fuses.keyHash ∧ Config.slhVerify img.key (imageHead img) img.sig = true
  let logged : State := s.logError 8 0 0 0 0xFFFF 0 []
  (limit → exec (.patchLoad h img) s = .next (logged.complete h 2 .none))
  ∧ (¬limit → ¬good → exec (.patchLoad h img) s = .next (logged.complete h 7 .none))
  ∧ (¬limit → good → exec (.patchLoad h img) s = .next ((({ s with dev := { s.dev with
      patches := setAssoc img.code img.level s.dev.patches
      patchMeas := sha256 (digestBytes s.dev.patchMeas ++ digestBytes (sha256 (imageBytes img))) } } : State).updateCaps).complete h 0 .none))

/-- R46, R98, R105 to R108, R110: the commands that read the device, and the patch of a command handler. What an unassigned register number gives (log 72)
and where a log that has wrapped begins (log 73) is the model's reading. -/
def Obligations.SupervisorCommands : Prop := Claim.InquiryCommands ∧ Claim.PatchCommand

/-! ## The device and what stands outside it -/

/-- R111, R92, R114: the oldest kept event leaves with its partition's next sequence number, and a supervisor event stays while there is no supervisor
job; an event stays, too, while its peer has no connection, and a completion for a peer without one is lost (the model's reading, log 118; which peer a supervisor event goes to is log 117); a peer with
a feature outside R92's table is refused, and has no connection any more, and one that is set up gets what partitions keep for a partner there (log
118); an inbound RMA of a peer without one has no effect (the model's reading, log 86), and one that R114 does not admit gets an error and touches
nothing. -/
def Sys2Proof.Claim.HostTraffic : Prop :=
  (∀ (s : State) (peer : Nat) (o : Out), (peer ∈ s.dev.conns → s.sendTo peer o = { s with out := s.out ++ [o] })
    ∧ (peer ∉ s.dev.conns → s.sendTo peer o = s))
  ∧ (∀ (s : State) (h : CmdHdr) (st : Nat) (r : Results), s.answer h st r = s.sendTo h.src (.completion h st r)
    ∧ s.complete h st r = { s with dev := { s.dev with busy := none } }.answer h st r)
  ∧ (∀ (s : State) (p : Part), p.id ≠ 0xFFFF → s.part? p.id = some p → p.evq = [] → exec (.eventDelivery p.id) s = .next s)
  ∧ (∀ (s : State) (p : Part), p.id ≠ 0xFFFF → s.part? p.id = some p → p.dest ∉ s.dev.conns → exec (.eventDelivery p.id) s = .next s)
  ∧ (∀ s : State, s.dev.evq = [] ∨ s.dev.supJob = none ∨ s.dev.supPeer ∉ s.dev.conns → exec (.eventDelivery 0xFFFF) s = .next s) ∧
  (∀ (s : State) (p : Part) (e : EventBody) (es : List EventBody), p.id ≠ 0xFFFF → s.part? p.id = some p → p.evq = e :: es → p.dest ∈ s.dev.conns →
    exec (.eventDelivery p.id) s = .next ((s.updPart p.id fun q => { q with evq := es, evSeq := p.evSeq + 1 }).output (.event p.id (p.evSeq + 1) e)))
  ∧ (∀ (s : State) (e : EventBody) (es : List EventBody) (j : Nat), s.dev.evq = e :: es → s.dev.supJob = some j → s.dev.supPeer ∈ s.dev.conns →
    exec (.eventDelivery 0xFFFF) s = .next ({ s with dev := { s.dev with evq := es, evSeq := s.dev.evSeq + 1 }
                                                     out := s.out ++ [.event 0xFFFF (s.dev.evSeq + 1) e] }))
  ∧ (∀ (s : State) (peer : Nat) (f : UetFeatures), s.dev.running = true →
    let fits : Prop := (∀ m ∈ f.modes, m ≤ 2) ∧ (∀ o ∈ f.ops, o ≤ 3) ∧ f.hpc = false ∧ f.otherCongestion = false ∧ f.other = false
    (fits → exec (.connectionSetup peer f) s = .next (State.peerUp { s with
      dev := { s.dev with conns := dedupN (peer :: s.dev.conns) }, out := s.out ++ [.connected peer true] } peer))
    ∧ (¬fits → exec (.connectionSetup peer f) s = .next { s with
      dev := { s.dev with conns := s.dev.conns.filter fun c => decide (c ≠ peer) }, out := s.out ++ [.connected peer false] }))
  ∧ (∀ (s : State) (r : RmaReq), r.src ∉ s.dev.conns →
    (∀ data, exec (.inboundRmaWrite r data) s = .next s) ∧ (∀ len, exec (.inboundRmaRead r len) s = .next s))
  ∧ (∀ (s : State) (r : RmaReq), r.src ∈ s.dev.conns →
    let admitted (n : Nat) : Prop := ∃ p, s.part? r.part = some p ∧ (r.job ∈ p.jobs ∨ s.dev.supJob = some r.job) ∧ r.key = p.regs.rmaKey
      ∧ r.va + n ≤ 2 ^ 48 ∧ ∀ i, i < n → ∃ g, s.page? r.part ((r.va + i) / 65536) = some g ∧ g.hw = none
    let error : State := { s with out := s.out ++ [.rma r.src false []] }
    (∀ data, ¬(admitted data.length ∧ ∀ i, i < data.length → ∃ g, s.page? r.part ((r.va + i) / 65536) = some g ∧ g.w = true) →
      exec (.inboundRmaWrite r data) s = .next error)
    ∧ (∀ data t st, admitted data.length → (∀ i, i < data.length → ∃ g, s.page? r.part ((r.va + i) / 65536) = some g ∧ g.w = true) →
      s.hostWrite r.part (spanBlocks r.va data.length) (cellsAt r.va data) = some (st, t) →
      exec (.inboundRmaWrite r data) s = .next (State.settleAcks { t with acks := t.acks ++
        [{ part := r.part, src := r.src, wids := (t.applies.drop s.applies.length).map Apply.wid, gc := st }] }))
    ∧ (∀ data p, s.part? r.part = some p → admitted data.length →
      (∀ i, i < data.length → ∃ g, s.page? r.part ((r.va + i) / 65536) = some g ∧ g.w = true) →
      p.avail < (8 * (spanBlocks r.va data.length).length : Nat) →
      exec (.inboundRmaWrite r data) s = .next ((s.hardPressure r.part).output (.rma r.src false [])))
    ∧ (∀ len, ¬admitted len → exec (.inboundRmaRead r len) s = .next error)
    ∧ (∀ len p, admitted len → (s.expandAt r.part r.va len).part? r.part = some p →
      (p.poisoned r.va len = true → exec (.inboundRmaRead r len) s = .next ((s.expandAt r.part r.va len).output (.rma r.src false [])))
      ∧ (p.poisoned r.va len = false → exec (.inboundRmaRead r len) s = .next ((s.expandAt r.part r.va len).output (.rma r.src true
          ((List.range len).map fun i => (p.views.getD (homeDie p (r.va + i)) View.empty).read (r.va + i)))))))

/-- R26, R17, R22, R64: device reset keeps the fuses, leaves no partition and no work, and starts each L2 in the mode of its rail (host memory and what
has left the device stay: the model's choice, log 79); THROTTLE is set from 4,000 W and cleared once the average has stayed below 3,800 W for 1 ms; a
lost port runs on in holdover, and the time of day never decreases. -/
def Sys2Proof.Claim.PowerAndTime : Prop := ∀ s : State,
  let sampled (draw : Nat) : State := { s with dev := { s.dev with
    coolAt := if 3800 ≤ draw then none else if s.dev.coolAt = none then some s.dev.up else s.dev.coolAt } }
  let cool (draw : Nat) : Prop := ∃ t, (sampled draw).dev.coolAt = some t ∧ t + 1000000 ≤ s.dev.up
  (∀ rails, ∃ t, exec (.deviceReset rails) s = .next t
    ∧ t.dev.fuses = s.dev.fuses ∧ t.dev.running = s.dev.fuses.intact
    ∧ t.parts = [] ∧ t.pages = [] ∧ t.grids = [] ∧ t.blocks = [] ∧ t.groups = [] ∧ t.nodes = [] ∧ t.jobs = [] ∧ t.writes = [] ∧ t.packets = []
    ∧ t.dev.supJob = none ∧ t.dev.patches = [] ∧ t.dev.log = [] ∧ t.dev.throttle = false ∧ t.dev.coolAt = none ∧ t.host = s.host ∧ t.out = s.out
    ∧ t.quads.length = 16 ∧ ∀ q, q < 16 → (t.quad! q).decTed = decide ((rails.getD q (BitVec.allOnes 8)).toNat < s.dev.fuses.threshold.toNat))
  ∧ (∀ draw, 4000 ≤ draw → s.dev.throttle = false → exec (.throttleSet draw) s = .next { s with
      dev := { (sampled draw).dev with throttle := true }
      parts := s.parts.map fun p => { p with cnt := { p.cnt with throttleCnt := p.cnt.throttleCnt + 1 } } })
  ∧ (∀ draw, draw < 4000 ∨ s.dev.throttle = true → exec (.throttleSet draw) s = .next (sampled draw))
  ∧ (∀ draw, cool draw → exec (.throttleClear draw) s = .next { s with dev := { (sampled draw).dev with throttle := false } })
  ∧ (∀ draw, ¬cool draw → exec (.throttleClear draw) s = .next (sampled draw))
  ∧ (s.dev.ptpMode = 1 → exec .ptpPortLost s = .next { s with dev := { s.dev with ptpMode := 2 } })
  ∧ (∀ off, exec (.ptpResume off) s = .next { s with dev := { s.dev with ptpMode := 1, slew := off } })
  ∧ (∀ n, s.dev.tod + 2 * ((s.dev.sixths + 5 * n) / 6) < 2 ^ 64 → s.dev.tod ≤ (s.passTime n).dev.tod)

/-- R17, R22, R26, R64, R92, R111, R114: the device with its host, its power and its time. What DEVICE_RESET keeps is the model's choice (log 79), and
that a peer without a connection has no effect, and that what is due to it stays or is lost, its reading (logs 86, 118). -/
def Obligations.HostAndPower : Prop := Claim.HostTraffic ∧ Claim.PowerAndTime

/-! ## Class 6: service calls, traps, special registers and time -/

namespace Sys2Proof.Claim

/-- The numbers below 0x800 that registers hold (R17, R23, R25, R40, R46, R64, R81, R109, R132, R154, R171, R176, R181). -/
def assignedNumbers : List Nat :=
  [0x000, 0x001, 0x002, 0x003, 0x010, 0x011, 0x012, 0x013, 0x020, 0x021, 0x022, 0x023, 0x030, 0x100, 0x101, 0x102, 0x103, 0x104, 0x110, 0x111,
   0x120, 0x121, 0x122, 0x123, 0x124, 0x125, 0x130, 0x131, 0x132, 0x133, 0x140, 0x141, 0x142, 0x143, 0x150, 0x151, 0x152, 0x153, 0x160]
/-- The numbers whose write from a kernel has an effect (R342). -/
def writableNumbers : List Nat := [0x012, 0x020, 0x023, 0x102]
/-- `rdsr` of this register writes this value, in two slots. -/
def Reads (f : Fld) (n : Nat) (v : Ctx → Nat) : Prop := f.imm.toNat = n → Writes (.rdsr f) f (fun x _ => words2 (BitVec.ofNat 64 (v x)))
/-- A value of FMT with a reserved format or NRND code (R171). -/
def FmtReserved (v : DWord) : Prop := 5 < v.toNat % 16 ∨ 5 < v.toNat / 16 % 16 ∨ 5 < v.toNat / 256 % 16 ∨ 1 < v.toNat / 4096 % 4
/-- The value of a `wrsr`: the lowest active lane's pair, or its single slot with `.b32`. -/
def srValue (f : Fld) (x : Ctx) : DWord := x.val f.sa (if f.mod.getLsbD 0 then 1 else 2) (lowest x.act)
/-- The group is one of its partition's agent grid (R81). -/
def agents (s : State) (g : Group) : Prop := ∃ a, s.agent g.part = some a ∧ a.id = g.grid
/-- The split takes the new FMT; QSAT is bit 15 and the bits above are reserved (R171). -/
def fmtSet (s : State) (gid sid : Nat) (v : DWord) : State :=
  s.updGrp gid fun g => g.updSplit sid fun p => { p with fmt := BitVec.ofNat 32 (v.toNat % 2 ^ 16) }
/-- TPC takes a value only while TCAUSE.IN is set (R176). -/
def tpcSet (s : State) (gid : Nat) (v : DWord) : State := s.updGrp gid fun g => if g.trap.inH then { g with trap := { g.trap with tpc := v } } else g
/-- Each bit of FLAGERR written as 1 is cleared (R206). -/
def errCleared (s : State) (gid : Nat) (v : DWord) : State :=
  s.updGrp gid fun g => { g with flagErr := g.flagErr &&& ~~~ BitVec.ofNat 12 v.toNat }
/-- The ring's window is open, and the ring can hold n entries (R179, R346). -/
def RingTakes (p : Part) (n : Nat) : Prop := p.openWin p.regs.ringWin = true ∧ n ≤ 2 ^ p.regs.ringK
/-- L0.0 to L0.7 of every active lane (R340). -/
def arguments (x : Ctx) : List (Nat × List Word) := x.lanes.map fun l => (l, (List.range 8).map fun k => x.slot 0 k l)
/-- A request that has not reached the ring yet. -/
def request (x : Ctx) (code : Nat) (oid : Option Nat) : SvcReq :=
  { code := code, lanes := arguments x, q0 := 0, phase := 0, sid := x.p.sid, oid := oid, shift := x.g.fr.shift }
/-- Nothing but a kill or a park can follow a breakpoint of the group: it has no handler to run. -/
def NoHandler (x : Ctx) : Prop := x.s.handlerOf x.g = 0 ∧ x.g.trap.inH = false ∧ x.g.kind ≠ .reply ∧ x.g.mm.fault = none

end Sys2Proof.Claim

/-- R340, R341, R342, R343: a service call stops the group after its clause; `trap` and `brk` raise 0x41 and 0x42 with the immediate in
TADDR, and a `brk` without a handler carries the request of `svc` 0xFFFF; the registers that `rdsr` reads and `wrsr` writes, a write of FMT writing
QSAT too (the model's reading, log 60); the times, each core's count of cycles lying a free distance from the cycles since reset (log 102). -/
def Sys2Proof.Claim.SystemInstructions : Prop := ∀ f : Fld,
  let n := f.imm.toNat
  Does (.svc f) (fun x => RingTakes x.part x.lanes.length) (fun x =>
      let r := x.issueOp x.s f.dst .svc
      r.2.updGrp x.gid fun g => { (g.updSplit x.p.sid fun p => { p with wait := .svc }) with
        svc := some (request x n (some r.1))
        stop := some { why := .svc, sid := x.p.sid, code := 0, tlm := x.act, taddr := 0, tpc := x.c.next, clause := none } })
  ∧ TrapsWith (.svc f) (fun x => ¬RingTakes x.part x.lanes.length) 0x40 (fun x => x.act) (fun _ => 0)
  ∧ TrapsWith (.trap f) (fun _ => True) 0x41 (fun x => x.act) (fun _ => n)
  ∧ TrapsWith (.brk f) (fun x => ¬NoHandler x) 0x42 (fun x => x.act) (fun _ => n)
  ∧ TrapsWith (.brk f) (fun x => NoHandler x ∧ ¬RingTakes x.part x.lanes.length) 0x40 (fun x => x.act) (fun _ => 0)
  ∧ Goes (.brk f) (fun x => NoHandler x ∧ RingTakes x.part x.lanes.length) (fun x =>
      (x.s.updGrp x.gid fun g => { g with svc := some (request x 0xFFFF none) }).raiseTrap x.gid x.p.sid 0x42 x.act n x.p.pc (some x.c))
  ∧ Reads f 0x001 (fun x => x.g.core / 96) ∧ Reads f 0x002 (fun x => x.g.core / 24 % 4) ∧ Reads f 0x003 (fun x => x.g.park.toNat)
  ∧ Reads f 0x010 (fun x => x.g.trap.tlm.toNat) ∧ Reads f 0x011 (fun x => x.g.trap.code.toNat + if x.g.trap.inH then 256 else 0)
  ∧ Reads f 0x012 (fun x => x.g.trap.tpc.toNat) ∧ Reads f 0x013 (fun x => x.g.trap.taddr.toNat)
  ∧ Reads f 0x020 (fun x => x.p.fmt.toNat % 2 ^ 16) ∧ Reads f 0x021 (fun x => x.g.dead.toNat) ∧ Reads f 0x022 (fun x => x.g.wake.toNat)
  ∧ Reads f 0x023 (fun x => x.g.flagErr.toNat) ∧ Reads f 0x030 (fun x => (x.s.core! x.g.core).credit % 2 ^ 32)
  ∧ (f.imm.toNat = 0x100 → Writes (.rdsr f) f (fun x _ => words2 (BitVec.ofInt 64 x.part.avail)))
  ∧ Reads f 0x102 (fun _ => 0) ∧ Reads f 0x104 (fun x => x.part.pledged) ∧ Reads f 0x120 (fun x => x.part.cnt.leaseGrants.toNat)
  ∧ Reads f 0x133 (fun x => x.s.dev.logOverflow.toNat) ∧ Reads f 0x143 (fun x => x.part.jr.streams.length)
  ∧ (n ∈ assignedNumbers → ∃ v : Ctx → List Word, Writes (.rdsr f) f (fun x _ => v x))
  ∧ (n < 0x800 → n ∉ assignedNumbers → TrapsWith (.rdsr f) (fun _ => True) 0x03 (fun x => x.act) (fun _ => 0)
      ∧ TrapsWith (.wrsr f) (fun _ => True) 0x03 (fun x => x.act) (fun _ => 0))
  ∧ (0x800 ≤ n → TrapsWith (.rdsr f) (fun _ => True) 0x50 (fun x => x.act) (fun _ => 0)
      ∧ TrapsWith (.wrsr f) (fun _ => True) 0x50 (fun x => x.act) (fun _ => 0))
  ∧ (n = 0x012 → Does (.wrsr f) (fun _ => True) (fun x => tpcSet x.s x.gid (srValue f x)))
  ∧ (n = 0x020 → Does (.wrsr f) (fun x => ¬FmtReserved (srValue f x)) (fun x => fmtSet x.s x.gid x.p.sid (srValue f x))
      ∧ TrapsWith (.wrsr f) (fun x => FmtReserved (srValue f x)) 0x03 (fun x => x.act) (fun _ => 0))
  ∧ (n = 0x023 → Does (.wrsr f) (fun _ => True) (fun x => errCleared x.s x.gid (srValue f x)))
  ∧ (n = 0x102 → Does (.wrsr f) (fun x => agents x.s x.g) (fun x => x.s.balloonAck x.g.part ((srValue f x).toNat % 2 ^ 32))
      ∧ TrapsWith (.wrsr f) (fun x => ¬agents x.s x.g) 0x50 (fun x => x.act) (fun _ => 0))
  ∧ (n ∈ assignedNumbers → n ∉ writableNumbers → Does (.wrsr f) (fun _ => True) (fun x => x.s))
  ∧ Writes (.timeTod f) f (fun x _ => words2 (BitVec.ofNat 64 x.s.dev.tod))
  ∧ Writes (.timeCyc f) f (fun x _ => words2 (BitVec.ofNat 64 (x.s.dev.cycles + Config.coreCycles x.g.core)))

/-- R342, R81, R171, R176, R206, R108, R154: what a write of each special register does. -/
def Sys2Proof.Claim.RegisterWrites : Prop := ∀ (s : State) (v : DWord),
  (∀ gid g, s.grp? gid = some g →
    (agents s g → exec (.balloonAckWrite gid v) s = .next (s.balloonAck g.part (v.toNat % 2 ^ 32)))
    ∧ (¬agents s g → exec (.balloonAckWrite gid v) s = .next s)
    ∧ (∀ sid p, g.split? sid = some p →
      (¬FmtReserved v → exec (.fmtWrite gid sid v) s = .next (fmtSet s gid sid v))
      ∧ (FmtReserved v → exec (.fmtWrite gid sid v) s = .next (s.raiseTrap gid sid 0x03 (p.mask &&& ~~~ g.dead) 0 p.pc p.clause))))
  ∧ (∀ gid, exec (.flagerrWrite gid v) s = .next (errCleared s gid v) ∧ exec (.tpcWrite gid v) s = .next (tpcSet s gid v))
  ∧ (∀ part n, n < 0x800 → exec (.registerWrite part n v) s = .next s)
  ∧ (∀ part, exec (.registerWrite part 0x900 v) s = .next { s with dev := { s.dev with ptpPort := BitVec.ofNat 3 (v.toNat / 4) } })
  ∧ (∀ part p, s.part? part = some p → ∃ regs : Nat → CtlRegs,
      (∀ n, n ≠ 0x803 → 0x800 ≤ n → n ≤ 0x809 → exec (.registerWrite part n v) s = .next (s.updPart part fun p => { p with regs := regs n }))
      ∧ exec (.registerWrite part 0x803 v) s = .next ((s.updPart part fun p => { p with regs := { p.regs with floor := v.toNat } }).settlePressure part)
      ∧ regs 0x800 = p.regs
      ∧ (16 ≤ v.toNat % 64 → v.toNat % 64 ≤ 32 →
          65536 * (s.pages.filter fun g => decide (g.part = part) && g.hw.isNone && !g.own).length ≤ v.toNat % 64 * p.quads.length * 3000000000 →
          regs 0x801 = { p.regs with ratio := v.toNat % 64 })
      ∧ (v.toNat % 64 < 16 ∨ 32 < v.toNat % 64 → regs 0x801 = p.regs)
      ∧ (regs 0x802 = { p.regs with chunk := (regs 0x802).chunk } ∧ (regs 0x802).chunk % 8 = 0 ∧ 8 ≤ (regs 0x802).chunk ∧ (regs 0x802).chunk ≤ 4096
        ∧ (v.toNat % 8192 % 8 = 0 → 8 ≤ v.toNat % 8192 → v.toNat % 8192 ≤ 4096 → (regs 0x802).chunk = v.toNat % 8192))
      ∧ (165 * p.quads.length ≤ v.toNat % 65536 → v.toNat % 65536 ≤ 250 * p.quads.length → regs 0x804 = { p.regs with pwrCap := v.toNat % 65536 })
      ∧ 165 * p.quads.length ≤ (regs 0x804).pwrCap ∧ (regs 0x804).pwrCap ≤ 250 * p.quads.length
      ∧ (∀ a b i, a < 4 → b < 4 → i < 2 → (regs 0x805).detour.getLsbD (2 * (4 * a + b) + i) = (decide (a ≠ b) && v.getLsbD (2 * (4 * a + b) + i)))
      ∧ regs 0x806 = { p.regs with balloonTimeout := v.toNat % 2 ^ 32 } ∧ regs 0x807 = { p.regs with watchdog := v.toNat % 2 ^ 32 }
      ∧ (4 ≤ v.toNat / 256 % 16 → v.toNat / 256 % 16 ≤ 12 → regs 0x808 = { p.regs with ringK := v.toNat / 256 % 16, ringWin := v.toNat % 256 })
      ∧ (v.toNat / 256 % 16 < 4 ∨ 12 < v.toNat / 256 % 16 → regs 0x808 = p.regs)
      ∧ regs 0x809 = { p.regs with rmaKey := v })

/-- R81, R108, R154, R171, R176, R206, R340 to R343: system instructions and special registers. That `wrsr` of FMT writes QSAT too is the model's reading
(log 60); a core's cycle count is free (log 102). -/
def Obligations.SystemAndRegisters : Prop := Claim.SystemInstructions ∧ Claim.RegisterWrites

/-! ## Events: leases and the fabric -/

namespace Sys2Proof.Claim

/-- The port by which a packet leaves its crossbar, and the one on which it came in. -/
def outPort (p : Packet) : Nat := p.word.toNat / 2 ^ (3 * p.hop + 3) % 8
def inPort (p : Packet) : Nat := match p.loc with | .localX _ i => i | .central _ i => i | _ => 0
/-- The quadrant whose local crossbar, or the die whose central crossbar, the packet stands at. -/
def atLocal (p : Packet) (q : Nat) : Prop := ∃ i, p.loc = .localX q i
def atCentral (p : Packet) (d : Nat) : Prop := ∃ i, p.loc = .central d i
/-- The out port ends at a cluster, or at another endpoint (R28, R29). -/
def toCluster (p : Packet) : Prop := (∃ q, atLocal p q) ∧ outPort p < 6
def toEnd (p : Packet) : Prop := toCluster p ∨ ((∃ q, atLocal p q) ∧ outPort p = 6) ∨ ((∃ d, atCentral p d) ∧ outPort p = 7)
/-- The checks of R34, by status. -/
def HopFails (s : State) (p : Packet) (status : Nat) : Prop :=
  let last : Prop := p.hop + 1 = p.word.toNat % 8
  (status = 1 ∧ ((∃ q, atLocal p q ∧ (s.localMask q).testBit (outPort p) = false) ∨ (∃ d, atCentral p d ∧ (s.centralMask d).testBit (outPort p) = false)))
  ∨ (status = 2 ∧ outPort p = inPort p ∧ ¬toCluster p)
  ∨ (status = 3 ∧ ∃ d, atCentral p d ∧ outPort p < 4 ∧ ∀ o, s.ownerOf (4 * d + outPort p) = some o → o.id ≠ p.part)
  ∨ (status = 4 ∧ last ∧ ¬toEnd p)
  ∨ (status = 5 ∧ p.hop + 1 < p.word.toNat % 8 ∧ toEnd p)
  ∨ (status = 6 ∧ toEnd p ∧ (p.word.getLsbD 27 = true ↔ toCluster p))
  ∨ (status = 7 ∧ toCluster p ∧ p.word.getLsbD 27 = false ∧ ∃ q, atLocal p q ∧ s.present (24 * q + 4 * outPort p + p.word.toNat / 2 ^ 25 % 4) = false)
/-- What a reply's route word holds (R33, R35): the first `hop` fields of the word, as rotated so far, in reverse order; that many hops;
CLASS 1; and the CORE and EP bits of the word. -/
def ReturnWord (p : Packet) (w : Word) : Prop := ∀ i, i < 32 → w.getLsbD i =
  if i < 3 then p.hop.testBit i
  else if i < 3 * p.hop + 3 then p.word.getLsbD (3 * (p.hop - i / 3) + 3 + i % 3)
  else decide (i = 24) || (decide (25 ≤ i) && decide (i ≤ 27) && p.word.getLsbD i)
/-- The packet in its place among those in flight. -/
def inPlace (s : State) (q : Packet) : State := { s with packets := s.packets.map fun r => if r.pid = q.pid then q else r }
/-- A packet leaves, and its lane has its status. -/
def answered (s : State) (p : Packet) (status : Nat) : State := (s.dropPacket p.pid).msgLane p.oid p.lane status
/-- The packets that join a handler group: of the oldest one's grid and handler, up to 32 (R43). -/
def together (p0 : Packet) (buf : List Packet) : List Packet :=
  (buf.filter fun p => decide (p.grid = p0.grid) && decide (p.hid = p0.hid)).take 32
def numbered (ps : List Packet) : List (Nat × Packet) := (List.range ps.length).zip ps
def leftOver (p0 : Packet) (buf : List Packet) : List Packet := buf.filter fun p => !((together p0 buf).any fun q => decide (q.pid = p.pid))
/-- The group that they form, its lanes' packets in order: no block, no group frame, no block or cluster frame (R43, R44). -/
def handlers (s : State) (core : Nat) (k : GKind) (gr : Grid) (p0 : Packet) (buf : List Packet) (slots base : Nat) (park : Word) : Group :=
  let ps := together p0 buf
  let g := Group.make s.nextId gr.id gr.part core k 0 0xFFFFFFFF 0 (s.parkId gr.part park) s.nextId
    { lslots := slots, gslots := 0, lbase := base, gbase := 0, d2 := 0, d3 := 0, shift := 0 } (maskOf ((numbered ps).map (·.1))) (s.handlerEntry gr core p0.hid)
  { g with mm := { g.mm with gc := ps.foldl (fun c p => c.join p.gc) VClock.zero, fresh := true } }
/-- The group starts with R44's words in L0.0 to L0.23. -/
def begun (s t : State) (core : Nat) (g : Group) (p0 : Packet) (buf : List Packet) : State :=
  (t.addGroup g).pokeStore core ((numbered (together p0 buf)).flatMap fun e => laneCells g 0 e.1
    (e.2.payload ++ List.replicate (16 - e.2.payload.length) (0 : Word)
      ++ [e.2.word, BitVec.ofNat 32 (match s.part? e.2.part with | some q => s.lcoreOf q e.2.core | none => 0), BitVec.ofNat 32 e.2.payload.length, 0, 0, 0, 0, 0]))

end Sys2Proof.Claim

/-- R20, R21, R25: a governor grants the request at the head of its queue as soon as its weight fits the budget, and counts it; an operation
gives up its lease at the end of its 10 µs and asks again at the tail. -/
def Sys2Proof.Claim.Leases : Prop := ∀ (s : State) (q : Nat),
  (∀ r rest p, (s.quad! q).leaseQ = r :: rest → s.ownerOf q = some p →
    let budget := if s.dev.throttle then 15 else p.regs.pwrCap / p.quads.length - 150
    let sum := ((s.quad! q).leases.map Lease.weight).sum + r.weight
    let waited := s.dev.up - r.at_
    (budget < sum → exec (.leaseGrant q) s = .next s)
    ∧ (sum ≤ budget → exec (.leaseGrant q) s = .next (((s.updQuad q fun k => { k with
        leaseQ := rest, leases := k.leases ++ [{ jid := r.jid, weight := r.weight, since := s.dev.up }] }).updJob r.jid fun j =>
          { j with wants := j.wants.filter fun k => decide (k ≠ q) }).updPart p.id fun p => { p with cnt := { p.cnt with
            leaseGrants := p.cnt.leaseGrants + 1, leaseWait := p.cnt.leaseWait + BitVec.ofNat 64 waited
            leaseLong := p.cnt.leaseLong + if 10000 < waited then 1 else 0 } })))
  ∧ (∀ jid l j, (s.quad! q).leases.find? (fun l => decide (l.jid = jid)) = some l → s.job? jid = some j →
    (s.dev.up < l.since + 10000 → exec (.leaseIntervalEnd q jid) s = .next s)
    ∧ (l.since + 10000 ≤ s.dev.up → exec (.leaseIntervalEnd q jid) s = .next ((s.updQuad q fun k => { k with
        leases := k.leases.filter fun l => decide (l.jid ≠ jid)
        leaseQ := k.leaseQ ++ [{ jid := jid, part := j.part, weight := l.weight, at_ := s.dev.up }] }).updJob jid fun j => { j with wants := q :: j.wants })))

/-- R32 to R36, R42, R43: a packet at a crossbar becomes a reply for the first check that fails, which leaves by the port the packet came on,
or rotates its word and goes on, as a reply does unchecked; at an endpoint a reply gives its lane its status; at its core a packet is dropped
with 10 when its grid has ended and with 9 when it has no handler, waits for a buffer of its class, and then gets status 0. One sent earlier
by its core on the same route holds it back. That no check stops a reply is the model's reading (log 96), and so is that an entry that cannot be read, or
is poisoned, counts as 0 (log 63). -/
def Sys2Proof.Claim.Packets : Prop := ∀ (s : State) (p : Packet), s.packets.find? (fun q => decide (q.pid = p.pid)) = some p →
  let crossbar : Prop := (∃ q, atLocal p q) ∨ (∃ d, atCentral p d)
  let rotates : Prop := ∃ w : Word,
    (∀ i, w.getLsbD i = if 3 * p.hop + 3 ≤ i ∧ i < 3 * p.hop + 6 then (inPort p).testBit (i - (3 * p.hop + 3)) && decide (i < 32) else p.word.getLsbD i)
    ∧ exec (.crossbarHop p.pid) s = .next (inPlace s { p with word := w, hop := p.hop + 1, loc := p.loc.next (outPort p) })
  (p.first s = false ↔ p.fault = none ∧ ∃ q ∈ s.packets.takeWhile (fun q => decide (q.pid ≠ p.pid)),
      q.fault = none ∧ q.core = p.core ∧ q.orig = p.orig ∧ q.hop ≤ p.hop)
  ∧ (p.first s = false → exec (.packetArrival p.pid) s = .next s ∧ (crossbar → exec (.crossbarHop p.pid) s = .next s))
  ∧ (p.first s = true →
    (crossbar → (p.fault ≠ none ∨ ∀ k, ¬HopFails s p k) → rotates)
    ∧ (crossbar → p.fault = none → p.hop < 8 → ∀ k, HopFails s p k → (∀ i, i < k → ¬HopFails s p i) → ∃ w, ReturnWord p w
        ∧ exec (.crossbarHop p.pid) s = .next (inPlace s { p with fault := some (k, p.hop), word := w, hop := 0, loc := p.loc.next (inPort p) }))
    ∧ (∀ k i, p.fault = some (k, i) → ¬crossbar → exec (.packetArrival p.pid) s = .next (answered s p k))
    ∧ (p.fault = none → p.loc = .complexEnd → exec (.packetArrival p.pid) s = .next (answered s p 9))
    ∧ (∀ q c, p.fault = none → p.loc = .splitter q c →
      let core := 24 * q + 4 * c + p.word.toNat / 2 ^ 25 % 4
      let request : Prop := p.orig.getLsbD 24 = false
      (s.grid? p.grid = none ∨ (∃ g, s.grid? p.grid = some g ∧ g.ended = true) → exec (.packetArrival p.pid) s = .next (answered s p 10))
      ∧ (∀ g, s.grid? p.grid = some g → g.ended = false → let u := s.handlerFill g core p.hid
        (u.handlerEntry g core p.hid = 0 → exec (.packetArrival p.pid) s = .next (answered u p 9))
        ∧ (u.handlerEntry g core p.hid ≠ 0 → (request → 64 ≤ (u.core! core).bufReq.length) → (¬request → 64 ≤ (u.core! core).bufRep.length) →
            exec (.packetArrival p.pid) s = .next u)
        ∧ (u.handlerEntry g core p.hid ≠ 0 → g.kill = none → ∃ w : Word,
            (∀ i, w.getLsbD i = if i = 27 then false else if i = 25 ∨ i = 26 then (p.core % 4).testBit (i - 25) else p.word.getLsbD i)
            ∧ (request → (u.core! core).bufReq.length < 64 → exec (.packetArrival p.pid) s = .next ((answered u p 0).updCore core fun k =>
                { k with bufReq := k.bufReq ++ [{ p with word := w }] }))
            ∧ (¬request → (u.core! core).bufRep.length < 64 → exec (.packetArrival p.pid) s = .next ((answered u p 0).updCore core fun k =>
                { k with bufRep := k.bufRep ++ [{ p with word := w }] }))))))

/-- R43, R44, R38: the oldest packet of a class and up to 31 of its grid and handler form a handler group, when a slot and a lane frame are
free, or the reply context. Its address is read from the table as it forms (the model's choice, log 97), its mem-block expanded first (R73), and the
reply context's frame lies at offset 0 (log 9). -/
def Sys2Proof.Claim.HandlerGroups : Prop := ∀ (s : State) (core base : Nat) (park : Word) (p0 : Packet) (ps : List Packet) (gr : Grid),
  s.grid? p0.grid = some gr → gr.ended = false → let u := s.handlerFill gr core p0.hid
  (∀ q a, s.part? gr.part = some q → s.locate q core (gr.card.msgtab + 8 * p0.hid) = .mem a → u = s.expandAt gr.part a 8)
  ∧ ((s.core! core).bufReq = p0 :: ps → ∀ b, let slots := max gr.card.lslots 24
    let g := handlers u core .request gr p0 (p0 :: ps) slots b park
    u.slotsUsed core < 48 → u.findStore core (roundUp (128 * slots) 1024) base = some b →
    exec (.handlerGroupForm core 0 base park) s = .next ((begun u
      (({ u with nextId := u.nextId + 1 } : State).takeRun core b (roundUp (128 * slots) 1024) (128 * slots) (.lane u.nextId) gr.id 0xFFFFFFFF)
      core g p0 (p0 :: ps)).updCore core fun k => { k with bufReq := leftOver p0 (p0 :: ps) }))
  ∧ ((s.core! core).bufRep = p0 :: ps →
    let g := handlers u core .reply gr p0 (p0 :: ps) 24 0 park
    (∀ x ∈ u.groups, ¬(x.core = core ∧ x.kind = .reply)) →
    exec (.handlerGroupForm core 1 base park) s = .next ((begun u
      (({ u with nextId := u.nextId + 1 } : State).updCore core fun k => { k with
        store := k.store.clear 0 3072
        regions := k.regions.map fun q => if q.kind = .reply then { q with grid := gr.id } else q })
      core g p0 (p0 :: ps)).updCore core fun k => { k with bufRep := leftOver p0 (p0 :: ps) }))

/-- R41, R49, R110: a link that fails answers with 8 packets that stand just beyond it, a free set of them, and is logged; it, or one at reduced width,
has its new health in both directions (the model's reading, log 65), and no other link changes. Nothing else in flight changes: DETOUR is rewritten,
and what the link caught goes out again, once the new map is written (O41). -/
def Sys2Proof.Claim.LinkFaults : Prop := ∀ (s : State) (a b : Nat), a < 4 → b < 4 → a ≠ b →
  (s.linkHealth a b ≠ 0 → ∃ lost : List Packet,
    (∀ p ∈ lost, p ∈ s.packets ∧ p.fault = none ∧ ∃ d i, p.loc = .central d i ∧ 4 ≤ i ∧ i ≤ 6 ∧ ((d = b ∧ (b + i - 3) % 4 = a) ∨ (d = a ∧ (a + i - 3) % 4 = b)))
    ∧ exec (.linkDown a b) s = .next (((lost.foldl (fun s p => answered s p 8) { s with free := s.free + 1 }).logError 5 a 0 0 0xFFFF
        ((b + 4 - a) % 4 + 3) (s.parts.map Part.id)).setLink a b 0))
  ∧ (s.linkHealth a b = 1 → exec (.linkDegraded a b) s = .next (s.setLink a b 2))
  ∧ (∀ v, s.dev.links.length = 16 → ∀ c d, c < 4 → d < 4 →
      (s.setLink a b v).linkHealth c d = if (c = a ∧ d = b) ∨ (c = b ∧ d = a) then v else s.linkHealth c d)

/-- R32 to R35, R38, R41 to R44, R49, R110: packets, the groups that handle them, and links that fail. When a table entry is read is the model's choice (log 97);
that a reply frame opens at offset 0 (log 9), that one that cannot be read counts as 0 (log 63), and which packets a failing link loses in which
directions (log 65), its reading. -/
def Obligations.Fabric : Prop := Claim.Packets ∧ Claim.HandlerGroups ∧ Claim.LinkFaults

/-! ## Events: memory and capacity -/

namespace Sys2Proof.Claim

/-- A write that leaves the writes in flight. -/
def without (s : State) (wid : Nat) : State := { s with writes := s.writes.filter fun v => decide (v.wid ≠ wid) }
/-- Another write of the same instruction, or of any, stands before this one in flight and meets the test. -/
def before (s : State) (w : Write) (p : Write → Prop) : Prop := ∃ v ∈ s.writes.takeWhile (fun v => decide (v.wid ≠ w.wid)), p v
/-- The lanes of its instruction whose writes fault now. -/
def faultLanes (s : State) (w : Write) : Mask :=
  maskOf ((s.writes.filter fun v => decide (v.gid = w.gid) && decide (v.seq = w.seq) && (s.writeFault v).isSome).map Write.lane)
/-- The pages that the group has reported hold this one already. -/
def reported (g : Group) (va : Nat) : Prop := va / 65536 ∈ g.mm.pages
/-- A line's slot in a die's replica takes what the home holds of it. -/
def taken (got : View) (va : Nat) (v : View) : View :=
  { mem := Mem.writeCells (v.clear va 128).mem got.mem, marks := got.marks ++ (v.clear va 128).marks }
/-- The bytes of a performed write whose lines the die has a replica of. -/
def replicated (a : Apply) (p : Part) : List Host.Cell := a.bytes.filter fun c => decide ((a.die, c.1 / 128) ∈ p.replicas)
/-- The lanes of a load on its way that read in this line. -/
def lineLanes (o : Op) (line : Nat) : List Nat :=
  match o.kind with
  | .load ls .. => (ls.filter fun l => decide (l.2 / 128 = line)).map (·.1)
  | _ => []
/-- A write is held for replay behind those that are (R57). -/
def heldBack (s : State) (w : Write) : State := s.updGrp w.gid fun g => { g with mm := { g.mm with replay := g.mm.replay ++ [w] } }

end Sys2Proof.Claim

/-- R275, R278, R356, R57, R41, R49, R62, R276: a write reaches its home when nothing of its group that comes first holds it back, or, where a free bit
says so, early as a release of a narrow scope, and then readers within the scope wait for what it did not, as they do for a write behind a fence that
went early (the model's reading, log 12); every other die has it still to apply, whatever the partition uses (log 31). With the even epoch of a map
update DETOUR is rewritten, and what a failed link has caught goes out again (the model's reading, log 66). A write ends with error without a path, and
is held for replay when it faults, but for a protection fault with nothing held, which discards it; the first report raises PAGE_FAULT in its own step
and names the lanes of the instruction that fault then (the model's choice, log 92), and what the group's stop waits for is its reading (log 42). A
performed write raises its die's clock and stamps its bytes; a die applies writes, and the poison that they set or clear, in vector order and takes a
replica once its AV covers the line. -/
def Obligations.WritesAtHome : Prop := ∀ s : State,
  (∀ w : Write, s.writes.find? (fun v => decide (v.wid = w.wid)) = some w →
    (s.mayPerform w = false ∨ s.writeLost w = true → exec (.storeFaultReport w.wid) s = .next s)
    ∧ (s.mayPerform w = false → s.mayEarly w = false ∨ s.writeLost w = true ∨ s.writeFault w ≠ none → exec (.storeAccept w.wid) s = .next s)
    ∧ (s.mayPerform w = false → s.mayEarly w = true → s.writeLost w = false → s.writeFault w = none →
        exec (.storeAccept w.wid) s = .next (if Config.freeBit s.free 0
          then ((({ without s w.wid with free := s.free + 1 } : State).goEarly w).acceptWrite w).after w.gid else { s with free := s.free + 1 }))
    ∧ (s.mayEarly w = true → w.rel = true ∧ w.scope < 4)
    ∧ (s.mayPerform w = true → s.writeLost w = true →
        exec (.storeAccept w.wid) s = .next (((without s w.wid).discard true [w]).after w.gid))
    ∧ (s.mayPerform w = true → s.writeLost w = false → s.writeFault w = none →
        exec (.storeAccept w.wid) s = .next ((((without s w.wid).acceptWrite w).rewriteDetour w).after w.gid))
    ∧ (∀ (t : State) p, t.part? w.part = some p →
      let even : Prop := w.gid = 0 ∧ ∃ c ∈ w.bytes, c.1 = p.topoVa + 28 ∧ c.2.toNat % 2 = 0
      (¬even → t.rewriteDetour w = t)
      ∧ (even → t.rewriteDetour w = (t.updPart w.part fun p => { p with regs := { p.regs with detour := t.detour } }).redoInFlight w.part))
    ∧ (let fences := s.early.filter fun e => decide (e.part = w.part) && decide (e.gid = w.gid) && e.after.any fun q => decide (q ≤ w.seq)
      (s.passFences w).1 = { w with gc := fences.foldl (fun c e => c.join e.clk) w.gc }
      ∧ (s.passFences w).2 = { s with early := s.early ++ (fences.filter s.earlyOpen).map fun e => { e with addrs := w.bytes.map (·.1), after := none } })
    ∧ (∀ why g, s.mayPerform w = true → s.writeLost w = false → s.writeFault w = some why → s.grp? w.gid = some g →
        ¬before s w (fun v => v.gid = w.gid ∧ v.addr < 2 ^ 48 ∧ v.addr / 65536 = w.addr / 65536) → s.evRoom w.part 1 = true →
        (why = none → exec (.storeFaultReport w.wid) s = .next (heldBack (without s w.wid) w))
        ∧ (why = some 0x10 → ∃ t, t = (heldBack (without s w.wid) w).firstFault w.gid 0x10 (faultLanes s w) w.addr
            ∧ exec (.storeFaultReport w.wid) s = .next ((t.reportPage w.gid w.addr (faultLanes s w) true).stopAtBoundary w.gid))
        ∧ (why = some 0x11 → g.mm.replay = [] → exec (.storeFaultReport w.wid) s = .next
            ((((without s w.wid).discard false [w]).protFault w.gid (faultLanes s w) w.addr).stopAtBoundary w.gid))
        ∧ (why = some 0x11 → g.mm.replay ≠ [] → exec (.storeFaultReport w.wid) s = .next
            (((heldBack (without s w.wid) w).firstFault w.gid 0x11 (faultLanes s w) w.addr).stopAtBoundary w.gid))))
  ∧ (∀ (p : Part) (wid src : Nat) (gc : VClock) (a : Nat) (b : Byte) (cs : List Host.Cell), s.part? p.id = some p → (((a, b) :: cs).map Prod.fst).Nodup →
      homeDie p a < s.dev.dies.length → homeDie p a < p.views.length → (p.views.getD (homeDie p a) View.empty).wf = true →
      let d := homeDie p a
      let k := (s.die! d).clock
      let r := s.performMem p.id wid src gc ((a, b) :: cs)
      r.1 = (k.set d (k.get d + 1)).join gc ∧ (r.2.die! d).clock = r.1
      ∧ (∀ c ∈ (a, b) :: cs, ∃ q, r.2.part? p.id = some q ∧ (q.views.getD d View.empty).read c.1 = c.2)
      ∧ (∀ v, (∀ c ∈ (a, b) :: cs, v ≠ c.1) → ∃ q, r.2.part? p.id = some q
          ∧ ∀ e, (q.views.getD e View.empty).read v = (p.views.getD e View.empty).read v)
      ∧ r.2.applies = s.applies ++ ([0, 1, 2, 3].filter fun e => decide (e ≠ d)).map fun e => Apply.mk p.id e d wid src r.1 ((a, b) :: cs) [])
  ∧ (∀ k a, s.applies[k]? = some a →
      let later : Prop := ∃ b ∈ s.applies, b.die = a.die ∧ b.stamp.lt a.stamp = true
      (later → exec (.replicaApply k) s = .next s)
      ∧ (¬later → ∃ here : Part → Prop, (∀ p, here p ↔ ∃ c ∈ a.bytes, (a.die, c.1 / 128) ∈ p.replicas) ∧ ∃ f : Part → Part,
          (∀ p, ((f p).views = p.views ∧ ¬here p ∨ (f p).views = p.views.modify a.die (fun v => v.writeBy (replicated a p) a.wid a.stamp) ∧ here p)
            ∧ f p = { p with views := (f p).views, repPoison := (f p).repPoison }
            ∧ ∀ d k, ((d, k) ∈ (f p).repPoison ↔ if d = a.die ∧ (d, k / 4) ∈ p.replicas ∧ (∃ b, (k, b) ∈ a.poison)
                then (k, true) ∈ a.poison else (d, k) ∈ p.repPoison))
          ∧ exec (.replicaApply k) s = .next ((({ s with applies := s.applies.eraseIdx k } : State).updDie a.die fun v =>
              { v with av := v.av.set a.home (max (v.av.get a.home) (a.stamp.get a.home)) }).updPart a.part f).settleAcks.settleBarriers))
  ∧ (∀ p pg die line, s.part? p.id = some p → let t := s.expandAt p.id (128 * line) 128
      t.xlat p.id (128 * line) = .mem pg →
      let home := p.views.getD (homeDie p (128 * line)) View.empty
      let may : Prop := die < 4 ∧ homeDie p (128 * line) ≠ die ∧ (die, line) ∉ p.replicas ∧ (home.stampN (128 * line) 128).le (t.die! die).av = true
        ∧ t.fillOpen p die line = true
      (¬may → exec (.replicaFill p.id die line) s = .next t)
      ∧ (may → exec (.replicaFill p.id die line) s = .next (t.updPart p.id fun p =>
          { p with replicas := (die, line) :: p.replicas, views := p.views.modify die (taken (home.slice (128 * line) 128) (128 * line))
                   repPoison := ((p.poison.filter fun k => decide (k / 4 = line)).map fun k => (die, k))
                     ++ p.repPoison.filter fun e => !(decide (e.1 = die) && decide (e.2 / 4 = line)) }))
      ∧ (∀ u : State, u.fillOpen p die line = true ↔ u.reach p p.regs.detour none die (homeDie p (128 * line)) = true ∨ ∃ g ∈ u.groups, g.part = p.id
          ∧ dieOf g.core = die ∧ ∃ o ∈ g.ops, ∃ l ∈ lineLanes o line, u.reach p (o.detourOf l) (assoc l o.redo) die (homeDie p (128 * line)) = true))

/-- R83, R84, R85, R86, R89: what a pledge settles to at its home; a refill is granted from A or denied; a refund lifts CREDIT, and what the
instructions that can now issue leave of it goes back down to one chunk when it is above two; whom a denial reaches is the model's reading (log 91); an
agent's silence delivers every parked capacity fault,
and ends each copy node whose own denial has waited that long (R332; log 55, the model's reading). -/
def Obligations.CapacitySteps : Prop := ∀ s : State,
  (∀ part core mb n pg, s.page? part (mb / 128) = some pg → pg.vpn = mb / 128 →
    let dirty : Prop := ∃ e ∈ pg.dirty, e.1 = mb % 128
    let raw : Prop := pg.cls ≠ 0 ∨ pg.count (mb % 128) = 8
    let kept (k : Nat) : State := s.updPage part (mb / 128) fun q => { q with dirty := (mb % 128, k) :: q.dirty }
    (dirty ∨ pg.hw ≠ none → s.settlePledge part core mb n = s.refundTo core part n)
    ∧ (pg.hw = none → raw → ¬dirty → s.settlePledge part core mb n = (kept 0).refundTo core part n)
    ∧ (pg.hw = none → ¬raw → ¬dirty → ∃ c, c = min (pg.count (mb % 128)) n ∧ s.settlePledge part core mb n = (kept (n - c)).refundTo core part c))
  ∧ (∀ core g p, (s.core! core).refill = some g → s.ownerOf (core / 24) = some p →
    let paid : State := s.updCore core fun k => { k with refill := none }
    ((g : Int) ≤ p.avail → exec (.creditRefill core) s = .next ((paid.updCore core fun k => { k with credit := k.credit + g }).addP p.id g 0))
    ∧ (p.avail < g → exec (.creditRefill core) s = .next (paid.denyRefill core g)))
  ∧ (∀ k r p, s.refunds[k]? = some r → s.part? r.part = some p →
    let paid : State := { s with refunds := s.refunds.eraseIdx k }
    let c := (s.core! r.core).credit + r.cells
    let issuing := coveredNeed (s.core! r.core).waiters c
    let home : Prop := r.core < 384 ∧ r.core / 24 ∈ p.quads
    let up : State := paid.updCore r.core fun k => { k with credit := k.credit + r.cells }
    (¬home → exec (.refund k) s = .next (paid.addP r.part 0 r.cells))
    ∧ (home → r.core < s.cores.length → 2 * p.regs.chunk < c - issuing →
        exec (.refund k) s = .next ((up.updCore r.core fun k => { k with credit := k.credit - (c - issuing - p.regs.chunk) }).addP r.part 0
          (c - issuing - p.regs.chunk)))
    ∧ (home → r.core < s.cores.length → c - issuing ≤ 2 * p.regs.chunk → exec (.refund k) s = .next up))
  ∧ (∀ p, s.part? p.id = some p →
    let due : Prop := p.press.hard = true ∧ p.press.since + 1000 * p.regs.balloonTimeout ≤ s.dev.up
    let late (n : Node) : Bool := decide (n.part = p.id) && n.cap.any fun c => decide (c.since + 1000 * p.regs.balloonTimeout ≤ s.dev.up)
    (¬due → exec (.balloonTimeout p.id) s = .next (({ s with
      nodes := s.nodes.map fun n => if late n = true then { n with cap := none, started := true, result := some 10 } else n } : State).settlePressure p.id))
    ∧ (due → exec (.balloonTimeout p.id) s = .next (s.deliverCapacity p.id)))

namespace Sys2Proof.Claim

/-- The quadrant and die of a page's home. -/
def quadPage (p : Part) (vpn : Nat) : Nat := homeQuad p (65536 * vpn)
/-- A mem-block's bytes as its home holds them. -/
def blockBytes (p : Part) (vpn mb : Nat) : List Byte := (p.views.getD (homeDie p (65536 * vpn)) View.empty).readN (65536 * vpn + 512 * mb) 512
/-- COUNT of a mem-block in a table, 15 counting as 0 (R83). -/
def inTable (pg : Page) (mb : Nat) : Nat := match assoc mb pg.table with | some (15, _) => 0 | some (c, _) => c | none => 0
/-- Where a mem-block lies, or 0. -/
def offset (pg : Page) (mb : Nat) : Nat := match assoc mb pg.table with | some (_, o) => o | none => 0
/-- The page as its first writeback prepares it (R61). -/
def prepared (p : Part) (pg : Page) (ext : Nat) : Page :=
  if pg.cl then ({ pg with extent := ext, cap := 16, hwm := 4, cl := false } : Page).setTable p (quadPage p pg.vpn) [] else pg

end Sys2Proof.Claim

/-- R61, R75, R76, R79, R78: a writeback of a raw page stores its cells in place; of a coded page in place when it does not grow, else at the tail
while there is room, and F changes by the growth. Past its capacity the page is relaid in an extent of its cells with 8 to spare, rounded up to 16, or,
when they are more than 1,024, is converted to raw; without physical room the writeback waits and raises hard pressure, at every try (the model's
choice, log 112); it waits, too, while a write whose pledge has arrived is on its way (the model's reading, log 88). Compaction relays the page with the most slack when the stack is short, unless a move
holds it or no room is found (the model's reading, log 43); a lost relayout leaves COUNT 15 everywhere. R74: a table's DRAM copy is its 128 entries, COUNT above OFFSET. -/
def Sys2Proof.Claim.PagesInDram : Prop := ∀ (s : State) (p : Part) (pg : Page) (vpn base : Nat), s.part? p.id = some p → s.page? p.id vpn = some pg →
  (∀ mb, (∀ e ∈ pg.dirty, e.1 ≠ mb) ∨ s.arriving p.id (128 * vpn + mb) = true → exec (.writeback p.id vpn mb base) s = .next s)
  ∧ (∀ mb, (∃ e ∈ pg.dirty, e.1 = mb) → s.arriving p.id (128 * vpn + mb) = false →
    (pg.cls ≠ 0 → exec (.writeback p.id vpn mb base) s = .next ((s.updPage p.id vpn fun q => { q with
        cl := false
        cells := putCells q.cells (sealAt (p.keyOf q) (quadPage p vpn) q.extent 8 (blockBytes p vpn mb) (8 * mb)) }).settleBack p.id vpn mb 0))
    ∧ (∀ ext, pg.cls = 0 → (pg.cl = false → ext = pg.extent) → (pg.cl = true → s.place (quadPage p vpn) 16 base (65536, 0) = some ext) →
      let new := State.codedBlock p pg mb
      let q := prepared p pg ext
      let c0 := inTable q mb
      let others := q.table.filter fun e => decide (e.1 ≠ mb)
      let set (off hwm : Nat) : State := (s.updPage p.id vpn fun old => ({ q with
        moves := old.moves, dirty := old.dirty, dict := new.dict, hwm := hwm
        cells := putCells q.cells (sealAt (p.keyOf q) (quadPage p vpn) q.extent new.count new.bytes off) } : Page).setTable p (quadPage p vpn)
          (if new.count = 0 then others else (mb, new.count, off) :: others)).settleBack p.id vpn mb ((c0 : Int) - new.count)
      (new.count ≤ c0 → exec (.writeback p.id vpn mb base) s = .next (set (offset q mb) q.hwm))
      ∧ (c0 < new.count → q.hwm + new.count ≤ q.cap → exec (.writeback p.id vpn mb base) s = .next (set q.hwm (q.hwm + new.count)))
      ∧ (c0 < new.count → q.cap < q.hwm + new.count →
        let quad := quadPage p vpn
        let rest := ((others.filter fun e => decide (e.2.1 ≠ 15)).map fun e => e.2.1).sum
        let used := 4 + new.count + rest
        let cap := if 1024 < used then 1024 else min 1024 (roundUp (used + 8) 16)
        (s.place quad cap base (65536, 0) = none → exec (.writeback p.id vpn mb base) s = .next (s.hardPressure p.id))
        ∧ (∀ at_, used ≤ 1024 → s.place quad cap base (65536, 0) = some at_ →
            let r := ({ q with dict := new.dict } : Page).relaid p quad at_ cap (some (mb, new.bytes))
            (r.extent = at_ ∧ r.cap = cap ∧ (new.bytes.length = 64 * new.count → r.hwm = used))
            ∧ exec (.writeback p.id vpn mb base) s = .next ((s.updPage p.id vpn fun old => { r with moves := old.moves, dirty := old.dirty }).settleBack p.id vpn mb
                ((c0 : Int) - new.count)))
        ∧ (∀ at_, 1024 < used → s.place quad cap base (65536, 0) = some at_ →
            exec (.writeback p.id vpn mb base) s = .next ((((s.expandAt p.id (65536 * vpn) 65536).updPage p.id vpn fun old => { old with
                cls := 1, table := [], extent := at_, cap := 1024, hwm := 1024
                cells := sealAt (p.keyOf q) quad at_ 1024 ((p.views.getD (homeDie p (65536 * vpn)) View.empty).readN (65536 * vpn) 65536) 0 }).updPage p.id vpn fun old =>
              { old with dirty := old.dirty.map fun e => (e.1, if e.1 = mb then (pg.dirty.map Prod.snd).sum else 0) }).settleBack p.id vpn mb
                ((4 + c0 + rest : Int) - 1024))))))
  ∧ (let slack (q : Page) : Nat := if q.cls = 0 then q.cap - (4 + q.used) else 0
    let due : Prop := pg.cls = 0 ∧ pg.cl = false ∧ pg.own = false ∧ pg.hw = none ∧ pg.moves = 0 ∧ s.physFree (quadPage p vpn) < 5859375
      ∧ ∀ q ∈ s.extents (quadPage p vpn), slack q ≤ slack pg
    let cap := min 1024 (roundUp (4 + pg.used + 8) 16)
    (¬due → exec (.compaction p.id vpn base) s = .next s)
    ∧ (due → s.place (quadPage p vpn) cap base (65536, 0) = none → exec (.compaction p.id vpn base) s = .next s)
    ∧ (∀ ext, due → s.place (quadPage p vpn) cap base (65536, 0) = some ext →
        exec (.compaction p.id vpn base) s = .next (s.updPage p.id vpn fun q => q.relaid p (quadPage p vpn) ext cap none)))
  ∧ (exec (.mapCacheError p.id vpn false) s = .next s)
  ∧ (pg.cls = 0 → pg.cl = false → pg.own = false → pg.hw = none → exec (.mapCacheError p.id vpn true) s = .next
      (((s.updPage p.id vpn fun q => ({ q with hwm := 4, cells := [] } : Page).setTable p (quadPage p vpn) ((List.range 128).map fun b => (b, 15, 0))).poisonSectors p.id
        (((List.range 128).filter fun b => !(pg.dirty.any fun e => decide (e.1 = b))).flatMap fun b => (List.range 16).map fun i => 16 * (128 * vpn + b) + i)
        |>.addF p.id (pg.used : Int)).logError 2 (quadPage p vpn / 4) (quadPage p vpn % 4) (65536 * vpn) p.id 0 []))
  ∧ (∀ (q : Page) t (b : Nat), b < 128 →
      let at_ (k : Nat) : Nat := ((tableBytes t).getD k 0).toNat
      (q.setTable p (quadPage p vpn) t).table = t ∧ (tableBytes t).length = 256
      ∧ at_ (2 * b) + 256 * at_ (2 * b + 1) = (match assoc b t with | some (c, o) => c * 1024 + o | none => 0) % 65536)

/-- R61, R62, R66, R64: an uncorrectable sector that is dirty in L2 or has cells in DRAM is poisoned, that one alone (the model's choice, log 105), and
logged once, the kinds of the records being as the model reads R110 (log 38); the row-remap table votes, and an odd copy is rewritten and logged; the
L2's mode follows its rail, with an ERROR event, ECCSWITCH and the map. -/
def Sys2Proof.Claim.MemoryErrors : Prop := ∀ s : State,
  (∀ p pg k, s.part? p.id = some p → s.xlat p.id (32 * k) = .mem pg →
    let stored : Prop := (∃ e ∈ pg.dirty, e.1 = k / 16 % 128) ∨ (pg.cl = false ∧ (pg.cls ≠ 0 ∨ 0 < pg.count (k / 16 % 128)))
    (¬stored → exec (.dramUncorrectable p.id k) s = .next s)
    ∧ (stored → exec (.dramUncorrectable p.id k) s = .next ((s.updPart p.id fun p => { p with poison := dedupN (k :: p.poison) }).logError 3 (homeQuad p (32 * k) / 4) (homeQuad p (32 * k) % 4) (32 * k) p.id 0 [])))
  ∧ (∀ q bank a b c bases, q < 16 → bank < 1024 → bank ∉ (s.quad! q).retired →
    let set (v : Nat) : State := s.updQuad q fun k => { k with
      remap := (if v = bank then [] else [(bank, 0, v), (bank, 1, v), (bank, 2, v)]) ++ k.remap.filter fun e => decide (e.1 ≠ bank) }
    let part := match s.ownerOf q with | some p => p.id | none => 0xFFFF
    let vote := exec (.rowRemapVote q bank [a, b, c] bases) s
    (a = b → b = c → vote = .next (set a))
    ∧ (a ≠ b ∨ b ≠ c → a = b ∨ a = c → vote = .next ((set a).logError 1 (q / 4) (q % 4) 0 part bank []))
    ∧ (a ≠ b → b = c → vote = .next ((set b).logError 1 (q / 4) (q % 4) 0 part bank []))
    ∧ (a ≠ b → a ≠ c → b ≠ c → vote = .next (s.retireBank q bank bases)))
  ∧ (∀ q (rail : BitVec 8) p, q < 16 → s.ownerOf q = some p →
    let low : Prop := rail.toNat < s.dev.fuses.threshold.toNat
    let high : Prop := s.dev.fuses.threshold.toNat + 2 ≤ rail.toNat
    let switched (dec : Bool) : State := (((s.updQuad q fun k => { k with decTed := dec, railOk := none }).updPart p.id fun p =>
      { p with cnt := { p.cnt with eccSwitch := p.cnt.eccSwitch + 1 } }).logError 9 (q / 4) (q % 4) 0 p.id 0 []).updateMap p.id
    ((s.quad! q).decTed = false → low → exec (.eccSwitchDecTed q rail) s = .next (switched true))
    ∧ (¬low ∨ (s.quad! q).decTed = true → exec (.eccSwitchDecTed q rail) s = .next s)
    ∧ ((s.quad! q).decTed = true → ¬high → exec (.eccSwitchSecDed q rail) s = .next (s.updQuad q fun k => { k with railOk := none }))
    ∧ ((s.quad! q).decTed = true → high → (s.quad! q).railOk = none →
        exec (.eccSwitchSecDed q rail) s = .next (s.updQuad q fun k => { k with railOk := some s.dev.up }))
    ∧ (∀ t, (s.quad! q).decTed = true → high → (s.quad! q).railOk = some t →
        (t + 10000000 ≤ s.dev.up → exec (.eccSwitchSecDed q rail) s = .next (switched false))
        ∧ (s.dev.up < t + 10000000 → exec (.eccSwitchSecDed q rail) s = .next s)))

/-- R61, R62, R64, R66, R75, R76, R78, R79: pages in DRAM, and its errors. That one sector alone is poisoned is the model's choice (log 105), and so is that a
writeback without room raises hard pressure at every try (log 112); the log's kinds (log 38), what compaction does without room (log 43) and that a
writeback waits for a write on its way whose pledge has arrived (log 88) are its reading. -/
def Obligations.DramAndErrors : Prop := Claim.PagesInDram ∧ Claim.MemoryErrors

/-! ## Events: the partners of the Reel -/

namespace Sys2Proof.Claim

/-- What a store holds of a sender's stream, and the highest sequence of it. -/
def heldOf (st : List Stored) (serial : DWord) (jsid : Nat) : List Stored := st.filter fun r => decide (r.serial = serial) && decide (r.jsid = jsid)
def seqsOf (st : List Stored) (serial : DWord) (jsid : Nat) : List Nat := (heldOf st serial jsid).map Stored.seq
def highest (rs : List Stored) : Nat := (rs.map Stored.seq).foldl max 0
/-- A record that an APPEND may store: nothing is held of its stream, or it comes next (R124). -/
def comesNext (st : List Stored) (serial : DWord) (e : SeqRec) : Bool :=
  decide (heldOf st serial e.rcd.jsid = []) || decide (e.seq = highest (heldOf st serial e.rcd.jsid) + 1)
/-- A store of so much room after an APPEND's entries, in order. -/
def storedAfter (room : Nat) (serial : DWord) (st : List Stored) (es : List SeqRec) : List Stored :=
  es.foldl (fun st e => if comesNext st serial e && decide (st.length < room) then st ++ [⟨serial, e.rcd.jsid, e.seq, e.rcd⟩] else st) st
/-- The record that ends an answer. -/
def isEnd (e : SeqRec) : Prop := e.seq = 0 ∧ e.rcd.type = 0
/-- The durable marks after the entries of an ACK, and the time of it. -/
def marked (s : State) (part : Nat) (es : List AckEntry) : State := s.updJr part fun j =>
  { es.foldl (fun j e => j.updStream e.jsid fun t => { t with durable := max t.durable (min e.durable t.last) }) j with ackAt := s.dev.up }
/-- Messages of at most 64 entries. -/
def Packed {α : Type} (xs : List α) (ms : List (List α)) : Prop := ms.flatten = xs ∧ ∀ m ∈ ms, 1 ≤ m.length ∧ m.length ≤ 64

end Sys2Proof.Claim

/-- R92, R121, R124, R125: what this device does with each message of the partner protocol, and what loses the current partner; a loss waits
for a slot for its event (R111). In OFF there is no room for a record, while TRUNC and FETCH are served from what the store holds (the model's choice,
log 114). A FETCH is answered with the lowest records from its first sequence on, in ascending order, of the stream of its jsid that one device has
here, whose is free where several have one (the model's choice, log 99). A peer without a connection sends and gets nothing (log 86, the model's
reading), and what is due to a partner without one waits for it (log 118, its reading): records that wait so are not unacknowledged ones. -/
def Obligations.PartnerProtocol : Prop := ∀ (s : State) (p : Part), s.part? p.id = some p →
  (∀ (peer : Nat) (serial : DWord) (job : Nat) (es : List SeqRec),
    let admitted : Prop := (job ∈ p.jobs ∨ s.dev.supJob = some job) ∧ peer ∈ s.dev.conns
    let room := if p.jr.st = .off then 0 else p.jr.p.storelen / 32
    let st := storedAfter room serial p.jr.store es
    let refused (q : Nat) : Prop := ∃ i e, es[i]? = some e ∧ e.rcd.jsid = q ∧ (room = 0
      ∨ (comesNext (storedAfter room serial p.jr.store (es.take i)) serial e = true ∧ room ≤ (storedAfter room serial p.jr.store (es.take i)).length))
    (¬admitted → exec (.append p.id ⟨peer, serial⟩ job es) s = .next s)
    ∧ ((∀ v q, (seqsOf p.jr.store v q).Nodup) → ∀ v q, (seqsOf st v q).Nodup)
    ∧ (admitted → ∃ acks : List AckEntry, acks.map AckEntry.jsid = dedupN (es.map fun e => e.rcd.jsid)
        ∧ (∀ a ∈ acks, a.durable = highest (heldOf st serial a.jsid) ∧ (a.status = 1 ↔ refused a.jsid) ∧ (a.status = 0 ↔ ¬refused a.jsid))
        ∧ exec (.append p.id ⟨peer, serial⟩ job es) s = .next ((s.updJr p.id fun j => { j with store := st }).output
            (.peer p.id peer s.dev.fuses.serial (.ack acks)))))
  ∧ (∀ (peer : Nat) (serial : DWord) (es : List (Nat × Nat)), (peer ∉ s.dev.conns → exec (.trunc p.id ⟨peer, serial⟩ es) s = .next s)
    ∧ (peer ∈ s.dev.conns → ∃ keep : Stored → Bool,
      (∀ r, keep r = false ↔ r.serial = serial ∧ ∃ e ∈ es, e.1 = r.jsid ∧ (e.2 = 0xFFFFFFFF ∨ r.seq ≤ e.2))
      ∧ exec (.trunc p.id ⟨peer, serial⟩ es) s = .next (s.updJr p.id fun j => { j with store := j.store.filter keep })))
  ∧ (∀ (peer : Nat) (serial : DWord) (jsid first n : Nat), (peer ∉ s.dev.conns → exec (.fetch p.id ⟨peer, serial⟩ jsid first n) s = .next s)
    ∧ (peer ∈ s.dev.conns → ∃ (whose : DWord) (rs : List Stored) (last : SeqRec) (ms : List (List SeqRec)),
      ((∃ r ∈ p.jr.store, r.jsid = jsid) → ∃ r ∈ p.jr.store, r.jsid = jsid ∧ r.serial = whose)
      ∧ (∃ above : List Stored, (rs ++ above).Perm ((heldOf p.jr.store whose jsid).filter fun r => decide (first ≤ r.seq))
          ∧ (rs ++ above).Pairwise (fun a b => a.seq ≤ b.seq) ∧ (rs.length = n ∨ (rs.length < n ∧ above = [])))
      ∧ ((seqsOf p.jr.store whose jsid).Nodup → rs.Pairwise (fun a b => a.seq < b.seq)
          ∧ ∀ r ∈ rs, ∀ h ∈ heldOf p.jr.store whose jsid, first ≤ h.seq → h.seq ≤ r.seq → h ∈ rs) ∧ isEnd last ∧ Packed ((rs.map fun r => ⟨r.seq, r.rcd⟩) ++ [last]) ms
      ∧ exec (.fetch p.id ⟨peer, serial⟩ jsid first n) s = .next { s with
          free := s.free + 1, out := s.out ++ ms.map fun m => .peer p.id peer s.dev.fuses.serial (.fetched m) }))
  ∧ (∀ (h : CmdHdr) (b : BindParams) (jsid : Nat) (es ends : List SeqRec), s.dev.busy = some ⟨h, .replayBind b⟩ → h.part = p.id →
      (b.holder ∉ s.dev.conns → exec (.fetched p.id jsid (es ++ ends)) s = .next s)
      ∧ (b.holder ∈ s.dev.conns → b.jfirst ≤ jsid → jsid < b.jfirst + b.jn → jsid ∉ p.jr.bindDone → (∀ e ∈ es, ¬isEnd e) → (∀ e, ends.head? = some e → isEnd e) →
      exec (.fetched p.id jsid (es ++ ends)) s = .next (s.updJr p.id fun j => { j with
        bindGot := j.bindGot ++ es.map fun e => ⟨b.serial, jsid, e.seq, e.rcd⟩
        bindDone := if ends = [] then j.bindDone else jsid :: j.bindDone })))
  ∧ (∀ (k : Nat) (es : List AckEntry),
      (p.jr.partner ≠ some k → exec (.ack p.id k es) s = .next s ∧ exec (.partnerConnectionFail p.id k) s = .next s)
      ∧ (p.jr.partner = some k →
        let applied : State := ((marked s p.id es).settleSwitch p.id).markEmits p.id false
        let joined : Prop := ((p.jr.p.partners[k]?).map PartnerEntry.addr).getD 0 ∈ s.dev.conns
        (¬joined → exec (.ack p.id k es) s = .next s)
        ∧ (joined → (∀ e ∈ es, e.status ≠ 1) → exec (.ack p.id k es) s = .next applied)
        ∧ (joined → (∃ e ∈ es, e.status = 1) → s.evRoom p.id 1 = true → exec (.ack p.id k es) s = .next (applied.losePartner p.id))
        ∧ ((∃ e ∈ es, e.status = 1) → s.evRoom p.id 1 = false → exec (.ack p.id k es) s = .next s)
        ∧ (s.evRoom p.id 1 = true → exec (.partnerConnectionFail p.id k) s = .next (s.switchTo p.id (k + 1)))
        ∧ (s.evRoom p.id 1 = false → exec (.partnerConnectionFail p.id k) s = .next s)))
  ∧ (∀ k, p.jr.partner = some k →
      let silent : Prop := (∃ t ∈ p.jr.streams, t.durable < p.jr.sentOf t) ∧ p.jr.ackAt + 1000 * p.jr.p.timeout ≤ s.dev.up ∧ s.evRoom p.id 1 = true
      (silent → exec (.ackTimeout p.id) s = .next (s.switchTo p.id (k + 1))) ∧ (¬silent → exec (.ackTimeout p.id) s = .next s))
  ∧ (p.jr.unsent = [] → ∀ t, p.jr.sentOf t = t.last)
  ∧ (∀ (t : Stream) es rest, p.jr.unsent = .append es :: rest → ∀ e, es.find? (fun e => decide (e.rcd.jsid = t.jsid)) = some e → p.jr.sentOf t = e.seq - 1)
  ∧ (∀ ms : List PeerMsg, (p.jr.partner = none → s.toPartner p.id ms = s) ∧ ∀ k, p.jr.partner = some k →
      let peer := ((p.jr.p.partners[k]?).map PartnerEntry.addr).getD 0
      let sent (t : State) (ms : List PeerMsg) : State := { t with out := t.out ++ ms.map (.peer p.id peer s.dev.fuses.serial) }
      (peer ∈ s.dev.conns → s.toPartner p.id ms = sent s ms)
      ∧ (peer ∉ s.dev.conns → s.toPartner p.id ms = s.updJr p.id fun j => { j with unsent := j.unsent ++ ms })
      ∧ (peer ∈ s.dev.conns → s.sendUnsent p.id = sent (s.updJr p.id fun j => { j with
          unsent := [], ackAt := if p.jr.unacked = true then j.ackAt else s.dev.up }) p.jr.unsent))
  ∧ (∀ k, s.groups = [] →
      let used : Prop := p.jr.p.npart ≤ k
      ∃ st, (used → st = .down) ∧ (¬used → st = .switch k) ∧ s.switchTo p.id k =
        ((((s.updPart p.id fun q => { q with
            cnt := { q.cnt with jSwitches := q.cnt.jSwitches + 1 }
            jr := { q.jr with st := st, unsent := [], streams := q.jr.streams.map fun t => { t with durable := t.trunc }
                              goal := q.jr.streams.map fun t => (t.jsid, t.last) } }).raise p.id
          (.partnerLost p.jr.p.jbase p.jr.p.jcount (p.jr.partner.getD 0xFF) (if st = .down then 0xFF else k))).sendRecs p.id true
            (p.jr.streams.flatMap Stream.recs)).settleSwitch p.id))

/-! ## Events: operations that complete -/

namespace Sys2Proof.Claim

/-- The group with an outstanding operation of a kind. -/
def Outstanding (s : State) (gid oid : Nat) (g : Group) (o : Op) : Prop := s.grp? gid = some g ∧ g.op? oid = some o
/-- Predicate n of the operation's lanes takes the bits of a mask. -/
def predicated (s : State) (oid : Nat) (mask : Mask) (n : Nat) (bits : Mask) : State :=
  (s.holders oid).foldl (fun s g => s.updGrp g.gid fun g => (lanesOf mask).foldl (fun g l => g.setPred l n (bits.getLsbD l)) g) s
/-- Records of a `jrnl`, appended in ascending lane order: the state, each lane's sequence number, and what goes to the partner. -/
def appended (s : State) (part : Nat) (recs : List (Nat × JRec)) : State × List (Nat × Nat) × List SeqRec :=
  recs.foldl (fun r e => match r.1.appendRec part e.2 with
    | some (q, s) => (s, r.2.1 ++ [(e.1, q)], r.2.2 ++ [⟨q, e.2⟩])
    | none => (r.1, r.2.1 ++ [(e.1, 0xFFFFFFFF)], r.2.2)) (s, [], [])
/-- A lane's value in one slot. -/
def inSlot (vals : List (Nat × Nat)) : List (Nat × List Word) := vals.map fun v => (v.1, slot1 v.2)
/-- An operation of the group, issued before, that keeps this one's order. -/
def earlierOp (g : Group) (o : Op) (p : Op → Prop) : Prop := ∃ q ∈ g.ops, p q ∧ q.seq < o.seq

end Sys2Proof.Claim

/-- R204, R205, R206, R280, R284, R122, R320, R321, R338: an operation completes when its last lane has its result: the results are written, and
its flag falls, with error status where the rule says so, as for what still waits when its grid is killed or whose way to the Reel is lost (log 66, the
model's reading). What a load returns counts for the runs of R151 and R352 (logs 44, 106, its readings). R127, R128: a durable emission writes its ring
slot and `emitted`, publishes the window, and has status 0 once that is done; a replay grid suppresses one that `delivered` covers; in what order the
steps come is the model's reading (log 67), and which window, jbase and ring order hold for them its choice (log 119). R130: `jtrunc` performs its lanes
one by one as far as it can, the rest waiting (log 69, the model's reading). -/
def Obligations.Completions : Prop := ∀ (s : State) (gid oid : Nat) (g : Group) (o : Op), Outstanding s gid oid g o →
  (∀ vals, o.kind = .div vals → exec (.divideComplete gid oid) s = .next (s.completeOp oid vals false))
  ∧ (∀ got acq once wide, o.kind = .atomic [] got acq once wide →
      let waits : Prop := (acq = true ∧ s.covered g = false) ∨ (∃ q ∈ g.ops, q.kind.isAcq = true ∧ q.seq < o.seq) ∨ g.saved ≠ none
      (waits → exec (.atomicReply gid oid) s = .next s)
      ∧ (¬waits → ∃ t : State, t = (if acq = true then s.acquired gid (if wide = true then 2 else 1) else s)
        ∧ (o.flag < 12 → once = false → exec (.atomicReply gid oid) s = .next (t.completeOp oid got false))
        ∧ (∀ v vs, o.flag < 12 → once = true → got = v :: vs → exec (.atomicReply gid oid) s = .next
            (t.completeOp oid ((lanesOf o.mask).map fun l => (l, v.2)) false))
        ∧ (o.flag = 12 → exec (.atomicReply gid oid) s = .next (t.finishOp oid false))))
  ∧ (∀ n byp acq scope once mask src, o.kind = .load [] n byp acq scope once → g.saved = none → ¬(∃ q ∈ g.ops, q.kind.isAcq = true ∧ q.seq < o.seq) →
      ((acq = true → s.covered g = true) → exec (.loadReply gid oid mask src) s = .next
        (let r := (if acq = true then s.acquired gid scope else s).writeBest oid; r.1.finishOp oid (!r.2)))
      ∧ (acq = true → s.covered g = false → exec (.loadReply gid oid mask src) s = .next s))
  ∧ (∀ l va n byp scope pg p, o.kind = .load [(l, va)] n byp false scope false → l < 32 → o.held = [] → g.saved = none →
      ¬(∃ q ∈ g.ops, q.kind.isAcq = true ∧ q.seq < o.seq) → s.part? g.part = some p → va < 2 ^ 48 → s.xlat g.part va = .mem pg → s.pairBlock g = none →
      touchesPoison (p.poisonAt (g.core / 96) va) va n = false → s.expandAt g.part (va / 128 * 128) 128 = s → s.laneLost g o .die l va = false →
      s.laneCaught g o .die l va = false → s.laneReady g o false byp scope .die va n = true →
      ∃ u : State, u.groups.map Group.gid = s.groups.map Group.gid
        ∧ (let bs := (List.range n).map fun i => (p.views.getD (g.core / 96) View.empty).read (va + i)
          let r := u.giveLanes oid [(l, bytesToWords bs)]
          let q := (((if r.2 then r.1 else r.1.updOp gid oid fun o => { o with err := true }).noteLoad gid false va bs).dropLoadLane oid l).writeBest oid
          exec (.loadReply gid oid (maskOf [l]) .die) s = .next (q.1.finishOp oid (!q.2))))
  ∧ (∀ st nw, o.kind = .msg [] st nw →
      exec (.msgStatus gid oid) s = .next ((match nw with | some (n, bits) => predicated s oid o.mask n bits | none => s).completeOp oid (inSlot st)
        (st.any fun e => decide (1 ≤ e.2 ∧ e.2 ≤ 10))))
  ∧ (∀ recs, o.kind = .jrnl recs → s.killed g = false → s.opLost g o = false → s.opCaught g o = false → ¬earlierOp g o (fun q => ∃ rs, q.kind = .jrnl rs) →
      let r := appended s g.part recs
      exec (.jrnlComplete gid oid) s = .next ((r.1.sendRecs g.part (!(s.jr g.part).unacked) r.2.2).completeOp oid (inSlot r.2.1)
        (r.2.1.any fun v => decide (v.2 = 0xFFFFFFFF))))
  ∧ (∀ e p, o.kind = .emit [e] → (s.holders oid).map Group.gid = [gid] → s.killed g = false → s.opLost g o = false → s.opCaught g o = false →
      s.part? g.part = some p → e.status = none →
      let goes (t : State) (f : EmitLane) : Prop := exec (.emitDurable gid oid) s = .next (
        let u := t.updOp gid oid fun o => { o with kind := .emit [f] }
        match f.status with | some k => u.completeOp oid (inSlot [(e.lane, k)]) (decide (3 ≤ k)) | none => u)
      (e.phase = 0 → goes s e)
      ∧ ((e.phase = 1 ∨ e.phase = 2) → p.jr.st = .off ∨ p.window? p.jr.p.window = none → goes s { e with status := some 4 })
      ∧ (∀ w, p.jr.st ≠ .off → p.window? p.jr.p.window = some w →
        let base := w.host + (e.rcd.jsid - p.jr.p.jbase) * (64 + 16 * 2 ^ p.jr.p.ringk)
        let count : DWord := BitVec.ofNat 64 ((assoc e.rcd.jsid p.jr.emitted).getD 0 + 1)
        let replay : Prop := ∃ gr, s.grid? g.grid = some gr ∧ gr.card.flags / 4 % 2 = 1
        let record := leBytes 4 (e.rcd.jsid + 2 ^ 24 * e.rcd.type) ++ leBytes 4 e.rcd.pos.toNat ++ leBytes 4 e.rcd.lo.toNat ++ leBytes 4 e.rcd.hi.toNat
        let written (t : State) : State :=
          let u := (t.updJr g.part fun j => { j with emitted := setAssoc e.rcd.jsid count.toNat j.emitted }).sendRma g.part w.num gid o.seq oid
            (cellsAt (base + 64 + 16 * (e.rcd.pos.toNat % 2 ^ p.jr.p.ringk)) record)
          u.sendRma g.part w.num gid o.seq oid (cellsAt (base + 8) (leBytes 8 count.toNat))
        (e.phase = 1 → ¬replay → w.closing = false → goes (written s) { e with phase := 2 })
        ∧ (e.phase = 1 → ¬replay → w.closing = true → goes s { e with status := some 4 })
        ∧ (e.phase = 1 → replay → ∀ t : State, t = s.deliveredRead g o w base → ∀ h, t.grp? gid = some h →
          let past : Prop := e.rcd.pos.toNat ≤ (memDWord s.host base).toNat
          (t.covered h = false → goes t e)
          ∧ (t.covered h = true → past → goes t { e with status := some 0 })
          ∧ (t.covered h = true → ¬past → w.closing = true → goes t { e with status := some 4 })
          ∧ (t.covered h = true → ¬past → w.closing = false → goes (written t) { e with phase := 2 }))
        ∧ (e.phase = 2 → w.closing = true → goes s { e with status := some 4 })
        ∧ (e.phase = 2 → w.closing = false → s.winBusy g.part w.num = true → goes s e)
        ∧ (e.phase = 2 → w.closing = false → s.winBusy g.part w.num = false → goes (s.sendVersion g.part w.num gid o.seq oid).2 { e with phase := 3 }))
      ∧ (e.phase = 3 → s.versionOut gid oid = true → goes s e)
      ∧ (e.phase = 3 → s.versionOut gid oid = false → goes s { e with status := some 0 }))
  ∧ (∀ lanes, o.kind = .emit lanes → s.killed g = false → s.opLost g o = false → s.opCaught g o = false → (∀ e ∈ lanes, e.status ≠ none) → ∃ t : State,
      t = (s.holders oid).foldl (fun s h => s.updOp h.gid oid fun o => { o with kind := .emit lanes }) s
      ∧ exec (.emitDurable gid oid) s = .next (t.completeOp oid (inSlot (lanes.map fun e => (e.lane, e.status.getD 0)))
          (lanes.any fun e => decide (3 ≤ e.status.getD 0))))
  ∧ (∀ lanes got out p, o.kind = .publish lanes got out → s.killed g = false → s.part? g.part = some p → (out = true → s.versionOut gid oid = false) →
      ((∀ e ∈ lanes, (assoc e.2 got).isSome = true) → exec (.publishComplete gid oid) s = .next
        (s.completeOp oid (lanes.map fun e => (e.1, words2 ((assoc e.2 got).getD 0))) false)))
  ∧ (s.killed g = false → s.opLost g o = false → s.opCaught g o = true →
      (∀ recs, o.kind = .jrnl recs → exec (.jrnlComplete gid oid) s = .next s) ∧ (∀ lanes, o.kind = .emit lanes → exec (.emitDurable gid oid) s = .next s))
  ∧ (s.killed g = false → s.opLost g o = true →
      (∀ recs, o.kind = .jrnl recs → exec (.jrnlComplete gid oid) s = .next (s.completeOp oid (inSlot (recs.map fun e => (e.1, 0xFFFFFFFF))) true))
      ∧ (∀ lanes, o.kind = .emit lanes → exec (.emitDurable gid oid) s = .next (s.finishOp oid true)))
  ∧ (s.killed g = true → (∀ recs, o.kind = .jrnl recs → exec (.jrnlComplete gid oid) s = .next (s.finishOp oid true))
      ∧ (∀ lanes, o.kind = .emit lanes → exec (.emitDurable gid oid) s = .next (s.finishOp oid true))
      ∧ (∀ lanes got out p, o.kind = .publish lanes got out → s.part? g.part = some p → exec (.publishComplete gid oid) s = .next (s.finishOp oid true))
      ∧ (∀ sid p lanes d, g.split? sid = some p → p.wait = .jtrunc lanes d → exec (.jtruncDurable gid sid) s = .next ((s.endTruncs g p).after gid)))
  ∧ (∀ sid p lanes d, g.split? sid = some p → p.wait = .jtrunc lanes d → s.killed g = false →
      let r := s.truncLanes g d false lanes
      let set (w : Wait) : State := r.2.updGrp gid fun g => g.updSplit sid fun p => { p with wait := w }
      (r.1 ≠ [] → exec (.jtruncDurable gid sid) s = .next (set (.jtrunc r.1 d)))
      ∧ (r.1 = [] → (set .none).twin g = none → exec (.jtruncDurable gid sid) s = .next ((set .none).after gid)))

namespace Sys2Proof.Claim

/-- The entries of a cluster's reservation table that could be granted: passes that no earlier job blocks (R148, log 25). -/
def candidates (s : State) (core : Nat) : List Job := (s.entries (core / 4)).filter fun j => !j.granted && !(s.jobBlocked j)
/-- The one that the arbiter takes: the first passed over 16 times, else the first of the highest PRIO; `older` stood before it. -/
def Chosen (js older : List Job) (j : Job) : Prop :=
  ∃ younger, js = older ++ j :: younger
    ∧ ((16 ≤ j.passed ∧ ∀ e ∈ older, e.passed < 16)
      ∨ ((∀ e ∈ js, e.passed < 16) ∧ (∀ e ∈ older, e.prio < j.prio) ∧ ∀ e ∈ younger, e.prio ≤ j.prio))
/-- A job that may end now: it has started and holds its leases, none for more than 10 µs (R21), its group's frames are in place, and no request of
it waits to be composed again (R41). -/
def MayEnd (s : State) (j : Job) : Prop :=
  j.started = true ∧ j.wants = [] ∧ s.jobCaught j = false ∧ (∀ g, s.grp? j.gid = some g → g.saved = none)
    ∧ ∀ q ∈ s.quads, ∀ l ∈ q.leases, l.jid = j.jid → s.dev.up ≤ l.since + 10000
/-- The group whose request heads the ring's order, its request and the ring's window. -/
def HeadsRing (s : State) (p : Part) (g : Group) (r : SvcReq) (w : Window) : Prop :=
  s.part? p.id = some p ∧ p.ringWait.head? = some g.gid ∧ s.grp? g.gid = some g ∧ g.svc = some r ∧ p.window? p.regs.ringWin = some w ∧ w.closing = false
/-- The request is a step further. -/
def advanced (s : State) (gid k : Nat) : State := s.updGrp gid fun g => { g with svc := g.svc.map fun r => { r with phase := k } }

end Sys2Proof.Claim

/-- R148, R19, R41, R329, R337: a Spindle is granted by PRIO and age, and an entry passed over 16 times first, among the passes that no earlier job
blocks (log 25, the model's reading); a job starts once nothing blocks it and it has its leases; it ends with what it computes while no lease of it is
older than 10 µs, or with error when its footprint cannot be reached, and waits while a failed link holds it up (log 66, the model's reading); it waits
for the device's earlier writes to the host memory that it touches (R358).
R179, R346: the request that heads the ring's order is written, published and raised; the order, and that it waits for the group's earlier stores, are
the model's reading (log 61). -/
def Sys2Proof.Claim.JobSteps : Prop := ∀ s : State,
  (∀ core older j, Chosen (candidates s core) older j → (∀ e ∈ candidates s core, e.prio ≤ 3) → (∀ e ∈ older, e.jid ≠ j.jid) →
    (∀ e ∈ s.entries (core / 4), e.granted = false) → ∃ jobs : List Job,
      exec (.spindleGrant core) s = .next (({ s with jobs := jobs } : State).askLeases j)
      ∧ jobs.length = s.jobs.length
      ∧ ∀ (i : Nat) (e d : Job), s.jobs[i]? = some e → jobs[i]? = some d → d = if e.jid = j.jid then { e with granted := true }
          else if e.jid ∈ older.map Job.jid then { e with passed := e.passed + 1 } else e)
  ∧ (∀ j p, s.job? j.jid = some j → s.part? j.part = some p →
      let held : Prop := j.started = true ∨ j.granted = false ∨ s.jobBlocked j = true ∨ s.nbkBlocked p j = true
      (held → exec (.jobStart j.jid) s = .next s)
      ∧ (¬held → j.wants ≠ [] → exec (.jobStart j.jid) s = .next (s.askLeases j))
      ∧ (¬held → j.wants = [] → ∃ pages : List Nat, ((∀ d, j.kind ≠ .cpy d) → pages = [])
          ∧ exec (.jobStart j.jid) s = .next ((pages.foldl (fun s v => s.updPage j.part v fun pg => { pg with moves := pg.moves + 1 }) s).updJob j.jid fun j =>
              { j with started := true, moving := pages, detour := p.regs.detour, redo := none })))
  ∧ (∀ j p fetched, s.job? j.jid = some j → s.part? j.part = some p →
      (¬MayEnd s j → exec (.jobComplete j.jid fetched) s = .next s)
      ∧ (MayEnd s j → s.jobLost p j = true → exec (.jobComplete j.jid fetched) s = .next (s.loseJob j))
      ∧ (MayEnd s j → s.jobLost p j = false → s.hostBusy p j = true → exec (.jobComplete j.jid fetched) s = .next s)
      ∧ (MayEnd s j → s.jobLost p j = false → s.hostBusy p j = false → ∃ t : State, t = s.readyReads p j ∧ ∀ p, t.part? j.part = some p →
        (∀ n z gather d a b, j.kind = .pass n z gather d a b → exec (.jobComplete j.jid fetched) s = .next
          (let r := t.passRun p j n z gather d a b; r.1.endJob j VClock.zero r.2))
        ∧ (∀ n, j.kind = .accz n → exec (.jobComplete j.jid fetched) s = .next ((t.zeroTile j n).endJob j VClock.zero false))
        ∧ (∀ n c ty q, j.kind = .accrd n c ty q → exec (.jobComplete j.jid fetched) s = .next ((t.accrdRun j n c ty q).endJob j VClock.zero false))
        ∧ (∀ n c vals, j.kind = .accwr n c vals → exec (.jobComplete j.jid fetched) s = .next ((t.updBlock j.grid j.bidx j.copy fun b => { b with
            acc := Mem.writeCells b.acc (vals.flatMap fun v => cellsAt (accOff n (accAt c v.1).1 (accAt c v.1).2) (leBytes 4 v.2.toNat)) }).endJob j VClock.zero false))
        ∧ (∀ d, j.kind = .cpy d → exec (.jobComplete j.jid fetched) s = .next (let r := t.copyRun p j d fetched; r.2.1.endJob j (r.1.join j.clk) r.2.2))
        ∧ (∀ code d, j.kind = .nbk code d → exec (.jobComplete j.jid fetched) s = .next (let r := t.nbkRun p j code d; r.2.1.endJob j (r.1.join j.clk) r.2.2))))
  ∧ (∀ p g r w, HeadsRing s p g r w →
      let consumed := (memDWord s.host w.host).toNat
      let size := 2 ^ p.regs.ringK
      let entry (i : Nat) (e : Nat × List Word) : List Host.Cell :=
        let q := r.q0 + i
        cellsAt (w.host + 64 + 64 * (q % size)) (leBytes 8 q ++ leBytes 4 g.park.toNat ++ leBytes 1 e.1 ++ leBytes 1 (if i + 1 = r.lanes.length then 1 else 0)
          ++ leBytes 2 r.code ++ wordsToBytes (e.2.take 8) ++ List.replicate 16 0)
      (r.phase = 0 → r.q0 + r.lanes.length ≤ consumed + size + 1 → exec (.svcRingWrite p.id) s = .next (advanced (s.sendRma p.id w.num g.gid g.seq 0
          (((List.range r.lanes.length).zip r.lanes).flatMap fun e => entry e.1 e.2)) g.gid 1))
      ∧ (r.phase = 0 → consumed + size + 1 < r.q0 + r.lanes.length → exec (.svcRingWrite p.id) s = .next s)
      ∧ (r.phase = 1 → s.winBusy p.id w.num = false → s.writesDone g g.seq = true →
          exec (.svcRingWrite p.id) s = .next (advanced (s.sendVersion p.id w.num g.gid g.seq 0).2 g.gid 2))
      ∧ (r.phase = 2 → s.versionOut g.gid 0 = true ∨ s.evRoom p.id 1 = false → exec (.svcRingWrite p.id) s = .next s)
      ∧ (r.phase = 2 → s.versionOut g.gid 0 = false → s.evRoom p.id 1 = true → exec (.svcRingWrite p.id) s = .next
          ((advanced (s.raise p.id (.svcRequest r.q0 r.lanes.length)) g.gid 3).updPart p.id fun q => { q with ringWait := q.ringWait.drop 1 })))

/-- R19 to R21, R25, R41, R148, R329, R337: power leases, and the jobs that wait for them. Which passes stand for a Spindle's grant (log 25), and the
ring request's order and its wait (log 61), are the model's reading. -/
def Obligations.LeasesAndJobs : Prop := Claim.Leases ∧ Claim.JobSteps

/-! ## Events: nodes, grids and the time table -/

namespace Sys2Proof.Claim

/-- The node may start: nothing precedes it, it is not waiting for capacity, and every write to its regions is applied when a producer left the
window before it came (R139, R140, log 54). -/
def StartsNow (s : State) (p : Part) (n : Node) : Prop :=
  s.node? p.id n.nid = some n ∧ n.part = p.id ∧ s.part? p.id = some p ∧ n.started = false ∧ n.result = none ∧ n.preds = [] ∧ n.cap = none
    ∧ (n.late = true → s.unapplied p.id (fun _ => true) n.regions = false)
/-- The grid that a launch becomes. -/
def gridOf (s : State) (p : Nat) (n : Node) (c : Card) (foot : List Span) : Grid :=
  { id := s.nextId, part := p, nid := n.nid, card := c, foot := foot, next := 0, order := s.nextId, kill := none, lastRet := s.dev.up, spins := []
    clusters := [], gids := [], ended := false, anc := n.ancestors }
/-- Every page of partition memory that a node's regions name is mapped (R141). -/
def AllMapped (s : State) (p : Part) (n : Node) : Prop := ∀ r ∈ n.regions, s.spanMapped p r = true
/-- A node fails at its start. -/
def fails (s : State) (p n : Nat) : State := s.updNode p n fun n => { n with started := true, result := some 10 }
/-- The bytes that the edges out of a node carry. -/
def carried (s : State) (p n : Nat) : List Span :=
  (s.liveNodes p).flatMap fun m => (m.preds.filter fun e => decide (e.1 = n)).flatMap (·.2)
/-- The next slot of a running table is due. -/
def Due (s : State) (p : Part) (r : TTRun) (e : TTEntry) : Prop :=
  s.part? p.id = some p ∧ p.tt.run = some r ∧ p.tt.entries[r.next]? = some e ∧ r.start + r.k * r.cycle + e.slot ≤ s.dev.tod
/-- The run goes on to its next entry. -/
def nextSlot (s : State) (p : Part) (r : TTRun) : State :=
  s.updPart p.id fun q => { q with tt := { q.tt with run := some { r with next := r.next + 1 } } }
/-- TT_OVERRUN of a slot. -/
def overrun (s : State) (p : Part) (r : TTRun) (e : TTEntry) : State :=
  (nextSlot s p r).raise p.id (.ttOverrun r.next e.policy (r.start + r.k * r.cycle + e.slot))
/-- The grid has placed its blocks, its groups have exited but for those that run on, and every job of its groups is over and every store of them
accepted, of those that run on too (R140, R303, R350); KILL_DONE has a slot (R111). -/
def EndsNow (s : State) (g : Grid) : Prop :=
  s.grid? g.id = some g ∧ g.ended = false ∧ g.card.blocks ≤ g.next ∧ (∀ b ∈ s.blocks, b.grid ≠ g.id)
    ∧ (∀ x ∈ s.groups, x.grid = g.id → s.runsOn g x.gid = true)
    ∧ (∀ j ∈ s.jobs, j.grid = g.id → j.nid ≠ 0) ∧ (∀ w ∈ s.writes, w.gid ∉ g.gids) ∧ (g.kill ≠ none → s.evRoom g.part 1 = true)

end Sys2Proof.Claim

/-- R139, R140, R142, R334, R332: a node starts as a grid or a job, or fails at once, and a long copy takes its lease from the governor of the
leader Distaff's quadrant (the model's choice, log 98); without its cells it waits for a sweep's grant, which starts it, a near-bank drain as a copy
does (log 55, the model's reading); it ends when its work is over and every die has applied its own writes to its edges' regions (log 54), and its
failure ends its tag. R303, R152, R117, R142: a grid ends, a killed one reports it, and a launch of the time table is then complete;
of a kill's reasons only a fatal fault and the watchdog end the tag. -/
def Obligations.NodesAndGrids : Prop := ∀ s : State,
  (∀ p n, StartsNow s p n →
    let i : Instr := .nodeStart p.id n.nid
    (∀ c foot, n.kind = .launch c foot → ∃ t : State, t = s.updNode p.id n.nid (fun n => { n with started := true, runs := s.nextId })
      ∧ exec i s = .next { t with nextId := s.nextId + 1, grids := s.grids ++ [gridOf s p.id n c foot] })
    ∧ (∀ d, n.kind = .copy d → copyFarOk p (copyD d) = false ∨ ¬AllMapped s p n → exec i s = .next (fails s p.id n.nid))
    ∧ (∀ d, n.kind = .copy d → copyFarOk p (copyD d) = true → AllMapped s p n → exec i s = .next (s.nodePledge n (8 * (copyBlocks (copyD d)).length) fun s =>
        s.nodeJob p n (.cpy d) (if 65536 < (copyD d).rowb * (copyD d).rows then [p.quads.headD 0] else []) (copyBlocks (copyD d))))
    ∧ (∀ code d, n.kind = .nbk code d → s.nbkRefused p 0 code d = true ∨ ¬AllMapped s p n → exec i s = .next (fails s p.id n.nid))
    ∧ (∀ code d, n.kind = .nbk code d → s.nbkRefused p 0 code d = false → AllMapped s p n → ∃ ms : List Nat, (code ≠ 2 → ms = [])
        ∧ (code = 2 → ms = spanBlocks (dw2 d 0) (4 * dw d 4))
        ∧ exec i s = .next (s.nodePledge n (8 * ms.length) fun s =>
          let r := s.nbkIssue p code d
          r.2.nodeJob p n (.nbk code r.1) (if code = 1 then r.2.nbkQuads p 1 d else []) ms)))
  ∧ (∀ (p : Part) (n : Node) (need : Nat) (go : State → State), s.part? n.part = some p → s.node? n.part n.nid = some n → ∀ t : State,
      (t = s.updPart n.part fun p => { p with cnt := { p.cnt with faults := p.cnt.faults + 1 } }) →
      ((need : Int) ≤ p.avail → s.nodePledge n need go = go (s.addP n.part need 0))
      ∧ (p.avail < need → s.nodePledge n need go = ((t.updNode n.part n.nid fun n => { n with
          cap := some ⟨(p.cnt.faults + 1).toNat, need, need, s.dev.up⟩ }).hardPressure n.part))
      ∧ (∀ k run g, s.nodeRun p n = some (k, run) → s.startGranted n.part n.nid g = run ((s.updNode n.part n.nid fun n => { n with cap := none }).addP n.part g 0)))
  ∧ (∀ n r, s.node? n.part n.nid = some n → n.result = some r →
      let busy : Prop := (∃ c foot, n.kind = .launch c foot ∧ n.started = true ∧ ∃ g, s.grid? n.runs = some g ∧ g.ended = false)
        ∨ ((∀ c foot, n.kind ≠ .launch c foot) ∧ ∃ j ∈ s.jobs, j.nid = n.nid)
      let unclean : Prop := s.unapplied n.part n.writers.contains (carried s n.part n.nid) = true
      (busy ∨ unclean → exec (.nodeEnd n.part n.nid) s = .next s)
      ∧ (¬busy → ¬unclean → r ≠ 10 ∨ n.byTag = true ∨ n.tag = 0 → exec (.nodeEnd n.part n.nid) s = .next (s.dropNode n.part n.nid))
      ∧ (¬busy → ¬unclean → r = 10 → n.byTag = false → n.tag ≠ 0 →
          exec (.nodeEnd n.part n.nid) s = .next ((s.dropNode n.part n.nid).killTag n.part n.tag 5 10)))
  ∧ (∀ g, EndsNow s g → ∃ status, (g.kill = none → status = 0) ∧ (∀ r, g.kill = some r → status = if r = 0 ∨ r = 4 then 9 else 10) ∧ ∃ t : State,
      t = ({ s.retireAll g.id with cores := (s.retireAll g.id).cores.map fun k => { k with
            bufReq := k.bufReq.filter fun p => decide (p.grid ≠ g.id), bufRep := k.bufRep.filter fun p => decide (p.grid ≠ g.id)
            teams := k.teams.filter fun t => decide (t.grid ≠ g.id) || !t.members.isEmpty } } : State)
      ∧ ∃ u : State, u = ((t.updGrid g.id fun x => { x with ended := true }).forgetGrid g.id).updNode g.part g.nid
          (fun n => { n with result := n.result.or (some status), tt := none, writers := g.gids
                             byTag := n.byTag || (match g.kill with | some r => decide (r ≠ 1) && decide (r ≠ 2) | none => false) })
      ∧ ∃ v : State, v = (match g.kill with | some r => u.raise g.part (.killDone g.card.tag g.id r) | none => u)
      ∧ ((s.node? g.part g.nid).bind Node.tt = none → exec (.gridEnd g.id) s = .next v)
      ∧ (∀ e, (s.node? g.part g.nid).bind Node.tt = some e → exec (.gridEnd g.id) s = .next (v.ttEnded g.part e g.nid)))

/-- R115, R116, R117: a due slot submits its launch while the window has room, or its overrun's policy applies; a pending launch follows once the
entry's previous one has completed; at the boundary a loaded table replaces the old one, and a stop or a re-phase takes effect with its commands'
completions. That a slot and a pending launch wait for room in the window is the model's reading (log 57), and so is what a second overrun and a stop do
to what is pending (log 77). -/
def Sys2Proof.Claim.TimeTableEvents : Prop := ∀ (s : State) (p : Part) (r : TTRun),
  (∀ e, Due s p r e →
    let i : Instr := .ttSlot p.id r.next
    let idle : Prop := assoc r.next p.tt.live = none ∧ assoc r.next p.tt.abort = none ∧ assoc r.next p.tt.deferred = none
    (idle → (s.windowRoom p.id 1 = true → exec i s = .next ((nextSlot s p r).ttSubmit p.id r.next e.card))
      ∧ (s.windowRoom p.id 1 = false → exec i s = .next s))
    ∧ (¬idle →
      let o := overrun s p r e
      let skips : State := o.updPart p.id fun q => { q with cnt := { q.cnt with ttSkips := q.cnt.ttSkips + 1 } }
      (e.policy = 0 → exec i s = .next skips)
      ∧ (e.policy = 1 → (assoc r.next p.tt.deferred).isSome = true → exec i s = .next skips)
      ∧ (e.policy = 1 → assoc r.next p.tt.deferred = none → exec i s = .next
          ((o.updPart p.id fun q => { q with tt := { q.tt with deferred := (r.next, e.card) :: q.tt.deferred } }).updPart p.id fun q =>
            { q with cnt := { q.cnt with ttDefers := q.cnt.ttDefers + 1 } }))
      ∧ (e.policy = 2 → assoc r.next p.tt.abort = none → ∃ t : State,
          t = (o.updPart p.id fun q => { q with tt := { q.tt with abort := (r.next, e.card) :: q.tt.abort } }).updPart p.id
            (fun q => { q with cnt := { q.cnt with ttAborts := q.cnt.ttAborts + 1 } })
          ∧ exec i s = .next (match (assoc r.next p.tt.live).bind (t.node? p.id) with | some n => t.endNode n 3 9 | none => t.ttNext p.id r.next))
      ∧ (e.policy = 2 → (assoc r.next p.tt.abort).isSome = true → exec i s = .next o)))
  ∧ (∀ entry, s.part? p.id = some p →
    let fresh : State := s.updPart p.id fun q => { q with tt := { q.tt with abort := q.tt.abort.filter fun e => decide (e.1 ≠ entry) } }
    let later : State := s.updPart p.id fun q => { q with tt := { q.tt with deferred := q.tt.deferred.filter fun e => decide (e.1 ≠ entry) } }
    ((assoc entry p.tt.live).isSome = true ∨ s.windowRoom p.id 1 = false → s.ttNext p.id entry = s)
    ∧ (assoc entry p.tt.live = none → s.windowRoom p.id 1 = true →
      (∀ card, assoc entry p.tt.abort = some card → s.ttNext p.id entry = fresh.ttSubmit p.id entry card)
      ∧ (∀ card, assoc entry p.tt.abort = none → assoc entry p.tt.deferred = some card → s.ttNext p.id entry = later.ttSubmit p.id entry card)))
  ∧ (s.part? p.id = some p → p.tt.run = some r →
    let ends := r.start + (r.k + 1) * r.cycle
    let i : Instr := .ttCycleBoundary p.id
    let loaded : State := s.updPart p.id fun q => { q with tt := { q.tt with entries := q.tt.pending.getD q.tt.entries, pending := none } }
    (r.next < p.tt.entries.length ∨ s.dev.tod < ends → exec i s = .next s)
    ∧ (p.tt.entries.length ≤ r.next → ends ≤ s.dev.tod →
      (p.tt.stop = [] → p.tt.rephase = none → exec i s = .next (loaded.updPart p.id fun q =>
        { q with tt := { q.tt with run := some { r with k := r.k + 1, next := 0 } } }))
      ∧ (p.tt.stop ≠ [] ∨ p.tt.rephase ≠ none → ∃ run : Option TTRun, (p.tt.rephase = none → run = none)
        ∧ (∀ q, p.tt.rephase = some q → ∃ start, run = some { q with start := start } ∧ (ends ≤ q.start → start = q.start)
          ∧ (q.start < ends → 0 < q.cycle → ∃ n, start = q.start + n * q.cycle ∧ ends ≤ start ∧ start < ends + q.cycle))
        ∧ exec i s = .next (((r.cmd :: p.tt.stop).foldl (fun s h => s.answer h 0 .none) loaded).updPart p.id fun q =>
            { q with tt := { q.tt with stop := [], rephase := none, run := run } }))))

/-- R115 to R117: the time table, its commands and its events. What waits for room in the window (log 57), and what a second overrun and a stop do to what
is pending (log 77), are the model's reading. -/
def Obligations.TimeTable : Prop := Claim.TimeTableCommands ∧ Claim.TimeTableEvents

/-! ## Events: clauses and groups -/

namespace Sys2Proof.Claim

/-- A split that stands at a clause boundary of a group that may issue, where no join, fault or new start holds it. -/
def AtBoundary (s : State) (g : Group) (p : Split) : Prop :=
  s.grp? g.gid = some g ∧ g.split? p.sid = some p ∧ g.mayIssue p.sid = true ∧ p.clause = none ∧ s.killed g = false ∧ g.stop = none ∧ p.wait = .none
    ∧ p.stack = [] ∧ p.merge = none ∧ g.mm.fault = none ∧ g.mm.fresh = false ∧ (∀ o ∈ g.ops, o.held = [])
/-- A legal header (R203). -/
def HeaderOk (w : DWord) : Prop :=
  let f (i n : Nat) : Nat := w.toNat / 2 ^ i % 2 ^ n
  f 28 4 = 10 ∧ f 0 4 ≠ 0 ∧ f 27 1 = 0 ∧ (f 16 1 = 1 → f 17 4 ≤ 11) ∧ (f 21 1 = 1 → f 22 4 ≤ 11) ∧ (f 16 1 = 0 → f 17 4 = 0) ∧ (f 21 1 = 0 → f 22 4 = 0)
    ∧ ¬(f 16 1 = 1 ∧ f 21 1 = 1 ∧ f 17 4 = f 22 4)
/-- WAIT names a flag. -/
def waitsOn (w : DWord) (n : Nat) : Prop := n < 12 ∧ w.toNat / 2 ^ (4 + n) % 2 = 1
/-- Operations of a group that count on a flag. -/
def counts (g : Group) (n : Nat) : Nat := (g.ops.filter fun o => decide (o.flag = n)).length
/-- A grid of the partition whose next block would come first: of higher PRIO, or of the same and started earlier. -/
def precedes (h gr : Grid) : Prop := gr.card.prio < h.card.prio ∨ (h.card.prio = gr.card.prio ∧ h.order < gr.order)

end Sys2Proof.Claim

/-- R146: which of two groups of a port goes first: one that has not issued for 64 of the port's steps, the oldest of such; then by urgency, PRIO and
age. A group is bound to the port with the fewest; it does not issue while another that is ready goes before it, and the steps that the others issue count
for each. What ready means, and that a port's steps are its clock, are the model's reading (log 109). -/
def Sys2Proof.Claim.PortOrder : Prop := ∀ (s : State) (a b : Group),
  let late (g : Group) : Prop := 64 ≤ g.unissued
  (late a → ¬late b → s.goesBefore a b = true ∧ s.goesBefore b a = false)
  ∧ (late a → late b → (s.goesBefore a b = true ↔ a.age < b.age))
  ∧ (¬late a → ¬late b → s.urgent a = true → s.urgent b = false → s.goesBefore a b = true ∧ s.goesBefore b a = false)
  ∧ (¬late a → ¬late b → s.urgent a = s.urgent b → (s.goesBefore a b = true ↔ b.prio s < a.prio s ∨ (a.prio s = b.prio s ∧ a.age < b.age)))
  ∧ (s.outranked a = true ↔ ∃ x ∈ s.groups, x.core = a.core ∧ x.port = a.port ∧ x.gid ≠ a.gid ∧ x.place = .resident ∧ s.goesBefore x a = true
      ∧ ∃ p : Split, p ∈ x.splits ∧ splitStep s x.gid p.sid ≠ .next { s with cur := some ⟨x.gid, p.sid⟩ })
  ∧ (∀ (i : Nat) (g : Group), s.groups[i]? = some g → ∃ h : Group, (s.takePort a).groups[i]? = some h ∧ h = { g with unissued := h.unissued }
      ∧ (g.gid = a.gid → h.unissued = 0)
      ∧ (g.gid ≠ a.gid → g.core = a.core → g.port = a.port → g.place = .resident → h.unissued = g.unissued + 1)
      ∧ (g.gid ≠ a.gid → (g.core ≠ a.core ∨ g.port ≠ a.port ∨ g.place ≠ .resident) → h.unissued = g.unissued))
  ∧ (∀ core k, k < 4 → s.bindPort core < 4
      ∧ (s.groups.filter fun g => decide (g.core = core) && decide (g.place = .resident) && decide (g.port = s.bindPort core)).length
        ≤ (s.groups.filter fun g => decide (g.core = core) && decide (g.place = .resident) && decide (g.port = k)).length)

/-- R202, R203, R204: a split starts a clause when its header is legal and every flag that WAIT names is 0; MARK faults with 0x05 and the rest
of a header with 0x04, before WAIT is tested. R152: a killed group exits at its next issue. R146: which group its port issues. -/
def Obligations.ClauseStart : Prop := Claim.PortOrder ∧
  (∀ (s : State) (g : Group) (p : Split), s.grp? g.gid = some g → g.split? p.sid = some p → g.mayIssue p.sid = true → p.clause = none →
    s.killed g = true → exec (.clauseStart g.gid p.sid) s = .next (s.exitKilled g))
  ∧ ∀ (s : State) (g : Group) (p : Split), AtBoundary s g p → ∀ t : State, t = s.fetchFill g p.pc → ∀ w, t.fetch g p.pc = .word w →
  let i : Instr := .clauseStart g.gid p.sid
  let clear : Prop := ∀ n, waitsOn w n → counts g n = 0
  (w.toNat / 2 ^ 28 % 16 ≠ 10 → exec i s = .next (t.raiseTrap g.gid p.sid 0x05 (p.mask &&& ~~~ g.dead) 0 p.pc none))
  ∧ (w.toNat / 2 ^ 28 % 16 = 10 → ¬HeaderOk w → exec i s = .next (t.raiseTrap g.gid p.sid 0x04 (p.mask &&& ~~~ g.dead) 0 p.pc none))
  ∧ (HeaderOk w → ¬clear → exec i s = .next t)
  ∧ (HeaderOk w → clear → g.mm.jobs = [] → exec i s = .next (t.updGrp g.gid fun g =>
      g.updSplit p.sid fun p => { p with pc := p.pc + 8, clause := some ⟨p.pc, w⟩ }))

/-- R145, R149, R150, R178: a block goes to the first core with room, unless a restore or another grid comes first; a group chosen to make room
stops at its next boundary, or gives up its room when it is parked; the evicted are restored in order, to their cores, and stand back for the block
that they made room for alone. Who makes room goes for the blocks in their turn, of higher PRIO first and then of the earlier grid. Which of a restore
and a placement comes first is the model's reading (log 26), and so is which groups go (log 53), on which core (log 115, the model's choice). R153: the watchdog kills a grid that retires nothing, a wholly parked one's time aside (log 56, the model's
reading). R148, R301: a drained group takes up to 32 items of the fullest queue, the first of several (log 116, the model's choice). -/
def Obligations.GroupEvents : Prop := ∀ s : State,
  (∀ gr p a twin, s.grid? gr.id = some gr → s.part? gr.part = some p →
    let unplaced : Prop := gr.kill = none ∧ gr.next < gr.card.blocks
    let another : Prop := ∃ h ∈ s.grids, h.part = gr.part ∧ h.kill = none ∧ h.next < h.card.blocks ∧ precedes h gr
      ∧ s.restoreFirst p h = false ∧ (s.firstRoom p h PlaceArgs.none none).isSome = true
    let may : Prop := unplaced ∧ s.restoreFirst p gr = false ∧ ¬another
    (¬may → exec (.blockPlace gr.id a twin) s = .next s)
    ∧ (may → s.firstRoom p gr a twin = none → exec (.blockPlace gr.id a twin) s = .next s)
    ∧ (∀ c t, may → s.firstRoom p gr a twin = some (c, t) →
      (gr.card.place = 1 → exec (.blockPlace gr.id a twin) s = .next t)
      ∧ (gr.card.place ≠ 1 → exec (.blockPlace gr.id a twin) s = .next (t.updPart p.id fun q =>
          { q with cursor := (s.lcoreOf p c + 1) % max (s.logical p).length 1 }))))
  ∧ (∀ (p : Part) core, (∀ g ∈ s.grids, g.card.prio ≤ 3) → ∃ (back : List Nat) (turn : List Grid),
      (∀ h, h ∈ turn ↔ h ∈ s.grids ∧ h.part = p.id ∧ s.restoreFirst p h = false) ∧ turn.Pairwise (fun a b => ¬precedes b a)
      ∧ s.evictions p core = back.map (fun g => (g, none)) ++ turn.flatMap fun h => (s.evictsFor p h).map fun g => (g, some (h.id, h.next)))
  ∧ (∀ g p, s.grp? g.gid = some g → s.part? g.part = some p →
    ((∀ h, (g.gid, h) ∉ s.evictions p g.core) → exec (.groupEvict g.gid) s = .next s)
    ∧ (∀ before h behind, s.evictions p g.core = before ++ (g.gid, h) :: behind → (∀ e ∈ before, e.1 ≠ g.gid) →
      ∃ t : State, t = s.updGrp g.gid (fun g => { g with evFor := h })
      ∧ (g.place ≠ .resident → exec (.groupEvict g.gid) s = .next (t.giveUp g.gid))
      ∧ (g.place = .resident → g.stop ≠ none → exec (.groupEvict g.gid) s = .next t)
      ∧ (g.place = .resident → g.stop = none → ∃ st : Stop, st.why = .evict
        ∧ exec (.groupEvict g.gid) s = .next ((t.updGrp g.gid fun g => { g with stop := some st }).settleStop g.gid))))
  ∧ (∀ g p, s.grp? g.gid = some g → s.part? g.part = some p →
    let turn : Prop := (s.nextRestore g.core).map Group.gid = some g.gid ∧ s.standsBack p g = false
    (¬turn ∨ s.restore g = none → exec (.groupRestore g.gid) s = .next s)
    ∧ (∀ t, turn → s.restore g = some t → exec (.groupRestore g.gid) s = .next (t.after g.gid)))
  ∧ (∀ gr p, s.grid? gr.id = some gr → s.part? gr.part = some p →
    let hung : Prop := p.regs.watchdog ≠ 0 ∧ gr.kill = none ∧ gr.ended = false ∧ gr.lastRet + 1000 * p.regs.watchdog ≤ s.dev.up
      ∧ ∃ x ∈ s.groups, x.grid = gr.id ∧ ∀ st, x.place ≠ .parked st
    (hung → exec (.watchdogExpire gr.id) s = .next
      ((s.updPart p.id fun p => { p with cnt := { p.cnt with wdKills := p.cnt.wdKills + 1 } }).killGrid gr.id 2))
    ∧ (¬hung → exec (.watchdogExpire gr.id) s = .next s))
  ∧ (∀ (p : Part) (g : Group) (gr : Grid) (k : Nat), s.grid? gr.id = some gr → g.evFor = some (gr.id, k) → gr.next ≠ k → s.standsBack p g = false)
  ∧ (∀ core lb gb park before q behind i0 is caller gr, (s.core! core).callee = before ++ q :: behind →
    (∀ c ∈ before, c.items.length < q.items.length) → (∀ c ∈ behind, c.items.length ≤ q.items.length) →
    (∀ c ∈ before ++ behind, c.target ≠ q.target ∧ c.items ≠ []) → q.items = i0 :: is → s.grp? i0.gid = some caller → s.grid? caller.grid = some gr →
    let taken := (q.items.filter fun i => decide (i.d2 = i0.d2) && decide (i.d3 = i0.d3) && decide ((s.grp? i.gid).map Group.grid = some caller.grid)).take 32
    let i : Instr := .calleeDrain core lb gb park
    (48 ≤ s.slotsUsed core → exec i s = .next s)
    ∧ (s.findStore core (laneBytes gr.card) lb = none → exec i s = .next s)
    ∧ (s.slotsUsed core < 48 → ∀ b, s.findStore core (laneBytes gr.card) lb = some b →
    ∃ t : State, t = ({ s with nextId := s.nextId + 1 } : State).takeRun core b (laneBytes gr.card) (128 * gr.card.lslots) (.lane s.nextId) gr.id 0xFFFFFFFF
    ∧ (t.findStore core (groupBytes gr.card) gb = none → exec i s = .next s)
    ∧ ∀ d, t.findStore core (groupBytes gr.card) gb = some d →
      let lanes := (List.range taken.length).zip taken
      let g := Group.make s.nextId gr.id gr.part core .drained caller.copy 0xFFFFFFFF 0 (s.parkId gr.part park) s.nextId
        { lslots := gr.card.lslots, gslots := gr.card.gslots, lbase := b, gbase := d, d2 := i0.d2, d3 := i0.d3, shift := 0 } (maskOf (lanes.map (·.1))) q.target
      ∃ keep : List CalleeQueue,
        (q.items.filter (fun i => !(taken.contains i)) = [] → keep = [])
        ∧ (q.items.filter (fun i => !(taken.contains i)) ≠ [] → keep = [{ q with items := q.items.filter fun i => !(taken.contains i) }])
        ∧ ∃ u : State, u = (((t.takeRun core d (groupBytes gr.card) (4 * max gr.card.gslots 2) (.groupFrame s.nextId) gr.id 0xFFFFFFFF).addGroup
              { g with items := lanes }).pokeStore core (lanes.flatMap fun e => laneCells g 0 e.1 e.2.words)).pokeStore core (cellsAt d (leBytes 8 gr.card.args.toNat))
        ∧ exec i s = .next { u with cores := u.cores.modify core fun k => { k with callee := before ++ keep ++ behind } }))

/-! ## Frames: what the instructions leave as it was -/

namespace Sys2Proof.Claim

/-- What a split waits for, its place in a barrier aside: a barrier that is complete goes on with every step (R313). -/
def waitsFor : Wait → Wait
  | .bar _ _ => .none
  | w => w
/-- What a group holds and where it stands: frames, flags, trap registers, stop, returns, merge entries, operations, and each split's mask, stack,
place, PC and FMT. Of the issuing group the predicates are left out where `preds` is false, the operations where `ops` is, and of its issuing split
the PC and clause and those bits of FMT that `fmt` has. -/
def regsOf (x : Ctx) (preds ops : Bool) (fmt : Word) (g : Group) :=
  let own := decide (g.gid = x.gid)
  ((g.gid, g.place, g.stop, g.svc, g.save, g.evFor, g.saved, g.cap, g.items, g.merges),
    (g.dead, g.flagErr, g.wake, g.trap, g.fr, g.rets), (if own && !preds then none else some (g.preds, g.gp)), (if own && !ops then none else some g.ops),
    g.splits.map fun p =>
      let mine := own && decide (p.sid = x.p.sid)
      (p.sid, p.mask, p.stack, p.merge, waitsFor p.wait, (if mine then none else some (p.pc, p.clause)), (if mine then p.fmt &&& ~~~fmt else p.fmt)))
/-- A grid, but for what its watchdog counts from. -/
def gridRest (g : Grid) : Grid := { g with lastRet := 0, spins := [] }
/-- Nothing but the cores, the groups, what the grids' watchdogs count from, the writes in flight and the model's own counters differs; a barrier that
completes may add to what is known to have happened before. -/
def SameElsewhere (s t : State) : Prop :=
  t.dev = s.dev ∧ t.quads = s.quads ∧ t.parts = s.parts ∧ t.pages = s.pages ∧ t.blocks = s.blocks ∧ t.nodes = s.nodes ∧ t.jobs = s.jobs
    ∧ t.frames = s.frames ∧ t.applies = s.applies ∧ t.refunds = s.refunds ∧ t.rmas = s.rmas ∧ t.acks = s.acks ∧ t.packets = s.packets
    ∧ t.early = s.early ∧ t.rels = s.rels ∧ (∀ o ∈ s.ordered, o ∈ t.ordered) ∧ t.host = s.host ∧ t.hostMarks = s.hostMarks ∧ t.out = s.out ∧ t.grids.map gridRest = s.grids.map gridRest
/-- A core's frames, credit and queues, but not the bytes of its store or its L1. Which member of a team is urgent is left out: a barrier that is
complete goes on with every step (R313, R147). -/
def coreRegs (k : Machine.Core) :=
  (k.share, k.shareMem, k.regions, k.gens, k.gensShare, k.refill, k.bufReq, k.bufRep, k.callee, k.teams.map fun t => (t.grid, t.t, t.members, t.last))
/-- Byte `a` of core `c`'s store lies in one of the n slots of the destination `o`: of the active lanes' frame slots at depth 0, of the group
frame at depth 1 (R155, R159, R165). -/
def InSlots (x : Ctx) (o : BitVec 10) (n c a : Nat) : Prop :=
  c = x.g.core ∧ ∃ k, k < n ∧
    ((opDepth o = 0 ∧ ∃ l ∈ x.lanes, laneOff x.g ((x.dest o).slot + k) l ≤ a ∧ a < laneOff x.g ((x.dest o).slot + k) l + 4)
      ∨ (opDepth o = 1 ∧ groupOff x.g ((x.dest o).slot + k) ≤ a ∧ a < groupOff x.g ((x.dest o).slot + k) + 4))
/-- Where `ok` holds or no lane is active the instruction completes, and changes nothing but its split's PC, those bits of its split's FMT that `fmt`
has, n slots of its destination, and those of its group's predicates that `ns` numbers: of its active lanes, or of the group where `grp` is true (R223).
For a slot of a block or cluster frame writes of that slot alone are sent (R164). -/
def Only (i : Instr) (ok : Ctx → Prop) (o : BitVec 10) (n : Nat) (grp : Bool) (ns : List Nat) (fmt : Word) : Prop :=
  ∀ s x, issuing i s = some x → (x.act = 0 ∨ ok x) → ∃ t : State, exec i s = .next t
  ∧ SameElsewhere s t ∧ t.groups.map (regsOf x ns.isEmpty true fmt) = s.groups.map (regsOf x ns.isEmpty true fmt)
  ∧ (∃ h, t.grp? x.gid = some h
    ∧ (∀ l k, l < 32 → k < 8 → (grp = true ∨ k ∉ ns ∨ l ∉ x.lanes) → h.pred l k = x.g.pred l k)
    ∧ (∀ k, k < 8 → (grp = false ∨ k ∉ ns) → h.gpred k = x.g.gpred k))
  ∧ (∀ c, coreRegs (t.core! c) = coreRegs (s.core! c) ∧ (t.core! c).credit = (s.core! c).credit ∧ (t.core! c).waiters = (s.core! c).waiters)
  ∧ (∀ c a, ¬InSlots x o n c a → (t.core! c).store.mem.read a = (s.core! c).store.mem.read a)
  ∧ (opDepth o < 2 ∨ n = 0 → t.writes = s.writes)
  ∧ ∃ new : List Write, t.writes = s.writes ++ new ∧ ∀ w ∈ new, w.kind = .slot ∧ ∀ c ∈ w.bytes,
      slotVa (x.dest o).handle (x.dest o).slot ≤ c.1 ∧ c.1 < slotVa (x.dest o).handle (x.dest o).slot + 4 * n
/-- It changes nothing but its split's PC and n slots. -/
def SlotsOnly (i : Instr) (o : BitVec 10) (n : Nat) : Prop := Only i (fun _ => True) o n false [] 0
/-- It changes nothing but its split's PC and predicates. -/
def PredsOnly (i : Instr) (f : Fld) (ns : List Nat) : Prop := Only i (fun _ => True) f.dst 0 f.g ns 0
/-- A long-latency instruction completes at issue, and changes nothing but its split's PC; with an active lane its group has one operation more,
for those lanes and the flag that FS selects (R204, R205). -/
def IssuesOnly (i : Instr) : Prop := ∀ s x, issuing i s = some x → ∃ t : State, exec i s = .next t
  ∧ SameElsewhere s t ∧ t.groups.map (regsOf x true false 0) = s.groups.map (regsOf x true false 0)
  ∧ (∀ c, coreRegs (t.core! c) = coreRegs (s.core! c) ∧ (t.core! c).credit = (s.core! c).credit ∧ (t.core! c).waiters = (s.core! c).waiters
      ∧ (t.core! c).store.mem = (s.core! c).store.mem)
  ∧ t.writes = s.writes
  ∧ ∃ h, t.grp? x.gid = some h ∧ (x.act = 0 → h.ops = x.g.ops)
    ∧ (x.act ≠ 0 → ∃ p : Op, h.ops = x.g.ops ++ [p] ∧ p.mask = x.act ∧ some p.flag = flagOf x.c.word x.f.fs ∧ p.dest = x.dest x.f.dst ∧ p.err = false)
/-- An access that meets no trap, that nothing holds at the group's own frames, and whose credit is there. -/
def CanSend (s : State) (x : Ctx) (align : Nat) (addr : Nat → Nat) (cells : Nat → List Host.Cell) : Prop :=
  let us := writeUnits x cells
  accessTrap x align (us.map fun u => (u.1, u.2.map (·.1))) addr = none ∧ x.g.core < s.cores.length
    ∧ ¬Held x (bytesOf us) (decide (x.f.ord = 2)) x.f.scope ∧ (memBlocks us ≠ [] → Affords x (8 * (memBlocks us).length))
/-- The cell lies in the group's own frames, where a write is performed at once (R156). -/
def inOwnFrame (s : State) (x : Ctx) (c : Host.Cell) : Prop := s.ownFrame x.g (s.locate x.part x.g.core c.1) = true
/-- The cell under the one address of its place (R155, R156). -/
def named (s : State) (x : Ctx) (c : Host.Cell) : Host.Cell := (s.canon x.part x.g.core c.1, c.2)
/-- A store that can be sent completes. No byte of partition memory, and no byte of a core's store outside the group's own frames, is changed
yet. For each naturally aligned 16 B of a lane's cells that do not lie in a frame of its group one write of those cells is sent, each byte under its one
name, and no other; a store to no frame of its group changes nothing else but credit, L1 and its PC. -/
def StoresOnly (i : Instr) (align : Nat) (cells : Ctx → Nat → List Host.Cell) : Prop := ∀ s x, issuing i s = some x → x.act ≠ 0 →
  CanSend s x align x.addr (cells x) → ∃ t : State, exec i s = .next t
  ∧ t.parts.map Part.views = s.parts.map Part.views ∧ t.pages = s.pages ∧ t.host = s.host
  ∧ (∀ c a, (∀ l ∈ x.units, ∀ d ∈ cells x l, s.locate x.part x.g.core d.1 ≠ .store c a) →
      (t.core! c).store.mem.read a = (s.core! c).store.mem.read a)
  ∧ (let leaves (c : List Host.Cell) : Prop := ∃ d ds, c = d :: ds ∧ ¬inOwnFrame s x d
    ∃ new : List Write, t.writes = s.writes ++ new
      ∧ (∀ w ∈ new, ∃ l ∈ x.units, ∃ c ∈ spansOf (cells x l), leaves c ∧ w.bytes = c.map (named s x))
      ∧ (∀ l ∈ x.units, ∀ c ∈ spansOf (cells x l), leaves c → ∃ w ∈ new, w.bytes = c.map (named s x)))
  ∧ ((∀ l ∈ x.units, ∀ d ∈ cells x l, ¬inOwnFrame s x d) →
      SameElsewhere s t ∧ t.groups.map (regsOf x true true 0) = s.groups.map (regsOf x true true 0)
      ∧ (∀ c, coreRegs (t.core! c) = coreRegs (s.core! c) ∧ (t.core! c).store = (s.core! c).store))

end Sys2Proof.Claim

/-- R201, R155, R165, R223, R204: the instructions of classes 0 to 2 that write slots, predicates or FMT change nothing else, but for their split's PC,
and QSAT where they saturate; those with long latency write nothing at issue. -/
def Obligations.RegisterFrame : Prop := ∀ f : Fld,
  (∀ i ∈ [.add f, .sub f, .mul f, .mulhi f, .mad f, .min f, .max f, .abs f, .neg f, .and f, .or f, .xor f, .not f, .andn f, .shl f, .shr f, .sar f,
      .bfx f, .bfi f, .brev f, .sel f, .mov f, .ext f, .f2i f, .shfl f, .bcast f, .red f, .scan f], SlotsOnly i f.dst (tyW f.lo))
  ∧ (∀ i ∈ [.fshl f, .fshr f, .popc f, .clz f, .ctz f, .pmovGet f, .dot4 f, .fadd f, .fsub f, .fmul f, .ffma f, .fmin f, .fmax f, .fneg f, .fabs f,
      .fclass f, .frcp f, .frsq f, .fsqrt f, .fex2 f, .flg2 f, .fsin f, .fcos f, .ftanh f, .fscale f, .frnd f, .i2f f, .pfma f, .padd f, .pmul f,
      .lmask f, .matchLanes f, .fmtrd f, .tdec f, .pack f, .unpack f, .route f], SlotsOnly i f.dst 1)
  ∧ (∀ i ∈ [.madw f, .adr f, .disprd f, .timeTod f, .timeCyc f], SlotsOnly i f.dst 2)
  ∧ (∀ i ∈ [.setp f, .fsetp f, .plop f], PredsOnly i f [f.dst.toNat % 8])
  ∧ PredsOnly (.pmovSet f) f (List.range 7)
  ∧ (f.mod.toNat % 4 = 3 → SlotsOnly (.vote f) f.dst 1)
  ∧ (f.mod.toNat % 4 ≠ 3 → Only (.vote f) (fun _ => True) f.dst 0 (f.g || f.mod.getLsbD 3) [f.dst.toNat % 8] 0)
  ∧ Only (.fmt f) (fun x => fmtBad f.mod (if f.i then f.imm.setWidth 32 else (x.val f.sb 1 (lowest x.act)).setWidth 32) = false) f.dst 0 false []
      (fmtBits f.mod)
  ∧ (∀ i ∈ [.fcvt f, .tenc f], Only i (fun _ => True) f.dst 1 false [] 0x8000)
  ∧ Only (.qnt f) (fun x => IsNarrow (outf x)) f.dst 2 false [] 0x8000
  ∧ Only (.dqnt f) (fun x => IsNarrow (af x)) f.dst 1 false [] 0
  ∧ (∀ i ∈ [.div f, .rem f, .fdiv f], IssuesOnly i)
  ∧ (∀ i ∈ [.nop f, .yield f], SlotsOnly i f.dst 0)

/-- R156, R275, R279: stores change no memory but that of their group's own frames at issue, and send their own bytes alone. -/
def Obligations.StoreFrame : Prop := ∀ f : Fld,
  StoresOnly (.st f) (2 ^ f.size) (dataCells f) ∧ StoresOnly (.stm f) 1 (maskedCells f)

/-! ## The machine as a whole -/

/-- R207, R208, R214: an instruction's word decodes to it, and the word that a decoded instruction encodes to is the one it came from; no bit of
a word is dropped. -/
def Obligations.RoundTrip : Prop :=
  (∀ (i : Instr) (w : DWord), i.wf = true → encode i = some w → decodeWord w = .ok i)
  ∧ (∀ (i : Instr) (w : DWord), decodeWord w = .ok i → i.wf = true ∧ encode i = some w)

/-- Words that the spec itself encodes beside R207, R210, R233, R234, R256, R258, R280 to R284, R295, R316, R322 and R338 and in its worked programs (of
R340 and R342), and one `fopen` written out from R306, decode to the instructions that they are. -/
def Obligations.DecodedWords : Prop :=
  let slot (d s : Nat) : BitVec 10 := BitVec.ofNat 10 (256 * d + s)
  let z : Fld := { i := false, mod := 0, sc := 0, sb := 0, sa := 0, dst := 0, fs := false, pneg := false, pn := 7, g := false }
  decodeWord 0x0100004810061C08 = .ok (.div { z with mod := 2, dst := slot 0 12, sa := slot 0 8, sb := slot 0 9 })
  ∧ decodeWord 0x0300_0001_EA06_8401 = .ok (.mov { z with mod := 6, pn := 1, dst := slot 0 13, sa := slot 0 245 })
  ∧ decodeWord 0x1100_0028_0801_1C1F = .ok (.setp { z with mod := 0x22, dst := 2, sa := slot 0 4, sb := slot 0 5 })
  ∧ decodeWord 0x1800_E008_0401_9C20 = .ok (.plop { z with mod := 0x30, dst := 3, sa := 2, sb := 1, sc := 7 })
  ∧ decodeWord 0x8B00_0008_0802_9C80 = .ok (.shfl { z with i := true, mod := 0x16, dst := slot 0 5, sa := slot 0 4, sb := 1 })
  ∧ decodeWord 0xB500_0200_0804_88C0 = .ok (.ld { z with i := true, mod := 0x6A, pn := 2, dst := slot 0 9, sa := slot 0 4, sb := 64 })
  ∧ decodeWord 0x0181_4038_0804_1CC2 = .ok (.stm { z with mod := 3, dst := slot 0 8, sa := slot 0 4, sb := slot 0 7, sc := slot 0 10 })
  ∧ decodeWord 0x8000_000A_0403_1EC3 = .ok (.atom { z with i := true, g := true, dst := slot 0 6, sa := slot 1 2, sb := 1 })
  ∧ decodeWord 0x0000_0000_0000_1D40 = .ok (.bar z)
  ∧ decodeWord 0x8000_0000_0002_8507 = .ok (.loop { z with i := true, pn := 1, dst := 5 })
  ∧ decodeWord 0x0000_0000_100A_1D47 = .ok (.jrnl { z with dst := slot 0 20, sa := slot 0 8 })
  ∧ decodeWord 0x4280_0004_0000_1D81 = .ok (.mmag { z with mod := 0x85, sa := slot 2 0 })
  ∧ decodeWord 0x019E_A000_200C_1D89 = .ok (.msg { z with mod := 3, dst := slot 0 24, sa := slot 0 16, sc := slot 0 245 })
  ∧ decodeWord 0x807F_FFE0_0001_8100 = .ok (.bra { z with i := true, pn := 0, sc := 0x3FF, sb := 0x3FC, dst := 3 })
  ∧ decodeWord 0x8100_0028_0000_1D03 = .ok (.call { z with i := true, mod := 2, sb := 5 })
  ∧ decodeWord 0x0180_0000_0403_8481 = .ok (.vote { z with mod := 3, pn := 1, dst := slot 0 7, sa := 2 })
  ∧ decodeWord 0x8200_0000_0804_1CC1 = .ok (.st { z with i := true, mod := 4, dst := slot 0 8, sa := slot 0 4 })
  ∧ decodeWord 0x8800_0038_0A05_1D83 = .ok (.accrdQ { z with i := true, mod := 0x10, dst := slot 0 10, sa := 5, sb := 7 })
  ∧ decodeWord 0x8080_0080_0001_9D08 = .ok (.fopen { z with i := true, mod := 1, dst := slot 0 3, sb := 16 })
  ∧ decodeWord 0x8080_0810_0E00_1DC4 = .ok (.wrsr { z with i := true, mod := 1, sa := slot 0 7, sb := 0x102 })
  ∧ decodeWord 0x8000_0038_0000_1DC0 = .ok (.svc { z with i := true, sb := 7 })

namespace Sys2Proof.Claim

/-- A split of a resident group in which no other split is asleep, about to issue the word at its PC: no kill and no stop of its own holds it,
and it waits for nothing but that word. -/
def AtWord (s : State) (g : Group) (p : Split) : Prop :=
  s.grp? g.gid = some g ∧ g.split? p.sid = some p ∧ g.place = .resident ∧ (∀ q ∈ g.splits, q.sid = p.sid ∨ q.wait ≠ .sleep)
    ∧ s.killed g = false ∧ (∀ st, g.stop = some st → st.sid ≠ p.sid) ∧ p.wait.mayIssue = true
/-- The move at the head of the agenda has been taken; who issues is known. -/
def taking (s : State) (ms : List Move) (cur : Option Cur) : State := { s with agenda := ms, cur := cur }
/-- And the group has its port's step (R146). -/
def onPort (s : State) (ms : List Move) (g : Group) (sid : Nat) : State := { (taking s ms s.cur).takePort g with cur := some ⟨g.gid, sid⟩ }
/-- The group, whose port has issued nothing since. -/
def portless (g : Group) : Group := { g with unissued := 0 }

end Sys2Proof.Claim

/-- R146, R202, R207, R212, R214, R5: the step of a split that stands at a word is the step of the instruction whose eight bytes stand there, or trap 0x01
where they are no instruction; at a header it is the start of a clause; in a killed grid the group exits. The fetch fills its line, where a mem-block
that cannot be expanded becomes poisoned (R73). While another ready group of its port goes before its group it does not issue (log 109, the model's
reading). A step of another agent is that step (log 1). -/
def Obligations.StepRunsDecoded : Prop := ∀ (s : State) (ms : List Move),
  (∀ (g : Group) (p : Split), s.agenda = .issue g.gid p.sid :: ms → s.grp? g.gid = some g → (taking s ms s.cur).outranked g = true →
      step s = .next (taking s ms (some ⟨g.gid, p.sid⟩)))
  ∧ (∀ g p c, s.agenda = .issue g.gid p.sid :: ms → AtWord s g p → p.clause = some c → (taking s ms s.cur).outranked g = false →
    let t := (onPort s ms g p.sid).fetchFill (portless g) p.pc
    (∀ w i, t.fetch (portless g) p.pc = .word w → decodeWord w = .ok i → step s = exec i t)
    ∧ (∀ w i, t.fetch (portless g) p.pc = .word w → ofWord w = some i → step s = exec i t)
    ∧ (∀ w op, t.fetch (portless g) p.pc = .word w → decodeWord w = .error (.opcode op) →
        step s = .next (t.raiseTrap g.gid p.sid 0x01 (p.mask &&& ~~~ g.dead) 0 p.pc (some c)))
    ∧ (∀ q pg, t.part? g.part = some q → p.pc < 2 ^ 48 → t.page? g.part (p.pc / 65536) = some pg → pg.hw = none → q.poisoned p.pc 8 = false →
        (g.core / 96, p.pc / 128) ∉ q.replicas →
        let bytes := (List.range 8).map fun i => (q.views.getD (homeDie q p.pc) View.empty).read (p.pc + i)
        ∀ i, decodeBytes bytes = .ok i → step s = exec i t))
  ∧ (∀ g p c, s.agenda = .issue g.gid p.sid :: ms → s.grp? g.gid = some g → g.split? p.sid = some p → g.mayIssue p.sid = true →
      s.killed g = true → p.clause = some c → (taking s ms s.cur).outranked g = false → step s = .next ((onPort s ms g p.sid).exitKilled (portless g)))
  ∧ (∀ (g : Group) (p : Split), s.agenda = .issue g.gid p.sid :: ms → s.grp? g.gid = some g → g.split? p.sid = some p → p.clause = none →
      (taking s ms s.cur).outranked g = false → step s = exec (.clauseStart g.gid p.sid) (onPort s ms g p.sid))
  ∧ (∀ i, s.agenda = .event i :: ms → info i = none → isCommand i = false → isWrsrPart i = false → step s = exec i (taking s ms none))
  ∧ (∀ c i t, s.agenda = .visit :: ms → s.dev.running = true → ({ s with agenda := ms } : State).visit = (some c, t) → c.instr = some i →
      (∀ e ∈ s.dev.patches, e.1 ≠ cmdCode c.b) → step s = exec i t)

namespace Sys2Proof.Claim

/-- The current split reaches the word of an instruction of the opcode table in its clause: its group may issue it, no kill and no stop of its own
holds it, and it waits for nothing but that word. -/
def Reaches (i : Instr) (s : State) (k : OpInfo) (g : Group) (p : Split) (c : Clause) : Prop :=
  info i = some k ∧ ∃ cur, s.cur = some cur ∧ s.grp? cur.gid = some g ∧ g.split? cur.sid = some p ∧ p.clause = some c ∧ g.mayIssue p.sid = true
    ∧ s.killed g = false ∧ (∀ st, g.stop = some st → st.sid ≠ p.sid) ∧ p.wait.mayIssue = true
/-- The instruction is not legal in the group's context (R38, R44, R305). -/
def NoContext (i : Instr) (g : Group) : Prop := ∃ f : Fld,
  (i ∈ [.bar f, .barc f, .tbar f, .tjoin f, .tleave f] ∧ (g.kind = .request ∨ g.kind = .reply))
  ∨ (i ∈ [.sleep f, .svc f, .callx f] ∧ g.kind = .reply) ∨ (i = .tret f ∧ g.trap.inH = false)
/-- A control instruction at another place than the last of its clause (R211). -/
def NotLast (i : Instr) (p : Split) (c : Clause) : Prop := p.pc + 8 ≠ c.next ∧ ∃ f : Fld, i ∈ [.bra f, .brx f, .split f, .call f, .callx f, .ret f,
  .exit f, .loop f, .tret f, .bar f, .barc f, .tbar f, .sleep f, .svc f, .trap f, .brk f, .yield f]
/-- I, G, FS or a guard that the entry does not allow, or a MOD that it does not define (R208, R210, R214). -/
def BadForm (i : Instr) (k : OpInfo) : Prop :=
  (k.fld.i = true ∧ k.imm = .no) ∨ (k.fld.i = false ∧ k.imm ≠ .no ∧ k.imm ≠ .yes) ∨ (k.fld.g = true ∧ k.g = false)
    ∨ (k.fld.fs = true ∧ k.long = false) ∨ modLegal i = false ∨ (k.guard = false ∧ (k.fld.pn ≠ 7 ∨ k.fld.pneg = true))
/-- FS names a flag that is not valid in the header: AV is bit 16, BV bit 21 (R202, R204). -/
def NoFlag (k : OpInfo) (c : Clause) : Prop := k.long = true ∧ c.word.getLsbD (if k.fld.fs then 21 else 16) = false
/-- A run of slots that leaves its frame: the lane frame above the shift, the group frame, which a handler group lacks, or the frame of a display, which
may be null (R157, R159, R161, R44). -/
def Leaves (s : State) (g : Group) (o : BitVec 10) (n : Nat) : Prop :=
  let a := o.toNat % 256
  n ≠ 0 ∧ ((o.toNat / 256 = 0 ∧ g.fr.lslots < a + n + g.fr.shift)
    ∨ (o.toNat / 256 = 1 ∧ (g.kind = .request ∨ g.kind = .reply ∨ max g.fr.gslots 2 < a + n))
    ∨ (2 ≤ o.toNat / 256 ∧ (g.display (o.toNat / 256) = 0 ∨ (s.live g.core g.grid (g.display (o.toNat / 256)) = true
        ∧ hdrSize (s.header g.core (o.toNat / 256) (hOff (g.display (o.toNat / 256)))) < a + n))))
/-- A use of an operand field breaks a limit (R158, R159, R223, R322): the specials are sources 240 to 247 of depth 0. -/
def BadUse (s : State) (g : Group) (f : Fld) (u : Use) : Prop :=
  let o := f.opd u.fld
  let d := o.toNat / 256
  let a := o.toNat % 256
  match u.role with
  | .pred => 8 ≤ o.toNat
  | .tile => 128 ≤ o.toNat
  | .desc n => d = 0 ∨ a % 2 ≠ 0 ∨ 256 < a + n ∨ Leaves s g o n
  | .dst n al => a % al ≠ 0 ∨ (d = 0 ∧ 240 < a + n) ∨ (d = 1 ∧ 128 < a + n) ∨ Leaves s g o n
  | .src n al => a % al ≠ 0 ∨ (d = 0 ∧ 240 < a + n ∧ ¬(240 ≤ a ∧ a + n ≤ 248)) ∨ (d = 1 ∧ 128 < a + n) ∨ 256 < a + n
      ∨ (¬(d = 0 ∧ 240 ≤ a) ∧ Leaves s g o n)
/-- An operand field that the entry does not use and that is not 0 (R208), a use beyond a limit, a tile that the block does not have (R322), a join offset
in `call` (R300), or an immediate that is no register or service number (R340, R342). -/
def BadOperand (i : Instr) (s : State) (k : OpInfo) (g : Group) : Prop :=
  (∃ x : FieldSel, k.imm ≠ .control ∧ (x = .d ∨ x = .a ∨ k.fld.i = false) ∧ (∀ u ∈ uses i, u.fld ≠ x) ∧ k.fld.opd x ≠ 0)
  ∨ (∃ u ∈ uses i, BadUse s g k.fld u)
  ∨ (∃ f n, ((i ∈ [.mma f, .mmag f, .accz f] ∧ n = f.mod.toNat % 128) ∨ (i ∈ [.accrd f, .accrdQ f] ∧ n = f.sa.toNat) ∨ (i = .accwr f ∧ n = f.dst.toNat))
      ∧ (g.kind ≠ .normal ∨ ∀ r, s.grid? g.grid = some r → r.card.acct ≤ n))
  ∨ ∃ f : Fld, (i = .call f ∧ f.joinOff ≠ 0) ∨ (i ∈ [.rdsr f, .wrsr f] ∧ 4096 ≤ f.imm.toNat) ∨ (i = .svc f ∧ 0xFFFF ≤ f.imm.toNat)
/-- A use that goes through a stale display (R163). -/
def StaleUse (s : State) (g : Group) (f : Fld) (u : Use) : Prop :=
  u.count ≠ 0 ∧ 2 ≤ (f.opd u.fld).toNat / 256 ∧ s.live g.core g.grid (g.display ((f.opd u.fld).toNat / 256)) = false

end Sys2Proof.Claim

/-- R211, R212, R214, R163: an instruction whose word fails a check raises the trap of the first that it fails, in R212's order, at its word: 0x01 where it is
not legal in its group's context, 0x06, 0x02, 0x04, 0x03, with TADDR 0; then 0x22, for class 2 too, with the handle of the first
stale display that it uses (the model's choices, log 128). TLM names its active lanes, and no lane of it is performed. -/
def Obligations.EncodingFaults : Prop := ∀ (i : Instr) (s : State) (k : OpInfo) (g : Group) (p : Split) (c : Clause), Reaches i s k g p c →
  let traps (code : BitVec 8) (addr : Nat) : Prop := exec i s = .next (s.raiseTrap g.gid p.sid code (lanesFor g p k) addr p.pc (some c))
  (NoContext i g → traps 0x01 0)
  ∧ (¬NoContext i g → (NotLast i p c → traps 0x06 0)
  ∧ (¬NotLast i p c → (BadForm i k → traps 0x02 0)
  ∧ (¬BadForm i k → (NoFlag k c → traps 0x04 0)
  ∧ (¬NoFlag k c → (BadOperand i s k g → traps 0x03 0)
  ∧ (¬BadOperand i s k g → lanesFor g p k ≠ 0 → ∀ before u behind, uses i = before ++ u :: behind → StaleUse s g k.fld u →
      (∀ v ∈ before, ¬StaleUse s g k.fld v) → traps 0x22 (g.display ((k.fld.opd u.fld).toNat / 256)).toNat)))))

/-- R173, R175, R176, R152, R363: with a handler a trap sets the trap registers and TCAUSE.IN, pushes a marker on both stacks and runs the faulting split from HANDLER
with its mask, frames, predicates and FMT as they stand; without one, or while TCAUSE.IN is set, its grid is killed. While another split's
trap or park is decided, the split waits at its word for that (the model's choice, log 90), and a memory fault that is pending goes before the trap. -/
def Obligations.TrapEntry : Prop := ∀ (s : State) (g : Group) (p : Split) (code : BitVec 8) (lanes : Mask) (addr tpc : Nat) (c : Option Clause),
  s.grp? g.gid = some g → g.split? p.sid = some p →
  (∀ st, g.stop = some st → st.sid ≠ p.sid → st.why ≠ .evict →
    s.raiseTrap g.gid p.sid code lanes addr tpc c = (s.updGrp g.gid fun g => g.updSplit p.sid fun p => { p with wait := .stopped }).settleStop g.gid)
  ∧ (∀ (fc : BitVec 8) (fm : Mask) (fa : Nat) (st : Stop), g.stop = none → g.mm.fault = some (fc, fm, fa) → st = ⟨.page, p.sid, fc, fm, fa, tpc, c⟩ →
    s.raiseTrap g.gid p.sid code lanes addr tpc c = (s.updGrp g.gid fun g => { g with stop := some st }).settleStop g.gid)
  ∧ (g.stop = none → g.place = .resident → s.killed g = false → g.saved = none → g.mm.fault = none → g.ops = [] →
  (∀ q ∈ g.splits, (q.sid = p.sid ∨ q.clause = none ∨ q.wait = .stopped) ∧ q.wait.writes = false) → code ≠ 0x42 →
  (s.handlerOf g ≠ 0 → g.trap.inH = false → ∃ h q, (s.raiseTrap g.gid p.sid code lanes addr tpc c).grp? g.gid = some h ∧ h.split? p.sid = some q
    ∧ h.trap = { tlm := lanes, inH := true, code := code, tpc := BitVec.ofNat 64 tpc, taddr := BitVec.ofNat 64 addr }
    ∧ q.pc = s.handlerOf g ∧ q.clause = none ∧ q.mask = p.mask ∧ q.fmt = p.fmt ∧ (∃ e, q.stack = e :: p.stack ∧ e.kind = .marker)
    ∧ (∃ e, h.rets = e :: g.rets ∧ e.marker = true) ∧ h.fr = g.fr ∧ h.preds = g.preds ∧ h.gp = g.gp ∧ h.dead = g.dead ∧ h.flagErr = g.flagErr
    ∧ h.place = .resident ∧ h.stop = none
    ∧ ∃ v, h.save = some v ∧ v.mask = p.mask ∧ v.shift = g.fr.shift ∧ v.d2 = g.fr.d2 ∧ v.d3 = g.fr.d3 ∧ v.clause = c ∧ v.tpc = tpc)
  ∧ (s.handlerOf g = 0 ∨ g.trap.inH = true → ∃ st : Stop, st.code = code
    ∧ s.raiseTrap g.gid p.sid code lanes addr tpc c =
        ((s.updGrp g.gid fun g => { g with stop := some st }).updGrp g.gid Group.goOn).killGrid g.grid 1))

/-- After device reset no partition exists and nothing is at work: R17, R26, R64, R109, R110, R162. That the log is empty, its overflow count 0 and THROTTLE
off is the model's choice (log 6); the memories' canonical form is the model's own (log 10). -/
def Obligations.ResetState : Prop :=
  let s := State.reset
  s.parts = [] ∧ s.pages = [] ∧ s.grids = [] ∧ s.blocks = [] ∧ s.groups = [] ∧ s.nodes = [] ∧ s.jobs = [] ∧ s.frames = [] ∧ s.writes = [] ∧ s.applies = []
    ∧ s.refunds = [] ∧ s.rmas = [] ∧ s.packets = [] ∧ s.dev.ptpMode = 0 ∧ s.dev.ptpPort = 0 ∧ s.dev.log = [] ∧ s.dev.logOverflow = 0 ∧ s.dev.patches = []
    ∧ s.dev.supJob = none ∧ s.dev.throttle = false ∧ s.dev.coolAt = none ∧ s.quads.length = 16 ∧ s.cores.length = 384
    ∧ (∀ k ∈ s.cores, k.credit = 0 ∧ k.gens = [] ∧ k.gensShare = [] ∧ k.callee = [] ∧ k.bufReq = [] ∧ k.bufRep = [])
    ∧ s.memWf = true

/-- Every step keeps every memory of the machine in its canonical form: cells in rising order, none equal to what an unlisted byte reads as (log 10). -/
def Obligations.StepKeepsForm : Prop := ∀ s t : State, s.memWf = true → step s = .next t → t.memWf = true

namespace Sys2Proof.Claim

/-- The current split stands at a word of a paired block that passes every check before the block's gate (R182). -/
def AtGate (i : Instr) (s : State) (g : Group) (p : Split) (b : Block) : Prop :=
  ∃ k cur c, info i = some k ∧ s.cur = some cur ∧ s.grp? cur.gid = some g ∧ g.split? cur.sid = some p ∧ p.clause = some c ∧ g.mayIssue p.sid = true
    ∧ s.killed g = false ∧ g.stop = none ∧ p.wait.mayIssue = true ∧ issueFault s g p c i k = none ∧ s.pairBlock g = some b
    ∧ (lanesFor g p k = 0 ∨ (staleUse s g k.fld (uses i) = none ∧ s.unheld g c i k (lanesFor g p k) = true))
/-- The instructions before which an interval of R182 ends, and `exit`, which stands for the block's end. -/
def EndsInterval (i : Instr) : Prop := ∃ f : Fld, i ∈ [.bar f, .barc f, .tbar f, .exit f, .atom f, .mred f, .blkz f, .cpy f, .nbkVload f, .nbkMv f, .nbkDrain f,
  .nbkClear f, .nbkFence f, .msg f, .msgNw f, .spawn f, .node f, .jrnl f, .emit f, .jrd f, .jtrunc f, .jtruncClose f, .publish f, .svc f, .wakePark f,
  .wakeQueue f, .wakeMgmt f]
/-- Those of them that both copies perform. -/
def BothPerform (i : Instr) : Prop := ∃ f : Fld, i ∈ [.bar f, .barc f, .tbar f, .exit f]
/-- The block's record after an interval. -/
def pairIs (b : Block) (q : Pair) (s : State) : State := s.updBlock b.grid b.bidx 0 fun x => { x with pair := some q }
/-- The splits of both copies that stand at the interval's end go on from it so. -/
def fromEnd (b : Block) (w : Wait) (s : State) : State := { s with groups := s.groups.map fun g =>
  if g.grid = b.grid ∧ g.bidx = b.bidx ∧ g.kind = .normal then
    { g with splits := g.splits.map fun p => { p with wait := if p.wait = .pairEnd then w else p.wait } } else g }
/-- Held stores are discarded. -/
def discarded (ws : List Write) (s : State) : State := { s with
  refunds := s.refunds ++ ((ws.filter fun w => decide (w.pledge ≠ 0)).map fun w => { core := w.core, part := w.part, cells := w.pledge }) }

/-- The split stands at the end of an interval, and so does the same split of the other copy, at the same word. -/
def BothAt (t : State) (b : Block) (g : Group) (p : Split) : Prop :=
  p.wait = .pairEnd ∧ ∃ x ∈ t.groups, x.grid = b.grid ∧ x.bidx = b.bidx ∧ x.kind = .normal ∧ x.copy ≠ g.copy ∧ x.gidx = g.gidx
    ∧ ∃ q ∈ x.splits, q.sid = p.sid ∧ q.wait = .pairEnd ∧ q.pc = p.pc
/-- Every split of the group stands at an end or at a barrier, or has merged into another; or the group is asleep, and no wake has come. -/
def AllAtEnd (g : Group) : Prop :=
  (g.wake = 0 ∧ ∃ p ∈ g.splits, p.wait = .sleep) ∨ ∀ p ∈ g.splits, p.wait = .pairEnd ∨ p.wait = .merged ∨ ∃ k n, p.wait = .bar k n
/-- Group number k of `t`, as it goes on from an interval's end in `u`: the splits at the end go on, all of them where both copies are at it, else those
that the other copy's stand beside; nothing else differs. -/
def Sent (t : State) (b : Block) (k : Nat) (u : State) : Prop :=
  u = { t with groups := u.groups } ∧ u.groups.length = t.groups.length ∧ ∀ g h, t.groups[k]? = some g → u.groups[k]? = some h →
    h = { g with splits := h.splits } ∧ h.splits.length = g.splits.length ∧ ∀ (j : Nat) (p : Split), g.splits[j]? = some p →
      (g.grid = b.grid ∧ g.bidx = b.bidx ∧ g.kind = .normal ∧ p.wait = .pairEnd ∧ (t.pairReady b = true ∨ BothAt t b g p) →
        h.splits[j]? = some { p with wait := .pairGo })
      ∧ (¬(g.grid = b.grid ∧ g.bidx = b.bidx ∧ g.kind = .normal ∧ p.wait = .pairEnd ∧ (t.pairReady b = true ∨ BothAt t b g p)) → h.splits[j]? = some p)

end Sys2Proof.Claim

/-- R182: a paired block. Within an interval each copy's stores are held. An interval ends before an instruction that ends one: at once where both copies
stand at it and the primary performs it alone, and else when every group of both copies stands at an end. The signatures are then compared: equal, the
primary's stores are sent and the twin's discarded; different, both are discarded once the block is quiet, the copies return to their snapshots and
MISMATCHES rises; different again, every group takes trap 0x60. When an interval is at its end, whether signatures that differ while other groups run on
are judged there, what of it a group waits for, and that a store to the cluster frame is hashed without its address are the model's reading (log 22). -/
def Obligations.PairedBlocks : Prop :=
  (∀ (s : State) (g : Group) (w : Write) (b : Block) (q : Part), s.pairBlock g = some b → s.part? g.part = some q → w.kind = .store →
    s.ownFrame g (s.locate q g.core w.addr) = false → (∀ c o, s.locate q w.core w.addr ≠ .store c o) →
    s.sendWrite g w = s.updBlock b.grid b.bidx 0 fun x => { x with pair := x.pair.map fun r =>
      if g.copy = 0 then { r with held0 := r.held0 ++ [w] } else { r with held1 := r.held1 ++ [w] } })
  ∧ (∀ (i : Instr) (s : State) (g : Group) (p : Split) (b : Block) (q : Pair), AtGate i s g p b → b.pair = some q →
    let atEnd : State := s.updGrp g.gid fun g => g.updSplit p.sid fun p => { p with wait := .pairEnd }
    let early (t : State) (e : Bool) : Prop := e = true ↔ ¬BothPerform i ∧ BothAt t b g { p with wait := .pairEnd }
    (p.wait = .pairGo → g.copy ≠ 0 → EndsInterval i → ¬BothPerform i → exec i s = .next s)
    ∧ (p.wait ≠ .pairGo → q.sync = true → exec i s = .next (s.pairStart b))
    ∧ (p.wait ≠ .pairGo → q.sync = false → q.bad = true → exec i s = .next (s.pairDiffer b))
    ∧ (∀ e, p.wait = .pairEnd → q.sync = false → q.bad = false → early s e → exec i s = .next (s.pairCompare b e))
    ∧ (∀ e, p.wait ≠ .pairEnd → p.wait ≠ .pairGo → q.sync = false → q.bad = false → EndsInterval i → early atEnd e →
        exec i s = .next (atEnd.pairCompare b e)))
  ∧ ∀ (t : State) (b : Block) (q : Pair), t.block? b.grid b.bidx 0 = some b → b.pair = some q →
    let same : Prop := signature q.held0 = signature q.held1
    (t.pairReady b = true ↔ t.pairQuiet b = true ∧ ∀ g ∈ t.groups, g.grid = b.grid → g.bidx = b.bidx → g.kind = .normal → AllAtEnd g)
    ∧ (t.pairReady b = false → t.pairCompare b false = t)
    ∧ (∀ e, t.pairReady b = true ∨ e = true → same → ∃ u : State, (∀ k, Sent t b k u) ∧ t.pairCompare b e =
        pairIs b { q with held0 := [], held1 := [], again := false, sync := true, took := [] } (discarded q.held1 { u with writes := t.writes ++ q.held0 }))
    ∧ (t.pairReady b = false → ¬same → t.pairCompare b true =
        (let u : State := { t with free := t.free + 1 }; if Config.freeBit t.free 0 then u.pairDiffer b else u))
    ∧ (∀ e, t.pairReady b = true → ¬same → t.pairCompare b e = t.pairDiffer b)
    ∧ (t.pairQuiet b = false → t.pairDiffer b = pairIs b { q with bad := true } t)
    ∧ (t.pairQuiet b = true → q.again = true → ∃ u : State,
        u = fromEnd b .none (pairIs b { q with held0 := [], held1 := [], again := false, bad := false, took := [] } (discarded q.held1 (discarded q.held0 t)))
        ∧ t.pairDiffer b = (u.pairGroups b).foldl (fun s g => match g.splits.head? with
            | some p => s.raiseTrap g.gid p.sid 0x60 (p.mask &&& ~~~g.dead) 0 p.pc p.clause
            | none => s) u)
    ∧ (t.pairQuiet b = true → q.again = false → ∀ gr pt, t.grid? b.grid = some gr → t.part? gr.part = some pt → ∃ u : State,
        t.pairDiffer b = u
        ∧ (u.block? b.grid b.bidx 0).bind Block.pair = some { q with held0 := [], held1 := [], again := true, sync := false, bad := false, took := [] }
        ∧ (u.part? gr.part).map (fun p => p.cnt.mismatches) = some (pt.cnt.mismatches + 1)
        ∧ u.writes = t.writes ∧ u.refunds = (discarded q.held1 (discarded q.held0 t)).refunds
        ∧ (u.block? b.grid b.bidx 0).map (fun x => (x.acc, x.accPoison)) = some (q.snap0.acc, q.snap0.accPoison)
        ∧ (∀ d, t.block? b.grid b.bidx 1 = some d → (u.block? b.grid b.bidx 1).map (fun x => (x.acc, x.accPoison)) = some (q.snap1.acc, q.snap1.accPoison))
        ∧ (∀ x g, q.snap0.groups.find? (fun y => decide (y.gid = x.gid)) = some x → (∀ y ∈ q.snap1.groups, y.gid ≠ x.gid) → t.grp? x.gid = some g →
            ∃ (y h : Group), u.grp? x.gid = some h ∧ h = { g.takeBack y with wake := h.wake, wakeGc := h.wakeGc }
              ∧ { y with splits := [] } = { x with splits := [] }
              ∧ y.splits.map (fun p => { p with wait := waitsFor p.wait }) = x.splits.map (fun p => { p with wait := waitsFor p.wait }))
        ∧ (t.memWf = true → b.core < t.cores.length → b.core ≠ q.core1 →
            q.snap0.frames.Pairwise (fun f h => f.1 + f.2.length ≤ h.1 ∨ h.1 + h.2.length ≤ f.1) →
            ∀ f ∈ q.snap0.frames, ∀ k v, f.2[k]? = some v → (u.core! b.core).store.mem.read (f.1 + k) = v))
end

