-- ==== Sys2Proof/Laws/Mem.lean ====
section
/-!
SUPPORT. The laws of memory: reading after writing, the canonical form that every memory operation keeps, and the list helpers.
-/

namespace Sys2Proof

/-! ## The canonical form -/

theorem Mem.wfFrom_mono {lo hi : Nat} {m : Mem} (h : Mem.wfFrom hi m = true) (hle : lo ≤ hi) : Mem.wfFrom lo m = true := by
  cases m with
  | nil => rfl
  | cons c m =>
    obtain ⟨a, v⟩ := c
    simp only [Mem.wfFrom, Bool.and_eq_true, decide_eq_true_eq] at h ⊢
    exact ⟨⟨by omega, h.1.2⟩, h.2⟩

theorem Mem.wfFrom_write {m : Mem} {lo a : Nat} {v : Byte} (h : Mem.wfFrom lo m = true) (hle : lo ≤ a) :
    Mem.wfFrom lo (Mem.write m a v) = true := by
  induction m generalizing lo with
  | nil =>
    simp only [Mem.write]
    split
    · rfl
    · simp only [Mem.wfFrom, Bool.and_eq_true, decide_eq_true_eq, and_true]
      exact ⟨hle, ‹_›⟩
  | cons c m ih =>
    obtain ⟨b, w⟩ := c
    simp only [Mem.wfFrom, Bool.and_eq_true, decide_eq_true_eq] at h
    simp only [Mem.write]
    split
    · split
      · simp only [Mem.wfFrom, Bool.and_eq_true, decide_eq_true_eq]
        exact h
      · rename_i hlt hv
        simp only [Mem.wfFrom, Bool.and_eq_true, decide_eq_true_eq]
        exact ⟨⟨hle, hv⟩, ⟨by omega, h.1.2⟩, h.2⟩
    · split
      · rename_i hlt heq
        split
        · exact Mem.wfFrom_mono h.2 (by omega)
        · rename_i hv
          simp only [Mem.wfFrom, Bool.and_eq_true, decide_eq_true_eq]
          exact ⟨⟨hle, hv⟩, Mem.wfFrom_mono h.2 (by omega)⟩
      · simp only [Mem.wfFrom, Bool.and_eq_true, decide_eq_true_eq]
        exact ⟨h.1, ih h.2 (by omega)⟩

theorem Mem.wfFrom_filter {m : Mem} {lo : Nat} (p : Host.Cell → Bool) (h : Mem.wfFrom lo m = true) :
    Mem.wfFrom lo (m.filter p) = true := by
  induction m generalizing lo with
  | nil => rfl
  | cons c m ih =>
    obtain ⟨a, v⟩ := c
    simp only [Mem.wfFrom, Bool.and_eq_true, decide_eq_true_eq] at h
    by_cases hp : p (a, v) = true
    · simp only [List.filter_cons_of_pos hp, Mem.wfFrom, Bool.and_eq_true, decide_eq_true_eq]
      exact ⟨h.1, ih h.2⟩
    · rw [List.filter_cons_of_neg hp]
      exact Mem.wfFrom_mono (ih h.2) (by omega)

@[simp] theorem Mem.wf_nil : Mem.wf [] = true := rfl

theorem Mem.write_wf {m : Mem} (h : m.wf = true) (a : Nat) (v : Byte) : (Mem.write m a v).wf = true :=
  Mem.wfFrom_write h (Nat.zero_le a)

theorem Mem.writeCells_wf {m : Mem} (h : m.wf = true) (cs : List Host.Cell) : (Mem.writeCells m cs).wf = true := by
  induction cs generalizing m with
  | nil => exact h
  | cons c cs ih => exact ih (Mem.write_wf h c.1 c.2)

theorem Mem.writeN_wf {m : Mem} (h : m.wf = true) (a : Nat) (bs : List Byte) : (Mem.writeN m a bs).wf = true := by
  induction bs generalizing m a with
  | nil => exact h
  | cons b bs ih => exact ih (Mem.write_wf h a b) (a + 1)

theorem Mem.filter_wf {m : Mem} (p : Host.Cell → Bool) (h : m.wf = true) : Mem.wf (m.filter p) = true := Mem.wfFrom_filter p h

theorem Mem.clear_wf {m : Mem} (h : m.wf = true) (a n : Nat) : (Mem.clear m a n).wf = true := Mem.filter_wf _ h

/-! ## Reading -/

theorem Mem.read_below {m : Mem} {lo a : Nat} (h : Mem.wfFrom lo m = true) (hlt : a < lo) : Mem.read m a = 0 := by
  induction m generalizing lo with
  | nil => rfl
  | cons c m ih =>
    obtain ⟨b, w⟩ := c
    simp only [Mem.wfFrom, Bool.and_eq_true, decide_eq_true_eq] at h
    rw [Mem.read, if_neg (by omega)]
    exact ih h.2 (by omega)

theorem Mem.read_write_same_from {m : Mem} {lo a : Nat} {v : Byte} (h : Mem.wfFrom lo m = true) :
    Mem.read (Mem.write m a v) a = v := by
  induction m generalizing lo with
  | nil =>
    simp only [Mem.write]
    split
    · exact Eq.symm ‹_›
    · simp [Mem.read]
  | cons c m ih =>
    obtain ⟨b, w⟩ := c
    simp only [Mem.wfFrom, Bool.and_eq_true, decide_eq_true_eq] at h
    simp only [Mem.write]
    split
    · split
      · rename_i hlt hv
        rw [hv, Mem.read, if_neg (by omega)]
        exact Mem.read_below h.2 (by omega)
      · simp [Mem.read]
    · split
      · rename_i hlt heq
        split
        · rename_i hv
          rw [hv]
          exact Mem.read_below h.2 (by omega)
        · simp [Mem.read]
      · rename_i hlt hne
        rw [Mem.read, if_neg (by omega)]
        exact ih h.2

/-- A read after a write to the same place gives the value written. -/
theorem Mem.read_write_same {m : Mem} (h : m.wf = true) (a : Nat) (v : Byte) : Mem.read (Mem.write m a v) a = v :=
  Mem.read_write_same_from h

/-- A write leaves every other place alone. -/
theorem Mem.read_write_other (m : Mem) {a b : Nat} (v : Byte) (hne : b ≠ a) : Mem.read (Mem.write m a v) b = Mem.read m b := by
  induction m with
  | nil =>
    simp only [Mem.write]
    split
    · rfl
    · simp [Mem.read, Ne.symm hne]
  | cons c m ih =>
    obtain ⟨k, w⟩ := c
    simp only [Mem.write]
    split
    · split
      · rfl
      · rw [Mem.read, if_neg (Ne.symm hne)]
    · split
      · rename_i hlt heq
        subst heq
        split
        · rw [Mem.read, if_neg (Ne.symm hne)]
        · rw [Mem.read, if_neg (Ne.symm hne), Mem.read, if_neg (Ne.symm hne)]
      · simp only [Mem.read, ih]

theorem Mem.read_writeCells_other (m : Mem) (cs : List Host.Cell) {b : Nat} (h : ∀ c ∈ cs, c.1 ≠ b) :
    Mem.read (Mem.writeCells m cs) b = Mem.read m b := by
  induction cs generalizing m with
  | nil => rfl
  | cons c cs ih =>
    show Mem.read (Mem.writeCells (Mem.write m c.1 c.2) cs) b = _
    rw [ih _ fun d hd => h d (List.mem_cons_of_mem _ hd)]
    exact Mem.read_write_other m c.2 (Ne.symm (h c (by simp)))

/-- Of several cells with one address the last is read. -/
theorem Mem.read_writeCells_last {m : Mem} (h : m.wf = true) (cs ds : List Host.Cell) {a : Nat} {v : Byte} (hd : ∀ c ∈ ds, c.1 ≠ a) :
    Mem.read (Mem.writeCells m (cs ++ (a, v) :: ds)) a = v := by
  have hsplit : Mem.writeCells m (cs ++ (a, v) :: ds) = Mem.writeCells (Mem.write (Mem.writeCells m cs) a v) ds := by
    simp [Mem.writeCells, List.foldl_append]
  rw [hsplit, Mem.read_writeCells_other _ _ hd]
  exact Mem.read_write_same (Mem.writeCells_wf h cs) a v

theorem Mem.wfFrom_ext {m n : Mem} {lo : Nat} (hm : Mem.wfFrom lo m = true) (hn : Mem.wfFrom lo n = true)
    (h : ∀ a, Mem.read m a = Mem.read n a) : m = n := by
  induction m generalizing n lo with
  | nil =>
    cases n with
    | nil => rfl
    | cons c n =>
      obtain ⟨b, w⟩ := c
      simp only [Mem.wfFrom, Bool.and_eq_true, decide_eq_true_eq] at hn
      have := h b
      simp only [Mem.read, if_pos] at this
      exact absurd this.symm hn.1.2
  | cons c m ih =>
    obtain ⟨a, v⟩ := c
    simp only [Mem.wfFrom, Bool.and_eq_true, decide_eq_true_eq] at hm
    cases n with
    | nil =>
      have := h a
      simp only [Mem.read, if_pos] at this
      exact absurd this hm.1.2
    | cons d n =>
      obtain ⟨b, w⟩ := d
      simp only [Mem.wfFrom, Bool.and_eq_true, decide_eq_true_eq] at hn
      have hab : a = b := by
        rcases Nat.lt_trichotomy a b with hlt | heq | hgt
        · have := h a
          rw [Mem.read, if_pos rfl, Mem.read, if_neg (by omega), Mem.read_below hn.2 (by omega)] at this
          exact absurd this hm.1.2
        · exact heq
        · have := h b
          rw [Mem.read, if_neg (by omega), Mem.read_below hm.2 (by omega), Mem.read, if_pos rfl] at this
          exact absurd this.symm hn.1.2
      subst hab
      have hvw : v = w := by simpa [Mem.read] using h a
      subst hvw
      have : m = n := ih hm.2 hn.2 fun x => by
        by_cases hx : a = x
        · subst hx
          rw [Mem.read_below hm.2 (by omega), Mem.read_below hn.2 (by omega)]
        · simpa [Mem.read, hx] using h x
      rw [this]

/-- Memories in the canonical form that read alike are equal. -/
theorem Mem.ext_of_read {m n : Mem} (hm : m.wf = true) (hn : n.wf = true) (h : ∀ a, Mem.read m a = Mem.read n a) : m = n :=
  Mem.wfFrom_ext hm hn h

namespace Machine

/-! ## Views -/

@[simp] theorem View.empty_wf : View.empty.wf = true := rfl
theorem View.writeBy_wf {v : View} (h : v.wf = true) (cs : List Host.Cell) (wid : Nat) (st : VClock) : (v.writeBy cs wid st).wf = true :=
  Mem.writeCells_wf h cs
theorem View.poke_wf {v : View} (h : v.wf = true) (a : Nat) (bs : List Byte) : (v.poke a bs).wf = true := Mem.writeN_wf h a bs
theorem View.clear_wf {v : View} (h : v.wf = true) (a n : Nat) : (v.clear a n).wf = true := Mem.clear_wf h a n
theorem View.slice_wf {v : View} (h : v.wf = true) (a n : Nat) : (v.slice a n).wf = true := Mem.filter_wf _ h

/-! ## Little-endian bytes -/

theorem leNat_leBytes (n v : Nat) : leNat (leBytes n v) = v % 256 ^ n := by
  induction n generalizing v with
  | zero => simp [leBytes, leNat, Nat.mod_one]
  | succ n ih =>
    have h8 : (BitVec.ofNat 8 v).toNat = v % 256 := BitVec.toNat_ofNat v 8
    rw [leBytes, leNat, ih, h8, Nat.pow_succ, Nat.mul_comm (256 ^ n) 256, Nat.mod_mul]

@[simp] theorem length_leBytes (n v : Nat) : (leBytes n v).length = n := by
  induction n generalizing v with
  | zero => rfl
  | succ n ih => simp [leBytes, ih]

/-! ## List helpers -/

variable {α : Type}

@[simp] theorem length_updFirst (p : α → Bool) (f : α → α) (xs : List α) : (updFirst p f xs).length = xs.length := by
  induction xs with
  | nil => rfl
  | cons x xs ih => by_cases h : p x = true <;> simp [updFirst, h, ih]

/-- The element that an update of the first match finds, when the update keeps the match. -/
theorem find?_updFirst {p : α → Bool} {f : α → α} (hf : ∀ x, p x = true → p (f x) = true) (xs : List α) :
    (updFirst p f xs).find? p = (xs.find? p).map f := by
  induction xs with
  | nil => rfl
  | cons x xs ih =>
    by_cases h : p x = true
    · simp [updFirst, h, hf x h]
    · simp [updFirst, h, ih]

/-- An update of the first match leaves what another search finds, when the update does not make or unmake its match. -/
theorem find?_updFirst_other {p q : α → Bool} {f : α → α} (hf : ∀ x, p x = true → q (f x) = false ∧ q x = false) (xs : List α) :
    (updFirst p f xs).find? q = xs.find? q := by
  induction xs with
  | nil => rfl
  | cons x xs ih =>
    by_cases h : p x = true
    · simp [updFirst, h, hf x h]
    · by_cases hq : q x = true <;> simp [updFirst, h, hq, ih]

theorem all_updFirst {P p : α → Bool} {f : α → α} {xs : List α} (hf : ∀ x, P x = true → P (f x) = true) (h : xs.all P = true) :
    (updFirst p f xs).all P = true := by
  induction xs with
  | nil => rfl
  | cons x xs ih =>
    simp only [List.all_cons, Bool.and_eq_true] at h
    by_cases hp : p x = true
    · simp [updFirst, hp, hf x h.1, h.2]
    · simp [updFirst, hp, h.1, ih h.2]

theorem all_dropFirst {P p : α → Bool} {xs : List α} (h : xs.all P = true) : (dropFirst p xs).all P = true := by
  induction xs with
  | nil => rfl
  | cons x xs ih =>
    simp only [List.all_cons, Bool.and_eq_true] at h
    by_cases hp : p x = true
    · simp [dropFirst, hp, h.2]
    · simp [dropFirst, hp, h.1, ih h.2]

theorem all_modify {P : α → Bool} {f : α → α} {xs : List α} (hf : ∀ x, P x = true → P (f x) = true) (h : xs.all P = true) (i : Nat) :
    (xs.modify i f).all P = true := by
  induction xs generalizing i with
  | nil => cases i <;> rfl
  | cons x xs ih =>
    simp only [List.all_cons, Bool.and_eq_true] at h
    cases i with
    | zero => simp [hf x h.1, h.2]
    | succ i => simp [h.1, ih h.2]

/-- A fold keeps what each of its steps keeps. -/
theorem foldl_keeps {β σ : Type} {P : σ → Prop} {f : σ → β → σ} (hf : ∀ s x, P s → P (f s x)) (xs : List β) {s : σ} (h : P s) :
    P (xs.foldl f s) := by
  induction xs generalizing s with
  | nil => exact h
  | cons x xs ih => exact ih (hf s x h)

end Machine
end Sys2Proof
end

