-- ==== Sys2Proof/Laws/Form.lean ====
section
/-!
SUPPORT. The shared operations keep every memory of the machine in its canonical form (log 10): one lemma for each.
-/

namespace Sys2Proof.Machine

/-! ## The parts of the form -/

theorem State.memWf_iff (s : State) : s.memWf = true ↔ (s.host.wf = true ∧ s.cores.all Core.wf = true ∧ s.quads.all Quad.wf = true
    ∧ s.parts.all Part.wf = true ∧ s.blocks.all Block.wf = true ∧ s.groups.all Group.wf = true) := by
  simp only [State.memWf, Bool.and_eq_true, and_assoc]

theorem Core.wf_iff (k : Core) : k.wf = true ↔ (k.store.wf = true ∧ k.shareMem.wf = true ∧ k.l1.all Line.wf = true) := by
  simp only [Core.wf, Bool.and_eq_true, and_assoc]

theorem all_filter {α : Type} {P : α → Bool} {xs : List α} (p : α → Bool) (h : xs.all P = true) : (xs.filter p).all P = true := by
  rw [List.all_eq_true] at h ⊢
  exact fun x hx => h x (List.mem_filter.mp hx).1

theorem all_map {α β : Type} {P : α → Bool} {Q : β → Bool} {f : α → β} {xs : List α} (hf : ∀ x, P x = true → Q (f x) = true)
    (h : xs.all P = true) : (xs.map f).all Q = true := by
  rw [List.all_eq_true] at h ⊢
  rintro y hy
  obtain ⟨x, hx, rfl⟩ := List.mem_map.mp hy
  exact hf x (h x hx)

theorem all_getD {α : Type} {P : α → Bool} {xs : List α} (h : xs.all P = true) {d : α} (hd : P d = true) (i : Nat) : P (xs.getD i d) = true := by
  rw [List.getD_eq_getElem?_getD]
  cases e : xs[i]? with
  | none => exact hd
  | some x => exact List.all_eq_true.mp h x (List.mem_of_getElem? e)

variable {s : State}

theorem State.core!_wf (h : s.memWf = true) (c : Nat) : (s.core! c).wf = true := all_getD (s.memWf_iff.mp h).2.1 rfl c
theorem State.quad!_wf (h : s.memWf = true) (q : Nat) : (s.quad! q).wf = true := all_getD (s.memWf_iff.mp h).2.2.1 rfl q
theorem State.part?_wf (h : s.memWf = true) {id : Nat} {p : Part} (hp : s.part? id = some p) : p.wf = true :=
  List.all_eq_true.mp (s.memWf_iff.mp h).2.2.2.1 p (List.mem_of_find?_eq_some hp)
theorem State.grp?_wf (h : s.memWf = true) {gid : Nat} {g : Group} (hg : s.grp? gid = some g) : g.wf = true :=
  List.all_eq_true.mp (s.memWf_iff.mp h).2.2.2.2.2 g (List.mem_of_find?_eq_some hg)
theorem Part.view_wf {p : Part} (h : p.wf = true) (d : Nat) : (p.views.getD d View.empty).wf = true := by
  simp only [Part.wf, Bool.and_eq_true] at h
  exact all_getD h.1 rfl d
theorem Core.store_wf {k : Core} (h : k.wf = true) : k.store.wf = true := (k.wf_iff.mp h).1

/-! ## Updates of one element -/

theorem State.updGrp_form (h : s.memWf = true) (gid : Nat) {f : Group → Group} (hf : ∀ g, g.wf = true → (f g).wf = true) :
    (s.updGrp gid f).memWf = true := by
  rw [State.memWf_iff] at h ⊢
  exact ⟨h.1, h.2.1, h.2.2.1, h.2.2.2.1, h.2.2.2.2.1, all_updFirst hf h.2.2.2.2.2⟩

/-- An update that leaves what a group has given up. -/
theorem State.updGrp_still (h : s.memWf = true) (gid : Nat) {f : Group → Group} (hf : ∀ g, (f g).saved = g.saved) :
    (s.updGrp gid f).memWf = true :=
  State.updGrp_form h gid fun g hg => by simp only [Group.wf, hf]; exact hg

theorem State.updPart_form (h : s.memWf = true) (id : Nat) {f : Part → Part} (hf : ∀ p, p.wf = true → (f p).wf = true) :
    (s.updPart id f).memWf = true := by
  rw [State.memWf_iff] at h ⊢
  exact ⟨h.1, h.2.1, h.2.2.1, all_updFirst hf h.2.2.2.1, h.2.2.2.2.1, h.2.2.2.2.2⟩

/-- An update that leaves the partition's memory. -/
theorem State.updPart_still (h : s.memWf = true) (id : Nat) {f : Part → Part} (hv : ∀ p, (f p).views = p.views)
    (hl : ∀ p, (f p).hwLines = p.hwLines) : (s.updPart id f).memWf = true :=
  State.updPart_form h id fun p hp => by simp only [Part.wf, hv, hl]; exact hp

theorem State.updCore_form (h : s.memWf = true) (c : Nat) {f : Core → Core} (hf : ∀ k, k.wf = true → (f k).wf = true) :
    (s.updCore c f).memWf = true := by
  rw [State.memWf_iff] at h ⊢
  exact ⟨h.1, all_modify hf h.2.1 c, h.2.2⟩

/-- An update that leaves the core's memories. -/
theorem State.updCore_still (h : s.memWf = true) (c : Nat) {f : Core → Core} (hs : ∀ k, (f k).store = k.store)
    (hm : ∀ k, (f k).shareMem = k.shareMem) (hl : ∀ k, (f k).l1 = k.l1) : (s.updCore c f).memWf = true :=
  State.updCore_form h c fun k hk => by simp only [Core.wf, hs, hm, hl]; exact hk

theorem State.updQuad_form (h : s.memWf = true) (q : Nat) {f : Quad → Quad} (hf : ∀ k, k.wf = true → (f k).wf = true) :
    (s.updQuad q f).memWf = true := by
  rw [State.memWf_iff] at h ⊢
  exact ⟨h.1, h.2.1, all_modify hf h.2.2.1 q, h.2.2.2⟩

/-- An update that leaves the quadrant's memories. -/
theorem State.updQuad_still (h : s.memWf = true) (q : Nat) {f : Quad → Quad} (hs : ∀ k, (f k).scratch = k.scratch)
    (hv : ∀ k, (f k).nbVec = k.nbVec) (hm : ∀ k, (f k).nbSum = k.nbSum) : (s.updQuad q f).memWf = true :=
  State.updQuad_form h q fun k hk => by simp only [Quad.wf, hs, hv, hm]; exact hk

theorem State.updBlock_form (h : s.memWf = true) (grid bidx copy : Nat) {f : Block → Block} (hf : ∀ b, b.wf = true → (f b).wf = true) :
    (s.updBlock grid bidx copy f).memWf = true := by
  rw [State.memWf_iff] at h ⊢
  exact ⟨h.1, h.2.1, h.2.2.1, h.2.2.2.1, all_updFirst hf h.2.2.2.2.1, h.2.2.2.2.2⟩

theorem State.updGrid_form (h : s.memWf = true) (id : Nat) (f : Grid → Grid) : (s.updGrid id f).memWf = true := h
theorem State.updJob_form (h : s.memWf = true) (id : Nat) (f : Job → Job) : (s.updJob id f).memWf = true := h
theorem State.updNode_form (h : s.memWf = true) (part id : Nat) (f : Node → Node) : (s.updNode part id f).memWf = true := h
theorem State.updPage_form (h : s.memWf = true) (part vpn : Nat) (f : Page → Page) : (s.updPage part vpn f).memWf = true := h
theorem State.updDev_form (h : s.memWf = true) (f : Dev → Dev) : (s.updDev f).memWf = true := h
theorem State.updDie_form (h : s.memWf = true) (d : Nat) (f : Die → Die) : (s.updDie d f).memWf = true := h
theorem State.fresh_form (h : s.memWf = true) : s.fresh.2.memWf = true := h
theorem State.drawNat_form (h : s.memWf = true) : s.drawNat.2.memWf = true := h
theorem State.output_form (h : s.memWf = true) (o : Out) : (s.output o).memWf = true := h
theorem State.complete_form (h : s.memWf = true) (c : CmdHdr) (st : Nat) (r : Results) : (s.complete c st r).memWf = true := h

/-! ## Places and frames (R155, R156, R162) -/

theorem all_take {α : Type} {P : α → Bool} {xs : List α} (n : Nat) (h : xs.all P = true) : (xs.take n).all P = true := by
  rw [List.all_eq_true] at h ⊢
  exact fun x hx => h x (List.mem_of_mem_take hx)

theorem State.updView_form (h : s.memWf = true) (p : Part) (l : Loc) {f : View → Nat → View}
    (hf : ∀ v a, v.wf = true → (f v a).wf = true) : (s.updView p l f).memWf = true := by
  cases l with
  | mem va =>
    refine State.updPart_form h _ fun q hq => ?_
    simp only [Part.wf, Bool.and_eq_true] at hq ⊢
    exact ⟨all_modify (fun v hv => hf v va hv) hq.1 _, hq.2⟩
  | store c o =>
    refine State.updCore_form h _ fun k hk => ?_
    rw [Core.wf_iff] at hk ⊢
    exact ⟨hf _ _ hk.1, hk.2⟩
  | share c o =>
    refine State.updCore_form h _ fun k hk => ?_
    rw [Core.wf_iff] at hk ⊢
    exact ⟨hk.1, hf _ _ hk.2.1, hk.2.2⟩
  | chip q o =>
    refine State.updQuad_form h _ fun k hk => ?_
    simp only [Quad.wf, Bool.and_eq_true] at hk ⊢
    exact ⟨⟨hf _ _ hk.1.1, hk.1.2⟩, hk.2⟩
  | bad => exact h

theorem State.setHeader_form (h : s.memWf = true) (core depth off : Nat) (w : Word) : (s.setHeader core depth off w).memWf = true :=
  foldl_keeps (P := fun t => State.memWf t = true) (fun _ _ ht => State.updView_form ht _ _ fun _ _ hv => View.poke_wf hv _ _) _ h

theorem State.makeFrame_form (h : s.memWf = true) (core depth base n grid bidx : Nat) (opened : Bool) :
    (s.makeFrame core depth base n grid bidx opened).2.memWf = true := by
  refine State.setHeader_form (s := State.mk .. ) ?_ _ _ _ _
  split
  · refine State.updCore_form h _ fun k hk => ?_
    rw [Core.wf_iff] at hk ⊢
    exact ⟨View.clear_wf hk.1 _ _, hk.2⟩
  · exact foldl_keeps (P := fun t => State.memWf t = true) (fun _ _ ht => State.updView_form ht _ _ fun _ _ hv => View.clear_wf hv _ _) _ h

theorem State.freeFrame_form (h : s.memWf = true) (core depth off : Nat) : (s.freeFrame core depth off).memWf = true := by
  unfold State.freeFrame
  simp only
  split
  · exact State.updCore_still (s := State.mk ..) h _ (fun _ => rfl) (fun _ => rfl) (fun _ => rfl)
  · exact State.updCore_still (s := State.mk ..) h _ (fun _ => rfl) (fun _ => rfl) (fun _ => rfl)
  · exact h

theorem State.retireFrame_form (h : s.memWf = true) (core depth off : Nat) : (s.retireFrame core depth off).memWf = true := by
  unfold State.retireFrame
  simp only
  split
  · split
    · exact State.updCore_still (s := State.mk ..) h _ (fun _ => rfl) (fun _ => rfl) (fun _ => rfl)
    · exact h
  · exact State.freeFrame_form h _ _ _

theorem State.freeShut_form (h : s.memWf = true) (grid bidx : Nat) : (s.freeShut grid bidx).memWf = true :=
  foldl_keeps (P := fun t => State.memWf t = true) (fun _ _ ht => State.freeFrame_form ht _ _ _) _ h

theorem State.addRef_form (h : s.memWf = true) (core : Nat) (hd : Word) : (s.addRef core hd).memWf = true := State.setHeader_form h _ _ _ _

theorem State.dropRef_form (h : s.memWf = true) (core grid : Nat) (hd : Word) : (s.dropRef core grid hd).memWf = true := by
  unfold State.dropRef
  split
  · simp only
    split
    · exact State.retireFrame_form h _ _ _
    · exact State.setHeader_form h _ _ _ _
  · exact h

/-! ## Clocks and L1 (R273, R275-R277) -/

theorem State.joinGc_form (h : s.memWf = true) (gid seq : Nat) (c : VClock) : (s.joinGc gid seq c).memWf = true :=
  State.updGrp_still (f := fun g => { g with mm := { g.mm with gc := g.mm.gc.join c } }) h gid fun _ => rfl

theorem State.clearL1_form (h : s.memWf = true) (c : Nat) : (s.clearL1 c).memWf = true :=
  State.updCore_form h c fun k hk => by rw [Core.wf_iff] at hk ⊢; exact ⟨hk.1, hk.2.1, rfl⟩

theorem State.dropL1Line_form (h : s.memWf = true) (c line : Nat) : (s.dropL1Line c line).memWf = true :=
  State.updCore_form h c fun k hk => by rw [Core.wf_iff] at hk ⊢; exact ⟨hk.1, hk.2.1, all_filter _ hk.2.2⟩

theorem State.updMm_form (h : s.memWf = true) (gid : Nat) (f : GMem → GMem) : (s.updMm gid f).memWf = true := State.updGrp_still h _ fun _ => rfl

theorem State.learn_form (h : s.memWf = true) (gid no : Nat) (rels : List Release) : (s.learn gid no rels).memWf = true := h

theorem State.hear_form (h : s.memWf = true) (gid seq : Nat) (acq : Bool) (seen : List (Nat × Nat)) : (s.hear gid seq acq seen).memWf = true := by
  unfold State.hear
  split
  · exact h
  · simp only
    split
    · exact h
    · exact State.updMm_form h _ _

/-! ## Events, the log and capacity (R80-R88, R110, R111) -/

theorem State.raise_form (h : s.memWf = true) (part : Nat) (b : EventBody) : (s.raise part b).memWf = true :=
  State.updPart_still h _ (fun _ => rfl) (fun _ => rfl)

theorem State.logError_form (h : s.memWf = true) (kind die quad addr part unit : Nat) (also : List Nat) :
    (s.logError kind die quad addr part unit also).memWf = true := by
  unfold State.logError
  simp only
  split
  · split
    · exact foldl_keeps (P := fun t => State.memWf t = true) (fun _ _ ht => State.raise_form ht _ _) _ h
    · exact State.raise_form h _ _
  · exact h

theorem State.wakeGroup_form (h : s.memWf = true) (t : Group) (v : DWord) (c : VClock) : (s.wakeGroup t v c).memWf = true := by
  rw [State.memWf_iff] at h ⊢
  exact ⟨h.1, h.2.1, h.2.2.1, h.2.2.2.1, h.2.2.2.2.1, all_map (fun x hx => by split <;> exact hx) h.2.2.2.2.2⟩

theorem State.tellAgent_form (h : s.memWf = true) (part : Nat) : (s.tellAgent part).memWf = true := by
  unfold State.tellAgent
  split
  · exact h
  · simp only
    split
    · split
      · exact State.wakeGroup_form h _ _ _
      · exact h
    · exact State.raise_form h _ _

theorem State.hardEvent_form (h : s.memWf = true) (part : Nat) : (s.hardEvent part).memWf = true := by
  refine State.tellAgent_form ?_ _
  exact State.updPart_still h _ (fun _ => rfl) fun _ => rfl

theorem State.settlePressure_form (h : s.memWf = true) (part : Nat) : (s.settlePressure part).memWf = true := by
  unfold State.settlePressure
  split
  · exact h
  · rename_i p _
    simp only
    have h1 : (if p.press.hard = true ∧ 0 ≤ p.avail ∧ s.parkedCap part = 0 then
        s.updPart part fun p => { p with press := { p.press with hard := false } } else s).memWf = true := by
      split
      · exact State.updPart_still h _ (fun _ => rfl) (fun _ => rfl)
      · exact h
    split
    · exact State.updPart_still h1 _ (fun _ => rfl) (fun _ => rfl)
    · split
      · refine State.tellAgent_form ?_ _
        exact State.updPart_still h1 _ (fun _ => rfl) (fun _ => rfl)
      · exact h1

theorem State.addF_form (h : s.memWf = true) (part : Nat) (d : Int) : (s.addF part d).memWf = true := by
  refine State.settlePressure_form ?_ _
  exact State.updPart_still h _ (fun _ => rfl) (fun _ => rfl)

theorem State.addFP_form (h : s.memWf = true) (part : Nat) (d : Int) (down : Nat) : (s.addFP part d down).memWf = true := by
  refine State.settlePressure_form ?_ _
  exact State.updPart_still h _ (fun _ => rfl) (fun _ => rfl)

theorem State.addP_form (h : s.memWf = true) (part up down : Nat) : (s.addP part up down).memWf = true := by
  refine State.settlePressure_form ?_ _
  exact State.updPart_still h _ (fun _ => rfl) (fun _ => rfl)

theorem State.returnCredit_form (h : s.memWf = true) (core part n : Nat) : (s.returnCredit core part n).memWf = true := by
  refine State.addP_form ?_ _ _ _
  exact State.updCore_still h _ (fun _ => rfl) (fun _ => rfl) (fun _ => rfl)

theorem State.hardPressure_form (h : s.memWf = true) (part : Nat) : (s.hardPressure part).memWf = true := by
  unfold State.hardPressure
  have h1 := State.hardEvent_form h part
  simp only
  split
  · exact h1
  · refine State.settlePressure_form (foldl_keeps (P := fun t => State.memWf t = true) (fun t c ht => ?_) _ h1) _
    split
    · exact State.returnCredit_form ht _ _ _
    · exact ht

theorem State.refundTo_form (h : s.memWf = true) (core part cells : Nat) : (s.refundTo core part cells).memWf = true := by
  unfold State.refundTo
  split <;> exact h

/-! ## Barriers and the ends of groups, blocks and grids (R144, R145, R152, R303, R313) -/

theorem State.tryBarrier_form (h : s.memWf = true) (g : Group) (k : BarKind) (id : Nat) : (s.tryBarrier g k id).memWf = true := by
  unfold State.tryBarrier
  simp only
  split
  · refine foldl_keeps (P := fun t => State.memWf t = true) (fun t x ht => ?_) _ ?_
    rotate_left
    · split
      · exact State.updCore_still h _ (fun _ => rfl) (fun _ => rfl) (fun _ => rfl)
      · exact h
    split
    · refine State.learn_form ?_ _ _ _
      exact State.updGrp_still ht _ fun _ => rfl
    · refine State.clearL1_form ?_ _
      exact State.updGrp_still ht _ fun _ => rfl
  · exact h

theorem State.settleBarriers_form (h : s.memWf = true) : s.settleBarriers.memWf = true := by
  unfold State.settleBarriers
  refine foldl_keeps (P := fun t => State.memWf t = true) (fun t g ht => ?_) _ h
  refine foldl_keeps (P := fun t => State.memWf t = true) (fun t p ht => ?_) _ ht
  split
  · split
    · exact State.tryBarrier_form ht _ _ _
    · exact ht
  · exact ht

theorem State.freeFrames_form (h : s.memWf = true) (g : Group) : (s.freeFrames g).memWf = true :=
  State.updCore_still h _ (fun _ => rfl) (fun _ => rfl) (fun _ => rfl)

theorem State.resetShare_form (h : s.memWf = true) (cl : Nat) : (s.resetShare cl).memWf = true :=
  foldl_keeps (P := fun t => State.memWf t = true) (fun _ _ ht => State.updCore_form ht _ fun k hk => by
    rw [Core.wf_iff] at hk ⊢; exact ⟨hk.1, View.slice_wf hk.2.1 _ _, hk.2.2⟩) _ h

theorem State.endBlock_form (h : s.memWf = true) (b : Block) : (s.endBlock b).memWf = true := by
  refine State.resetShare_form ?_ _
  have h1 : (if b.saved.isSome then s.updCore b.core fun k => { k with
      gens := setAssoc (hOff b.d2) ((assoc (hOff b.d2) k.gens).getD 0 + 1) k.gens } else s.dropRef b.core b.grid b.d2).memWf = true := by
    split
    · exact State.updCore_still h _ (fun _ => rfl) (fun _ => rfl) (fun _ => rfl)
    · exact State.dropRef_form h _ _ _
  have h2 := State.updCore_still (f := fun k => { k with
    regions := k.regions.filter fun r => !(decide (r.kind = .scratch) && decide (r.grid = b.grid) && decide (r.bidx = b.bidx) && decide (r.base = b.scratchBase)) })
    (State.dropRef_form h1 b.core b.grid b.d3) b.core (fun _ => rfl) (fun _ => rfl) (fun _ => rfl)
  have h3 : ∀ {t : State}, t.memWf = true → ({ t with blocks := dropFirst (fun x => decide (x = b)) t.blocks } : State).memWf = true := by
    intro t ht
    rw [State.memWf_iff] at ht ⊢
    exact ⟨ht.1, ht.2.1, ht.2.2.1, ht.2.2.2.1, all_dropFirst ht.2.2.2.2.1, ht.2.2.2.2.2⟩
  have h4 := h3 h2
  generalize ({ State.updCore _ _ _ with blocks := _ } : State) = t at h4 ⊢
  split
  · exact h4
  · exact State.freeShut_form h4 _ _

theorem State.forgetGrid_form (h : s.memWf = true) (grid : Nat) : (s.forgetGrid grid).memWf = true := by
  unfold State.forgetGrid
  split <;> exact h

theorem State.dropItems_form (h : s.memWf = true) (core grid : Nat) (items : List CalleeItem) : (s.dropItems core grid items).memWf = true :=
  foldl_keeps (P := fun t => State.memWf t = true) (fun _ _ ht => State.dropRef_form (State.dropRef_form ht _ _ _) _ _ _) _ h

theorem State.endItems_form (h : s.memWf = true) (core grid : Nat) (items : List CalleeItem) : (s.endItems core grid items).memWf = true :=
  by
  refine foldl_keeps (P := fun t => State.memWf t = true) (fun t i ht => ?_) _ (State.dropItems_form h _ _ _)
  exact State.updGrp_still ht _ fun _ => rfl

theorem State.endGroup_form (h : s.memWf = true) (gid : Nat) : (s.endGroup gid).memWf = true := by
  unfold State.endGroup
  split
  · exact h
  · rename_i g _
    refine State.settleBarriers_form (State.forgetGrid_form ?_ _)
    have h0 := State.endItems_form h g.core g.grid (g.items.map (·.2))
    generalize s.endItems g.core g.grid (g.items.map (·.2)) = t at h0 ⊢
    have h1 := State.updCore_still (f := fun k => { k with
      waiters := k.waiters.filter fun w => decide (w.gid ≠ gid)
      teams := k.teams.map fun t => { t with members := t.members.filter fun m => decide (m ≠ gid) } })
      (State.freeFrames_form h0 g) g.core (fun _ => rfl) (fun _ => rfl) (fun _ => rfl)
    have h2 : ∀ {t : State}, t.memWf = true → ({ t with groups := dropFirst (fun x => decide (x.gid = gid)) t.groups } : State).memWf = true := by
      intro t ht
      rw [State.memWf_iff] at ht ⊢
      exact ⟨ht.1, ht.2.1, ht.2.2.1, ht.2.2.2.1, ht.2.2.2.2.1, all_dropFirst ht.2.2.2.2.2⟩
    have h3 := State.updPart_still (f := fun p => { p with ringWait := p.ringWait.filter fun x => decide (x ≠ gid) }) (h2 h1) g.part
      (fun _ => rfl) (fun _ => rfl)
    split
    · split
      · exact State.endBlock_form h3 _
      · exact h3
    · exact h3

theorem State.dropReplay_form (h : s.memWf = true) (gid : Nat) : (s.dropReplay gid).memWf = true := by
  unfold State.dropReplay
  split
  · exact h
  · exact State.updGrp_still (foldl_keeps (P := fun t => State.memWf t = true) (fun _ _ ht => State.refundTo_form ht _ _ _) _ h) _ fun _ => rfl

theorem State.dropLeases_form (h : s.memWf = true) (jid : Nat) : (s.dropLeases jid).memWf = true := by
  rw [State.memWf_iff] at h ⊢
  exact ⟨h.1, h.2.1, all_map (fun _ hq => hq) h.2.2.1, h.2.2.2⟩

theorem State.refundJob_form (h : s.memWf = true) (j : Job) : (s.refundJob j).memWf = true :=
  foldl_keeps (P := fun t => State.memWf t = true) (fun _ _ ht => State.refundTo_form ht _ _ _) _ h

theorem State.killJobs_form (h : s.memWf = true) (grid : Nat) : (s.killJobs grid).memWf = true := by
  refine foldl_keeps (P := fun t => State.memWf t = true) (fun t j ht => ?_) _ h
  have h1 := State.dropLeases_form (State.refundJob_form ht j) j.jid
  simp only
  split
  · split
    · exact State.updBlock_form h1 _ _ _ fun _ hb => hb
    · exact h1
  · exact h1

/-- A change of every core that leaves its memories. -/
theorem State.mapCores_form (h : s.memWf = true) {f : Core → Core} (hf : ∀ k, (f k).wf = k.wf) : ({ s with cores := s.cores.map f } : State).memWf = true := by
  rw [State.memWf_iff] at h ⊢
  exact ⟨h.1, all_map (fun k hk => by rw [hf]; exact hk) h.2.1, h.2.2⟩

/-- A state after each element of a list has been dealt with, each keeping the form. -/
theorem State.foldl_form {α : Type} {f : State → α → State} (hf : ∀ t x, t.memWf = true → (f t x).memWf = true) (xs : List α) (h : s.memWf = true) :
    (xs.foldl f s).memWf = true := foldl_keeps (P := fun t => State.memWf t = true) hf xs h

theorem Group.setErr_saved (g : Group) (n : Nat) : (g.setErr n).saved = g.saved := by
  unfold Group.setErr
  split <;> rfl

theorem Group.endOp_saved (g : Group) (oid : Nat) (err : Bool) : (g.endOp oid err).saved = g.saved := by
  unfold Group.endOp
  split
  · rfl
  · split
    · exact Group.setErr_saved _ _
    · rfl

theorem Group.endOps_saved (g : Group) : g.endOps.saved = g.saved :=
  foldl_keeps (P := fun t => Group.saved t = g.saved) (fun _ _ ht => (Group.endOp_saved _ _ _).trans ht) _ rfl

theorem State.dropGroups_form (h : s.memWf = true) (grid : Nat) (mine : List Group) : (s.dropGroups grid mine).memWf = true := by
  unfold State.dropGroups
  refine State.foldl_form (fun t x ht => State.endGroup_form ?_ _) _ ?_
  · split
    · exact State.updPart_still ht _ (fun _ => rfl) (fun _ => rfl)
    · exact ht
  · refine State.killJobs_form ?_ _
    have h1 : (mine.foldl (fun s (x : Group) => (s.dropReplay x.gid).updGrp x.gid fun x => { x.endOps with cap := none }) s).memWf = true := by
      refine State.foldl_form (fun t x ht => ?_) _ h
      exact State.updGrp_still (State.dropReplay_form ht _) _ Group.endOps_saved
    generalize mine.foldl (fun s (x : Group) => (s.dropReplay x.gid).updGrp x.gid fun x => { x.endOps with cap := none }) s = t at h1 ⊢
    have h2 : (((List.range t.cores.length).zip t.cores).foldl (fun s c => s.dropItems c.1 grid
        ((c.2.callee.flatMap CalleeQueue.items).filter fun i => mine.any fun x => decide (x.gid = i.gid))) t).memWf = true :=
      State.foldl_form (fun u c hu => State.dropItems_form hu _ _ _) _ h1
    generalize ((List.range t.cores.length).zip t.cores).foldl (fun s c => s.dropItems c.1 grid
      ((c.2.callee.flatMap CalleeQueue.items).filter fun i => mine.any fun x => decide (x.gid = i.gid))) t = u at h2 ⊢
    refine State.mapCores_form h2 ?_
    exact fun _ => rfl

theorem State.killGrid_form (h : s.memWf = true) (grid reason : Nat) : (s.killGrid grid reason).memWf = true := by
  unfold State.killGrid
  split
  · exact h
  · rename_i g _
    split
    · exact h
    · have h1 := State.settlePressure_form (State.dropGroups_form (State.updGrid_form h grid fun g => { g with kill := some reason, next := g.card.blocks })
        grid (s.groups.filter fun x => decide (x.grid = grid))) g.part
      simp only
      split
      · exact State.hardPressure_form h1 _
      · split
        · split
          · exact State.hardEvent_form h1 _
          · exact h1
        · exact h1

/-! ## Room given up, traps and stops (R149, R173-R178) -/

theorem View.merge_wf {v : View} (h : v.wf = true) (w : View) (ms : List Mark) : View.wf { mem := Mem.writeCells v.mem w.mem, marks := ms } = true :=
  Mem.writeCells_wf h _

theorem State.takeRegions_form (h : s.memWf = true) (core : Nat) (which : Region → Bool) :
    (s.takeRegions core which).1.wf = true ∧ (s.takeRegions core which).2.memWf = true := by
  constructor
  · exact foldl_keeps (P := fun v => View.wf v = true) (fun v r hv => View.merge_wf hv _ _) _ rfl
  · refine State.updCore_form h _ fun k hk => ?_
    rw [Core.wf_iff] at hk ⊢
    exact ⟨foldl_keeps (P := fun v => View.wf v = true) (fun v r hv => View.clear_wf hv _ _) _ hk.1, hk.2⟩

theorem State.giveUp_form (h : s.memWf = true) (gid : Nat) : (s.giveUp gid).memWf = true := by
  unfold State.giveUp
  split
  · exact h
  · rename_i g _
    split
    · exact h
    · simp only
      have h1 := State.takeRegions_form h g.core (groupRegion gid)
      have h2 := State.updGrp_form (f := fun x => { x with saved := some (s.takeRegions g.core (groupRegion gid)).1 }) h1.2 gid fun _ _ => h1.1
      split
      · rename_i b _
        split
        · have h3 := State.takeRegions_form h2 b.core (blockRegion b)
          refine State.updBlock_form (s := State.mk ..) h3.2 _ _ _ fun c hc => ?_
          simp only [Block.wf, Bool.and_eq_true] at hc ⊢
          exact ⟨hc.1, h3.1⟩
        · exact h2
      · exact h2

theorem State.comeBack_form (h : s.memWf = true) (gid : Nat) : (s.comeBack gid).memWf = true := by
  refine State.updGrp_still (State.fresh_form h) _ fun x => ?_
  split
  · rfl
  · split <;> rfl

theorem State.dropWaiters_form (h : s.memWf = true) (gid : Nat) : (s.dropWaiters gid).memWf = true := by
  unfold State.dropWaiters
  split
  · exact h
  · exact State.updCore_still h _ (fun _ => rfl) (fun _ => rfl) (fun _ => rfl)

theorem State.park_form (h : s.memWf = true) (gid : Nat) (st : Stop) : (s.park gid st).memWf = true :=
  State.updGrp_still (State.dropWaiters_form h gid) _ fun _ => rfl

theorem State.takeTrap_form (h : s.memWf = true) (gid : Nat) (st : Stop) : (s.takeTrap gid st).memWf = true := by
  unfold State.takeTrap
  split
  · exact h
  · simp only
    split
    · refine State.comeBack_form (State.dropWaiters_form ?_ _) _
      exact State.updGrp_still h _ fun _ => rfl
    · exact State.killGrid_form h _ _

theorem State.joinRing_form (h : s.memWf = true) (gid : Nat) : (s.joinRing gid).memWf = true := by
  unfold State.joinRing
  split
  · exact h
  · refine State.updPart_still ?_ _ (fun _ => rfl) (fun _ => rfl)
    exact State.updGrp_still h _ fun _ => rfl

theorem State.goOn_form (h : s.memWf = true) (gid : Nat) : (s.updGrp gid Group.goOn).memWf = true := State.updGrp_still h gid fun _ => rfl

theorem State.settleStop_form (h : s.memWf = true) (gid : Nat) : (s.settleStop gid).memWf = true := by
  unfold State.settleStop
  split
  · exact h
  · rename_i g _
    split
    · exact h
    · rename_i st0 _
      simp only
      generalize g.faultFirst st0 = st
      by_cases hr : g.place = .resident ∧ s.killed g = false ∧ (if st.why = .evict then s.evictReady g else s.stopReady g st) = true
      · rw [if_pos hr]
        have h0 := State.updGrp_still (f := fun g => if st.why = st0.why then g.goOn else { g.goOn with svc := none }) h gid
          fun g => by split <;> rfl
        generalize s.updGrp gid _ = s' at h0 ⊢
        cases hw : st.why with
        | trap =>
          simp only
          split
          · refine State.park_form (State.joinRing_form ?_ _) _ _
            exact State.updGrp_still h0 _ fun _ => rfl
          · exact State.takeTrap_form h0 _ _
        | svc => exact State.park_form (State.joinRing_form h0 _) _ _
        | evict =>
          refine State.giveUp_form ?_ _
          refine State.updGrp_still (State.fresh_form (State.dropWaiters_form ?_ _)) _ fun _ => rfl
          exact State.updPart_still h0 _ (fun _ => rfl) (fun _ => rfl)
        | page =>
          simp only
          split
          · exact State.park_form h0 _ _
          · refine State.takeTrap_form ?_ _ _
            exact State.updGrp_still h0 _ fun _ => rfl
        | _ => exact State.park_form h0 _ _
      · rw [if_neg hr]
        exact h

theorem State.decideStop_form (h : s.memWf = true) (gid : Nat) (st : Stop) : (s.decideStop gid st).memWf = true :=
  State.settleStop_form (State.updGrp_still h gid fun g => by split <;> rfl) _

theorem State.raiseTrap_form (h : s.memWf = true) (gid sid : Nat) (code : BitVec 8) (tlm : Mask) (taddr tpc : Nat) (c : Option Clause) :
    (s.raiseTrap gid sid code tlm taddr tpc c).memWf = true := by
  unfold State.raiseTrap
  split
  · exact h
  · exact State.decideStop_form h _ _

/-! ## Slots, operations and lanes (R164, R172, R204-R206) -/

theorem State.pokeStore_form (h : s.memWf = true) (core : Nat) (cs : List Host.Cell) : (s.pokeStore core cs).memWf = true :=
  State.updCore_form h _ fun k hk => by rw [Core.wf_iff] at hk ⊢; exact ⟨Mem.writeCells_wf hk.1 _, hk.2⟩

theorem State.hold_form (h : s.memWf = true) (b : Block) (copy : Nat) (w : Write) : (s.hold b copy w).memWf = true := by
  refine State.updBlock_form h _ _ _ fun c hc => ?_
  simp only [Block.wf, Bool.and_eq_true] at hc ⊢
  refine ⟨⟨hc.1.1, ?_⟩, hc.2⟩
  cases e : c.pair with
  | none => rfl
  | some q =>
    have hq := hc.1.2
    rw [e] at hq
    simp only [Option.map_some]
    split <;> exact hq

theorem State.slotWrite_form (h : s.memWf = true) (g : Group) (seq va : Nat) (whole : Bool) (ws : List Word) : (s.slotWrite g seq va whole ws).memWf = true := by
  unfold State.slotWrite
  refine State.foldl_form (fun t cs ht => ?_) _ h
  simp only
  split
  · exact State.hold_form (State.fresh_form ht) _ _ _
  · exact State.fresh_form ht

theorem State.writeDest_form (h : s.memWf = true) (gid : Nat) (d : Dest) (whole : Bool) (vals : List (Nat × List Word)) :
    (s.writeDest gid d whole vals).1.memWf = true := by
  unfold State.writeDest
  split
  · exact h
  · split
    · exact h
    · split
      · exact State.pokeStore_form h _ _
      · exact State.pokeStore_form h _ _
      · split
        · refine State.slotWrite_form ?_ _ _ _ _ _
          exact State.updGrp_still h _ fun _ => rfl
        · exact h

theorem Ctx.wr_form {x : Ctx} (h : s.memWf = true) (o : BitVec 10) (v : Nat → List Word) : (x.wr s o v).memWf = true := State.writeDest_form h _ _ _ _

theorem State.reap_form (h : s.memWf = true) (gid : Nat) : (s.reap gid).memWf = true := by
  unfold State.reap
  split
  · exact h
  · split
    · exact State.endGroup_form h _
    · exact h

theorem State.after_form (h : s.memWf = true) (gid : Nat) : (s.after gid).memWf = true :=
  State.settleBarriers_form (State.reap_form (State.settleStop_form h _) _)

theorem Ctx.pushOp_form {x : Ctx} (h : s.memWf = true) (flag : Nat) (d : Dest) (k : OpKind) : (x.pushOp s flag d k).2.memWf = true :=
  State.updGrp_still (State.fresh_form h) _ fun _ => rfl
theorem Ctx.issueOp_form {x : Ctx} (h : s.memWf = true) (dst : BitVec 10) (k : OpKind) : (x.issueOp s dst k).2.memWf = true := Ctx.pushOp_form h _ _ _

theorem State.updOp_form (h : s.memWf = true) (gid oid : Nat) (f : Op → Op) : (s.updOp gid oid f).memWf = true :=
  State.updGrp_still h _ fun _ => rfl

theorem State.writeLanes_form (h : s.memWf = true) (oid : Nat) (vals : List (Nat × List Word)) : (s.writeLanes oid vals).1.memWf = true := by
  refine foldl_keeps (P := fun r : State × Bool => r.1.memWf = true) (fun r g hr => ?_) _ h
  split
  · exact hr
  · exact State.writeDest_form hr _ _ _ _

theorem State.finishOp_form (h : s.memWf = true) (oid : Nat) (err : Bool) : (s.finishOp oid err).memWf = true := by
  refine foldl_keeps (P := fun t => State.memWf t = true) (fun t g ht => ?_) _ h
  exact State.after_form (State.updGrp_still ht _ fun g => Group.endOp_saved g _ _) _

theorem State.completeOp_form (h : s.memWf = true) (oid : Nat) (vals : List (Nat × List Word)) (err : Bool) : (s.completeOp oid vals err).memWf = true :=
  State.finishOp_form (State.writeLanes_form h _ _) _ _

/-! ## Writes at their homes (R275, R279) -/

theorem State.stamp_form (h : s.memWf = true) (d : Nat) (gc : VClock) : (s.stamp d gc).2.memWf = true := h
theorem State.announce_form (h : s.memWf = true) (part d wid src : Nat) (st : VClock) (cs : List Host.Cell) : (s.announce part d wid src st cs).memWf = true := h
theorem State.setPoison_form (h : s.memWf = true) (part wid : Nat) (bits : List (Nat × Bool)) : (s.setPoison part wid bits).memWf = true := by
  unfold State.setPoison
  split
  · exact h
  · exact State.updPart_still h _ (fun _ => rfl) (fun _ => rfl)

theorem State.clearPoison_form (h : s.memWf = true) (part wid : Nat) (ks : List Nat) : (s.clearPoison part wid ks).memWf = true := State.setPoison_form h _ _ _

theorem State.performMem_form (h : s.memWf = true) (part wid src : Nat) (gc : VClock) (cs : List Host.Cell) : (s.performMem part wid src gc cs).2.memWf = true := by
  unfold State.performMem
  simp only
  refine State.announce_form ?_ _ _ _ _ _ _
  refine State.updPart_form (State.stamp_form h _ _) _ fun p hp => ?_
  simp only [Part.wf, Bool.and_eq_true] at hp ⊢
  exact ⟨all_modify (fun v hv => View.writeBy_wf hv _ _ _) hp.1 _, hp.2⟩

theorem State.performSpan_form (h : s.memWf = true) (part src : Nat) (gc : VClock) (bits : List (Nat × Bool)) (span : List Host.Cell)
    (rest : List (List Host.Cell)) : (s.performSpan part src gc bits span rest).2.memWf = true := by
  have h1 := State.performMem_form (State.fresh_form h) part s.fresh.1 src gc span
  unfold State.performSpan
  simp only
  split
  · exact h1
  · exact State.setPoison_form h1 _ _ _

theorem State.performRun_form (h : s.memWf = true) (part src : Nat) (gc : VClock) (cs : List Host.Cell) : (s.performRun part src gc cs).2.memWf = true :=
  foldl_keeps (P := fun r : VClock × State => r.2.memWf = true) (fun r e hr => State.performSpan_form hr part src gc _ e.1 e.2) _ h

/-- Writes of the host's memory keep the form (R112). -/
theorem State.hostLand_form (h : s.memWf = true) (wid : Nat) (st : VClock) (cs : List Host.Cell) : (s.hostLand wid st cs).memWf = true := by
  rw [State.memWf_iff] at h ⊢
  exact ⟨Mem.writeCells_wf h.1 _, h.2⟩

theorem State.hostPut_form (h : s.memWf = true) (cs : List Host.Cell) : (s.hostPut cs).memWf = true := State.hostLand_form (State.fresh_form h) _ _ _

theorem State.performChip_form (h : s.memWf = true) (p : Part) (core wid : Nat) (gc : VClock) (cs : List Host.Cell) :
    (s.performChip p core wid gc cs).2.memWf = true :=
  State.announce_form (foldl_keeps (P := fun t => State.memWf t = true)
    (fun _ _ ht => State.updView_form ht _ _ fun _ _ hv => View.writeBy_wf hv _ _ _) _ (State.stamp_form h _ _)) _ _ _ _ _ _

end Sys2Proof.Machine
end

