-- ==== Sys2Proof/Laws/FormIssue.lean ====
section
/-!
SUPPORT. The canonical form of the memories (log 10) through writes at their homes, paired blocks, credit, and the issue of an instruction:
an instruction keeps it when its own part does.
-/

namespace Sys2Proof.Machine

variable {s : State}

/-! ## Lanes that die (R172) -/

theorem iteKeeps {a b : State} (c : Bool) (ha : a.memWf = true) (hb : b.memWf = true) : (if c = true then a else b).memWf = true := by
  cases c
  · exact hb
  · exact ha

theorem Group.mergeDone_saved (g : Group) (m : Merge) : (g.mergeDone m).saved = g.saved := rfl

theorem Group.mergeArrive_saved (g : Group) (mid sid : Nat) : (g.mergeArrive mid sid).saved = g.saved := by
  unfold Group.mergeArrive
  split
  · rfl
  · simp only
    (repeat' split) <;> rfl

theorem Group.arriveOnce_saved (g : Group) (p : Split) : (g.arriveOnce p).saved = g.saved := by
  unfold Group.arriveOnce
  split
  · rfl
  · split
    · exact g.mergeArrive_saved _ _
    · rfl

theorem Group.settleSplits_saved (n : Nat) (g : Group) : (g.settleSplits n).saved = g.saved := by
  induction n generalizing g with
  | zero => rfl
  | succ n ih =>
    unfold Group.settleSplits
    split
    · rfl
    · rw [ih]
      split
      · rfl
      · exact g.arriveOnce_saved _

theorem Group.settle_saved (g : Group) : g.settle.saved = g.saved := g.settleSplits_saved 400

theorem Group.arriveAll_saved (n sid : Nat) (g : Group) : (g.arriveAll n sid).saved = g.saved := by
  induction n generalizing g sid with
  | zero => rfl
  | succ n ih =>
    unfold Group.arriveAll
    split
    · rfl
    · have hs : ∀ k p, (arriveAll n k (g.arriveOnce p).settle).saved = g.saved := fun k p => by
        rw [ih, Group.settle_saved, g.arriveOnce_saved]
      simp only
      (repeat' split) <;> first | exact hs _ _ | rfl

theorem State.killLanes_form (h : s.memWf = true) (gid : Nat) (lanes : List Nat) (addr : Nat) : (s.killLanes gid lanes addr).memWf = true := by
  unfold State.killLanes
  split
  · exact h
  · rename_i g _
    simp only
    have h1 := foldl_keeps (P := fun t => State.memWf t = true) (f := fun t (_ : Nat) => t.logError 4 (dieOf g.core) (quadOf g.core % 4) addr g.part (g.core % 24) [])
      (fun t _ ht => State.logError_form ht _ _ _ _ _ _ _) (lanes.filter fun l => !(g.dead.getLsbD l)) h
    have h2 := State.updGrp_still (f := fun g => ({ g with dead := g.dead ||| maskOf lanes } : Group).settle) h1 gid fun g => Group.settle_saved _
    split
    · split
      · exact State.updGrp_still (State.endItems_form h2 _ _ _) _ fun _ => rfl
      · exact h2
    · exact h2

/-! ## Writes at their homes (R82, R83, R275, R277, R284, R292) -/

theorem State.settlePledge_form (h : s.memWf = true) (part core mb n : Nat) : (s.settlePledge part core mb n).memWf = true := by
  unfold State.settlePledge
  split
  · exact State.refundTo_form h _ _ _
  · simp only
    split
    · exact State.refundTo_form h _ _ _
    · split
      · exact State.refundTo_form (State.updPage_form h _ _ _) _ _ _
      · split
        · exact State.refundTo_form (State.updPage_form h _ _ _) _ _ _
        · exact State.refundTo_form h _ _ _

theorem State.unpledge_form (h : s.memWf = true) (part mb : Nat) (df : Int) : (s.unpledge part mb df).memWf = true := by
  unfold State.unpledge
  split
  · exact State.addF_form h _ _
  · exact State.addFP_form (State.updPage_form h _ _ _) _ _ _

theorem State.zeroBlock_form (h : s.memWf = true) (part mb : Nat) : (s.zeroBlock part mb).memWf = true := by
  unfold State.zeroBlock
  split
  · exact h
  · split
    · exact h
    · exact State.unpledge_form (State.updPage_form h _ _ _) _ _ _

theorem State.takePledge_form (h : s.memWf = true) (w : Write) : (s.takePledge w).2.memWf = true := h

theorem State.setFloor_form (h : s.memWf = true) (gid : Nat) (xs : List (Nat × Nat)) : (s.setFloor gid xs).memWf = true :=
  State.updGrp_still h _ fun _ => rfl

theorem State.noteEarly_form (h : s.memWf = true) (wid : Nat) (st : VClock) : (s.noteEarly wid st).memWf = true := by
  unfold State.noteEarly
  exact h

theorem State.noteOrder_form (h : s.memWf = true) (p : Part) (w : Write) (st : VClock) (cs : List Host.Cell) : (s.noteOrder p w st cs).memWf = true := h

theorem State.accepted_form (h : s.memWf = true) (p : Part) (w : Write) (st : VClock) (cs : List Host.Cell) : (s.accepted p w st cs).memWf = true := by
  unfold State.accepted
  have h1 := State.setFloor_form (State.joinGc_form (State.noteEarly_form h w.wid st) w.gid w.seq st) w.gid
    (placesOf p (cs.filter fun c => decide (c.1 < 2 ^ 48)) st)
  have h2 := State.noteOrder_form h1 p w st cs
  simp only
  split
  · exact h2
  · exact State.updGrp_still h2 _ fun _ => rfl

theorem State.passFences_form (h : s.memWf = true) (w : Write) : (s.passFences w).2.memWf = true := h

theorem State.noteMem_form (h : s.memWf = true) (gid : Nat) : (s.noteMem gid).memWf = true := State.updGrp_still h _ fun _ => rfl

theorem State.noteRead_form (h : s.memWf = true) (gid addr : Nat) (v : List Byte) : (s.noteRead gid addr v).memWf = true := State.updMm_form h _ _

theorem State.noteAcq_form (h : s.memWf = true) (gid addr : Nat) (v : List Byte) : (s.noteAcq gid addr v).memWf = true := by
  unfold State.noteAcq
  split
  · exact h
  · simp only
    refine iteKeeps _ (State.updPart_still ?_ _ (fun _ => by rfl) fun _ => by rfl) ?_
    · exact State.updMm_form h _ _
    · exact State.updMm_form h _ _

theorem State.noteCas_form (h : s.memWf = true) (w : Write) (op : Nat) (failed : Bool) (old : List Byte) : (s.noteCas w op failed old).memWf = true := by
  unfold State.noteCas
  split
  · exact h
  · split
    · exact State.noteMem_form h _
    · exact iteKeeps _ (State.noteAcq_form (State.noteRead_form h _ _ _) _ _ _) (State.noteRead_form h _ _ _)

theorem State.atomicLane_form (h : s.memWf = true) (oid lane : Nat) (old : Option (List Word)) : (s.atomicLane oid lane old).memWf = true :=
  foldl_keeps (P := fun t => State.memWf t = true) (fun _ _ ht => State.updOp_form ht _ _ _) _ h

end Sys2Proof.Machine
end

