-- ==== Sys2Proof/Laws/State.lean ====
section
/-!
SUPPORT. What each update of the state changes: one lemma per field per update.
-/

namespace Sys2Proof.Machine

variable (s : State)

/-! ## State.updGrp -/

@[simp] theorem State.updGrp_agenda (gid : Nat) (f : Group → Group) : (s.updGrp gid f).agenda = s.agenda := rfl
@[simp] theorem State.updGrp_free (gid : Nat) (f : Group → Group) : (s.updGrp gid f).free = s.free := rfl
@[simp] theorem State.updGrp_nextId (gid : Nat) (f : Group → Group) : (s.updGrp gid f).nextId = s.nextId := rfl
@[simp] theorem State.updGrp_cur (gid : Nat) (f : Group → Group) : (s.updGrp gid f).cur = s.cur := rfl
@[simp] theorem State.updGrp_dev (gid : Nat) (f : Group → Group) : (s.updGrp gid f).dev = s.dev := rfl
@[simp] theorem State.updGrp_quads (gid : Nat) (f : Group → Group) : (s.updGrp gid f).quads = s.quads := rfl
@[simp] theorem State.updGrp_cores (gid : Nat) (f : Group → Group) : (s.updGrp gid f).cores = s.cores := rfl
@[simp] theorem State.updGrp_parts (gid : Nat) (f : Group → Group) : (s.updGrp gid f).parts = s.parts := rfl
@[simp] theorem State.updGrp_pages (gid : Nat) (f : Group → Group) : (s.updGrp gid f).pages = s.pages := rfl
@[simp] theorem State.updGrp_grids (gid : Nat) (f : Group → Group) : (s.updGrp gid f).grids = s.grids := rfl
@[simp] theorem State.updGrp_blocks (gid : Nat) (f : Group → Group) : (s.updGrp gid f).blocks = s.blocks := rfl
@[simp] theorem State.updGrp_groups (gid : Nat) (f : Group → Group) : (s.updGrp gid f).groups = updFirst (fun g => decide (g.gid = gid)) f s.groups := rfl
@[simp] theorem State.updGrp_nodes (gid : Nat) (f : Group → Group) : (s.updGrp gid f).nodes = s.nodes := rfl
@[simp] theorem State.updGrp_jobs (gid : Nat) (f : Group → Group) : (s.updGrp gid f).jobs = s.jobs := rfl
@[simp] theorem State.updGrp_frames (gid : Nat) (f : Group → Group) : (s.updGrp gid f).frames = s.frames := rfl
@[simp] theorem State.updGrp_writes (gid : Nat) (f : Group → Group) : (s.updGrp gid f).writes = s.writes := rfl
@[simp] theorem State.updGrp_applies (gid : Nat) (f : Group → Group) : (s.updGrp gid f).applies = s.applies := rfl
@[simp] theorem State.updGrp_early (gid : Nat) (f : Group → Group) : (s.updGrp gid f).early = s.early := rfl
@[simp] theorem State.updGrp_ordered (gid : Nat) (f : Group → Group) : (s.updGrp gid f).ordered = s.ordered := rfl
@[simp] theorem State.updGrp_rels (gid : Nat) (f : Group → Group) : (s.updGrp gid f).rels = s.rels := rfl
@[simp] theorem State.updGrp_refunds (gid : Nat) (f : Group → Group) : (s.updGrp gid f).refunds = s.refunds := rfl
@[simp] theorem State.updGrp_rmas (gid : Nat) (f : Group → Group) : (s.updGrp gid f).rmas = s.rmas := rfl
@[simp] theorem State.updGrp_acks (gid : Nat) (f : Group → Group) : (s.updGrp gid f).acks = s.acks := rfl
@[simp] theorem State.updGrp_packets (gid : Nat) (f : Group → Group) : (s.updGrp gid f).packets = s.packets := rfl
@[simp] theorem State.updGrp_host (gid : Nat) (f : Group → Group) : (s.updGrp gid f).host = s.host := rfl
@[simp] theorem State.updGrp_hostMarks (gid : Nat) (f : Group → Group) : (s.updGrp gid f).hostMarks = s.hostMarks := rfl
@[simp] theorem State.updGrp_out (gid : Nat) (f : Group → Group) : (s.updGrp gid f).out = s.out := rfl

/-! ## State.updPart -/

@[simp] theorem State.updPart_agenda (id : Nat) (f : Part → Part) : (s.updPart id f).agenda = s.agenda := rfl
@[simp] theorem State.updPart_free (id : Nat) (f : Part → Part) : (s.updPart id f).free = s.free := rfl
@[simp] theorem State.updPart_nextId (id : Nat) (f : Part → Part) : (s.updPart id f).nextId = s.nextId := rfl
@[simp] theorem State.updPart_cur (id : Nat) (f : Part → Part) : (s.updPart id f).cur = s.cur := rfl
@[simp] theorem State.updPart_dev (id : Nat) (f : Part → Part) : (s.updPart id f).dev = s.dev := rfl
@[simp] theorem State.updPart_quads (id : Nat) (f : Part → Part) : (s.updPart id f).quads = s.quads := rfl
@[simp] theorem State.updPart_cores (id : Nat) (f : Part → Part) : (s.updPart id f).cores = s.cores := rfl
@[simp] theorem State.updPart_parts (id : Nat) (f : Part → Part) : (s.updPart id f).parts = updFirst (fun p => decide (p.id = id)) f s.parts := rfl
@[simp] theorem State.updPart_pages (id : Nat) (f : Part → Part) : (s.updPart id f).pages = s.pages := rfl
@[simp] theorem State.updPart_grids (id : Nat) (f : Part → Part) : (s.updPart id f).grids = s.grids := rfl
@[simp] theorem State.updPart_blocks (id : Nat) (f : Part → Part) : (s.updPart id f).blocks = s.blocks := rfl
@[simp] theorem State.updPart_groups (id : Nat) (f : Part → Part) : (s.updPart id f).groups = s.groups := rfl
@[simp] theorem State.updPart_nodes (id : Nat) (f : Part → Part) : (s.updPart id f).nodes = s.nodes := rfl
@[simp] theorem State.updPart_jobs (id : Nat) (f : Part → Part) : (s.updPart id f).jobs = s.jobs := rfl
@[simp] theorem State.updPart_frames (id : Nat) (f : Part → Part) : (s.updPart id f).frames = s.frames := rfl
@[simp] theorem State.updPart_writes (id : Nat) (f : Part → Part) : (s.updPart id f).writes = s.writes := rfl
@[simp] theorem State.updPart_applies (id : Nat) (f : Part → Part) : (s.updPart id f).applies = s.applies := rfl
@[simp] theorem State.updPart_early (id : Nat) (f : Part → Part) : (s.updPart id f).early = s.early := rfl
@[simp] theorem State.updPart_ordered (id : Nat) (f : Part → Part) : (s.updPart id f).ordered = s.ordered := rfl
@[simp] theorem State.updPart_rels (id : Nat) (f : Part → Part) : (s.updPart id f).rels = s.rels := rfl
@[simp] theorem State.updPart_refunds (id : Nat) (f : Part → Part) : (s.updPart id f).refunds = s.refunds := rfl
@[simp] theorem State.updPart_rmas (id : Nat) (f : Part → Part) : (s.updPart id f).rmas = s.rmas := rfl
@[simp] theorem State.updPart_acks (id : Nat) (f : Part → Part) : (s.updPart id f).acks = s.acks := rfl
@[simp] theorem State.updPart_packets (id : Nat) (f : Part → Part) : (s.updPart id f).packets = s.packets := rfl
@[simp] theorem State.updPart_host (id : Nat) (f : Part → Part) : (s.updPart id f).host = s.host := rfl
@[simp] theorem State.updPart_hostMarks (id : Nat) (f : Part → Part) : (s.updPart id f).hostMarks = s.hostMarks := rfl
@[simp] theorem State.updPart_out (id : Nat) (f : Part → Part) : (s.updPart id f).out = s.out := rfl

/-! ## State.updGrid -/

@[simp] theorem State.updGrid_agenda (id : Nat) (f : Grid → Grid) : (s.updGrid id f).agenda = s.agenda := rfl
@[simp] theorem State.updGrid_free (id : Nat) (f : Grid → Grid) : (s.updGrid id f).free = s.free := rfl
@[simp] theorem State.updGrid_nextId (id : Nat) (f : Grid → Grid) : (s.updGrid id f).nextId = s.nextId := rfl
@[simp] theorem State.updGrid_cur (id : Nat) (f : Grid → Grid) : (s.updGrid id f).cur = s.cur := rfl
@[simp] theorem State.updGrid_dev (id : Nat) (f : Grid → Grid) : (s.updGrid id f).dev = s.dev := rfl
@[simp] theorem State.updGrid_quads (id : Nat) (f : Grid → Grid) : (s.updGrid id f).quads = s.quads := rfl
@[simp] theorem State.updGrid_cores (id : Nat) (f : Grid → Grid) : (s.updGrid id f).cores = s.cores := rfl
@[simp] theorem State.updGrid_parts (id : Nat) (f : Grid → Grid) : (s.updGrid id f).parts = s.parts := rfl
@[simp] theorem State.updGrid_pages (id : Nat) (f : Grid → Grid) : (s.updGrid id f).pages = s.pages := rfl
@[simp] theorem State.updGrid_grids (id : Nat) (f : Grid → Grid) : (s.updGrid id f).grids = updFirst (fun g => decide (g.id = id)) f s.grids := rfl
@[simp] theorem State.updGrid_blocks (id : Nat) (f : Grid → Grid) : (s.updGrid id f).blocks = s.blocks := rfl
@[simp] theorem State.updGrid_groups (id : Nat) (f : Grid → Grid) : (s.updGrid id f).groups = s.groups := rfl
@[simp] theorem State.updGrid_nodes (id : Nat) (f : Grid → Grid) : (s.updGrid id f).nodes = s.nodes := rfl
@[simp] theorem State.updGrid_jobs (id : Nat) (f : Grid → Grid) : (s.updGrid id f).jobs = s.jobs := rfl
@[simp] theorem State.updGrid_frames (id : Nat) (f : Grid → Grid) : (s.updGrid id f).frames = s.frames := rfl
@[simp] theorem State.updGrid_writes (id : Nat) (f : Grid → Grid) : (s.updGrid id f).writes = s.writes := rfl
@[simp] theorem State.updGrid_applies (id : Nat) (f : Grid → Grid) : (s.updGrid id f).applies = s.applies := rfl
@[simp] theorem State.updGrid_early (id : Nat) (f : Grid → Grid) : (s.updGrid id f).early = s.early := rfl
@[simp] theorem State.updGrid_ordered (id : Nat) (f : Grid → Grid) : (s.updGrid id f).ordered = s.ordered := rfl
@[simp] theorem State.updGrid_rels (id : Nat) (f : Grid → Grid) : (s.updGrid id f).rels = s.rels := rfl
@[simp] theorem State.updGrid_refunds (id : Nat) (f : Grid → Grid) : (s.updGrid id f).refunds = s.refunds := rfl
@[simp] theorem State.updGrid_rmas (id : Nat) (f : Grid → Grid) : (s.updGrid id f).rmas = s.rmas := rfl
@[simp] theorem State.updGrid_acks (id : Nat) (f : Grid → Grid) : (s.updGrid id f).acks = s.acks := rfl
@[simp] theorem State.updGrid_packets (id : Nat) (f : Grid → Grid) : (s.updGrid id f).packets = s.packets := rfl
@[simp] theorem State.updGrid_host (id : Nat) (f : Grid → Grid) : (s.updGrid id f).host = s.host := rfl
@[simp] theorem State.updGrid_hostMarks (id : Nat) (f : Grid → Grid) : (s.updGrid id f).hostMarks = s.hostMarks := rfl
@[simp] theorem State.updGrid_out (id : Nat) (f : Grid → Grid) : (s.updGrid id f).out = s.out := rfl

/-! ## State.updJob -/

@[simp] theorem State.updJob_agenda (id : Nat) (f : Job → Job) : (s.updJob id f).agenda = s.agenda := rfl
@[simp] theorem State.updJob_free (id : Nat) (f : Job → Job) : (s.updJob id f).free = s.free := rfl
@[simp] theorem State.updJob_nextId (id : Nat) (f : Job → Job) : (s.updJob id f).nextId = s.nextId := rfl
@[simp] theorem State.updJob_cur (id : Nat) (f : Job → Job) : (s.updJob id f).cur = s.cur := rfl
@[simp] theorem State.updJob_dev (id : Nat) (f : Job → Job) : (s.updJob id f).dev = s.dev := rfl
@[simp] theorem State.updJob_quads (id : Nat) (f : Job → Job) : (s.updJob id f).quads = s.quads := rfl
@[simp] theorem State.updJob_cores (id : Nat) (f : Job → Job) : (s.updJob id f).cores = s.cores := rfl
@[simp] theorem State.updJob_parts (id : Nat) (f : Job → Job) : (s.updJob id f).parts = s.parts := rfl
@[simp] theorem State.updJob_pages (id : Nat) (f : Job → Job) : (s.updJob id f).pages = s.pages := rfl
@[simp] theorem State.updJob_grids (id : Nat) (f : Job → Job) : (s.updJob id f).grids = s.grids := rfl
@[simp] theorem State.updJob_blocks (id : Nat) (f : Job → Job) : (s.updJob id f).blocks = s.blocks := rfl
@[simp] theorem State.updJob_groups (id : Nat) (f : Job → Job) : (s.updJob id f).groups = s.groups := rfl
@[simp] theorem State.updJob_nodes (id : Nat) (f : Job → Job) : (s.updJob id f).nodes = s.nodes := rfl
@[simp] theorem State.updJob_jobs (id : Nat) (f : Job → Job) : (s.updJob id f).jobs = updFirst (fun j => decide (j.jid = id)) f s.jobs := rfl
@[simp] theorem State.updJob_frames (id : Nat) (f : Job → Job) : (s.updJob id f).frames = s.frames := rfl
@[simp] theorem State.updJob_writes (id : Nat) (f : Job → Job) : (s.updJob id f).writes = s.writes := rfl
@[simp] theorem State.updJob_applies (id : Nat) (f : Job → Job) : (s.updJob id f).applies = s.applies := rfl
@[simp] theorem State.updJob_early (id : Nat) (f : Job → Job) : (s.updJob id f).early = s.early := rfl
@[simp] theorem State.updJob_ordered (id : Nat) (f : Job → Job) : (s.updJob id f).ordered = s.ordered := rfl
@[simp] theorem State.updJob_rels (id : Nat) (f : Job → Job) : (s.updJob id f).rels = s.rels := rfl
@[simp] theorem State.updJob_refunds (id : Nat) (f : Job → Job) : (s.updJob id f).refunds = s.refunds := rfl
@[simp] theorem State.updJob_rmas (id : Nat) (f : Job → Job) : (s.updJob id f).rmas = s.rmas := rfl
@[simp] theorem State.updJob_acks (id : Nat) (f : Job → Job) : (s.updJob id f).acks = s.acks := rfl
@[simp] theorem State.updJob_packets (id : Nat) (f : Job → Job) : (s.updJob id f).packets = s.packets := rfl
@[simp] theorem State.updJob_host (id : Nat) (f : Job → Job) : (s.updJob id f).host = s.host := rfl
@[simp] theorem State.updJob_hostMarks (id : Nat) (f : Job → Job) : (s.updJob id f).hostMarks = s.hostMarks := rfl
@[simp] theorem State.updJob_out (id : Nat) (f : Job → Job) : (s.updJob id f).out = s.out := rfl

/-! ## State.updNode -/

@[simp] theorem State.updNode_agenda (part id : Nat) (f : Node → Node) : (s.updNode part id f).agenda = s.agenda := rfl
@[simp] theorem State.updNode_free (part id : Nat) (f : Node → Node) : (s.updNode part id f).free = s.free := rfl
@[simp] theorem State.updNode_nextId (part id : Nat) (f : Node → Node) : (s.updNode part id f).nextId = s.nextId := rfl
@[simp] theorem State.updNode_cur (part id : Nat) (f : Node → Node) : (s.updNode part id f).cur = s.cur := rfl
@[simp] theorem State.updNode_dev (part id : Nat) (f : Node → Node) : (s.updNode part id f).dev = s.dev := rfl
@[simp] theorem State.updNode_quads (part id : Nat) (f : Node → Node) : (s.updNode part id f).quads = s.quads := rfl
@[simp] theorem State.updNode_cores (part id : Nat) (f : Node → Node) : (s.updNode part id f).cores = s.cores := rfl
@[simp] theorem State.updNode_parts (part id : Nat) (f : Node → Node) : (s.updNode part id f).parts = s.parts := rfl
@[simp] theorem State.updNode_pages (part id : Nat) (f : Node → Node) : (s.updNode part id f).pages = s.pages := rfl
@[simp] theorem State.updNode_grids (part id : Nat) (f : Node → Node) : (s.updNode part id f).grids = s.grids := rfl
@[simp] theorem State.updNode_blocks (part id : Nat) (f : Node → Node) : (s.updNode part id f).blocks = s.blocks := rfl
@[simp] theorem State.updNode_groups (part id : Nat) (f : Node → Node) : (s.updNode part id f).groups = s.groups := rfl
@[simp] theorem State.updNode_nodes (part id : Nat) (f : Node → Node) : (s.updNode part id f).nodes = updFirst (fun n => decide (n.nid = id) && decide (n.part = part)) f s.nodes := rfl
@[simp] theorem State.updNode_jobs (part id : Nat) (f : Node → Node) : (s.updNode part id f).jobs = s.jobs := rfl
@[simp] theorem State.updNode_frames (part id : Nat) (f : Node → Node) : (s.updNode part id f).frames = s.frames := rfl
@[simp] theorem State.updNode_writes (part id : Nat) (f : Node → Node) : (s.updNode part id f).writes = s.writes := rfl
@[simp] theorem State.updNode_applies (part id : Nat) (f : Node → Node) : (s.updNode part id f).applies = s.applies := rfl
@[simp] theorem State.updNode_early (part id : Nat) (f : Node → Node) : (s.updNode part id f).early = s.early := rfl
@[simp] theorem State.updNode_ordered (part id : Nat) (f : Node → Node) : (s.updNode part id f).ordered = s.ordered := rfl
@[simp] theorem State.updNode_rels (part id : Nat) (f : Node → Node) : (s.updNode part id f).rels = s.rels := rfl
@[simp] theorem State.updNode_refunds (part id : Nat) (f : Node → Node) : (s.updNode part id f).refunds = s.refunds := rfl
@[simp] theorem State.updNode_rmas (part id : Nat) (f : Node → Node) : (s.updNode part id f).rmas = s.rmas := rfl
@[simp] theorem State.updNode_acks (part id : Nat) (f : Node → Node) : (s.updNode part id f).acks = s.acks := rfl
@[simp] theorem State.updNode_packets (part id : Nat) (f : Node → Node) : (s.updNode part id f).packets = s.packets := rfl
@[simp] theorem State.updNode_host (part id : Nat) (f : Node → Node) : (s.updNode part id f).host = s.host := rfl
@[simp] theorem State.updNode_hostMarks (part id : Nat) (f : Node → Node) : (s.updNode part id f).hostMarks = s.hostMarks := rfl
@[simp] theorem State.updNode_out (part id : Nat) (f : Node → Node) : (s.updNode part id f).out = s.out := rfl

/-! ## State.updPage -/

@[simp] theorem State.updPage_agenda (part vpn : Nat) (f : Page → Page) : (s.updPage part vpn f).agenda = s.agenda := rfl
@[simp] theorem State.updPage_free (part vpn : Nat) (f : Page → Page) : (s.updPage part vpn f).free = s.free := rfl
@[simp] theorem State.updPage_nextId (part vpn : Nat) (f : Page → Page) : (s.updPage part vpn f).nextId = s.nextId := rfl
@[simp] theorem State.updPage_cur (part vpn : Nat) (f : Page → Page) : (s.updPage part vpn f).cur = s.cur := rfl
@[simp] theorem State.updPage_dev (part vpn : Nat) (f : Page → Page) : (s.updPage part vpn f).dev = s.dev := rfl
@[simp] theorem State.updPage_quads (part vpn : Nat) (f : Page → Page) : (s.updPage part vpn f).quads = s.quads := rfl
@[simp] theorem State.updPage_cores (part vpn : Nat) (f : Page → Page) : (s.updPage part vpn f).cores = s.cores := rfl
@[simp] theorem State.updPage_parts (part vpn : Nat) (f : Page → Page) : (s.updPage part vpn f).parts = s.parts := rfl
@[simp] theorem State.updPage_pages (part vpn : Nat) (f : Page → Page) : (s.updPage part vpn f).pages = updFirst (fun p => decide (p.part = part) && decide (p.vpn = vpn)) f s.pages := rfl
@[simp] theorem State.updPage_grids (part vpn : Nat) (f : Page → Page) : (s.updPage part vpn f).grids = s.grids := rfl
@[simp] theorem State.updPage_blocks (part vpn : Nat) (f : Page → Page) : (s.updPage part vpn f).blocks = s.blocks := rfl
@[simp] theorem State.updPage_groups (part vpn : Nat) (f : Page → Page) : (s.updPage part vpn f).groups = s.groups := rfl
@[simp] theorem State.updPage_nodes (part vpn : Nat) (f : Page → Page) : (s.updPage part vpn f).nodes = s.nodes := rfl
@[simp] theorem State.updPage_jobs (part vpn : Nat) (f : Page → Page) : (s.updPage part vpn f).jobs = s.jobs := rfl
@[simp] theorem State.updPage_frames (part vpn : Nat) (f : Page → Page) : (s.updPage part vpn f).frames = s.frames := rfl
@[simp] theorem State.updPage_writes (part vpn : Nat) (f : Page → Page) : (s.updPage part vpn f).writes = s.writes := rfl
@[simp] theorem State.updPage_applies (part vpn : Nat) (f : Page → Page) : (s.updPage part vpn f).applies = s.applies := rfl
@[simp] theorem State.updPage_early (part vpn : Nat) (f : Page → Page) : (s.updPage part vpn f).early = s.early := rfl
@[simp] theorem State.updPage_ordered (part vpn : Nat) (f : Page → Page) : (s.updPage part vpn f).ordered = s.ordered := rfl
@[simp] theorem State.updPage_rels (part vpn : Nat) (f : Page → Page) : (s.updPage part vpn f).rels = s.rels := rfl
@[simp] theorem State.updPage_refunds (part vpn : Nat) (f : Page → Page) : (s.updPage part vpn f).refunds = s.refunds := rfl
@[simp] theorem State.updPage_rmas (part vpn : Nat) (f : Page → Page) : (s.updPage part vpn f).rmas = s.rmas := rfl
@[simp] theorem State.updPage_acks (part vpn : Nat) (f : Page → Page) : (s.updPage part vpn f).acks = s.acks := rfl
@[simp] theorem State.updPage_packets (part vpn : Nat) (f : Page → Page) : (s.updPage part vpn f).packets = s.packets := rfl
@[simp] theorem State.updPage_host (part vpn : Nat) (f : Page → Page) : (s.updPage part vpn f).host = s.host := rfl
@[simp] theorem State.updPage_hostMarks (part vpn : Nat) (f : Page → Page) : (s.updPage part vpn f).hostMarks = s.hostMarks := rfl
@[simp] theorem State.updPage_out (part vpn : Nat) (f : Page → Page) : (s.updPage part vpn f).out = s.out := rfl

/-! ## State.updBlock -/

@[simp] theorem State.updBlock_agenda (grid bidx copy : Nat) (f : Block → Block) : (s.updBlock grid bidx copy f).agenda = s.agenda := rfl
@[simp] theorem State.updBlock_free (grid bidx copy : Nat) (f : Block → Block) : (s.updBlock grid bidx copy f).free = s.free := rfl
@[simp] theorem State.updBlock_nextId (grid bidx copy : Nat) (f : Block → Block) : (s.updBlock grid bidx copy f).nextId = s.nextId := rfl
@[simp] theorem State.updBlock_cur (grid bidx copy : Nat) (f : Block → Block) : (s.updBlock grid bidx copy f).cur = s.cur := rfl
@[simp] theorem State.updBlock_dev (grid bidx copy : Nat) (f : Block → Block) : (s.updBlock grid bidx copy f).dev = s.dev := rfl
@[simp] theorem State.updBlock_quads (grid bidx copy : Nat) (f : Block → Block) : (s.updBlock grid bidx copy f).quads = s.quads := rfl
@[simp] theorem State.updBlock_cores (grid bidx copy : Nat) (f : Block → Block) : (s.updBlock grid bidx copy f).cores = s.cores := rfl
@[simp] theorem State.updBlock_parts (grid bidx copy : Nat) (f : Block → Block) : (s.updBlock grid bidx copy f).parts = s.parts := rfl
@[simp] theorem State.updBlock_pages (grid bidx copy : Nat) (f : Block → Block) : (s.updBlock grid bidx copy f).pages = s.pages := rfl
@[simp] theorem State.updBlock_grids (grid bidx copy : Nat) (f : Block → Block) : (s.updBlock grid bidx copy f).grids = s.grids := rfl
@[simp] theorem State.updBlock_blocks (grid bidx copy : Nat) (f : Block → Block) : (s.updBlock grid bidx copy f).blocks = updFirst (fun b => decide (b.grid = grid) && decide (b.bidx = bidx) && decide (b.copy = copy)) f s.blocks := rfl
@[simp] theorem State.updBlock_groups (grid bidx copy : Nat) (f : Block → Block) : (s.updBlock grid bidx copy f).groups = s.groups := rfl
@[simp] theorem State.updBlock_nodes (grid bidx copy : Nat) (f : Block → Block) : (s.updBlock grid bidx copy f).nodes = s.nodes := rfl
@[simp] theorem State.updBlock_jobs (grid bidx copy : Nat) (f : Block → Block) : (s.updBlock grid bidx copy f).jobs = s.jobs := rfl
@[simp] theorem State.updBlock_frames (grid bidx copy : Nat) (f : Block → Block) : (s.updBlock grid bidx copy f).frames = s.frames := rfl
@[simp] theorem State.updBlock_writes (grid bidx copy : Nat) (f : Block → Block) : (s.updBlock grid bidx copy f).writes = s.writes := rfl
@[simp] theorem State.updBlock_applies (grid bidx copy : Nat) (f : Block → Block) : (s.updBlock grid bidx copy f).applies = s.applies := rfl
@[simp] theorem State.updBlock_early (grid bidx copy : Nat) (f : Block → Block) : (s.updBlock grid bidx copy f).early = s.early := rfl
@[simp] theorem State.updBlock_ordered (grid bidx copy : Nat) (f : Block → Block) : (s.updBlock grid bidx copy f).ordered = s.ordered := rfl
@[simp] theorem State.updBlock_rels (grid bidx copy : Nat) (f : Block → Block) : (s.updBlock grid bidx copy f).rels = s.rels := rfl
@[simp] theorem State.updBlock_refunds (grid bidx copy : Nat) (f : Block → Block) : (s.updBlock grid bidx copy f).refunds = s.refunds := rfl
@[simp] theorem State.updBlock_rmas (grid bidx copy : Nat) (f : Block → Block) : (s.updBlock grid bidx copy f).rmas = s.rmas := rfl
@[simp] theorem State.updBlock_acks (grid bidx copy : Nat) (f : Block → Block) : (s.updBlock grid bidx copy f).acks = s.acks := rfl
@[simp] theorem State.updBlock_packets (grid bidx copy : Nat) (f : Block → Block) : (s.updBlock grid bidx copy f).packets = s.packets := rfl
@[simp] theorem State.updBlock_host (grid bidx copy : Nat) (f : Block → Block) : (s.updBlock grid bidx copy f).host = s.host := rfl
@[simp] theorem State.updBlock_hostMarks (grid bidx copy : Nat) (f : Block → Block) : (s.updBlock grid bidx copy f).hostMarks = s.hostMarks := rfl
@[simp] theorem State.updBlock_out (grid bidx copy : Nat) (f : Block → Block) : (s.updBlock grid bidx copy f).out = s.out := rfl

/-! ## State.updCore -/

@[simp] theorem State.updCore_agenda (c : Nat) (f : Core → Core) : (s.updCore c f).agenda = s.agenda := rfl
@[simp] theorem State.updCore_free (c : Nat) (f : Core → Core) : (s.updCore c f).free = s.free := rfl
@[simp] theorem State.updCore_nextId (c : Nat) (f : Core → Core) : (s.updCore c f).nextId = s.nextId := rfl
@[simp] theorem State.updCore_cur (c : Nat) (f : Core → Core) : (s.updCore c f).cur = s.cur := rfl
@[simp] theorem State.updCore_dev (c : Nat) (f : Core → Core) : (s.updCore c f).dev = s.dev := rfl
@[simp] theorem State.updCore_quads (c : Nat) (f : Core → Core) : (s.updCore c f).quads = s.quads := rfl
@[simp] theorem State.updCore_cores (c : Nat) (f : Core → Core) : (s.updCore c f).cores = s.cores.modify c f := rfl
@[simp] theorem State.updCore_parts (c : Nat) (f : Core → Core) : (s.updCore c f).parts = s.parts := rfl
@[simp] theorem State.updCore_pages (c : Nat) (f : Core → Core) : (s.updCore c f).pages = s.pages := rfl
@[simp] theorem State.updCore_grids (c : Nat) (f : Core → Core) : (s.updCore c f).grids = s.grids := rfl
@[simp] theorem State.updCore_blocks (c : Nat) (f : Core → Core) : (s.updCore c f).blocks = s.blocks := rfl
@[simp] theorem State.updCore_groups (c : Nat) (f : Core → Core) : (s.updCore c f).groups = s.groups := rfl
@[simp] theorem State.updCore_nodes (c : Nat) (f : Core → Core) : (s.updCore c f).nodes = s.nodes := rfl
@[simp] theorem State.updCore_jobs (c : Nat) (f : Core → Core) : (s.updCore c f).jobs = s.jobs := rfl
@[simp] theorem State.updCore_frames (c : Nat) (f : Core → Core) : (s.updCore c f).frames = s.frames := rfl
@[simp] theorem State.updCore_writes (c : Nat) (f : Core → Core) : (s.updCore c f).writes = s.writes := rfl
@[simp] theorem State.updCore_applies (c : Nat) (f : Core → Core) : (s.updCore c f).applies = s.applies := rfl
@[simp] theorem State.updCore_early (c : Nat) (f : Core → Core) : (s.updCore c f).early = s.early := rfl
@[simp] theorem State.updCore_ordered (c : Nat) (f : Core → Core) : (s.updCore c f).ordered = s.ordered := rfl
@[simp] theorem State.updCore_rels (c : Nat) (f : Core → Core) : (s.updCore c f).rels = s.rels := rfl
@[simp] theorem State.updCore_refunds (c : Nat) (f : Core → Core) : (s.updCore c f).refunds = s.refunds := rfl
@[simp] theorem State.updCore_rmas (c : Nat) (f : Core → Core) : (s.updCore c f).rmas = s.rmas := rfl
@[simp] theorem State.updCore_acks (c : Nat) (f : Core → Core) : (s.updCore c f).acks = s.acks := rfl
@[simp] theorem State.updCore_packets (c : Nat) (f : Core → Core) : (s.updCore c f).packets = s.packets := rfl
@[simp] theorem State.updCore_host (c : Nat) (f : Core → Core) : (s.updCore c f).host = s.host := rfl
@[simp] theorem State.updCore_hostMarks (c : Nat) (f : Core → Core) : (s.updCore c f).hostMarks = s.hostMarks := rfl
@[simp] theorem State.updCore_out (c : Nat) (f : Core → Core) : (s.updCore c f).out = s.out := rfl

/-! ## State.updQuad -/

@[simp] theorem State.updQuad_agenda (q : Nat) (f : Quad → Quad) : (s.updQuad q f).agenda = s.agenda := rfl
@[simp] theorem State.updQuad_free (q : Nat) (f : Quad → Quad) : (s.updQuad q f).free = s.free := rfl
@[simp] theorem State.updQuad_nextId (q : Nat) (f : Quad → Quad) : (s.updQuad q f).nextId = s.nextId := rfl
@[simp] theorem State.updQuad_cur (q : Nat) (f : Quad → Quad) : (s.updQuad q f).cur = s.cur := rfl
@[simp] theorem State.updQuad_dev (q : Nat) (f : Quad → Quad) : (s.updQuad q f).dev = s.dev := rfl
@[simp] theorem State.updQuad_quads (q : Nat) (f : Quad → Quad) : (s.updQuad q f).quads = s.quads.modify q f := rfl
@[simp] theorem State.updQuad_cores (q : Nat) (f : Quad → Quad) : (s.updQuad q f).cores = s.cores := rfl
@[simp] theorem State.updQuad_parts (q : Nat) (f : Quad → Quad) : (s.updQuad q f).parts = s.parts := rfl
@[simp] theorem State.updQuad_pages (q : Nat) (f : Quad → Quad) : (s.updQuad q f).pages = s.pages := rfl
@[simp] theorem State.updQuad_grids (q : Nat) (f : Quad → Quad) : (s.updQuad q f).grids = s.grids := rfl
@[simp] theorem State.updQuad_blocks (q : Nat) (f : Quad → Quad) : (s.updQuad q f).blocks = s.blocks := rfl
@[simp] theorem State.updQuad_groups (q : Nat) (f : Quad → Quad) : (s.updQuad q f).groups = s.groups := rfl
@[simp] theorem State.updQuad_nodes (q : Nat) (f : Quad → Quad) : (s.updQuad q f).nodes = s.nodes := rfl
@[simp] theorem State.updQuad_jobs (q : Nat) (f : Quad → Quad) : (s.updQuad q f).jobs = s.jobs := rfl
@[simp] theorem State.updQuad_frames (q : Nat) (f : Quad → Quad) : (s.updQuad q f).frames = s.frames := rfl
@[simp] theorem State.updQuad_writes (q : Nat) (f : Quad → Quad) : (s.updQuad q f).writes = s.writes := rfl
@[simp] theorem State.updQuad_applies (q : Nat) (f : Quad → Quad) : (s.updQuad q f).applies = s.applies := rfl
@[simp] theorem State.updQuad_early (q : Nat) (f : Quad → Quad) : (s.updQuad q f).early = s.early := rfl
@[simp] theorem State.updQuad_ordered (q : Nat) (f : Quad → Quad) : (s.updQuad q f).ordered = s.ordered := rfl
@[simp] theorem State.updQuad_rels (q : Nat) (f : Quad → Quad) : (s.updQuad q f).rels = s.rels := rfl
@[simp] theorem State.updQuad_refunds (q : Nat) (f : Quad → Quad) : (s.updQuad q f).refunds = s.refunds := rfl
@[simp] theorem State.updQuad_rmas (q : Nat) (f : Quad → Quad) : (s.updQuad q f).rmas = s.rmas := rfl
@[simp] theorem State.updQuad_acks (q : Nat) (f : Quad → Quad) : (s.updQuad q f).acks = s.acks := rfl
@[simp] theorem State.updQuad_packets (q : Nat) (f : Quad → Quad) : (s.updQuad q f).packets = s.packets := rfl
@[simp] theorem State.updQuad_host (q : Nat) (f : Quad → Quad) : (s.updQuad q f).host = s.host := rfl
@[simp] theorem State.updQuad_hostMarks (q : Nat) (f : Quad → Quad) : (s.updQuad q f).hostMarks = s.hostMarks := rfl
@[simp] theorem State.updQuad_out (q : Nat) (f : Quad → Quad) : (s.updQuad q f).out = s.out := rfl

/-! ## State.updDev -/

@[simp] theorem State.updDev_agenda (f : Dev → Dev) : (s.updDev f).agenda = s.agenda := rfl
@[simp] theorem State.updDev_free (f : Dev → Dev) : (s.updDev f).free = s.free := rfl
@[simp] theorem State.updDev_nextId (f : Dev → Dev) : (s.updDev f).nextId = s.nextId := rfl
@[simp] theorem State.updDev_cur (f : Dev → Dev) : (s.updDev f).cur = s.cur := rfl
@[simp] theorem State.updDev_dev (f : Dev → Dev) : (s.updDev f).dev = f s.dev := rfl
@[simp] theorem State.updDev_quads (f : Dev → Dev) : (s.updDev f).quads = s.quads := rfl
@[simp] theorem State.updDev_cores (f : Dev → Dev) : (s.updDev f).cores = s.cores := rfl
@[simp] theorem State.updDev_parts (f : Dev → Dev) : (s.updDev f).parts = s.parts := rfl
@[simp] theorem State.updDev_pages (f : Dev → Dev) : (s.updDev f).pages = s.pages := rfl
@[simp] theorem State.updDev_grids (f : Dev → Dev) : (s.updDev f).grids = s.grids := rfl
@[simp] theorem State.updDev_blocks (f : Dev → Dev) : (s.updDev f).blocks = s.blocks := rfl
@[simp] theorem State.updDev_groups (f : Dev → Dev) : (s.updDev f).groups = s.groups := rfl
@[simp] theorem State.updDev_nodes (f : Dev → Dev) : (s.updDev f).nodes = s.nodes := rfl
@[simp] theorem State.updDev_jobs (f : Dev → Dev) : (s.updDev f).jobs = s.jobs := rfl
@[simp] theorem State.updDev_frames (f : Dev → Dev) : (s.updDev f).frames = s.frames := rfl
@[simp] theorem State.updDev_writes (f : Dev → Dev) : (s.updDev f).writes = s.writes := rfl
@[simp] theorem State.updDev_applies (f : Dev → Dev) : (s.updDev f).applies = s.applies := rfl
@[simp] theorem State.updDev_early (f : Dev → Dev) : (s.updDev f).early = s.early := rfl
@[simp] theorem State.updDev_ordered (f : Dev → Dev) : (s.updDev f).ordered = s.ordered := rfl
@[simp] theorem State.updDev_rels (f : Dev → Dev) : (s.updDev f).rels = s.rels := rfl
@[simp] theorem State.updDev_refunds (f : Dev → Dev) : (s.updDev f).refunds = s.refunds := rfl
@[simp] theorem State.updDev_rmas (f : Dev → Dev) : (s.updDev f).rmas = s.rmas := rfl
@[simp] theorem State.updDev_acks (f : Dev → Dev) : (s.updDev f).acks = s.acks := rfl
@[simp] theorem State.updDev_packets (f : Dev → Dev) : (s.updDev f).packets = s.packets := rfl
@[simp] theorem State.updDev_host (f : Dev → Dev) : (s.updDev f).host = s.host := rfl
@[simp] theorem State.updDev_hostMarks (f : Dev → Dev) : (s.updDev f).hostMarks = s.hostMarks := rfl
@[simp] theorem State.updDev_out (f : Dev → Dev) : (s.updDev f).out = s.out := rfl

/-! ## State.updDie -/

@[simp] theorem State.updDie_agenda (d : Nat) (f : Die → Die) : (s.updDie d f).agenda = s.agenda := rfl
@[simp] theorem State.updDie_free (d : Nat) (f : Die → Die) : (s.updDie d f).free = s.free := rfl
@[simp] theorem State.updDie_nextId (d : Nat) (f : Die → Die) : (s.updDie d f).nextId = s.nextId := rfl
@[simp] theorem State.updDie_cur (d : Nat) (f : Die → Die) : (s.updDie d f).cur = s.cur := rfl
@[simp] theorem State.updDie_dev (d : Nat) (f : Die → Die) : (s.updDie d f).dev = { s.dev with dies := s.dev.dies.modify d f } := rfl
@[simp] theorem State.updDie_quads (d : Nat) (f : Die → Die) : (s.updDie d f).quads = s.quads := rfl
@[simp] theorem State.updDie_cores (d : Nat) (f : Die → Die) : (s.updDie d f).cores = s.cores := rfl
@[simp] theorem State.updDie_parts (d : Nat) (f : Die → Die) : (s.updDie d f).parts = s.parts := rfl
@[simp] theorem State.updDie_pages (d : Nat) (f : Die → Die) : (s.updDie d f).pages = s.pages := rfl
@[simp] theorem State.updDie_grids (d : Nat) (f : Die → Die) : (s.updDie d f).grids = s.grids := rfl
@[simp] theorem State.updDie_blocks (d : Nat) (f : Die → Die) : (s.updDie d f).blocks = s.blocks := rfl
@[simp] theorem State.updDie_groups (d : Nat) (f : Die → Die) : (s.updDie d f).groups = s.groups := rfl
@[simp] theorem State.updDie_nodes (d : Nat) (f : Die → Die) : (s.updDie d f).nodes = s.nodes := rfl
@[simp] theorem State.updDie_jobs (d : Nat) (f : Die → Die) : (s.updDie d f).jobs = s.jobs := rfl
@[simp] theorem State.updDie_frames (d : Nat) (f : Die → Die) : (s.updDie d f).frames = s.frames := rfl
@[simp] theorem State.updDie_writes (d : Nat) (f : Die → Die) : (s.updDie d f).writes = s.writes := rfl
@[simp] theorem State.updDie_applies (d : Nat) (f : Die → Die) : (s.updDie d f).applies = s.applies := rfl
@[simp] theorem State.updDie_early (d : Nat) (f : Die → Die) : (s.updDie d f).early = s.early := rfl
@[simp] theorem State.updDie_ordered (d : Nat) (f : Die → Die) : (s.updDie d f).ordered = s.ordered := rfl
@[simp] theorem State.updDie_rels (d : Nat) (f : Die → Die) : (s.updDie d f).rels = s.rels := rfl
@[simp] theorem State.updDie_refunds (d : Nat) (f : Die → Die) : (s.updDie d f).refunds = s.refunds := rfl
@[simp] theorem State.updDie_rmas (d : Nat) (f : Die → Die) : (s.updDie d f).rmas = s.rmas := rfl
@[simp] theorem State.updDie_acks (d : Nat) (f : Die → Die) : (s.updDie d f).acks = s.acks := rfl
@[simp] theorem State.updDie_packets (d : Nat) (f : Die → Die) : (s.updDie d f).packets = s.packets := rfl
@[simp] theorem State.updDie_host (d : Nat) (f : Die → Die) : (s.updDie d f).host = s.host := rfl
@[simp] theorem State.updDie_hostMarks (d : Nat) (f : Die → Die) : (s.updDie d f).hostMarks = s.hostMarks := rfl
@[simp] theorem State.updDie_out (d : Nat) (f : Die → Die) : (s.updDie d f).out = s.out := rfl

/-! ## State.output -/

@[simp] theorem State.output_agenda (o : Out) : (s.output o).agenda = s.agenda := rfl
@[simp] theorem State.output_free (o : Out) : (s.output o).free = s.free := rfl
@[simp] theorem State.output_nextId (o : Out) : (s.output o).nextId = s.nextId := rfl
@[simp] theorem State.output_cur (o : Out) : (s.output o).cur = s.cur := rfl
@[simp] theorem State.output_dev (o : Out) : (s.output o).dev = s.dev := rfl
@[simp] theorem State.output_quads (o : Out) : (s.output o).quads = s.quads := rfl
@[simp] theorem State.output_cores (o : Out) : (s.output o).cores = s.cores := rfl
@[simp] theorem State.output_parts (o : Out) : (s.output o).parts = s.parts := rfl
@[simp] theorem State.output_pages (o : Out) : (s.output o).pages = s.pages := rfl
@[simp] theorem State.output_grids (o : Out) : (s.output o).grids = s.grids := rfl
@[simp] theorem State.output_blocks (o : Out) : (s.output o).blocks = s.blocks := rfl
@[simp] theorem State.output_groups (o : Out) : (s.output o).groups = s.groups := rfl
@[simp] theorem State.output_nodes (o : Out) : (s.output o).nodes = s.nodes := rfl
@[simp] theorem State.output_jobs (o : Out) : (s.output o).jobs = s.jobs := rfl
@[simp] theorem State.output_frames (o : Out) : (s.output o).frames = s.frames := rfl
@[simp] theorem State.output_writes (o : Out) : (s.output o).writes = s.writes := rfl
@[simp] theorem State.output_applies (o : Out) : (s.output o).applies = s.applies := rfl
@[simp] theorem State.output_early (o : Out) : (s.output o).early = s.early := rfl
@[simp] theorem State.output_ordered (o : Out) : (s.output o).ordered = s.ordered := rfl
@[simp] theorem State.output_rels (o : Out) : (s.output o).rels = s.rels := rfl
@[simp] theorem State.output_refunds (o : Out) : (s.output o).refunds = s.refunds := rfl
@[simp] theorem State.output_rmas (o : Out) : (s.output o).rmas = s.rmas := rfl
@[simp] theorem State.output_acks (o : Out) : (s.output o).acks = s.acks := rfl
@[simp] theorem State.output_packets (o : Out) : (s.output o).packets = s.packets := rfl
@[simp] theorem State.output_host (o : Out) : (s.output o).host = s.host := rfl
@[simp] theorem State.output_hostMarks (o : Out) : (s.output o).hostMarks = s.hostMarks := rfl
@[simp] theorem State.output_out (o : Out) : (s.output o).out = s.out ++ [o] := rfl

/-! ## State.pokeStore -/

@[simp] theorem State.pokeStore_agenda (c : Nat) (cs : List Host.Cell) : (s.pokeStore c cs).agenda = s.agenda := rfl
@[simp] theorem State.pokeStore_free (c : Nat) (cs : List Host.Cell) : (s.pokeStore c cs).free = s.free := rfl
@[simp] theorem State.pokeStore_nextId (c : Nat) (cs : List Host.Cell) : (s.pokeStore c cs).nextId = s.nextId := rfl
@[simp] theorem State.pokeStore_cur (c : Nat) (cs : List Host.Cell) : (s.pokeStore c cs).cur = s.cur := rfl
@[simp] theorem State.pokeStore_dev (c : Nat) (cs : List Host.Cell) : (s.pokeStore c cs).dev = s.dev := rfl
@[simp] theorem State.pokeStore_quads (c : Nat) (cs : List Host.Cell) : (s.pokeStore c cs).quads = s.quads := rfl
@[simp] theorem State.pokeStore_cores (c : Nat) (cs : List Host.Cell) : (s.pokeStore c cs).cores = s.cores.modify c fun k => { k with store := { k.store with mem := Mem.writeCells k.store.mem cs } } := rfl
@[simp] theorem State.pokeStore_parts (c : Nat) (cs : List Host.Cell) : (s.pokeStore c cs).parts = s.parts := rfl
@[simp] theorem State.pokeStore_pages (c : Nat) (cs : List Host.Cell) : (s.pokeStore c cs).pages = s.pages := rfl
@[simp] theorem State.pokeStore_grids (c : Nat) (cs : List Host.Cell) : (s.pokeStore c cs).grids = s.grids := rfl
@[simp] theorem State.pokeStore_blocks (c : Nat) (cs : List Host.Cell) : (s.pokeStore c cs).blocks = s.blocks := rfl
@[simp] theorem State.pokeStore_groups (c : Nat) (cs : List Host.Cell) : (s.pokeStore c cs).groups = s.groups := rfl
@[simp] theorem State.pokeStore_nodes (c : Nat) (cs : List Host.Cell) : (s.pokeStore c cs).nodes = s.nodes := rfl
@[simp] theorem State.pokeStore_jobs (c : Nat) (cs : List Host.Cell) : (s.pokeStore c cs).jobs = s.jobs := rfl
@[simp] theorem State.pokeStore_frames (c : Nat) (cs : List Host.Cell) : (s.pokeStore c cs).frames = s.frames := rfl
@[simp] theorem State.pokeStore_writes (c : Nat) (cs : List Host.Cell) : (s.pokeStore c cs).writes = s.writes := rfl
@[simp] theorem State.pokeStore_applies (c : Nat) (cs : List Host.Cell) : (s.pokeStore c cs).applies = s.applies := rfl
@[simp] theorem State.pokeStore_early (c : Nat) (cs : List Host.Cell) : (s.pokeStore c cs).early = s.early := rfl
@[simp] theorem State.pokeStore_ordered (c : Nat) (cs : List Host.Cell) : (s.pokeStore c cs).ordered = s.ordered := rfl
@[simp] theorem State.pokeStore_rels (c : Nat) (cs : List Host.Cell) : (s.pokeStore c cs).rels = s.rels := rfl
@[simp] theorem State.pokeStore_refunds (c : Nat) (cs : List Host.Cell) : (s.pokeStore c cs).refunds = s.refunds := rfl
@[simp] theorem State.pokeStore_rmas (c : Nat) (cs : List Host.Cell) : (s.pokeStore c cs).rmas = s.rmas := rfl
@[simp] theorem State.pokeStore_acks (c : Nat) (cs : List Host.Cell) : (s.pokeStore c cs).acks = s.acks := rfl
@[simp] theorem State.pokeStore_packets (c : Nat) (cs : List Host.Cell) : (s.pokeStore c cs).packets = s.packets := rfl
@[simp] theorem State.pokeStore_host (c : Nat) (cs : List Host.Cell) : (s.pokeStore c cs).host = s.host := rfl
@[simp] theorem State.pokeStore_hostMarks (c : Nat) (cs : List Host.Cell) : (s.pokeStore c cs).hostMarks = s.hostMarks := rfl
@[simp] theorem State.pokeStore_out (c : Nat) (cs : List Host.Cell) : (s.pokeStore c cs).out = s.out := rfl

/-! ## State.clearL1 -/

@[simp] theorem State.clearL1_agenda (c : Nat) : (s.clearL1 c).agenda = s.agenda := rfl
@[simp] theorem State.clearL1_free (c : Nat) : (s.clearL1 c).free = s.free := rfl
@[simp] theorem State.clearL1_nextId (c : Nat) : (s.clearL1 c).nextId = s.nextId := rfl
@[simp] theorem State.clearL1_cur (c : Nat) : (s.clearL1 c).cur = s.cur := rfl
@[simp] theorem State.clearL1_dev (c : Nat) : (s.clearL1 c).dev = s.dev := rfl
@[simp] theorem State.clearL1_quads (c : Nat) : (s.clearL1 c).quads = s.quads := rfl
@[simp] theorem State.clearL1_cores (c : Nat) : (s.clearL1 c).cores = s.cores.modify c fun k => { k with l1 := [] } := rfl
@[simp] theorem State.clearL1_parts (c : Nat) : (s.clearL1 c).parts = s.parts := rfl
@[simp] theorem State.clearL1_pages (c : Nat) : (s.clearL1 c).pages = s.pages := rfl
@[simp] theorem State.clearL1_grids (c : Nat) : (s.clearL1 c).grids = s.grids := rfl
@[simp] theorem State.clearL1_blocks (c : Nat) : (s.clearL1 c).blocks = s.blocks := rfl
@[simp] theorem State.clearL1_groups (c : Nat) : (s.clearL1 c).groups = s.groups := rfl
@[simp] theorem State.clearL1_nodes (c : Nat) : (s.clearL1 c).nodes = s.nodes := rfl
@[simp] theorem State.clearL1_jobs (c : Nat) : (s.clearL1 c).jobs = s.jobs := rfl
@[simp] theorem State.clearL1_frames (c : Nat) : (s.clearL1 c).frames = s.frames := rfl
@[simp] theorem State.clearL1_writes (c : Nat) : (s.clearL1 c).writes = s.writes := rfl
@[simp] theorem State.clearL1_applies (c : Nat) : (s.clearL1 c).applies = s.applies := rfl
@[simp] theorem State.clearL1_early (c : Nat) : (s.clearL1 c).early = s.early := rfl
@[simp] theorem State.clearL1_ordered (c : Nat) : (s.clearL1 c).ordered = s.ordered := rfl
@[simp] theorem State.clearL1_rels (c : Nat) : (s.clearL1 c).rels = s.rels := rfl
@[simp] theorem State.clearL1_refunds (c : Nat) : (s.clearL1 c).refunds = s.refunds := rfl
@[simp] theorem State.clearL1_rmas (c : Nat) : (s.clearL1 c).rmas = s.rmas := rfl
@[simp] theorem State.clearL1_acks (c : Nat) : (s.clearL1 c).acks = s.acks := rfl
@[simp] theorem State.clearL1_packets (c : Nat) : (s.clearL1 c).packets = s.packets := rfl
@[simp] theorem State.clearL1_host (c : Nat) : (s.clearL1 c).host = s.host := rfl
@[simp] theorem State.clearL1_hostMarks (c : Nat) : (s.clearL1 c).hostMarks = s.hostMarks := rfl
@[simp] theorem State.clearL1_out (c : Nat) : (s.clearL1 c).out = s.out := rfl

/-! ## State.retireClause -/

@[simp] theorem State.retireClause_agenda (x : Ctx) : (s.retireClause x).agenda = s.agenda := rfl
@[simp] theorem State.retireClause_free (x : Ctx) : (s.retireClause x).free = s.free := rfl
@[simp] theorem State.retireClause_nextId (x : Ctx) : (s.retireClause x).nextId = s.nextId := rfl
@[simp] theorem State.retireClause_cur (x : Ctx) : (s.retireClause x).cur = s.cur := rfl
@[simp] theorem State.retireClause_dev (x : Ctx) : (s.retireClause x).dev = s.dev := rfl
@[simp] theorem State.retireClause_quads (x : Ctx) : (s.retireClause x).quads = s.quads := rfl
@[simp] theorem State.retireClause_cores (x : Ctx) : (s.retireClause x).cores = s.cores := rfl
@[simp] theorem State.retireClause_parts (x : Ctx) : (s.retireClause x).parts = s.parts := rfl
@[simp] theorem State.retireClause_pages (x : Ctx) : (s.retireClause x).pages = s.pages := rfl
@[simp] theorem State.retireClause_grids (x : Ctx) : (s.retireClause x).grids = updFirst (fun r => decide (r.id = x.g.grid))
    (fun r => { r with spins := (s.noteSpin r x).1, lastRet := if (s.noteSpin r x).2 then s.dev.up else r.lastRet }) s.grids := rfl
@[simp] theorem State.retireClause_blocks (x : Ctx) : (s.retireClause x).blocks = s.blocks := rfl
@[simp] theorem State.retireClause_groups (x : Ctx) : (s.retireClause x).groups = s.groups := rfl
@[simp] theorem State.retireClause_nodes (x : Ctx) : (s.retireClause x).nodes = s.nodes := rfl
@[simp] theorem State.retireClause_jobs (x : Ctx) : (s.retireClause x).jobs = s.jobs := rfl
@[simp] theorem State.retireClause_frames (x : Ctx) : (s.retireClause x).frames = s.frames := rfl
@[simp] theorem State.retireClause_writes (x : Ctx) : (s.retireClause x).writes = s.writes := rfl
@[simp] theorem State.retireClause_applies (x : Ctx) : (s.retireClause x).applies = s.applies := rfl
@[simp] theorem State.retireClause_early (x : Ctx) : (s.retireClause x).early = s.early := rfl
@[simp] theorem State.retireClause_ordered (x : Ctx) : (s.retireClause x).ordered = s.ordered := rfl
@[simp] theorem State.retireClause_rels (x : Ctx) : (s.retireClause x).rels = s.rels := rfl
@[simp] theorem State.retireClause_refunds (x : Ctx) : (s.retireClause x).refunds = s.refunds := rfl
@[simp] theorem State.retireClause_rmas (x : Ctx) : (s.retireClause x).rmas = s.rmas := rfl
@[simp] theorem State.retireClause_acks (x : Ctx) : (s.retireClause x).acks = s.acks := rfl
@[simp] theorem State.retireClause_packets (x : Ctx) : (s.retireClause x).packets = s.packets := rfl
@[simp] theorem State.retireClause_host (x : Ctx) : (s.retireClause x).host = s.host := rfl
@[simp] theorem State.retireClause_hostMarks (x : Ctx) : (s.retireClause x).hostMarks = s.hostMarks := rfl
@[simp] theorem State.retireClause_out (x : Ctx) : (s.retireClause x).out = s.out := rfl

/-! ## State.fresh -/

@[simp] theorem State.fresh_fst : s.fresh.1 = s.nextId := rfl
@[simp] theorem State.fresh_agenda : s.fresh.2.agenda = s.agenda := rfl
@[simp] theorem State.fresh_free : s.fresh.2.free = s.free := rfl
@[simp] theorem State.fresh_nextId : s.fresh.2.nextId = s.nextId + 1 := rfl
@[simp] theorem State.fresh_cur : s.fresh.2.cur = s.cur := rfl
@[simp] theorem State.fresh_dev : s.fresh.2.dev = s.dev := rfl
@[simp] theorem State.fresh_quads : s.fresh.2.quads = s.quads := rfl
@[simp] theorem State.fresh_cores : s.fresh.2.cores = s.cores := rfl
@[simp] theorem State.fresh_parts : s.fresh.2.parts = s.parts := rfl
@[simp] theorem State.fresh_pages : s.fresh.2.pages = s.pages := rfl
@[simp] theorem State.fresh_grids : s.fresh.2.grids = s.grids := rfl
@[simp] theorem State.fresh_blocks : s.fresh.2.blocks = s.blocks := rfl
@[simp] theorem State.fresh_groups : s.fresh.2.groups = s.groups := rfl
@[simp] theorem State.fresh_nodes : s.fresh.2.nodes = s.nodes := rfl
@[simp] theorem State.fresh_jobs : s.fresh.2.jobs = s.jobs := rfl
@[simp] theorem State.fresh_frames : s.fresh.2.frames = s.frames := rfl
@[simp] theorem State.fresh_writes : s.fresh.2.writes = s.writes := rfl
@[simp] theorem State.fresh_applies : s.fresh.2.applies = s.applies := rfl
@[simp] theorem State.fresh_early : s.fresh.2.early = s.early := rfl
@[simp] theorem State.fresh_ordered : s.fresh.2.ordered = s.ordered := rfl
@[simp] theorem State.fresh_rels : s.fresh.2.rels = s.rels := rfl
@[simp] theorem State.fresh_refunds : s.fresh.2.refunds = s.refunds := rfl
@[simp] theorem State.fresh_rmas : s.fresh.2.rmas = s.rmas := rfl
@[simp] theorem State.fresh_acks : s.fresh.2.acks = s.acks := rfl
@[simp] theorem State.fresh_packets : s.fresh.2.packets = s.packets := rfl
@[simp] theorem State.fresh_host : s.fresh.2.host = s.host := rfl
@[simp] theorem State.fresh_hostMarks : s.fresh.2.hostMarks = s.hostMarks := rfl
@[simp] theorem State.fresh_out : s.fresh.2.out = s.out := rfl

/-! ## State.drawNat -/

@[simp] theorem State.drawNat_fst : s.drawNat.1 = Config.freeNat s.free := rfl
@[simp] theorem State.drawNat_agenda : s.drawNat.2.agenda = s.agenda := rfl
@[simp] theorem State.drawNat_free : s.drawNat.2.free = s.free + 1 := rfl
@[simp] theorem State.drawNat_nextId : s.drawNat.2.nextId = s.nextId := rfl
@[simp] theorem State.drawNat_cur : s.drawNat.2.cur = s.cur := rfl
@[simp] theorem State.drawNat_dev : s.drawNat.2.dev = s.dev := rfl
@[simp] theorem State.drawNat_quads : s.drawNat.2.quads = s.quads := rfl
@[simp] theorem State.drawNat_cores : s.drawNat.2.cores = s.cores := rfl
@[simp] theorem State.drawNat_parts : s.drawNat.2.parts = s.parts := rfl
@[simp] theorem State.drawNat_pages : s.drawNat.2.pages = s.pages := rfl
@[simp] theorem State.drawNat_grids : s.drawNat.2.grids = s.grids := rfl
@[simp] theorem State.drawNat_blocks : s.drawNat.2.blocks = s.blocks := rfl
@[simp] theorem State.drawNat_groups : s.drawNat.2.groups = s.groups := rfl
@[simp] theorem State.drawNat_nodes : s.drawNat.2.nodes = s.nodes := rfl
@[simp] theorem State.drawNat_jobs : s.drawNat.2.jobs = s.jobs := rfl
@[simp] theorem State.drawNat_frames : s.drawNat.2.frames = s.frames := rfl
@[simp] theorem State.drawNat_writes : s.drawNat.2.writes = s.writes := rfl
@[simp] theorem State.drawNat_applies : s.drawNat.2.applies = s.applies := rfl
@[simp] theorem State.drawNat_early : s.drawNat.2.early = s.early := rfl
@[simp] theorem State.drawNat_ordered : s.drawNat.2.ordered = s.ordered := rfl
@[simp] theorem State.drawNat_rels : s.drawNat.2.rels = s.rels := rfl
@[simp] theorem State.drawNat_refunds : s.drawNat.2.refunds = s.refunds := rfl
@[simp] theorem State.drawNat_rmas : s.drawNat.2.rmas = s.rmas := rfl
@[simp] theorem State.drawNat_acks : s.drawNat.2.acks = s.acks := rfl
@[simp] theorem State.drawNat_packets : s.drawNat.2.packets = s.packets := rfl
@[simp] theorem State.drawNat_host : s.drawNat.2.host = s.host := rfl
@[simp] theorem State.drawNat_hostMarks : s.drawNat.2.hostMarks = s.hostMarks := rfl
@[simp] theorem State.drawNat_out : s.drawNat.2.out = s.out := rfl

/-! ## State.sendTo -/

@[simp] theorem State.sendTo_agenda (peer : Nat) (o : Out) : (s.sendTo peer o).agenda = s.agenda := rfl
@[simp] theorem State.sendTo_free (peer : Nat) (o : Out) : (s.sendTo peer o).free = s.free := rfl
@[simp] theorem State.sendTo_nextId (peer : Nat) (o : Out) : (s.sendTo peer o).nextId = s.nextId := rfl
@[simp] theorem State.sendTo_cur (peer : Nat) (o : Out) : (s.sendTo peer o).cur = s.cur := rfl
@[simp] theorem State.sendTo_dev (peer : Nat) (o : Out) : (s.sendTo peer o).dev = s.dev := rfl
@[simp] theorem State.sendTo_quads (peer : Nat) (o : Out) : (s.sendTo peer o).quads = s.quads := rfl
@[simp] theorem State.sendTo_cores (peer : Nat) (o : Out) : (s.sendTo peer o).cores = s.cores := rfl
@[simp] theorem State.sendTo_parts (peer : Nat) (o : Out) : (s.sendTo peer o).parts = s.parts := rfl
@[simp] theorem State.sendTo_pages (peer : Nat) (o : Out) : (s.sendTo peer o).pages = s.pages := rfl
@[simp] theorem State.sendTo_grids (peer : Nat) (o : Out) : (s.sendTo peer o).grids = s.grids := rfl
@[simp] theorem State.sendTo_blocks (peer : Nat) (o : Out) : (s.sendTo peer o).blocks = s.blocks := rfl
@[simp] theorem State.sendTo_groups (peer : Nat) (o : Out) : (s.sendTo peer o).groups = s.groups := rfl
@[simp] theorem State.sendTo_nodes (peer : Nat) (o : Out) : (s.sendTo peer o).nodes = s.nodes := rfl
@[simp] theorem State.sendTo_jobs (peer : Nat) (o : Out) : (s.sendTo peer o).jobs = s.jobs := rfl
@[simp] theorem State.sendTo_frames (peer : Nat) (o : Out) : (s.sendTo peer o).frames = s.frames := rfl
@[simp] theorem State.sendTo_writes (peer : Nat) (o : Out) : (s.sendTo peer o).writes = s.writes := rfl
@[simp] theorem State.sendTo_applies (peer : Nat) (o : Out) : (s.sendTo peer o).applies = s.applies := rfl
@[simp] theorem State.sendTo_early (peer : Nat) (o : Out) : (s.sendTo peer o).early = s.early := rfl
@[simp] theorem State.sendTo_ordered (peer : Nat) (o : Out) : (s.sendTo peer o).ordered = s.ordered := rfl
@[simp] theorem State.sendTo_rels (peer : Nat) (o : Out) : (s.sendTo peer o).rels = s.rels := rfl
@[simp] theorem State.sendTo_refunds (peer : Nat) (o : Out) : (s.sendTo peer o).refunds = s.refunds := rfl
@[simp] theorem State.sendTo_rmas (peer : Nat) (o : Out) : (s.sendTo peer o).rmas = s.rmas := rfl
@[simp] theorem State.sendTo_acks (peer : Nat) (o : Out) : (s.sendTo peer o).acks = s.acks := rfl
@[simp] theorem State.sendTo_packets (peer : Nat) (o : Out) : (s.sendTo peer o).packets = s.packets := rfl
@[simp] theorem State.sendTo_host (peer : Nat) (o : Out) : (s.sendTo peer o).host = s.host := rfl
@[simp] theorem State.sendTo_hostMarks (peer : Nat) (o : Out) : (s.sendTo peer o).hostMarks = s.hostMarks := rfl
@[simp] theorem State.sendTo_out (peer : Nat) (o : Out) : (s.sendTo peer o).out = s.out ++ (if s.dev.conns.contains peer then [o] else []) := rfl

/-! ## State.updMm -/

@[simp] theorem State.updMm_agenda (gid : Nat) (f : GMem → GMem) : (s.updMm gid f).agenda = s.agenda := rfl
@[simp] theorem State.updMm_free (gid : Nat) (f : GMem → GMem) : (s.updMm gid f).free = s.free := rfl
@[simp] theorem State.updMm_nextId (gid : Nat) (f : GMem → GMem) : (s.updMm gid f).nextId = s.nextId := rfl
@[simp] theorem State.updMm_cur (gid : Nat) (f : GMem → GMem) : (s.updMm gid f).cur = s.cur := rfl
@[simp] theorem State.updMm_dev (gid : Nat) (f : GMem → GMem) : (s.updMm gid f).dev = s.dev := rfl
@[simp] theorem State.updMm_quads (gid : Nat) (f : GMem → GMem) : (s.updMm gid f).quads = s.quads := rfl
@[simp] theorem State.updMm_cores (gid : Nat) (f : GMem → GMem) : (s.updMm gid f).cores = s.cores := rfl
@[simp] theorem State.updMm_parts (gid : Nat) (f : GMem → GMem) : (s.updMm gid f).parts = s.parts := rfl
@[simp] theorem State.updMm_pages (gid : Nat) (f : GMem → GMem) : (s.updMm gid f).pages = s.pages := rfl
@[simp] theorem State.updMm_grids (gid : Nat) (f : GMem → GMem) : (s.updMm gid f).grids = s.grids := rfl
@[simp] theorem State.updMm_blocks (gid : Nat) (f : GMem → GMem) : (s.updMm gid f).blocks = s.blocks := rfl
@[simp] theorem State.updMm_groups (gid : Nat) (f : GMem → GMem) : (s.updMm gid f).groups = updFirst (fun g => decide (g.gid = gid)) (fun g => { g with mm := f g.mm }) s.groups := rfl
@[simp] theorem State.updMm_nodes (gid : Nat) (f : GMem → GMem) : (s.updMm gid f).nodes = s.nodes := rfl
@[simp] theorem State.updMm_jobs (gid : Nat) (f : GMem → GMem) : (s.updMm gid f).jobs = s.jobs := rfl
@[simp] theorem State.updMm_frames (gid : Nat) (f : GMem → GMem) : (s.updMm gid f).frames = s.frames := rfl
@[simp] theorem State.updMm_writes (gid : Nat) (f : GMem → GMem) : (s.updMm gid f).writes = s.writes := rfl
@[simp] theorem State.updMm_applies (gid : Nat) (f : GMem → GMem) : (s.updMm gid f).applies = s.applies := rfl
@[simp] theorem State.updMm_early (gid : Nat) (f : GMem → GMem) : (s.updMm gid f).early = s.early := rfl
@[simp] theorem State.updMm_ordered (gid : Nat) (f : GMem → GMem) : (s.updMm gid f).ordered = s.ordered := rfl
@[simp] theorem State.updMm_rels (gid : Nat) (f : GMem → GMem) : (s.updMm gid f).rels = s.rels := rfl
@[simp] theorem State.updMm_refunds (gid : Nat) (f : GMem → GMem) : (s.updMm gid f).refunds = s.refunds := rfl
@[simp] theorem State.updMm_rmas (gid : Nat) (f : GMem → GMem) : (s.updMm gid f).rmas = s.rmas := rfl
@[simp] theorem State.updMm_acks (gid : Nat) (f : GMem → GMem) : (s.updMm gid f).acks = s.acks := rfl
@[simp] theorem State.updMm_packets (gid : Nat) (f : GMem → GMem) : (s.updMm gid f).packets = s.packets := rfl
@[simp] theorem State.updMm_host (gid : Nat) (f : GMem → GMem) : (s.updMm gid f).host = s.host := rfl
@[simp] theorem State.updMm_hostMarks (gid : Nat) (f : GMem → GMem) : (s.updMm gid f).hostMarks = s.hostMarks := rfl
@[simp] theorem State.updMm_out (gid : Nat) (f : GMem → GMem) : (s.updMm gid f).out = s.out := rfl

/-! ## State.learn -/

@[simp] theorem State.learn_agenda (gid no : Nat) (rels : List Release) : (s.learn gid no rels).agenda = s.agenda := rfl
@[simp] theorem State.learn_free (gid no : Nat) (rels : List Release) : (s.learn gid no rels).free = s.free := rfl
@[simp] theorem State.learn_nextId (gid no : Nat) (rels : List Release) : (s.learn gid no rels).nextId = s.nextId := rfl
@[simp] theorem State.learn_cur (gid no : Nat) (rels : List Release) : (s.learn gid no rels).cur = s.cur := rfl
@[simp] theorem State.learn_dev (gid no : Nat) (rels : List Release) : (s.learn gid no rels).dev = s.dev := rfl
@[simp] theorem State.learn_quads (gid no : Nat) (rels : List Release) : (s.learn gid no rels).quads = s.quads := rfl
@[simp] theorem State.learn_cores (gid no : Nat) (rels : List Release) : (s.learn gid no rels).cores = s.cores := rfl
@[simp] theorem State.learn_parts (gid no : Nat) (rels : List Release) : (s.learn gid no rels).parts = s.parts := rfl
@[simp] theorem State.learn_pages (gid no : Nat) (rels : List Release) : (s.learn gid no rels).pages = s.pages := rfl
@[simp] theorem State.learn_grids (gid no : Nat) (rels : List Release) : (s.learn gid no rels).grids = s.grids := rfl
@[simp] theorem State.learn_blocks (gid no : Nat) (rels : List Release) : (s.learn gid no rels).blocks = s.blocks := rfl
@[simp] theorem State.learn_groups (gid no : Nat) (rels : List Release) : (s.learn gid no rels).groups = s.groups := rfl
@[simp] theorem State.learn_nodes (gid no : Nat) (rels : List Release) : (s.learn gid no rels).nodes = s.nodes := rfl
@[simp] theorem State.learn_jobs (gid no : Nat) (rels : List Release) : (s.learn gid no rels).jobs = s.jobs := rfl
@[simp] theorem State.learn_frames (gid no : Nat) (rels : List Release) : (s.learn gid no rels).frames = s.frames := rfl
@[simp] theorem State.learn_writes (gid no : Nat) (rels : List Release) : (s.learn gid no rels).writes = s.writes := rfl
@[simp] theorem State.learn_applies (gid no : Nat) (rels : List Release) : (s.learn gid no rels).applies = s.applies := rfl
@[simp] theorem State.learn_early (gid no : Nat) (rels : List Release) : (s.learn gid no rels).early = s.early := rfl
@[simp] theorem State.learn_rels (gid no : Nat) (rels : List Release) : (s.learn gid no rels).rels = s.rels := rfl
@[simp] theorem State.learn_refunds (gid no : Nat) (rels : List Release) : (s.learn gid no rels).refunds = s.refunds := rfl
@[simp] theorem State.learn_rmas (gid no : Nat) (rels : List Release) : (s.learn gid no rels).rmas = s.rmas := rfl
@[simp] theorem State.learn_acks (gid no : Nat) (rels : List Release) : (s.learn gid no rels).acks = s.acks := rfl
@[simp] theorem State.learn_packets (gid no : Nat) (rels : List Release) : (s.learn gid no rels).packets = s.packets := rfl
@[simp] theorem State.learn_host (gid no : Nat) (rels : List Release) : (s.learn gid no rels).host = s.host := rfl
@[simp] theorem State.learn_hostMarks (gid no : Nat) (rels : List Release) : (s.learn gid no rels).hostMarks = s.hostMarks := rfl
@[simp] theorem State.learn_out (gid no : Nat) (rels : List Release) : (s.learn gid no rels).out = s.out := rfl

/-! ## State.complete -/

@[simp] theorem State.complete_agenda (h : CmdHdr) (st : Nat) (r : Results) : (s.complete h st r).agenda = s.agenda := rfl
@[simp] theorem State.complete_free (h : CmdHdr) (st : Nat) (r : Results) : (s.complete h st r).free = s.free := rfl
@[simp] theorem State.complete_nextId (h : CmdHdr) (st : Nat) (r : Results) : (s.complete h st r).nextId = s.nextId := rfl
@[simp] theorem State.complete_cur (h : CmdHdr) (st : Nat) (r : Results) : (s.complete h st r).cur = s.cur := rfl
@[simp] theorem State.complete_dev (h : CmdHdr) (st : Nat) (r : Results) : (s.complete h st r).dev = { s.dev with busy := none } := rfl
@[simp] theorem State.complete_quads (h : CmdHdr) (st : Nat) (r : Results) : (s.complete h st r).quads = s.quads := rfl
@[simp] theorem State.complete_cores (h : CmdHdr) (st : Nat) (r : Results) : (s.complete h st r).cores = s.cores := rfl
@[simp] theorem State.complete_parts (h : CmdHdr) (st : Nat) (r : Results) : (s.complete h st r).parts = s.parts := rfl
@[simp] theorem State.complete_pages (h : CmdHdr) (st : Nat) (r : Results) : (s.complete h st r).pages = s.pages := rfl
@[simp] theorem State.complete_grids (h : CmdHdr) (st : Nat) (r : Results) : (s.complete h st r).grids = s.grids := rfl
@[simp] theorem State.complete_blocks (h : CmdHdr) (st : Nat) (r : Results) : (s.complete h st r).blocks = s.blocks := rfl
@[simp] theorem State.complete_groups (h : CmdHdr) (st : Nat) (r : Results) : (s.complete h st r).groups = s.groups := rfl
@[simp] theorem State.complete_nodes (h : CmdHdr) (st : Nat) (r : Results) : (s.complete h st r).nodes = s.nodes := rfl
@[simp] theorem State.complete_jobs (h : CmdHdr) (st : Nat) (r : Results) : (s.complete h st r).jobs = s.jobs := rfl
@[simp] theorem State.complete_frames (h : CmdHdr) (st : Nat) (r : Results) : (s.complete h st r).frames = s.frames := rfl
@[simp] theorem State.complete_writes (h : CmdHdr) (st : Nat) (r : Results) : (s.complete h st r).writes = s.writes := rfl
@[simp] theorem State.complete_applies (h : CmdHdr) (st : Nat) (r : Results) : (s.complete h st r).applies = s.applies := rfl
@[simp] theorem State.complete_early (h : CmdHdr) (st : Nat) (r : Results) : (s.complete h st r).early = s.early := rfl
@[simp] theorem State.complete_ordered (h : CmdHdr) (st : Nat) (r : Results) : (s.complete h st r).ordered = s.ordered := rfl
@[simp] theorem State.complete_rels (h : CmdHdr) (st : Nat) (r : Results) : (s.complete h st r).rels = s.rels := rfl
@[simp] theorem State.complete_refunds (h : CmdHdr) (st : Nat) (r : Results) : (s.complete h st r).refunds = s.refunds := rfl
@[simp] theorem State.complete_rmas (h : CmdHdr) (st : Nat) (r : Results) : (s.complete h st r).rmas = s.rmas := rfl
@[simp] theorem State.complete_acks (h : CmdHdr) (st : Nat) (r : Results) : (s.complete h st r).acks = s.acks := rfl
@[simp] theorem State.complete_packets (h : CmdHdr) (st : Nat) (r : Results) : (s.complete h st r).packets = s.packets := rfl
@[simp] theorem State.complete_host (h : CmdHdr) (st : Nat) (r : Results) : (s.complete h st r).host = s.host := rfl
@[simp] theorem State.complete_hostMarks (h : CmdHdr) (st : Nat) (r : Results) : (s.complete h st r).hostMarks = s.hostMarks := rfl
@[simp] theorem State.complete_out (h : CmdHdr) (st : Nat) (r : Results) : (s.complete h st r).out =
    s.out ++ (if s.dev.conns.contains h.src then [.completion h st r] else []) := rfl

/-! ## State.takePort -/

@[simp] theorem State.takePort_agenda (g : Group) : (s.takePort g).agenda = s.agenda := rfl
@[simp] theorem State.takePort_free (g : Group) : (s.takePort g).free = s.free := rfl
@[simp] theorem State.takePort_nextId (g : Group) : (s.takePort g).nextId = s.nextId := rfl
@[simp] theorem State.takePort_cur (g : Group) : (s.takePort g).cur = s.cur := rfl
@[simp] theorem State.takePort_dev (g : Group) : (s.takePort g).dev = s.dev := rfl
@[simp] theorem State.takePort_quads (g : Group) : (s.takePort g).quads = s.quads := rfl
@[simp] theorem State.takePort_cores (g : Group) : (s.takePort g).cores = s.cores := rfl
@[simp] theorem State.takePort_parts (g : Group) : (s.takePort g).parts = s.parts := rfl
@[simp] theorem State.takePort_pages (g : Group) : (s.takePort g).pages = s.pages := rfl
@[simp] theorem State.takePort_grids (g : Group) : (s.takePort g).grids = s.grids := rfl
@[simp] theorem State.takePort_blocks (g : Group) : (s.takePort g).blocks = s.blocks := rfl
@[simp] theorem State.takePort_groups (g : Group) : (s.takePort g).groups = s.groups.map (fun x => if x.gid = g.gid then { x with unissued := 0 }
    else if x.core = g.core ∧ x.port = g.port ∧ x.place = .resident then { x with unissued := x.unissued + 1 } else x) := rfl
@[simp] theorem State.takePort_nodes (g : Group) : (s.takePort g).nodes = s.nodes := rfl
@[simp] theorem State.takePort_jobs (g : Group) : (s.takePort g).jobs = s.jobs := rfl
@[simp] theorem State.takePort_frames (g : Group) : (s.takePort g).frames = s.frames := rfl
@[simp] theorem State.takePort_writes (g : Group) : (s.takePort g).writes = s.writes := rfl
@[simp] theorem State.takePort_applies (g : Group) : (s.takePort g).applies = s.applies := rfl
@[simp] theorem State.takePort_early (g : Group) : (s.takePort g).early = s.early := rfl
@[simp] theorem State.takePort_ordered (g : Group) : (s.takePort g).ordered = s.ordered := rfl
@[simp] theorem State.takePort_rels (g : Group) : (s.takePort g).rels = s.rels := rfl
@[simp] theorem State.takePort_refunds (g : Group) : (s.takePort g).refunds = s.refunds := rfl
@[simp] theorem State.takePort_rmas (g : Group) : (s.takePort g).rmas = s.rmas := rfl
@[simp] theorem State.takePort_acks (g : Group) : (s.takePort g).acks = s.acks := rfl
@[simp] theorem State.takePort_packets (g : Group) : (s.takePort g).packets = s.packets := rfl
@[simp] theorem State.takePort_host (g : Group) : (s.takePort g).host = s.host := rfl
@[simp] theorem State.takePort_hostMarks (g : Group) : (s.takePort g).hostMarks = s.hostMarks := rfl
@[simp] theorem State.takePort_out (g : Group) : (s.takePort g).out = s.out := rfl

end Sys2Proof.Machine
end

