-- ==== Sys2Proof/Laws/Issue.lean ====
section
/-!
SUPPORT. What an issue does, once for every instruction: `runIsa` at a split with nothing in its way.
-/

namespace Sys2Proof.Machine

/-- What `issuing` says of its context. -/
structure Issues (i : Instr) (s : State) (x : Ctx) (k : OpInfo) (cur : Cur) : Prop where
  row : info i = some k
  by_ : s.cur = some cur
  grp : s.grp? cur.gid = some x.g
  split : x.g.split? cur.sid = some x.p
  clause : x.p.clause = some x.c
  state : x.s = s
  fld : x.f = k.fld
  act : x.act = lanesFor x.g x.p k
  us : x.us = uses i
  may : x.g.mayIssue cur.sid = true
  live : s.killed x.g = false
  stop : x.g.stop = none
  wait : x.p.wait.mayIssue = true
  pair : s.pairBlock x.g = none
  ok : issueFault s x.g x.p x.c i k = none
  free : x.act = 0 ∨ staleUse s x.g k.fld (uses i) = none ∧ s.unheld x.g x.c i k x.act = true

theorem issues_of_issuing {i : Instr} {s : State} {x : Ctx} (h : issuing i s = some x) : ∃ k cur, Issues i s x k cur := by
  unfold issuing at h
  split at h
  · rename_i k cur hk hcur
    split at h
    · cases h
    · rename_i g hg
      split at h
      · cases h
      · rename_i p hp
        split at h
        · cases h
        · rename_i c hc
          simp only at h
          split at h
          · rename_i hall
            cases h
            simp only [Bool.and_eq_true, Bool.or_eq_true, decide_eq_true_eq, Option.isNone_iff_eq_none, Bool.not_eq_true'] at hall
            obtain ⟨⟨⟨⟨⟨⟨h1, h2⟩, h3⟩, h4⟩, h5⟩, h6⟩, h7⟩ := hall
            have hsid : p.sid = cur.sid := by simpa using List.find?_some hp
            exact ⟨k, cur, ⟨hk, hcur, hg, hp, hc, rfl, rfl, rfl, rfl, hsid ▸ h1, h2, h3, h4, h5, h6, h7⟩⟩
          · cases h
  · cases h

theorem Issues.gid_eq {i : Instr} {s : State} {x : Ctx} {k : OpInfo} {cur : Cur} (h : Issues i s x k cur) : x.g.gid = cur.gid := by
  have := List.find?_some h.grp
  simpa using this

theorem Issues.sid_eq {i : Instr} {s : State} {x : Ctx} {k : OpInfo} {cur : Cur} (h : Issues i s x k cur) : x.p.sid = cur.sid := by
  have := List.find?_some h.split
  simpa using this

theorem State.unheld_iff (s : State) (g : Group) (c : Clause) (i : Instr) (k : OpInfo) (act : Mask) :
    s.unheld g c i k act = true ↔ (waitsHeld i && !g.mm.replay.isEmpty) = false ∧ (isHandover i && !(s.releaseReady g 4 g.seq)) = false
      ∧ s.slotBusy g k.fld (uses i) = false ∧ s.entriesFree g.core i act = true
      ∧ (k.long && decide (63 ≤ g.flagCount ((flagOf c.word k.fld.fs).getD noFlag))) = false := by
  unfold State.unheld
  cases (waitsHeld i && !g.mm.replay.isEmpty) <;> cases isHandover i <;> cases s.releaseReady g 4 g.seq <;>
    cases s.slotBusy g k.fld (uses i) <;> cases s.entriesFree g.core i act <;>
    cases (k.long && decide (63 ≤ g.flagCount ((flagOf c.word k.fld.fs).getD noFlag))) <;> simp

/-- Whatever an instruction's own part answers, the issue ends as it says. -/
theorem runIsa_issuing {i : Instr} {s : State} {x : Ctx} (h : issuing i s = some x) (sem : Ctx → Eff) :
    runIsa i sem s = x.ends (sem x) := by
  obtain ⟨k, cur, h⟩ := issues_of_issuing h
  obtain ⟨hrow, hby, hgrp, hsplit, hclause, hstate, hfld, hact, hus, hmay, hlive, hstop, hwait, hpair, hok, hfree⟩ := h
  obtain ⟨xs, g, p, c, f, act, us⟩ := x
  simp only at hgrp hsplit hclause hstate hfld hact hus hmay hlive hstop hwait hpair hok hfree
  subst hstate hfld hus
  have hgid : g.gid = cur.gid := by simpa using List.find?_some hgrp
  have hsid : p.sid = cur.sid := by simpa using List.find?_some hsplit
  have hmay' : g.mayIssue p.sid = true := hsid ▸ hmay
  have hgrp' : xs.grp? g.gid = some g := hgid ▸ hgrp
  have hsplit' : g.split? p.sid = some p := hsid ▸ hsplit
  have hgate : xs.pairGate g p i = .go xs := by simp only [State.pairGate, hpair]
  have hmirror : ∀ t : State, t.pairMirror xs ⟨xs, g, p, c, k.fld, act, uses i⟩ i (uses i) = t := fun t => by simp only [State.pairMirror, hpair]
  have hact' : (if k.guard then activeOf g p k.fld else amask g p) = act := hact.symm
  have hstale : (if act = 0 then none else staleUse xs g k.fld (uses i)) = none := by
    rcases hfree with h0 | ⟨h1, -⟩
    · rw [if_pos h0]
    · rw [h1, ite_self]
  have hheld : (decide (act ≠ 0) && waitsHeld i && !g.mm.replay.isEmpty) = false
      ∧ (decide (act ≠ 0) && isHandover i && !(xs.releaseReady g 4 g.seq)) = false
      ∧ (decide (act ≠ 0) && (xs.slotBusy g k.fld (uses i) || !(xs.entriesFree g.core i act))) = false
      ∧ (k.long && decide (act ≠ 0) && decide (63 ≤ g.flagCount ((flagOf c.word k.fld.fs).getD noFlag))) = false := by
    rcases hfree with h0 | ⟨-, h1⟩
    · simp [h0]
    · obtain ⟨h2, h3, h4, h6, h5⟩ := (xs.unheld_iff g c i k act).mp h1
      refine ⟨by rw [Bool.and_assoc, h2, Bool.and_false], by rw [Bool.and_assoc, h3, Bool.and_false], by rw [h4, h6]; simp, ?_⟩
      rw [Bool.and_comm k.long, Bool.and_assoc, h5, Bool.and_false]
  obtain ⟨hheld1, hheld2, hheld3, hheld4⟩ := hheld
  unfold runIsa
  simp only [hrow, hby, hgrp, hsplit, hclause, hmay', hlive, hstop, hwait, hok, hact', hstale, hheld1, hheld2, hheld3, hheld4, hgate, hgrp',
    hsplit', Option.map_none, Option.getD_some, Bool.false_eq_true, Bool.true_eq_false, if_false, reduceCtorEq, ne_eq]
  cases sem ⟨xs, g, p, c, k.fld, act, uses i⟩ <;> simp only [hmirror] <;> rfl

/-- As `runIsa_issuing`, for an instruction that does nothing when no lane is active. -/
theorem runLanes_issuing {i : Instr} {s : State} {x : Ctx} (h : issuing i s = some x) (sem : Ctx → Eff) :
    runLanes i sem s = x.ends (if x.act = 0 then .done x.s else sem x) := runIsa_issuing h _

/-- The state of the context is the state of the issue. -/
theorem issuing_state {i : Instr} {s : State} {x : Ctx} (h : issuing i s = some x) : x.s = s := (issues_of_issuing h).elim fun _ ⟨_, h⟩ => h.state

/-- With no active lane nothing is written. -/
theorem Ctx.wr_idle {x : Ctx} (h : x.act = 0) (s : State) (o : BitVec 10) (v : Nat → List Word) : x.wr s o v = s := by
  have : x.lanes = [] := by rw [Ctx.lanes, h]; decide
  simp only [Ctx.wr, this, List.map_nil, State.writeDest]
  cases s.grp? x.gid <;> rfl

/-- An instruction that writes each active lane's value at once. -/
theorem alu_issuing {i : Instr} {s : State} {x : Ctx} (h : issuing i s = some x) (f : Fld) (op : Ctx → Nat → List Word) :
    alu i f op s = .next (x.finish (x.wr s f.dst (op x))) := by
  unfold alu
  rw [runLanes_issuing h]
  by_cases h0 : x.act = 0
  · rw [if_pos h0, Ctx.wr_idle h0]
    exact congrArg (fun t => Host.Outcome.next (x.finish t)) (issuing_state h)
  · rw [if_neg h0]
    exact congrArg (fun t => Host.Outcome.next (x.finish (x.wr t f.dst (op x)))) (issuing_state h)

/-- The fields of the context are those of the instruction's word. -/
theorem issuing_fld {i : Instr} {s : State} {x : Ctx} {k : OpInfo} (h : issuing i s = some x) (hk : info i = some k) : x.f = k.fld := by
  obtain ⟨k', cur, h⟩ := issues_of_issuing h
  have : k' = k := Option.some.inj (h.row.symm.trans hk)
  exact this ▸ h.fld

/-- An instruction that issues has a legal MOD (R208, R212). -/
theorem issuing_legal {i : Instr} {s : State} {x : Ctx} {k : OpInfo} (h : issuing i s = some x) (hk : info i = some k) :
    formFault i k = false := by
  obtain ⟨k', cur, h⟩ := issues_of_issuing h
  have hkk : k' = k := Option.some.inj (h.row.symm.trans hk)
  have hok := hkk ▸ h.ok
  unfold issueFault at hok
  split at hok
  · cases hok
  · split at hok
    · cases hok
    · split at hok
      · cases hok
      · simpa using ‹¬formFault i k = true›

end Sys2Proof.Machine
end

