-- ==== Sys2Proof/Laws/Frame.lean ====
section
/-!
SUPPORT. What the shared operations of an issue leave as it was: a barrier's completion, the end of an issue, and a write of slots.
-/

namespace Sys2Proof.Machine

/-! ## Lists -/

theorem map_updFirst {α β : Type} {r : α → β} {p : α → Bool} {f : α → α} (hf : ∀ x, p x = true → r (f x) = r x) (xs : List α) :
    (updFirst p f xs).map r = xs.map r := by
  induction xs with
  | nil => rfl
  | cons x xs ih =>
    simp only [updFirst]
    split
    · simp [hf x ‹_›]
    · simp [ih]

theorem map_modify {α β : Type} {r : α → β} {f : α → α} (hf : ∀ x, r (f x) = r x) (xs : List α) (i : Nat) : (xs.modify i f).map r = xs.map r := by
  induction xs generalizing i with
  | nil => cases i <;> rfl
  | cons x xs ih =>
    cases i with
    | zero => simp [List.modify, hf]
    | succ i => simp [ih]

theorem getD_modify_same {α : Type} {f : α → α} {xs : List α} {i : Nat} (h : i < xs.length) (d : α) : (xs.modify i f).getD i d = f (xs.getD i d) := by
  simp [List.getD_eq_getElem?_getD, h]

theorem getD_modify_other {α : Type} {f : α → α} {xs : List α} {i j : Nat} (h : i ≠ j) (d : α) : (xs.modify i f).getD j d = xs.getD j d := by
  simp [List.getD_eq_getElem?_getD, h]

/-! ## Barriers (R313) -/

/-- A group but for its clock and where its splits wait. -/
def Group.still (g : Group) : Group :=
  { g with mm := { g.mm with gc := VClock.zero }, splits := g.splits.map fun p => { p with wait := .none } }
/-- A core but for its L1 and for which member of a team goes first. -/
def Core.still (k : Core) : Core := { k with l1 := [], teams := k.teams.map fun t => { t with urgent := none } }
/-- A state but for its groups, its cores and what the groups know to have happened before. -/
def State.rest (s : State) : State := { s with groups := [], cores := [], ordered := [] }

/-- What the completion of a barrier leaves as it was. -/
structure State.Still (s t : State) : Prop where
  rest : t.rest = s.rest
  cores : t.cores.map Core.still = s.cores.map Core.still
  groups : t.groups.map Group.still = s.groups.map Group.still

theorem State.Still.refl (s : State) : State.Still s s := ⟨rfl, rfl, rfl⟩
theorem State.Still.trans {s t u : State} (h : State.Still s t) (k : State.Still t u) : State.Still s u :=
  ⟨k.rest.trans h.rest, k.cores.trans h.cores, k.groups.trans h.groups⟩

theorem State.Still.foldl {α : Type} {f : State → α → State} (hf : ∀ s x, State.Still s (f s x)) (xs : List α) (s : State) :
    State.Still s (xs.foldl f s) := by
  induction xs generalizing s with
  | nil => exact .refl s
  | cons x xs ih => exact (hf s x).trans (ih _)

theorem State.clearL1_still (s : State) (c : Nat) : State.Still s (s.clearL1 c) := ⟨rfl, map_modify (f := fun k : Core => { k with l1 := [] }) (fun _ => rfl) _ _, rfl⟩

theorem State.learn_still (s : State) (gid no : Nat) (rels : List Release) : State.Still s (s.learn gid no rels) := ⟨rfl, rfl, rfl⟩

theorem State.tryBarrier_still (s : State) (g : Group) (k : BarKind) (id : Nat) : State.Still s (s.tryBarrier g k id) := by
  have leave : ∀ (s : State) (gid : Nat) (gc : VClock), State.Still s (s.updGrp gid fun x => { x with
      mm := { x.mm with gc := x.mm.gc.join gc }
      splits := x.splits.map fun p => if p.wait = .bar k id then { p with wait := .none } else p }) := by
    refine fun s gid gc => ⟨rfl, rfl, map_updFirst (fun y _ => ?_) _⟩
    simp only [Group.still, List.map_map]
    congr 1
    refine List.map_congr_left fun p _ => ?_
    simp only [Function.comp]
    split <;> rfl
  have first : ∀ (s : State) (c : Nat), State.Still s (s.updCore c fun k => { k with
      teams := k.teams.map fun t => if t.grid = g.grid ∧ t.t = id then { t with urgent := some t.last } else t }) := by
    refine fun s c => ⟨rfl, map_modify (fun k => ?_) _ _, rfl⟩
    simp only [Core.still, List.map_map]
    congr 1
    refine List.map_congr_left fun t _ => ?_
    simp only [Function.comp]
    split <;> rfl
  unfold State.tryBarrier
  simp only
  split
  · refine State.Still.trans ?_ (State.Still.foldl (fun s x => ?_) _ _)
    · split
      · exact first _ _
      · exact .refl s
    split
    · exact (leave s _ _).trans (State.learn_still _ _ _ _)
    · exact (leave s _ _).trans (State.clearL1_still _ _)
  · exact .refl s

theorem State.settleBarriers_still (s : State) : State.Still s s.settleBarriers := by
  unfold State.settleBarriers
  refine State.Still.foldl (fun s g => State.Still.foldl (fun s p => ?_) _ _) _ _
  split
  · split
    · exact s.tryBarrier_still _ _ _
    · exact .refl s
  · exact .refl s

/-! ## The end of an issue -/

/-- A group about which nothing is to be settled: only a barrier may complete. -/
theorem State.after_calm {s : State} {gid : Nat} {g : Group} (h : s.grp? gid = some g) (hstop : g.stop = none) (hsp : g.splits ≠ []) :
    s.after gid = s.settleBarriers := by
  have h1 : s.settleStop gid = s := by
    unfold State.settleStop
    simp only [h, hstop]
  have h2 : s.reap gid = s := by
    unfold State.reap
    simp only [h]
    rw [if_neg]
    simp [hsp]
  unfold State.after
  rw [h1, h2]

/-- A group but for its clock, what its reads have found for a fence, and where its splits stand. -/
def Group.aside (g : Group) : Group :=
  { g with mm := { g.mm with gc := VClock.zero, heard := [] }, splits := g.splits.map fun p => { p with wait := .none, pc := 0, clause := none } }
/-- A grid but for when it last retired a clause, and which of its splits may be spinning. -/
def Grid.still (g : Grid) : Grid := { g with lastRet := 0, spins := [] }
/-- A state but for its groups, its cores, what the groups know to have happened before, and when its grids last retired a clause and which of
their splits may be spinning. -/
def State.apart (s : State) : State := { s with groups := [], cores := [], ordered := [], grids := s.grids.map Grid.still }

/-- What a split's going past a word leaves as it was. -/
structure State.Past (s t : State) : Prop where
  rest : t.apart = s.apart
  cores : t.cores.map Core.still = s.cores.map Core.still
  groups : t.groups.map Group.aside = s.groups.map Group.aside

theorem State.Past.refl (s : State) : State.Past s s := ⟨rfl, rfl, rfl⟩
theorem State.Past.trans {s t u : State} (h : State.Past s t) (k : State.Past t u) : State.Past s u :=
  ⟨k.rest.trans h.rest, k.cores.trans h.cores, k.groups.trans h.groups⟩

theorem State.Still.past {s t : State} (h : State.Still s t) : State.Past s t := by
  refine ⟨?_, h.cores, ?_⟩
  · exact (show t.rest.apart = s.rest.apart from congrArg State.apart h.rest)
  · have : ∀ g : Group, g.aside = g.still.aside := fun g => by simp only [Group.aside, Group.still, List.map_map]; rfl
    have e : ∀ xs : List Group, xs.map Group.aside = (xs.map Group.still).map Group.aside := fun xs => by
      rw [List.map_map]
      exact List.map_congr_left fun g _ => this g
    rw [e t.groups, e s.groups, h.groups]

theorem State.retireClause_past (s : State) (x : Ctx) : State.Past s (s.retireClause x) := by
  refine ⟨?_, rfl, rfl⟩
  have : (s.retireClause x).grids.map Grid.still = s.grids.map Grid.still :=
    map_updFirst (f := fun r : Grid => { r with spins := (s.noteSpin r x).1, lastRet := if (s.noteSpin r x).2 then s.dev.up else r.lastRet }) (fun _ _ => rfl) _
  simp only [State.apart, this]
  rfl

theorem State.updSplit_past (s : State) (gid sid : Nat) (f : Split → Split)
    (hf : ∀ p, ({ f p with wait := .none, pc := 0, clause := none } : Split) = { p with wait := .none, pc := 0, clause := none }) :
    State.Past s (s.updGrp gid fun g => g.updSplit sid f) := by
  refine ⟨rfl, rfl, map_updFirst (fun g _ => ?_) _⟩
  simp only [Group.aside, Group.updSplit]
  rw [map_updFirst fun p _ => hf p]

theorem GMem.addHeard_aside (m : GMem) (h : Heard) : ({ m.addHeard h with gc := VClock.zero, heard := [] } : GMem) = { m with gc := VClock.zero, heard := [] } := by
  unfold GMem.addHeard
  split
  · rfl
  · split <;> rfl

theorem Ctx.addHeard_aside (x : Ctx) (rs : List (Nat × Nat × Nat)) (m : GMem) :
    ({ rs.foldl (fun m r => m.addHeard (x.slotFind r.1 r.2.1 r.2.2)) m with gc := VClock.zero, heard := [] } : GMem)
      = { m with gc := VClock.zero, heard := [] } := by
  induction rs generalizing m with
  | nil => rfl
  | cons r rs ih => rw [List.foldl_cons, ih, GMem.addHeard_aside]

/-- Of a group, only what its reads have found for a fence changes. -/
theorem State.hearSlots_past (s : State) (x : Ctx) : State.Past s (s.hearSlots x) := by
  refine ⟨rfl, rfl, map_updFirst (fun g _ => ?_) _⟩
  simp only [Group.aside, Ctx.addHeard_aside]

theorem State.advance_past (s : State) (x : Ctx) : State.Past s (s.advance x) := by
  unfold State.advance
  split
  · exact (s.updSplit_past x.gid x.p.sid (fun p => { p with pc := x.c.next, clause := none }) fun _ => rfl).trans (State.retireClause_past _ _)
  · exact s.updSplit_past x.gid x.p.sid (fun p => { p with pc := x.p.pc + 8 }) fun _ => rfl

/-- The end of an issue leaves all but the split's place as it was, for a group with no stop. -/
theorem Ctx.finish_past {x : Ctx} {t : State} {g : Group} (h : t.grp? x.gid = some g) (hstop : g.stop = none) (hsp : g.splits ≠ []) :
    State.Past t (x.finish t) := by
  have hadv := (State.hearSlots_past t x).trans (State.advance_past (t.hearSlots x) x)
  have hg : ∃ m, (t.hearSlots x).grp? x.gid = some { g with mm := m } :=
    ⟨_, by
      simp only [State.hearSlots, State.grp?, State.updMm_groups]
      rw [find?_updFirst (p := fun g : Group => decide (g.gid = x.gid))
        (f := fun g => { g with mm := x.slotReads.foldl (fun m r => m.addHeard (x.slotFind r.1 r.2.1 r.2.2)) g.mm }) fun _ h => h]
      rw [show t.groups.find? _ = some g from h]; rfl⟩
  obtain ⟨m, hg⟩ := hg
  have : ∃ k, ((t.hearSlots x).advance x).grp? x.gid = some k ∧ k.stop = none ∧ k.splits ≠ [] := by
    have key : ∀ f : Split → Split, ∃ k, ((t.hearSlots x).updGrp x.gid fun g => g.updSplit x.p.sid f).grp? x.gid = some k ∧ k.stop = none ∧ k.splits ≠ [] := by
      intro f
      refine ⟨({ g with mm := m } : Group).updSplit x.p.sid f, ?_, hstop, ?_⟩
      · simp only [State.grp?, State.updGrp] at hg ⊢
        rw [find?_updFirst (p := fun g : Group => decide (g.gid = x.gid)) (f := fun g => g.updSplit x.p.sid f) (fun _ h => h), hg]; rfl
      · intro hn
        have := congrArg List.length hn
        simp [Group.updSplit] at this
        exact hsp this
    unfold State.advance
    split
    · exact key _
    · exact key _
  obtain ⟨k, hk, hks, hkp⟩ := this
  unfold Ctx.finish
  rw [State.after_calm hk hks hkp]
  exact hadv.trans (State.settleBarriers_still _).past

end Sys2Proof.Machine
end

