-- ==== Sys2Proof/Laws/PerInstr.lean ====
section
/-!
SUPPORT. Statements made of every instruction, one lemma per constructor. `Names`: the word of a well-formed instruction names that
instruction again, with every field as it was (R207, R213).
-/

namespace Sys2Proof.Laws.Names

open Sys2Proof.Machine

/-- The word that a well-formed instruction encodes to names it. -/
def Statement (i : Instr) : Prop := i.wf = true → ∀ w, encode i = some w → ofWord w = some i

theorem fields_of_word (f : Fld) (op : Nat) : Fld.ofWord (Fld.toWord f op) = f := by
  obtain ⟨i, mod, sc, sb, sa, dst, fs, pneg, pn, g⟩ := f
  simp only [Fld.ofWord, Fld.mk.injEq]
  and_intros <;> (try apply BitVec.eq_of_getLsbD_eq) <;> intros <;>
    simp only [Fld.toWord, BitVec.getLsbD_extractLsb', BitVec.getLsbD_append] <;>
    repeat (first | rw [if_neg (by omega)] | rw [if_pos (by omega)])
  all_goals first
    | simp
    | (rw [decide_eq_true (by omega), Bool.true_and]
       congr 1
       omega)

theorem opcode_of_word (f : Fld) {op : Nat} (h : op < 512) : opOfWord (Fld.toWord f op) = op := by
  have : (Fld.toWord f op).extractLsb' 0 9 = BitVec.ofNat 9 op := by
    apply BitVec.eq_of_getLsbD_eq
    intro i hi
    rw [BitVec.getLsbD_extractLsb', decide_eq_true hi, Bool.true_and, Nat.zero_add, Fld.toWord, BitVec.getLsbD_append, if_pos hi]
  rw [opOfWord, this, BitVec.toNat_ofNat, Nat.mod_eq_of_lt h]

theorem word_names (f : Fld) {op : Nat} (h : op < 512) : ofWord (Fld.toWord f op) = ofOpcode op f := by
  rw [ofWord, opcode_of_word f h, fields_of_word]

/-- A step without a word. -/
theorem no_word {i : Instr} (h : encode i = none) : Statement i := fun _ w hw => by rw [h] at hw; cases hw

/-- An instruction whose opcode is its own. -/
theorem own_opcode {i : Instr} {f : Fld} {op : Nat} (h : op < 512) (he : encode i = some (Fld.toWord f op)) (ho : ofOpcode op f = some i) :
    Statement i := fun _ w hw => by
  cases he.symm.trans hw
  rw [word_names f h, ho]

/-- A well-formed instruction has a legal MOD. -/
theorem legal_of_wf {i : Instr} {k : OpInfo} (hk : info i = some k) (h : i.wf = true) : modLegal i = true := by
  unfold Instr.wf Instr.check at h
  simp only [hk, decide_eq_true_eq] at h
  split at h
  · cases h
  · rename_i hf
    unfold formFault at hf
    simp only [Bool.or_eq_true, not_or, Bool.not_eq_true', Bool.not_eq_true] at hf
    simpa using hf.1.2

theorem bit_of_mod {n : Nat} {m : BitVec 8} (h : m.toNat = n) (i : Nat) : m.getLsbD i = n.testBit i := by rw [← h]; rfl

theorem low_mod {m : BitVec 8} (i : Nat) (_ : i < 8) (h : m.toNat < 2 ^ i) : m.getLsbD i = false := Nat.testBit_lt_two_pow h

/-! ## Opcodes that several rows share (R213) -/

theorem op_021 (f : Fld) : ofOpcode 0x021 f = if f.mod.getLsbD 0 then some (.pmovSet f) else some (.pmovGet f) := rfl
theorem op_0C7 (f : Fld) : ofOpcode 0x0C7 f = if f.mod.getLsbD 0 then some (.invAll f) else some (.inv f) := rfl
theorem op_0C8 (f : Fld) : ofOpcode 0x0C8 f = if f.mod.getLsbD 5 then some (.fenceTotal f) else some (.fence f) := rfl
theorem op_0CA (f : Fld) : ofOpcode 0x0CA f = if f.mod.getLsbD 0 then some (.cresRet f) else some (.cres f) := rfl
theorem op_146 (f : Fld) : ofOpcode 0x146 f =
    if f.mod.getLsbD 1 then some (.wakeMgmt f) else if f.mod.getLsbD 0 then some (.wakeQueue f) else some (.wakePark f) := rfl
theorem op_14A (f : Fld) : ofOpcode 0x14A f = if f.mod.getLsbD 0 then some (.jtruncClose f) else some (.jtrunc f) := rfl
theorem op_183 (f : Fld) : ofOpcode 0x183 f = if f.mod.getLsbD 4 then some (.accrdQ f) else some (.accrd f) := rfl
theorem op_189 (f : Fld) : ofOpcode 0x189 f = if f.mod.getLsbD 4 then some (.msgNw f) else some (.msg f) := rfl
theorem op_1C5 (f : Fld) : ofOpcode 0x1C5 f = if f.mod.getLsbD 0 then some (.timeCyc f) else some (.timeTod f) := rfl
theorem op_186 (f : Fld) : ofOpcode 0x186 f =
    if f.mod.getLsbD 2 then some (.nbkFence f)
    else if f.mod.getLsbD 1 then (if f.mod.getLsbD 0 then some (.nbkClear f) else some (.nbkDrain f))
    else if f.mod.getLsbD 0 then some (.nbkMv f) else some (.nbkVload f) := rfl

/-- An instruction that shares its opcode: its MOD says which it is. -/
theorem shared_opcode {i : Instr} {k : OpInfo} {f : Fld} {op : Nat} (hk : info i = some k) (h : op < 512)
    (he : encode i = some (Fld.toWord f op)) (ho : modLegal i = true → ofOpcode op f = some i) : Statement i := fun hwf w hw => by
  cases he.symm.trans hw
  rw [word_names f h, ho (legal_of_wf hk hwf)]

theorem deviceReset : ∀ rails, Statement (.deviceReset rails) := fun _ => no_word rfl
theorem commandArrival : ∀ h b, Statement (.commandArrival h b) := fun _ _ => no_word rfl
theorem identify : ∀ h, Statement (.identify h) := fun _ => no_word rfl
theorem capReadList : ∀ h, Statement (.capReadList h) := fun _ => no_word rfl
theorem capReadRegisters : ∀ h sel regs, Statement (.capReadRegisters h sel regs) := fun _ _ _ => no_word rfl
theorem attest : ∀ h nonce, Statement (.attest h nonce) := fun _ _ => no_word rfl
theorem logRead : ∀ h first count free, Statement (.logRead h first count free) := fun _ _ _ _ => no_word rfl
theorem resetPart : ∀ h, Statement (.resetPart h) := fun _ => no_word rfl
theorem partCreate : ∀ h mask jobs dest, Statement (.partCreate h mask jobs dest) := fun _ _ _ _ => no_word rfl
theorem partDestroy : ∀ h, Statement (.partDestroy h) := fun _ => no_word rfl
theorem partConfig : ∀ h pairs key, Statement (.partConfig h pairs key) := fun _ _ _ => no_word rfl
theorem map : ∀ h p, Statement (.map h p) := fun _ _ => no_word rfl
theorem unmap : ∀ h va count, Statement (.unmap h va count) := fun _ _ _ => no_word rfl
theorem protect : ∀ h va count w, Statement (.protect h va count w) := fun _ _ _ _ => no_word rfl
theorem faultResolve : ∀ h park verdict, Statement (.faultResolve h park verdict) := fun _ _ _ => no_word rfl
theorem windowOpen : ∀ h p, Statement (.windowOpen h p) := fun _ _ => no_word rfl
theorem windowClose : ∀ h num, Statement (.windowClose h num) := fun _ _ => no_word rfl
theorem loadCode : ∀ h va len host key, Statement (.loadCode h va len host key) := fun _ _ _ _ _ => no_word rfl
theorem launch : ∀ h card, Statement (.launch h card) := fun _ _ => no_word rfl
theorem graphSubmit : ∀ h nodes, Statement (.graphSubmit h nodes) := fun _ _ => no_word rfl
theorem ttLoad : ∀ h entries, Statement (.ttLoad h entries) := fun _ _ => no_word rfl
theorem ttStartRun : ∀ h cycle start, Statement (.ttStartRun h cycle start) := fun _ _ _ => no_word rfl
theorem ttStartStop : ∀ h, Statement (.ttStartStop h) := fun _ => no_word rfl
theorem kill : ∀ h tag, Statement (.kill h tag) := fun _ _ => no_word rfl
theorem balloonAck : ∀ h cells, Statement (.balloonAck h cells) := fun _ _ => no_word rfl
theorem svcDone : ∀ h park, Statement (.svcDone h park) := fun _ _ => no_word rfl
theorem journalConfig : ∀ h p, Statement (.journalConfig h p) := fun _ _ => no_word rfl
theorem replayBind : ∀ h p, Statement (.replayBind h p) := fun _ _ => no_word rfl
theorem patchLoad : ∀ h img, Statement (.patchLoad h img) := fun _ _ => no_word rfl
theorem topoRead : ∀ h, Statement (.topoRead h) := fun _ => no_word rfl
theorem eventDelivery : ∀ part, Statement (.eventDelivery part) := fun _ => no_word rfl
theorem connectionSetup : ∀ peer f, Statement (.connectionSetup peer f) := fun _ _ => no_word rfl
theorem inboundRmaWrite : ∀ r data, Statement (.inboundRmaWrite r data) := fun _ _ => no_word rfl
theorem inboundRmaRead : ∀ r len, Statement (.inboundRmaRead r len) := fun _ _ => no_word rfl
theorem leaseGrant : ∀ quad, Statement (.leaseGrant quad) := fun _ => no_word rfl
theorem leaseIntervalEnd : ∀ quad job, Statement (.leaseIntervalEnd quad job) := fun _ _ => no_word rfl
theorem throttleSet : ∀ draw, Statement (.throttleSet draw) := fun _ => no_word rfl
theorem throttleClear : ∀ draw, Statement (.throttleClear draw) := fun _ => no_word rfl
theorem ptpPortLost : Statement .ptpPortLost := no_word rfl
theorem ptpResume : ∀ slew, Statement (.ptpResume slew) := fun _ => no_word rfl
theorem crossbarHop : ∀ pkt, Statement (.crossbarHop pkt) := fun _ => no_word rfl
theorem packetArrival : ∀ pkt, Statement (.packetArrival pkt) := fun _ => no_word rfl
theorem handlerGroupForm : ∀ core cls base park, Statement (.handlerGroupForm core cls base park) := fun _ _ _ _ => no_word rfl
theorem linkDown : ∀ a b, Statement (.linkDown a b) := fun _ _ => no_word rfl
theorem linkDegraded : ∀ a b, Statement (.linkDegraded a b) := fun _ _ => no_word rfl
theorem storeAccept : ∀ wid, Statement (.storeAccept wid) := fun _ => no_word rfl
theorem refund : ∀ k, Statement (.refund k) := fun _ => no_word rfl
theorem replicaApply : ∀ k, Statement (.replicaApply k) := fun _ => no_word rfl
theorem replicaFill : ∀ part die line, Statement (.replicaFill part die line) := fun _ _ _ => no_word rfl
theorem storeFaultReport : ∀ wid, Statement (.storeFaultReport wid) := fun _ => no_word rfl
theorem writeback : ∀ part vpn mb base, Statement (.writeback part vpn mb base) := fun _ _ _ _ => no_word rfl
theorem compaction : ∀ part vpn base, Statement (.compaction part vpn base) := fun _ _ _ => no_word rfl
theorem dramUncorrectable : ∀ part sector, Statement (.dramUncorrectable part sector) := fun _ _ => no_word rfl
theorem mapCacheError : ∀ part vpn relayout, Statement (.mapCacheError part vpn relayout) := fun _ _ _ => no_word rfl
theorem rowRemapVote : ∀ quad bank copies bases, Statement (.rowRemapVote quad bank copies bases) := fun _ _ _ _ => no_word rfl
theorem eccSwitchDecTed : ∀ quad rail, Statement (.eccSwitchDecTed quad rail) := fun _ _ => no_word rfl
theorem eccSwitchSecDed : ∀ quad rail, Statement (.eccSwitchSecDed quad rail) := fun _ _ => no_word rfl
theorem creditRefill : ∀ core, Statement (.creditRefill core) := fun _ => no_word rfl
theorem balloonTimeout : ∀ part, Statement (.balloonTimeout part) := fun _ => no_word rfl
theorem append : ∀ part src job es, Statement (.append part src job es) := fun _ _ _ _ => no_word rfl
theorem ack : ∀ part partner es, Statement (.ack part partner es) := fun _ _ _ => no_word rfl
theorem trunc : ∀ part src es, Statement (.trunc part src es) := fun _ _ _ => no_word rfl
theorem fetch : ∀ part src jsid first count, Statement (.fetch part src jsid first count) := fun _ _ _ _ _ => no_word rfl
theorem fetched : ∀ part jsid es, Statement (.fetched part jsid es) := fun _ _ _ => no_word rfl
theorem partnerConnectionFail : ∀ part partner, Statement (.partnerConnectionFail part partner) := fun _ _ => no_word rfl
theorem ackTimeout : ∀ part, Statement (.ackTimeout part) := fun _ => no_word rfl
theorem ttSlot : ∀ part entry, Statement (.ttSlot part entry) := fun _ _ => no_word rfl
theorem nodeStart : ∀ part nid, Statement (.nodeStart part nid) := fun _ _ => no_word rfl
theorem nodeEnd : ∀ part nid, Statement (.nodeEnd part nid) := fun _ _ => no_word rfl
theorem blockPlace : ∀ grid a twin, Statement (.blockPlace grid a twin) := fun _ _ _ => no_word rfl
theorem groupEvict : ∀ gid, Statement (.groupEvict gid) := fun _ => no_word rfl
theorem groupRestore : ∀ gid, Statement (.groupRestore gid) := fun _ => no_word rfl
theorem gridEnd : ∀ grid, Statement (.gridEnd grid) := fun _ => no_word rfl
theorem watchdogExpire : ∀ grid, Statement (.watchdogExpire grid) := fun _ => no_word rfl
theorem calleeDrain : ∀ core laneBase groupBase park, Statement (.calleeDrain core laneBase groupBase park) := fun _ _ _ _ => no_word rfl
theorem clauseStart : ∀ gid sid, Statement (.clauseStart gid sid) := fun _ _ => no_word rfl
theorem loadReply : ∀ gid oid lanes src, Statement (.loadReply gid oid lanes src) := fun _ _ _ _ => no_word rfl
theorem atomicReply : ∀ gid oid, Statement (.atomicReply gid oid) := fun _ _ => no_word rfl
theorem divideComplete : ∀ gid oid, Statement (.divideComplete gid oid) := fun _ _ => no_word rfl
theorem spindleGrant : ∀ core, Statement (.spindleGrant core) := fun _ => no_word rfl
theorem jobStart : ∀ jid, Statement (.jobStart jid) := fun _ => no_word rfl
theorem jobComplete : ∀ jid fetched, Statement (.jobComplete jid fetched) := fun _ _ => no_word rfl
theorem msgStatus : ∀ gid oid, Statement (.msgStatus gid oid) := fun _ _ => no_word rfl
theorem jrnlComplete : ∀ gid oid, Statement (.jrnlComplete gid oid) := fun _ _ => no_word rfl
theorem emitDurable : ∀ gid oid, Statement (.emitDurable gid oid) := fun _ _ => no_word rfl
theorem jtruncDurable : ∀ gid sid, Statement (.jtruncDurable gid sid) := fun _ _ => no_word rfl
theorem publishComplete : ∀ gid oid, Statement (.publishComplete gid oid) := fun _ _ => no_word rfl
theorem svcRingWrite : ∀ part, Statement (.svcRingWrite part) := fun _ => no_word rfl
theorem registerWrite : ∀ part num v, Statement (.registerWrite part num v) := fun _ _ _ => no_word rfl
theorem balloonAckWrite : ∀ gid v, Statement (.balloonAckWrite gid v) := fun _ _ => no_word rfl
theorem flagerrWrite : ∀ gid v, Statement (.flagerrWrite gid v) := fun _ _ => no_word rfl
theorem tpcWrite : ∀ gid v, Statement (.tpcWrite gid v) := fun _ _ => no_word rfl
theorem fmtWrite : ∀ gid sid v, Statement (.fmtWrite gid sid v) := fun _ _ _ => no_word rfl
theorem nop (f : Fld) : Statement (.nop f) := own_opcode (by decide : 0x000 < 512) rfl rfl
theorem mov (f : Fld) : Statement (.mov f) := own_opcode (by decide : 0x001 < 512) rfl rfl
theorem add (f : Fld) : Statement (.add f) := own_opcode (by decide : 0x002 < 512) rfl rfl
theorem sub (f : Fld) : Statement (.sub f) := own_opcode (by decide : 0x003 < 512) rfl rfl
theorem mul (f : Fld) : Statement (.mul f) := own_opcode (by decide : 0x004 < 512) rfl rfl
theorem mulhi (f : Fld) : Statement (.mulhi f) := own_opcode (by decide : 0x005 < 512) rfl rfl
theorem mad (f : Fld) : Statement (.mad f) := own_opcode (by decide : 0x006 < 512) rfl rfl
theorem madw (f : Fld) : Statement (.madw f) := own_opcode (by decide : 0x007 < 512) rfl rfl
theorem div (f : Fld) : Statement (.div f) := own_opcode (by decide : 0x008 < 512) rfl rfl
theorem rem (f : Fld) : Statement (.rem f) := own_opcode (by decide : 0x009 < 512) rfl rfl
theorem min (f : Fld) : Statement (.min f) := own_opcode (by decide : 0x00A < 512) rfl rfl
theorem max (f : Fld) : Statement (.max f) := own_opcode (by decide : 0x00B < 512) rfl rfl
theorem abs (f : Fld) : Statement (.abs f) := own_opcode (by decide : 0x00C < 512) rfl rfl
theorem neg (f : Fld) : Statement (.neg f) := own_opcode (by decide : 0x00D < 512) rfl rfl
theorem and (f : Fld) : Statement (.and f) := own_opcode (by decide : 0x00E < 512) rfl rfl
theorem or (f : Fld) : Statement (.or f) := own_opcode (by decide : 0x00F < 512) rfl rfl
theorem xor (f : Fld) : Statement (.xor f) := own_opcode (by decide : 0x010 < 512) rfl rfl
theorem not (f : Fld) : Statement (.not f) := own_opcode (by decide : 0x011 < 512) rfl rfl
theorem andn (f : Fld) : Statement (.andn f) := own_opcode (by decide : 0x012 < 512) rfl rfl
theorem shl (f : Fld) : Statement (.shl f) := own_opcode (by decide : 0x013 < 512) rfl rfl
theorem shr (f : Fld) : Statement (.shr f) := own_opcode (by decide : 0x014 < 512) rfl rfl
theorem sar (f : Fld) : Statement (.sar f) := own_opcode (by decide : 0x015 < 512) rfl rfl
theorem fshl (f : Fld) : Statement (.fshl f) := own_opcode (by decide : 0x016 < 512) rfl rfl
theorem fshr (f : Fld) : Statement (.fshr f) := own_opcode (by decide : 0x017 < 512) rfl rfl
theorem bfx (f : Fld) : Statement (.bfx f) := own_opcode (by decide : 0x018 < 512) rfl rfl
theorem bfi (f : Fld) : Statement (.bfi f) := own_opcode (by decide : 0x019 < 512) rfl rfl
theorem popc (f : Fld) : Statement (.popc f) := own_opcode (by decide : 0x01A < 512) rfl rfl
theorem clz (f : Fld) : Statement (.clz f) := own_opcode (by decide : 0x01B < 512) rfl rfl
theorem ctz (f : Fld) : Statement (.ctz f) := own_opcode (by decide : 0x01C < 512) rfl rfl
theorem brev (f : Fld) : Statement (.brev f) := own_opcode (by decide : 0x01D < 512) rfl rfl
theorem sel (f : Fld) : Statement (.sel f) := own_opcode (by decide : 0x01E < 512) rfl rfl
theorem setp (f : Fld) : Statement (.setp f) := own_opcode (by decide : 0x01F < 512) rfl rfl
theorem plop (f : Fld) : Statement (.plop f) := own_opcode (by decide : 0x020 < 512) rfl rfl
theorem pmovGet (f : Fld) : Statement (.pmovGet f) := shared_opcode (f := f) rfl (by decide : 0x021 < 512) rfl fun h => by
  simp only [op_021, bit_of_mod (m := f.mod) (n := 0) (of_decide_eq_true h)]; rfl
theorem pmovSet (f : Fld) : Statement (.pmovSet f) := shared_opcode (f := f) rfl (by decide : 0x021 < 512) rfl fun h => by
  simp only [op_021, bit_of_mod (m := f.mod) (n := 1) (of_decide_eq_true h)]; rfl
theorem ext (f : Fld) : Statement (.ext f) := own_opcode (by decide : 0x022 < 512) rfl rfl
theorem adr (f : Fld) : Statement (.adr f) := own_opcode (by decide : 0x023 < 512) rfl rfl
theorem dot4 (f : Fld) : Statement (.dot4 f) := own_opcode (by decide : 0x024 < 512) rfl rfl
theorem fadd (f : Fld) : Statement (.fadd f) := own_opcode (by decide : 0x040 < 512) rfl rfl
theorem fsub (f : Fld) : Statement (.fsub f) := own_opcode (by decide : 0x041 < 512) rfl rfl
theorem fmul (f : Fld) : Statement (.fmul f) := own_opcode (by decide : 0x042 < 512) rfl rfl
theorem ffma (f : Fld) : Statement (.ffma f) := own_opcode (by decide : 0x043 < 512) rfl rfl
theorem fdiv (f : Fld) : Statement (.fdiv f) := own_opcode (by decide : 0x05A < 512) rfl rfl
theorem fmin (f : Fld) : Statement (.fmin f) := own_opcode (by decide : 0x044 < 512) rfl rfl
theorem fmax (f : Fld) : Statement (.fmax f) := own_opcode (by decide : 0x045 < 512) rfl rfl
theorem fsetp (f : Fld) : Statement (.fsetp f) := own_opcode (by decide : 0x046 < 512) rfl rfl
theorem fneg (f : Fld) : Statement (.fneg f) := own_opcode (by decide : 0x047 < 512) rfl rfl
theorem fabs (f : Fld) : Statement (.fabs f) := own_opcode (by decide : 0x048 < 512) rfl rfl
theorem fclass (f : Fld) : Statement (.fclass f) := own_opcode (by decide : 0x056 < 512) rfl rfl
theorem frcp (f : Fld) : Statement (.frcp f) := own_opcode (by decide : 0x049 < 512) rfl rfl
theorem frsq (f : Fld) : Statement (.frsq f) := own_opcode (by decide : 0x04A < 512) rfl rfl
theorem fsqrt (f : Fld) : Statement (.fsqrt f) := own_opcode (by decide : 0x04B < 512) rfl rfl
theorem fex2 (f : Fld) : Statement (.fex2 f) := own_opcode (by decide : 0x04C < 512) rfl rfl
theorem flg2 (f : Fld) : Statement (.flg2 f) := own_opcode (by decide : 0x04D < 512) rfl rfl
theorem fsin (f : Fld) : Statement (.fsin f) := own_opcode (by decide : 0x04E < 512) rfl rfl
theorem fcos (f : Fld) : Statement (.fcos f) := own_opcode (by decide : 0x04F < 512) rfl rfl
theorem ftanh (f : Fld) : Statement (.ftanh f) := own_opcode (by decide : 0x050 < 512) rfl rfl
theorem fscale (f : Fld) : Statement (.fscale f) := own_opcode (by decide : 0x051 < 512) rfl rfl
theorem frnd (f : Fld) : Statement (.frnd f) := own_opcode (by decide : 0x052 < 512) rfl rfl
theorem fcvt (f : Fld) : Statement (.fcvt f) := own_opcode (by decide : 0x053 < 512) rfl rfl
theorem f2i (f : Fld) : Statement (.f2i f) := own_opcode (by decide : 0x054 < 512) rfl rfl
theorem i2f (f : Fld) : Statement (.i2f f) := own_opcode (by decide : 0x055 < 512) rfl rfl
theorem pfma (f : Fld) : Statement (.pfma f) := own_opcode (by decide : 0x057 < 512) rfl rfl
theorem padd (f : Fld) : Statement (.padd f) := own_opcode (by decide : 0x058 < 512) rfl rfl
theorem pmul (f : Fld) : Statement (.pmul f) := own_opcode (by decide : 0x059 < 512) rfl rfl
theorem shfl (f : Fld) : Statement (.shfl f) := own_opcode (by decide : 0x080 < 512) rfl rfl
theorem vote (f : Fld) : Statement (.vote f) := own_opcode (by decide : 0x081 < 512) rfl rfl
theorem red (f : Fld) : Statement (.red f) := own_opcode (by decide : 0x082 < 512) rfl rfl
theorem scan (f : Fld) : Statement (.scan f) := own_opcode (by decide : 0x083 < 512) rfl rfl
theorem matchLanes (f : Fld) : Statement (.matchLanes f) := own_opcode (by decide : 0x084 < 512) rfl rfl
theorem bcast (f : Fld) : Statement (.bcast f) := own_opcode (by decide : 0x085 < 512) rfl rfl
theorem fmt (f : Fld) : Statement (.fmt f) := own_opcode (by decide : 0x086 < 512) rfl rfl
theorem fmtrd (f : Fld) : Statement (.fmtrd f) := own_opcode (by decide : 0x087 < 512) rfl rfl
theorem qnt (f : Fld) : Statement (.qnt f) := own_opcode (by decide : 0x088 < 512) rfl rfl
theorem dqnt (f : Fld) : Statement (.dqnt f) := own_opcode (by decide : 0x089 < 512) rfl rfl
theorem tenc (f : Fld) : Statement (.tenc f) := own_opcode (by decide : 0x08A < 512) rfl rfl
theorem tdec (f : Fld) : Statement (.tdec f) := own_opcode (by decide : 0x08B < 512) rfl rfl
theorem pack (f : Fld) : Statement (.pack f) := own_opcode (by decide : 0x08C < 512) rfl rfl
theorem unpack (f : Fld) : Statement (.unpack f) := own_opcode (by decide : 0x08D < 512) rfl rfl
theorem lmask (f : Fld) : Statement (.lmask f) := own_opcode (by decide : 0x08E < 512) rfl rfl
theorem ld (f : Fld) : Statement (.ld f) := own_opcode (by decide : 0x0C0 < 512) rfl rfl
theorem st (f : Fld) : Statement (.st f) := own_opcode (by decide : 0x0C1 < 512) rfl rfl
theorem stm (f : Fld) : Statement (.stm f) := own_opcode (by decide : 0x0C2 < 512) rfl rfl
theorem atom (f : Fld) : Statement (.atom f) := own_opcode (op := 0x0C3) (by decide)
  (by
    show (some (if f.dstZero then plain 0x0C3 f (if f.lo = 7 then .no else .yes) true
      else slow 0x0C3 f (if f.lo = 7 then .no else .yes) true)).map (fun k => Fld.toWord k.fld k.op) = _
    cases f.dstZero <;> rfl) rfl
theorem mred (f : Fld) : Statement (.mred f) := own_opcode (by decide : 0x0C4 < 512) rfl rfl
theorem prf (f : Fld) : Statement (.prf f) := own_opcode (by decide : 0x0C5 < 512) rfl rfl
theorem cln (f : Fld) : Statement (.cln f) := own_opcode (by decide : 0x0C6 < 512) rfl rfl
theorem inv (f : Fld) : Statement (.inv f) := shared_opcode (f := f) rfl (by decide : 0x0C7 < 512) rfl fun h => by
  simp only [op_0C7, bit_of_mod (m := f.mod) (n := 0) (of_decide_eq_true h)]; rfl
theorem invAll (f : Fld) : Statement (.invAll f) := shared_opcode (f := f) rfl (by decide : 0x0C7 < 512) rfl fun h => by
  simp only [op_0C7, bit_of_mod (m := f.mod) (n := 1) (of_decide_eq_true h)]; rfl
theorem fence (f : Fld) : Statement (.fence f) := shared_opcode (f := f) rfl (by decide : 0x0C8 < 512) rfl fun h => by
  have h : f.mod.toNat < 24 := of_decide_eq_true (Bool.and_eq_true_iff.mp h).1
  simp only [op_0C8, low_mod (m := f.mod) 5 (by decide) (by omega)]; rfl
theorem fenceTotal (f : Fld) : Statement (.fenceTotal f) := shared_opcode (f := f) rfl (by decide : 0x0C8 < 512) rfl fun h => by
  simp only [op_0C8, bit_of_mod (m := f.mod) (n := 32) (of_decide_eq_true h)]; rfl
theorem blkz (f : Fld) : Statement (.blkz f) := own_opcode (by decide : 0x0C9 < 512) rfl rfl
theorem cres (f : Fld) : Statement (.cres f) := shared_opcode (f := f) rfl (by decide : 0x0CA < 512) rfl fun h => by
  simp only [op_0CA, bit_of_mod (m := f.mod) (n := 0) (of_decide_eq_true h)]; rfl
theorem cresRet (f : Fld) : Statement (.cresRet f) := shared_opcode (f := f) rfl (by decide : 0x0CA < 512) rfl fun h => by
  simp only [op_0CA, bit_of_mod (m := f.mod) (n := 1) (of_decide_eq_true h)]; rfl
theorem bra (f : Fld) : Statement (.bra f) := own_opcode (by decide : 0x100 < 512) rfl rfl
theorem brx (f : Fld) : Statement (.brx f) := own_opcode (by decide : 0x101 < 512) rfl rfl
theorem split (f : Fld) : Statement (.split f) := own_opcode (by decide : 0x102 < 512) rfl rfl
theorem call (f : Fld) : Statement (.call f) := own_opcode (by decide : 0x103 < 512) rfl rfl
theorem callx (f : Fld) : Statement (.callx f) := own_opcode (by decide : 0x104 < 512) rfl rfl
theorem ret (f : Fld) : Statement (.ret f) := own_opcode (by decide : 0x105 < 512) rfl rfl
theorem exit (f : Fld) : Statement (.exit f) := own_opcode (by decide : 0x106 < 512) rfl rfl
theorem loop (f : Fld) : Statement (.loop f) := own_opcode (by decide : 0x107 < 512) rfl rfl
theorem fopen (f : Fld) : Statement (.fopen f) := own_opcode (by decide : 0x108 < 512) rfl rfl
theorem fclose (f : Fld) : Statement (.fclose f) := own_opcode (by decide : 0x109 < 512) rfl rfl
theorem fref (f : Fld) : Statement (.fref f) := own_opcode (by decide : 0x10A < 512) rfl rfl
theorem disp (f : Fld) : Statement (.disp f) := own_opcode (by decide : 0x10B < 512) rfl rfl
theorem disprd (f : Fld) : Statement (.disprd f) := own_opcode (by decide : 0x10C < 512) rfl rfl
theorem yield (f : Fld) : Statement (.yield f) := own_opcode (by decide : 0x10D < 512) rfl rfl
theorem tret (f : Fld) : Statement (.tret f) := own_opcode (by decide : 0x10E < 512) rfl rfl
theorem bar (f : Fld) : Statement (.bar f) := own_opcode (by decide : 0x140 < 512) rfl rfl
theorem barc (f : Fld) : Statement (.barc f) := own_opcode (by decide : 0x141 < 512) rfl rfl
theorem tjoin (f : Fld) : Statement (.tjoin f) := own_opcode (by decide : 0x142 < 512) rfl rfl
theorem tleave (f : Fld) : Statement (.tleave f) := own_opcode (by decide : 0x143 < 512) rfl rfl
theorem tbar (f : Fld) : Statement (.tbar f) := own_opcode (by decide : 0x144 < 512) rfl rfl
theorem sleep (f : Fld) : Statement (.sleep f) := own_opcode (by decide : 0x145 < 512) rfl rfl
theorem wakePark (f : Fld) : Statement (.wakePark f) := shared_opcode (f := f) rfl (by decide : 0x146 < 512) rfl fun h => by
  simp only [op_146, bit_of_mod (m := f.mod) (n := 0) (of_decide_eq_true h)]; rfl
theorem wakeQueue (f : Fld) : Statement (.wakeQueue f) := shared_opcode (f := f) rfl (by decide : 0x146 < 512) rfl fun h => by
  simp only [op_146, bit_of_mod (m := f.mod) (n := 1) (of_decide_eq_true h)]; rfl
theorem wakeMgmt (f : Fld) : Statement (.wakeMgmt f) := shared_opcode (f := f) rfl (by decide : 0x146 < 512) rfl fun h => by
  simp only [op_146, bit_of_mod (m := f.mod) (n := 2) (of_decide_eq_true h)]; rfl
theorem jrnl (f : Fld) : Statement (.jrnl f) := own_opcode (by decide : 0x147 < 512) rfl rfl
theorem emit (f : Fld) : Statement (.emit f) := own_opcode (by decide : 0x148 < 512) rfl rfl
theorem jrd (f : Fld) : Statement (.jrd f) := own_opcode (by decide : 0x149 < 512) rfl rfl
theorem jtrunc (f : Fld) : Statement (.jtrunc f) := shared_opcode (f := f) rfl (by decide : 0x14A < 512) rfl fun h => by
  simp only [op_14A, bit_of_mod (m := f.mod) (n := 0) (of_decide_eq_true h)]; rfl
theorem jtruncClose (f : Fld) : Statement (.jtruncClose f) := shared_opcode (f := f) rfl (by decide : 0x14A < 512) rfl fun h => by
  simp only [op_14A, bit_of_mod (m := f.mod) (n := 1) (of_decide_eq_true h)]; rfl
theorem publish (f : Fld) : Statement (.publish f) := own_opcode (by decide : 0x14B < 512) rfl rfl
theorem mma (f : Fld) : Statement (.mma f) := own_opcode (by decide : 0x180 < 512) rfl rfl
theorem mmag (f : Fld) : Statement (.mmag f) := own_opcode (by decide : 0x181 < 512) rfl rfl
theorem accz (f : Fld) : Statement (.accz f) := own_opcode (by decide : 0x182 < 512) rfl rfl
theorem accrd (f : Fld) : Statement (.accrd f) := shared_opcode (f := f) rfl (by decide : 0x183 < 512) rfl fun h => by
  have h : f.mod.toNat / 16 = 0 := of_decide_eq_true (Bool.and_eq_true_iff.mp h).1
  simp only [op_183, low_mod (m := f.mod) 4 (by decide) (by omega)]; rfl
theorem accrdQ (f : Fld) : Statement (.accrdQ f) := shared_opcode (f := f) rfl (by decide : 0x183 < 512) rfl fun h => by
  simp only [op_183, bit_of_mod (m := f.mod) (n := 16) (of_decide_eq_true h)]; rfl
theorem accwr (f : Fld) : Statement (.accwr f) := own_opcode (by decide : 0x184 < 512) rfl rfl
theorem cpy (f : Fld) : Statement (.cpy f) := own_opcode (by decide : 0x185 < 512) rfl rfl
theorem nbkVload (f : Fld) : Statement (.nbkVload f) := shared_opcode (f := f) rfl (by decide : 0x186 < 512) rfl fun h => by
  simp only [op_186, bit_of_mod (m := f.mod) (n := 0) (of_decide_eq_true h)]; rfl
theorem nbkMv (f : Fld) : Statement (.nbkMv f) := shared_opcode (f := f) rfl (by decide : 0x186 < 512) rfl fun h => by
  simp only [op_186, bit_of_mod (m := f.mod) (n := 1) (of_decide_eq_true h)]; rfl
theorem nbkDrain (f : Fld) : Statement (.nbkDrain f) := shared_opcode (f := f) rfl (by decide : 0x186 < 512) rfl fun h => by
  simp only [op_186, bit_of_mod (m := f.mod) (n := 2) (of_decide_eq_true h)]; rfl
theorem nbkClear (f : Fld) : Statement (.nbkClear f) := shared_opcode (f := f) rfl (by decide : 0x186 < 512) rfl fun h => by
  simp only [op_186, bit_of_mod (m := f.mod) (n := 3) (of_decide_eq_true h)]; rfl
theorem nbkFence (f : Fld) : Statement (.nbkFence f) := shared_opcode (f := f) rfl (by decide : 0x186 < 512) rfl fun h => by
  simp only [op_186, bit_of_mod (m := f.mod) (n := 4) (of_decide_eq_true h)]; rfl
theorem spawn (f : Fld) : Statement (.spawn f) := own_opcode (by decide : 0x187 < 512) rfl rfl
theorem node (f : Fld) : Statement (.node f) := own_opcode (by decide : 0x188 < 512) rfl rfl
theorem msg (f : Fld) : Statement (.msg f) := shared_opcode (f := f) rfl (by decide : 0x189 < 512) rfl fun h => by
  have h : f.mod.toNat < 16 := of_decide_eq_true h
  simp only [op_189, low_mod (m := f.mod) 4 (by decide) (by omega)]; rfl
theorem msgNw (f : Fld) : Statement (.msgNw f) := shared_opcode (f := f) rfl (by decide : 0x189 < 512) rfl fun h => by
  have h : f.mod.getLsbD 4 = true := h
  simp only [op_189, h]; rfl
theorem route (f : Fld) : Statement (.route f) := own_opcode (by decide : 0x18A < 512) rfl rfl
theorem svc (f : Fld) : Statement (.svc f) := own_opcode (by decide : 0x1C0 < 512) rfl rfl
theorem trap (f : Fld) : Statement (.trap f) := own_opcode (by decide : 0x1C1 < 512) rfl rfl
theorem brk (f : Fld) : Statement (.brk f) := own_opcode (by decide : 0x1C2 < 512) rfl rfl
theorem rdsr (f : Fld) : Statement (.rdsr f) := own_opcode (by decide : 0x1C3 < 512) rfl rfl
theorem wrsr (f : Fld) : Statement (.wrsr f) := own_opcode (by decide : 0x1C4 < 512) rfl rfl
theorem timeTod (f : Fld) : Statement (.timeTod f) := shared_opcode (f := f) rfl (by decide : 0x1C5 < 512) rfl fun h => by
  simp only [op_1C5, bit_of_mod (m := f.mod) (n := 0) (of_decide_eq_true h)]; rfl
theorem timeCyc (f : Fld) : Statement (.timeCyc f) := shared_opcode (f := f) rfl (by decide : 0x1C5 < 512) rfl fun h => by
  simp only [op_1C5, bit_of_mod (m := f.mod) (n := 1) (of_decide_eq_true h)]; rfl
theorem ttCycleBoundary : ∀ part, Statement (.ttCycleBoundary part) := fun _ => no_word rfl

end Sys2Proof.Laws.Names
end

