-- ==== Sys2Proof/Tests/Slice0.lean ====
section
/-!
SUPPORT. Own tests: refusals of ill-formed terms, words that the spec itself encodes, one step of small states, and witnesses that the
hypotheses of the statements can be met.
-/

namespace Sys2Proof.Tests

open Sys2Proof.Machine Sys2Proof.Claim

-- The kernel evaluates these tests one after another, so that they need no thread each.
set_option Elab.async false

/-! ## Helpers -/

/-- A word's fields with nothing in them and the guard p7. -/
def z : Fld := { i := false, mod := 0, sc := 0, sb := 0, sa := 0, dst := 0, fs := false, pneg := false, pn := 7, g := false }
/-- The machine that has just been given instruction `i` as its program. -/
def loaded (i : Instr) : State := State.reset.withFetchWord 64 ((encode i).getD 0).toNat
/-- That machine as its only split issues `i`. -/
def probe (i : Instr) : State := { loaded i with cur := some ⟨1, 0⟩ }
/-- The only group of `probe`, changed. -/
def withGroup (s : State) (f : Group → Group) : State := s.updGrp 1 f
/-- The only split of `probe`, changed. -/
def withSplit (s : State) (f : Split → Split) : State := s.updGrp 1 fun g => g.updSplit 0 f
/-- The only partition of `probe`, changed. -/
def withPart (s : State) (f : Part → Part) : State := s.updPart 0 f
/-- Core 0, changed. -/
def withCore (s : State) (f : Core → Core) : State := s.updCore 0 f
/-- Slot n of the first lanes holds these values. -/
def slots (s : State) (n : Nat) (vs : List Nat) : State :=
  s.pokeStore 0 (((List.range vs.length).zip vs).flatMap fun e => cellsAt (4096 + 128 * n + 4 * e.1) (leBytes 4 e.2))
/-- A slot pair of lane 0 holds a value. -/
def pair0 (s : State) (n v : Nat) : State := s.pokeStore 0 (cellsAt (4096 + 128 * n) (leBytes 4 v) ++ cellsAt (4096 + 128 * (n + 1)) (leBytes 4 (v / 2 ^ 32)))
/-- The group's lanes are the first n. -/
def lanes (n : Nat) (s : State) : State := withSplit s fun p => { p with mask := BitVec.ofNat 32 (2 ^ n - 1) }
/-- Instruction `i` issues in `s` with an active lane, and its context meets `p`. -/
def meets (i : Instr) (s : State) (p : Ctx → Bool) : Bool := match issuing i s with | some x => decide (x.act ≠ 0) && p x | none => false
/-- Each of the instructions issues in its own machine with all 32 lanes active. -/
def issue (is : List Instr) : Bool := is.all fun i => meets i (probe i) fun _ => true
/-- The fault of `i` in its own machine. -/
def faultOf (i : Instr) (s : State) : Option (BitVec 8) := (faulting i s).map Prod.snd
/-- A word of the only group's lane frame after a step. -/
def after (r : Host.Outcome State Fault Refusal) (slot lane : Nat) : Option Nat := match r with
  | .next s => some (storeWord s 0 (4096 + 128 * slot + 4 * lane)).toNat
  | _ => none

/-! ## Ill-formed terms -/

/-- A reserved type code in MOD. -/
theorem refused_modifier : Instr.check (.add { z with mod := 6, dst := 8, sa := 4, sb := 6 }) = some .modifier := by decide
/-- I set where the entry has no immediate form. -/
theorem refused_immediate : Instr.check (.mad { z with mod := 2, i := true, dst := 8, sa := 4, sb := 6 }) = some .modifier := by decide
/-- A 64-bit operand in an odd slot. -/
theorem refused_odd_pair : Instr.check (.add { z with mod := 4, dst := 8, sa := 5, sb := 6 }) = some .operand := by decide
/-- A nonzero field that the entry does not use. -/
theorem refused_unused : Instr.check (.not { z with mod := 6, dst := 8, sa := 4, sb := 6 }) = some .operand := by decide
/-- FS in an instruction that is not long-latency. -/
theorem refused_flag : Instr.wf (.add { z with mod := 2, dst := 8, sa := 4, sb := 6, fs := true }) = false := by decide
/-- A well-formed term passes. -/
theorem accepted : Instr.wf (.add { z with mod := 2, dst := 8, sa := 4, sb := 6 }) = true := by decide
/-- Each family of opcodes has reserved ones (R213). -/
theorem refused_opcodes : [0x0FF, 0x025, 0x05B, 0x08F, 0x0CB, 0x10F, 0x14C, 0x18B, 0x1C6].all (fun op =>
    decide (ofWord (BitVec.ofNat 64 op) = none)) = true := by decide

/-! ## Decoding: words that the spec writes out -/

/-- `add.i32 L0.10, L0.10, -1` (R208). -/
theorem decode_add : decodeWord 0x817F_FFF8_1405_1C02 = .ok (.add { z with i := true, mod := 2, dst := 10, sa := 10, sb := 0x3FF, sc := 0x3FF }) := rfl
/-- `bra` to the clause four words before (R210). -/
theorem decode_bra : decodeWord 0x807F_FFE0_0001_8100 = .ok (.bra { z with i := true, pn := 0, dst := 3, sb := 0x3FC, sc := 0x3FF }) := rfl
/-- `vote.ballot L0.7, p3` (R257). -/
theorem decode_vote : decodeWord 0x0180_0000_0403_8481 = .ok (.vote { z with mod := 3, pn := 1, dst := 7, sa := 2 }) := rfl
/-- `fence.rel.dev` (R290). -/
theorem decode_fence : decodeWord 0x0900_0000_0000_1CC8 = .ok (.fence { z with mod := 0x12 }) := rfl
/-- `cln.g` (R289). -/
theorem decode_cln : decodeWord 0x8000_1002_0000_1EC6 = .ok (.cln { z with i := true, sa := 0x100, sb := 0x200, g := true }) := rfl
/-- `fadd.f32 L0.8, L0.4, L0.6`, field by field from R207: MOD 8, SB, SA, DST, guard p7, OP 0x040. -/
theorem decode_fadd : decodeWord (BitVec.ofNat 64 (8 * 2 ^ 55 + 6 * 2 ^ 35 + 4 * 2 ^ 25 + 8 * 2 ^ 15 + 7 * 2 ^ 10 + 0x040)) =
    .ok (.fadd { z with mod := 8, dst := 8, sa := 4, sb := 6 }) := rfl
/-- The header LEN 3, AV 1, A 0, K 100 (R202). -/
theorem header_fields : let w : DWord := 0x0000_0064_A001_0003
    hdrFault w = none ∧ hdrLen w = 3 ∧ hdrAV w = true ∧ hdrA w = 0 ∧ hdrBV w = false ∧ hdrK w = 100 := by decide
/-- Bytes are little-endian (R5). -/
theorem decode_bytes : decodeBytes [0x02, 0x1C, 0x05, 0x14, 0xF8, 0xFF, 0x7F, 0x81] =
    .ok (.add { z with i := true, mod := 2, dst := 10, sa := 10, sb := 0x3FF, sc := 0x3FF }) := rfl
theorem table_word : decodeTableWord 64 0x817F_FFF8_1405_1C02 = some (.add { z with i := true, mod := 2, dst := 10, sa := 10, sb := 0x3FF, sc := 0x3FF }) := by
  decide

/-! ## One step: results that the spec writes out -/

/-- 0x7FFF_FFF8 + 16 becomes 0x8000_0008 (R225). -/
theorem test_add_wraps : let i : Instr := .add { z with i := true, mod := 2, dst := 8, sa := 4, sb := 16 }
    after (step (slots (lanes 1 (loaded i)) 4 [0x7FFFFFF8])) 8 0 = some 0x80000008 := by decide +kernel
/-- 0xFFFF_FFFF × 2, high half: 1 (R225). -/
theorem test_mulhi : let i : Instr := .mulhi { z with i := true, mod := 3, dst := 8, sa := 4, sb := 2 }
    after (exec i (slots (lanes 1 (probe i)) 4 [0xFFFFFFFF])) 8 0 = some 1 := by decide +kernel
/-- abs of the most negative value is itself (R225). -/
theorem test_abs : let i : Instr := .abs { z with mod := 2, dst := 8, sa := 4 }
    after (exec i (slots (lanes 1 (probe i)) 4 [0x80000000])) 8 0 = some 0x80000000 := by decide +kernel
/-- 0x1122_3344 and 0xAABB_CCDD shifted by 8 (R229). -/
theorem test_fshl : let i : Instr := .fshl { z with mod := 6, dst := 8, sa := 4, sb := 5, sc := 6 }
    after (exec i (slots (slots (slots (lanes 1 (probe i)) 4 [0x11223344]) 5 [0xAABBCCDD]) 6 [8])) 8 0 = some 0x223344AA := by decide +kernel
theorem test_fshr : let i : Instr := .fshr { z with mod := 6, dst := 8, sa := 4, sb := 5, sc := 6 }
    after (exec i (slots (slots (slots (lanes 1 (probe i)) 4 [0x11223344]) 5 [0xAABBCCDD]) 6 [8])) 8 0 = some 0x44AABBCC := by decide +kernel
/-- pos 8, len 4 of 0x0000_0A00 as signed: −6 (R231). -/
theorem test_bfx : let i : Instr := .bfx { z with i := true, mod := 2, dst := 8, sa := 4, sb := 8, sc := 1 }
    after (exec i (slots (lanes 1 (probe i)) 4 [0xA00])) 8 0 = some 0xFFFFFFFA := by decide +kernel
/-- 0xFF02_0301 · 0x0204_0506 + 10 is 37 (R239). -/
theorem test_dot4 : let i : Instr := .dot4 { z with mod := 2, dst := 8, sa := 4, sb := 5, sc := 6 }
    after (exec i (slots (slots (slots (lanes 1 (probe i)) 4 [0xFF020301]) 5 [0x02040506]) 6 [10])) 8 0 = some 0x25 := by decide +kernel
/-- 1 + 2 in FP32 (R242). -/
theorem test_fadd : let i : Instr := .fadd { z with mod := 8, dst := 8, sa := 4, sb := 5 }
    after (exec i (slots (slots (lanes 1 (probe i)) 4 [0x3F800000]) 5 [0x40000000])) 8 0 = some 0x40400000 := by decide +kernel
/-- An idle lane keeps its slot, and the lane beside it is written (R201). -/
theorem test_lanes : let i : Instr := .mov { z with i := true, mod := 6, dst := 8, sb := 5 }
    let r := exec i (slots (lanes 1 (probe i)) 8 [9, 9])
    after r 8 0 = some 5 ∧ after r 8 1 = some 9 := by decide +kernel
/-- `shfl.up` by 1 takes the lane below, and lane 0 keeps its own (R256). -/
theorem test_shfl_up : let i : Instr := .shfl { z with i := true, mod := 0x16, dst := 5, sa := 4, sb := 1 }
    let r := exec i (slots (lanes 3 (probe i)) 4 [7, 8, 9])
    after r 5 0 = some 7 ∧ after r 5 2 = some 8 := by decide +kernel
/-- A sum over three lanes (R259). -/
theorem test_red : let i : Instr := .red { z with mod := 2, dst := 8, sa := 4 }
    after (exec i (slots (lanes 3 (probe i)) 4 [7, 8, 9])) 8 1 = some 24 := by decide +kernel

/-! ## Witnesses: the instructions issue, with all 32 lanes active -/

theorem witness_IntegerArithmetic : let f := { z with mod := 2, dst := 8, sa := 4, sb := 6 }
    issue [.add f, .sub f, .mul f, .mulhi f, .mad f, .madw f, .min f, .max f, .div f, .rem f, .abs { f with sb := 0 }, .neg { f with sb := 0 }] = true := by decide
theorem witness_LogicAndShifts : let f := { z with mod := 6, dst := 8, sa := 4, sb := 6 }
    issue [.and f, .or f, .xor f, .not { f with sb := 0 }, .andn f, .shl f, .shr f, .sar { f with mod := 2 }, .fshl f, .fshr f] = true := by decide
theorem witness_BitFieldsAndCounts : let f := { z with mod := 6, dst := 8, sa := 4 }
    issue [.bfx { f with mod := 3, sb := 6 }, .bfi { f with sb := 6 }, .popc f, .clz f, .ctz f, .brev f] = true := by decide
theorem witness_PredicateInstructions : let f := { z with mod := 6, dst := 8, sa := 4, sb := 6 }
    issue [.sel f, .setp { f with dst := 3 }, .plop { f with dst := 3 }, .pmovGet { z with dst := 8 }, .pmovSet { z with mod := 1, sa := 4, g := true },
      .pmovSet { z with mod := 1, sa := 4 }] = true := by decide
theorem witness_MovesAndAddresses : let f := { z with mod := 6, dst := 8, sa := 4 }
    issue [.nop z, .mov f, .mov { z with i := true, mod := 6, dst := 8 }, .ext { f with mod := 2 }, .adr { f with mod := 2, sb := 6 }, .adr { f with mod := 5, sb := 6 },
      .adr { z with i := true, mod := 2, dst := 8, sa := 4, sb := 6 }, .dot4 { f with mod := 0, sb := 6 }] = true := by decide
theorem witness_FloatArithmetic : let f := { z with mod := 8, dst := 8, sa := 4 }
    let g := { f with sb := 6 }
    issue [.fadd g, .fsub g, .fmul g, .ffma g, .fdiv g, .fsqrt f, .fscale g, .frnd f, .f2i { f with mod := 2 }, .i2f { f with mod := 2 }, .pfma { g with mod := 9 },
      .padd { g with mod := 9 }, .pmul { g with mod := 9 }] = true := by decide
theorem witness_FloatSelections : let f := { z with mod := 8, dst := 8, sa := 4 }
    issue [.fmin { f with sb := 6 }, .fmax { f with sb := 6 }, .fsetp { f with dst := 3, sb := 6 }, .fneg f, .fabs f, .fclass f] = true := by decide
theorem witness_SpecialFunctions : let f := { z with mod := 8, dst := 8, sa := 4 }
    issue [.frcp f, .frsq f, .fex2 f, .flg2 f, .fsin f, .fcos f, .ftanh f] = true := by decide
/-- NaN, a negative number, a number of at least 128, one of at most −151, and one of at least 10. -/
theorem witness_SpecialFunctions_codes : f32.decode 0x7FC00000 = .nan ∧ f32.decode 0xBF800000 = .fin true 8388608 (-23)
    ∧ f32.decode 0x43000000 = .fin false 8388608 (-16) ∧ dyLe 128 0 8388608 (-16) = true
    ∧ f32.decode 0xC3170000 = .fin true 9895936 (-16) ∧ dyLe 151 0 9895936 (-16) = true
    ∧ f32.decode 0x41200000 = .fin false 10485760 (-20) ∧ dyLe 10 0 10485760 (-20) = true := by decide
theorem witness_LaneOperations : let f := { z with mod := 6, dst := 8, sa := 4 }
    issue [.shfl { f with sb := 6 }, .lmask { z with dst := 8 }, .lmask { z with mod := 6, dst := 8 }, .matchLanes f, .bcast { f with sb := 6 }, .vote { z with sa := 4 },
      .vote { z with mod := 1, sa := 4 }, .vote { z with mod := 2, sa := 4 }, .vote { z with mod := 3, sa := 4, dst := 8 }, .red { f with mod := 2 },
      .red { f with mod := 0x22 }, .scan { f with mod := 2 }] = true := by decide
theorem witness_FormatRegister :
    meets (.fmt { z with mod := 1, i := true, sb := 6 }) (probe (.fmt { z with mod := 1, i := true, sb := 6 })) (fun x => decide (5 < x.f.imm.toNat % 16)) = true
    ∧ meets (.fmt { z with mod := 1, i := true, sb := 5 }) (probe (.fmt { z with mod := 1, i := true, sb := 5 })) (fun x => decide (x.f.imm.toNat % 16 = 5)) = true
    ∧ issue [.fmtrd { z with dst := 8 }] = true := by decide
theorem witness_FormatsOfLanes :
    let f := { z with mod := 8, dst := 8, sa := 4 }
    let narrow (i : Instr) : State := withSplit (probe i) fun p => { p with fmt := 0x0303 }
    issue [.fcvt f, .qnt f, .dqnt { f with sb := 6 }, .tenc { f with mod := 0x8B, sb := 6 }, .tdec f, .pack { f with mod := 11 }, .unpack { f with mod := 13 }] = true
    ∧ meets (.qnt f) (narrow (.qnt f)) (fun x => decide (outf x = 3)) = true
    ∧ meets (.dqnt { f with sb := 6 }) (narrow (.dqnt { f with sb := 6 })) (fun x => decide (af x = 3)) = true := by decide

/-! ## Witnesses: memory -/

/-- How the clauses of `SendsWrites` divide: a trap, or the cells pledged. -/
def sends (align : Nat) (addr : Ctx → Nat → Nat) (cells : Ctx → Nat → List Host.Cell) (x : Ctx) : Option (BitVec 8) × Nat :=
  let us := writeUnits x (cells x)
  ((accessTrap x align (us.map fun u => (u.1, u.2.map (·.1))) (addr x)).map Prod.fst, 8 * (memBlocks us).length)
def credit (n : Nat) (s : State) : State := withCore s fun k => { k with credit := n }

/-- Traps 0x11 and 0x14, credit that just suffices, and credit that just does not; a mask that selects a byte. -/
theorem witness_Stores : let f := { z with mod := 2, dst := 8, sa := 4, sb := 6 }
    let i : Instr := .st f
    let s := lanes 1 (probe i)
    let t := lanes 1 (probe (.stm { f with sc := 10 }))
    let got := sends 4 (fun x => x.addr) (dataCells f)
    let gotM := sends 1 (fun x => x.addr) (maskedCells { f with sc := 10 })
    meets i (pair0 s 4 (2 ^ 63)) (fun x => decide (got x = (some 0x11, 0))) = true ∧ meets i (pair0 s 4 2) (fun x => decide (got x = (some 0x14, 8))) = true
    ∧ meets i (credit 8 s) (fun x => decide (got x = (none, 8) ∧ (x.s.core! 0).credit = 8 ∧ (x.s.core! 0).waiters = [])) = true
    ∧ meets i (credit 7 s) (fun x => decide (got x = (none, 8) ∧ (x.s.core! 0).credit = 7 ∧ (x.s.core! 0).waiters = [])) = true
    ∧ meets (.stm { f with sc := 10 }) (slots t 10 [1]) (fun x => decide (gotM x = (none, 8))) = true
    ∧ meets (.stm { f with sc := 10 }) t (fun x => decide (gotM x = (none, 0))) = true := by decide +kernel
/-- A load with every clause's premise: a trap, no lane of the group's own frame, and one there. -/
theorem witness_Loads : let f := { z with mod := 2, dst := 8, sa := 4, sb := 6 }
    let i : Instr := .ld f
    let s := lanes 1 (probe i)
    let trap (x : Ctx) := accessTrap x 4 (x.units.map fun l => (l, bytesFrom (x.addr l) 4)) x.addr
    let own (x : Ctx) := x.s.ownFrame x.g (x.s.locate x.part x.g.core (x.addr 0))
    meets i (pair0 s 4 2) (fun x => decide (trap x = some (0x14, 1, 2))) = true ∧ meets i s (fun x => decide (trap x = none) && !(own x)) = true
    ∧ meets i (pair0 s 4 (coreWin + 4096)) (fun x => decide (trap x = none) && own x) = true := by decide +kernel
/-- An acquire that the group has issued and that still waits for its data. -/
def acquiring (s : State) : State := withGroup s fun g => { g with seq := 9, ops := [{ (default : Op) with
  oid := 8, seq := 1, flag := 11, mask := 1, smask := 1, kind := .load [(0, 131072)] 4 false true 2 false }] }
/-- A store of the group that is on its way. -/
def storing (s : State) : State := { withGroup s (fun g => { g with seq := 9 }) with writes := [{ (default : Write) with
  wid := 50, part := 0, gid := 1, core := 0, seq := 1, kind := .store, addr := 65600, bytes := [(65600, 7)] }] }
/-- Accesses of the group's own frame with an open acquire, with none, and a release behind a store on its way. -/
theorem witness_Held : let f := { z with mod := 2, dst := 8, sa := 4, sb := 6 }
    let i : Instr := .ld f
    let r : Instr := .st { f with mod := 0x12 }
    let own (x : Ctx) := x.s.ownFrame x.g (x.s.locate x.part x.g.core (x.addr 0))
    let at_ (s : State) : State := pair0 (lanes 1 s) 4 (coreWin + 4096)
    meets i (acquiring (at_ (probe i))) (fun x => own x && x.g.acqBefore x.g.seq) = true ∧ meets i (at_ (probe i)) (fun x => own x && !(x.g.acqBefore x.g.seq)) = true
    ∧ meets r (storing (at_ (probe r))) (fun x => own x && !(x.g.acqBefore x.g.seq) && decide (x.f.ord = 2) && !(x.s.releaseReady x.g x.f.scope x.g.seq)) = true := by decide +kernel
theorem witness_Atomics : let f := { z with mod := 0, dst := 8, sa := 4, sb := 6 }
    issue [.atom f, .atom { f with dst := 0x0F0 }, .atom { f with mod := 0x47 }, .mred { f with dst := 0 }] = true
    ∧ meets (.atom f) (pair0 (lanes 1 (probe (.atom f))) 4 2) (fun x => decide (x.addr0 0 % 4 = 2)) = true
    ∧ meets (.atom f) (credit 8 (lanes 1 (probe (.atom f)))) (fun x => decide ((x.s.core! 0).credit = 8)) = true := by decide +kernel
/-- Clauses of R284 at their boundary: equal and unequal operands, and a signed comparison. -/
theorem witness_AtomicValues : (atomicNew 7 0 5 5 9).map BitVec.toNat = some 9 ∧ atomicNew 7 0 5 6 9 = none
    ∧ (atomicNew 1 1 0xFFFFFFFF 0 0).map (fun v => v.toNat % 2 ^ 32) = some 0xFFFFFFFF ∧ (atomicNew 8 0 5 5 0).map BitVec.toNat = some 0 := by decide +kernel
theorem witness_CacheAndZero : let f := { z with sa := 4, sb := 6 }
    let i : Instr := .blkz f
    let j : Instr := .cln f
    let s := lanes 1 (probe i)
    issue [.prf f, .inv f, .invAll { z with mod := 1 }] = true
    ∧ meets i (pair0 s 4 (2 ^ 48)) (fun x => decide (∃ l ∈ x.units, 2 ^ 48 ≤ x.addr l)) = true
    ∧ meets i (pair0 s 4 (2 ^ 48 - 1)) (fun x => decide ((∀ l ∈ x.units, x.addr l < 2 ^ 48) ∧ ∃ l ∈ x.units, x.addr l % 512 ≠ 0)) = true
    ∧ meets i (pair0 s 4 (2 ^ 48 - 512)) (fun x => decide (∀ l ∈ x.units, x.addr l < 2 ^ 48 ∧ x.addr l % 512 = 0)) = true
    ∧ meets j (lanes 1 (probe j)) (fun x => decide (x.units.filter (fun l => decide (x.s.locate x.part x.g.core (x.addr l) = .bad)) = [])) = true
    ∧ meets j (pair0 (lanes 1 (probe j)) 4 (2 ^ 63)) (fun x => decide (x.units.filter (fun l => decide (x.s.locate x.part x.g.core (x.addr l) = .bad)) = [0])) = true := by
  decide +kernel
/-- An acquire of `.grp`, an acquire and release of `.dev`, `total`; and a group with a store in flight that none may pass. -/
theorem witness_Fences :
    let w : Write := { wid := 9, part := 0, gid := 1, core := 0, seq := 0, oid := 0, lane := 0, kind := .store, addr := 65536, bytes := [(65536, 1)]
                       gc := VClock.zero, rel := false, scope := 0, acq := false, pledge := 0, whole := [], detour := 0, redo := none, mask := 0, past := 0 }
    let busy (i : Instr) : State := { withGroup (probe i) (fun g => { g with seq := 1 }) with writes := [w] }
    let a : Instr := .fence { z with mod := 0x1 }
    let b : Instr := .fence { z with mod := 0x13 }
    let c : Instr := .fenceTotal { z with mod := 0x20 }
    let ready (rel acq : Bool) (scope : Nat) (x : Ctx) : Bool :=
      (!rel || x.s.releaseReady x.g scope x.g.seq) && (!acq || x.g.readsDone x.g.seq && x.g.mm.gc.le (x.s.die! (dieOf x.g.core)).av)
    meets a (probe a) (ready false true 0) = true ∧ meets b (probe b) (ready true true 4) = true ∧ meets c (probe c) (ready true true 4) = true
    ∧ meets b (busy b) (fun x => !(ready true true 4 x)) = true ∧ meets c (busy c) (fun x => !(ready true true 4 x)) = true := by decide +kernel
/-- Acquires of `.blk` and of `.sys`; and the second half of `total`, before AV covers GC and after. -/
theorem witness_Fences' : let a (scope : Nat) : Instr := .fence { z with mod := BitVec.ofNat 8 (1 + 4 * scope) }
    let c : Instr := .fenceTotal { z with mod := 0x20 }
    let second (gc : VClock) : State := withGroup (withSplit (probe c) fun p => { p with wait := .total }) fun g => { g with mm := { g.mm with gc := gc } }
    let covered (x : Ctx) : Bool := decide (x.p.wait = .total) && x.g.mm.gc.le (x.s.die! (dieOf x.g.core)).av
    issue [a 1, a 5] = true ∧ meets c (second VClock.zero) covered = true
    ∧ meets c (second ⟨0, 1, 0, 0⟩) (fun x => decide (x.p.wait = .total) && !(covered x)) = true := by decide +kernel
/-- `cres` above 4,096, at CREDIT, one above it, and after a denial; `cres.ret` with credit to return and with none. -/
theorem witness_CreditReservation :
    let i (n : Nat) : Instr := .cres { z with i := true, dst := 8, sb := BitVec.ofNat 10 n, sc := BitVec.ofNat 10 (n / 1024) }
    let r : Instr := .cresRet { z with mod := 1, dst := 8 }
    let n (x : Ctx) : Nat := (x.f.imm.signExtend 32).toNat
    let w : Waiter := { gid := 1, sid := 0, need := 16, cres := true, tlm := 1, taddr := 0, denied := true, asked := true, own := true }
    meets (i 4097) (probe (i 4097)) (fun x => decide (4096 < n x)) = true
    ∧ meets (i 16) (withCore (probe (i 16)) fun k => { k with waiters := [w] }) (fun x => decide (n x = 16) && (x.s.core! 0).waiters.any (·.denied)) = true
    ∧ meets (i 16) (credit 16 (probe (i 16))) (fun x => decide (n x = (x.s.core! 0).credit)) = true
    ∧ meets (i 4096) (credit 4095 (probe (i 4096))) (fun x => decide (n x = 4096 ∧ (x.s.core! 0).credit < n x ∧ (x.s.core! 0).refill = none)) = true
    ∧ meets r (credit 1 (probe r)) (fun x => decide ((x.s.core! 0).needed < (x.s.core! 0).credit)) = true
    ∧ meets r (probe r) (fun x => decide ((x.s.core! 0).credit ≤ (x.s.core! 0).needed)) = true := by decide +kernel

/-! ## Witnesses: control -/

/-- The lower half of the lanes have p0 set. -/
def halfP0 (s : State) : State := withGroup s fun g => { g with preds := (List.range 32).map fun l => if l < 16 then 1 else 0 }
theorem witness_Branches :
    let i : Instr := .bra { z with i := true, pn := 0, sb := 4, dst := 8 }
    let j : Instr := .bra { z with i := true, pn := 0, sb := 4 }
    let u : Instr := .bra { z with i := true, sb := 4, dst := 8 }
    let e : Entry := { pc := 0, mask := 1, join := 0, fmt := 0, kind := .loop }
    let deep : State := withSplit (halfP0 (probe i)) fun p => { p with stack := List.replicate 79 e }
    meets u (probe u) (fun x => decide (x.rest = 0 ∧ x.target = 65536 + 32)) = true
    ∧ meets i (halfP0 (probe i)) (fun x => decide (x.rest ≠ 0 ∧ x.g.depth ≤ 78 ∧ x.joinAt x.f.joinOff = some (65536 + 64))) = true
    ∧ meets j (halfP0 (probe j)) (fun x => decide (x.rest ≠ 0 ∧ x.f.joinOff = 0)) = true
    ∧ meets i deep (fun x => decide (x.rest ≠ 0 ∧ x.g.depth = 79)) = true := by decide +kernel
/-- A target that is the fall-through header, on either side of which the first path changes. -/
theorem witness_BranchOrder : let i (b : BitVec 10) : Instr := .bra { z with i := true, pn := 0, sb := b, sc := if b = 0x3FE then 0x3FF else 0, dst := 8 }
    let case (b : BitVec 10) (p : Nat → Nat → Bool) : Bool := meets (i b) (halfP0 (probe (i b))) fun x => p x.target x.c.next
    case 2 (fun t n => decide (t = n)) = true ∧ case 3 (fun t n => decide (n < t)) = true ∧ case 0x3FE (fun t n => decide (t < n)) = true := by decide +kernel
/-- The lanes below 16 name one target, and the guard of the others fails; or two targets; with and without a join, and with a full stack. -/
theorem witness_IndirectPaths : let i (b : BitVec 10) : Instr := .brx { z with i := true, sa := 4, sb := b, pn := 0 }
    let k (b : BitVec 10) : Instr := .brx { z with i := true, sa := 4, sb := b }
    let two (b : BitVec 10) : State := slots (probe (k b)) 4 [65536, 65544]
    let deep (n : Nat) (s : State) : State := withSplit s fun p => { p with stack := List.replicate n { pc := 0, mask := 1, join := 0, fmt := 0, kind := .loop } }
    let aligned (x : Ctx) : Bool := x.lanes.all fun l => decide ((x.rdA 2 l).toNat % 8 = 0)
    meets (i 8) (halfP0 (probe (i 8))) (fun x => aligned x && decide (x.rest ≠ 0) && (x.joinAt x.f.imm).isSome) = true
    ∧ meets (k 8) (two 8) (fun x => aligned x && decide ((x.rdA 2 0).toNat ≠ (x.rdA 2 1).toNat) && (x.joinAt x.f.imm).isSome) = true
    ∧ meets (k 0) (two 0) (fun x => aligned x && decide ((x.rdA 2 0).toNat ≠ (x.rdA 2 1).toNat ∧ x.f.imm = 0)) = true
    ∧ meets (k 8) (deep 77 (two 8)) (fun x => aligned x && decide (x.g.depth = 77)) = true
    ∧ meets (k 8) (deep 78 (two 8)) (fun x => aligned x && decide (80 < x.g.depth + 3)) = true := by decide +kernel
theorem witness_IndirectBranches :
    let i : Instr := .brx { z with i := true, sa := 4 }
    let g : Instr := .brx { z with i := true, sa := 4, g := true }
    meets i (probe i) (fun x => decide (x.rest = 0 ∧ ∀ l ∈ x.lanes, (x.rdA 2 l).toNat = 0)) = true
    ∧ meets i (pair0 (probe i) 4 4) (fun x => decide (∃ l ∈ x.units, (x.rdA 2 l).toNat % 8 ≠ 0)) = true
    ∧ meets g (pair0 (probe g) 4 8) (fun x => decide ((x.rdA 2 (lowest x.act)).toNat = 8)) = true := by decide +kernel
theorem witness_SplitsAndLoops :
    let i : Instr := .split { z with i := true, pn := 0, sb := 4, dst := 8 }
    let j : Instr := .split { z with i := true, pn := 0, sb := 4 }
    let u : Instr := .split { z with i := true, sb := 4, dst := 8 }
    let l : Instr := .loop { z with i := true, pn := 0, sb := 0, dst := 8 }
    let a : Instr := .loop { z with i := true, sb := 0, dst := 8 }
    let four : State := withGroup (halfP0 (probe i)) fun g => { g with splits := g.splits ++ (g.splits.map fun p => { p with sid := 1, mask := 0 }) ++
      (g.splits.map fun p => { p with sid := 2, mask := 0 }) ++ g.splits.map fun p => { p with sid := 3, mask := 0 } }
    let e : Entry := { pc := 0, mask := 1, join := 65536 + 64, fmt := 0, kind := .loop }
    meets u (probe u) (fun x => decide (x.rest = 0)) = true
    ∧ meets i (halfP0 (probe i)) (fun x => decide (x.rest ≠ 0 ∧ x.g.splits.length = 1 ∧ (x.joinAt x.f.joinOff).isSome = true)) = true
    ∧ meets j (halfP0 (probe j)) (fun x => decide (x.rest ≠ 0 ∧ x.f.joinOff = 0)) = true
    ∧ meets i four (fun x => decide (x.rest ≠ 0 ∧ x.g.splits.length = 4 ∧ x.g.depth ≤ 78)) = true
    ∧ meets a (probe a) (fun x => decide (x.rest = 0)) = true
    ∧ meets l (halfP0 (probe l)) (fun x => decide (x.rest ≠ 0 ∧ (x.joinAt x.f.joinOff).isSome = true ∧ x.p.stack = [])) = true
    ∧ meets l (withSplit (halfP0 (probe l)) fun p => { p with stack := [e] })
        (fun x => decide (x.rest ≠ 0 ∧ (x.p.stack.head?.map fun e => (e.kind, e.join)) = some (.loop, 65536 + 64))) = true := by decide +kernel
/-- Full stacks: of a new split, of a split beside three others, and of a loop whose entry is not there; and a loop without a join. -/
theorem witness_FullStacks : let i : Instr := .split { z with i := true, pn := 0, sb := 4, dst := 8 }
    let l : Instr := .loop { z with i := true, pn := 0, sb := 0, dst := 8 }
    let n : Instr := .loop { z with i := true, pn := 0, sb := 0 }
    let e : Entry := { pc := 0, mask := 1, join := 0, fmt := 0, kind := .reconv }
    let deep (n : Nat) (s : State) : State := withSplit s fun p => { p with stack := List.replicate n e }
    let four (s : State) : State := withGroup s fun g => { g with splits := g.splits ++ [1, 2, 3].flatMap fun k => g.splits.map fun p => { p with sid := k, mask := 0, stack := [] } }
    meets i (deep 80 (halfP0 (probe i))) (fun x => decide (x.rest ≠ 0 ∧ x.g.splits.length < 4 ∧ x.g.depth = 80)) = true
    ∧ meets i (deep 79 (halfP0 (probe i))) (fun x => decide (x.rest ≠ 0 ∧ x.g.splits.length < 4 ∧ x.g.depth = 79)) = true
    ∧ meets i (four (deep 79 (halfP0 (probe i)))) (fun x => decide (x.rest ≠ 0 ∧ x.g.splits.length = 4 ∧ x.g.depth = 79)) = true
    ∧ meets l (deep 80 (halfP0 (probe l))) (fun x => decide (x.rest ≠ 0 ∧ x.g.depth = 80 ∧ (x.p.stack.head?.map Entry.kind) ≠ some .loop)) = true
    ∧ meets n (halfP0 (probe n)) (fun x => decide (x.rest ≠ 0 ∧ x.f.joinOff = 0)) = true := by decide +kernel
theorem witness_CallsAndReturns :
    let i : Instr := .call { z with i := true, mod := 29, sb := 4 }
    let h : Instr := .call { z with i := true, mod := 29, sb := 4, pn := 0 }
    let c : Instr := .callx { z with mod := 1, sa := 4 }
    let r : Instr := .ret z
    let q : Instr := .ret { z with pn := 0 }
    let entry : RetEntry := { sid := 0, addr := 65536, shift := 8, marker := false }
    meets i (probe i) (fun x => decide (x.rest = 0 ∧ x.g.fr.shift + 8 * 29 < x.g.fr.lslots ∧ (x.g.rets.filter fun r => !r.marker).length < 72)) = true
    ∧ meets i (withGroup (probe i) fun g => { g with fr := { g.fr with shift := 8 } }) (fun x => decide (x.rest = 0 ∧ x.g.fr.lslots ≤ x.g.fr.shift + 8 * 29)) = true
    ∧ meets h (halfP0 (probe h)) (fun x => decide (x.rest ≠ 0)) = true
    ∧ meets c (probe c) (fun x => decide (x.rest = 0 ∧ ∀ l ∈ x.lanes, (x.rdA 2 l).toNat = 0)) = true
    ∧ meets c (pair0 (probe c) 4 8) (fun x => decide (∃ l ∈ x.lanes, (x.rdA 2 l).toNat ≠ (x.rdA 2 (lowest x.act)).toNat)) = true
    ∧ meets c (pair0 (probe c) 4 4) (fun x => decide (∃ l ∈ x.lanes, (x.rdA 2 l).toNat % 8 ≠ 0)) = true
    ∧ meets q (halfP0 (probe q)) (fun x => decide (x.rest ≠ 0)) = true
    ∧ meets r (probe r) (fun x => decide (x.rest = 0 ∧ x.g.ownRet x.p.sid = none ∧ x.g.kind ≠ .drained)) = true
    ∧ meets r (withGroup (probe r) fun g => { g with rets := [entry] }) (fun x => decide (x.rest = 0 ∧ x.g.ownRet x.p.sid = some entry)) = true := by decide +kernel
theorem witness_ExitYieldTret :
    let i : Instr := .exit z
    let t : Instr := .tret z
    let op : Op := { oid := 9, seq := 0, sid := 0, flag := 3, mask := 1, smask := 1, dest := { depth := 0, slot := 8, handle := 0 }, err := false, held := []
                     best := none, detour := 0, redo := [], resent := [], kind := .div [] }
    meets i (probe i) (fun x => decide (x.g.mm.fault = none ∧ x.g.allClear = true ∧ x.g.kind ≠ .drained)) = true
    ∧ meets i (withGroup (probe i) fun g => { g with ops := [op] }) (fun x => decide (x.g.mm.fault = none ∧ x.g.allClear = false)) = true
    ∧ issue [.yield z] = true
    ∧ meets t (withGroup (probe t) fun g => { g with trap := { g.trap with inH := true } }) (fun x => x.g.trap.inH) = true := by decide +kernel

/-- A probe with an open frame of 8 words on core 0, its handle in L0.4. -/
def withFrame (i : Instr) (depth : Nat) : State :=
  let r := (probe i).makeFrame 0 depth 65536 8 2 0 true
  slots (lanes 1 r.2) 4 [r.1.toNat]
theorem witness_FramesAndDisplays :
    let o (n : Nat) : Instr := .fopen { z with i := true, dst := 8, sb := BitVec.ofNat 10 n }
    let f := { z with sa := 4 }
    let h (x : Ctx) : Word := x.slot x.f.sa 0 (lowest x.act)
    let live (x : Ctx) : Bool := x.s.live x.g.core x.g.grid (h x)
    let d : Instr := .disp f
    let r : Instr := .fref f
    let worn : State := (withFrame r 2).setHeader 0 2 16384 (mkHdr 0 8 32767)
    meets (o 257) (probe (o 257)) (fun x => decide (256 < (x.f.imm.signExtend 32).toNat)) = true
    ∧ meets (o 256) (probe (o 256)) (fun x => decide ((x.f.imm.signExtend 32).toNat = 256)) = true
    ∧ meets (.fclose f) (withFrame (.fclose f) 2) live = true ∧ meets (.fclose f) (probe (.fclose f)) (fun x => !(live x)) = true
    ∧ meets r (withFrame r 2) (fun x => live x && decide (hdrRefs (x.s.header x.g.core (hDepth (h x)) (hOff (h x))) < 32767)) = true
    ∧ meets r worn (fun x => decide (hdrRefs (x.s.header x.g.core (hDepth (h x)) (hOff (h x))) = 32767)) = true
    ∧ meets d (withFrame d 2) (fun x => live x && decide (hDepth (h x) = 2)) = true ∧ meets d (probe d) (fun x => !(live x)) = true
    ∧ issue [.disprd { z with dst := 8 }, .disprd { z with mod := 3, dst := 8 }] = true := by decide +kernel

/-- There is room for the frame of 256 words, wherever it is proposed. -/
theorem witness_fopen_room : ([0, 3072, 34816].all fun cand => ((probe (.nop z)).findStore 0 (frameRoom 2 256 true) cand).isSome) = true := by decide +kernel
/-- A cluster without a share has no room for a frame. -/
theorem witness_fopen_full (i : Instr) (cand : Nat) : (probe i).findShare 0 (frameRoom 3 1 true) cand = none := by
  have h : ∀ b, (probe i).shareFree 0 b (frameRoom 3 1 true) = false := fun b => by
    have : ((probe i).core! 0).share = 0 := rfl
    simp [State.shareFree, this, frameRoom]
  unfold State.findShare
  rw [h, if_neg (by decide), List.find?_eq_none]
  intro b _
  rw [h]; decide

/-! ## Witnesses: synchronisation and the journal -/

theorem witness_BarriersAndTeams :
    let t : Instr := .tbar { z with mod := 2 }
    let team (m : List Nat) : State := withCore (probe t) fun k => { k with teams := [{ grid := 2, t := 2, members := m, last := 0, urgent := none }] }
    issue [.bar z, .barc { z with mod := 15 }, .tjoin { z with mod := 7 }, .tleave { z with mod := 7 }] = true
    ∧ meets t (team [1]) (fun x => (x.s.core! x.g.core).members x.g.grid 2 = [1]) = true
    ∧ meets t (team [5]) (fun x => (x.s.core! x.g.core).members x.g.grid 2 = [5]) = true := by decide +kernel
/-- A team without members; and the only group of a block, before it has arrived at `bar 3` and after. -/
theorem witness_Generations : let t : Instr := .tbar { z with mod := 2 }
    let there : State := withSplit (probe (.nop z)) fun p => { p with wait := .bar .bar 3 }
    let g := (there.grp? 1).getD default
    let here (s : State) : Bool := (s.participants g .bar 3).all fun x => !x.splits.isEmpty && x.splits.all fun p => decide (p.wait = .bar .bar 3)
    meets t (probe t) (fun x => decide ((x.s.core! x.g.core).members x.g.grid 2 = [])) = true
    ∧ there.participants g .bar 3 = [g] ∧ here there = true ∧ here (probe (.nop z)) = false ∧ g.readsDone g.seq = true ∧ there.writesDone g g.seq = true
    ∧ g.mm.gc.le (there.die! (dieOf g.core)).av = true ∧ (there.groups.map Group.gid).Nodup := by decide +kernel
theorem witness_SleepAndWake :
    let i : Instr := .sleep { z with dst := 8 }
    let p : Instr := .wakePark { z with sa := 4, sb := 6 }
    let told (s : State) (v : Nat) : State := slots (slots (lanes 1 s) 4 [v]) 6 [1]
    meets i (probe i) (fun x => decide (x.g.wake = 0)) = true
    ∧ meets i (withGroup (probe i) fun g => { g with wake := 2 }) (fun x => decide (x.g.wake = 2) && x.g.readsDone x.g.seq
        && (x.g.mm.gc.join x.g.wakeGc).le (x.s.die! (dieOf x.g.core)).av) = true
    ∧ meets p (told (probe p) 1) (fun x => decide (x.units = [0] ∧ x.val x.f.sb 2 0 = 1) && (x.s.groups.any fun g => decide (g.park = x.slot x.f.sa 0 (x.srcLane 0)))) = true
    ∧ meets p (told (probe p) 2) (fun x => decide (∀ l ∈ x.units, ∀ g ∈ x.s.groups, g.park ≠ x.slot x.f.sa 0 (x.srcLane l))) = true
    ∧ issue [.wakeQueue { z with mod := 1, sa := 4, sb := 6 }, .wakeMgmt { z with mod := 2, sa := 4, sb := 6 }] = true := by decide +kernel

/-- A TOKEN record, an ANCHOR record, and a journal of one stream that holds them. -/
def token : SeqRec := ⟨1, { jsid := 0, type := 1, pos := 0, lo := 0, hi := 0 }⟩
def anchor : SeqRec := ⟨2, { jsid := 0, type := 4, pos := 0, lo := 0, hi := 0 }⟩
def journal (st : JState) (durable : Nat) (cursor : Option Nat) (s : State) : State := withPart s fun p => { p with jr := { p.jr with
  st := st, p := { p.jr.p with jbase := 0, jcount := 4, npart := 1 }
  streams := [{ jsid := 0, trunc := 0, last := 2, durable := durable, recs := [token, anchor], cursor := cursor, adopted := 2 }] } }
/-- The probe's grid is a replay grid. -/
def replaying (s : State) : State := s.updGrid 2 fun g => { g with card := { g.card with flags := 4 } }
theorem witness_JournalInstructions : let f := { z with dst := 8, sa := 4 }
    let e : Instr := .emit f
    let r : Instr := .jrd f
    let seq1 (s : State) : State := slots (lanes 1 s) 5 [1]
    let isToken (x : Ctx) : Bool := (((x.part.jr.stream (jsidAt x.f x 0)).bind fun t => t.recs.find? fun r => decide (r.seq = (x.slot x.f.sa 1 0).toNat)).map
      fun r => decide (r.rcd.type = 1) && x.part.jr.inRange (jsidAt x.f x 0)).getD false
    issue [.jrnl f, .emit f, .publish { z with dst := 8, sb := 6 }, .jtrunc { f with sb := 6 }, .jtruncClose { f with mod := 1 }] = true
    ∧ meets e (probe e) (fun x => decide (x.part.jr.st = .off)) = true
    ∧ meets e (journal (.live 0) 1 none (lanes 1 (probe e))) (fun x => decide (x.part.jr.st ≠ .off) && !(isToken x)) = true
    ∧ meets e (journal .down 1 none (seq1 (probe e))) isToken = true ∧ meets e (journal (.live 0) 1 none (seq1 (probe e))) isToken = true
    ∧ meets r (probe r) (fun x => decide (x.grid.card.flags / 4 % 2 ≠ 1)) = true
    ∧ meets r (replaying (journal (.live 0) 2 (some 1) (lanes 1 (probe r)))) (fun x => decide (x.grid.card.flags / 4 % 2 = 1)) = true := by decide +kernel
/-- A partner, a live ANCHOR, and records on either side of what is durable. -/
theorem witness_JournalTruncation : let s (durable : Nat) := journal (.live 0) durable none (probe (.nop z))
    ((s 1).jr 0).partner = some 0 ∧ ((s 1).jr 0).stream 0 = ((s 1).jr 0).streams.head? ∧ ((probe (.nop z)).jr 0).partner = none
    ∧ (((s 1).jr 0).streams.map fun q => (decide (q.durable < 2), q.recs.any fun r => decide (r.seq = 2 ∧ r.rcd.type = 4))) = [(true, true)]
    ∧ (((s 2).jr 0).streams.map fun q => (decide (2 ≤ q.durable), q.recs.any fun r => decide (r.seq = 1 ∧ r.rcd.type = 4))) = [(true, false)] := by decide +kernel

/-! ## Witnesses: engines -/

/-- Words of the group frame from L1.2 on. -/
def descriptor (s : State) (ws : List Nat) : State := s.pokeStore 0 (cellsAt (36864 + 8) (ws.flatMap fun w => leBytes 4 w))
theorem witness_PassesAndTiles : let f := { z with mod := 5, sa := 0x102 }
    let fmt (v : Word) (s : State) : State := withSplit s fun p => { p with fmt := v }
    let ok (gather : Bool) (x : Ctx) : Bool := let d := descr x.f x 10
      decide (af x = 1 ∧ bf x = 2 ∧ dw2 d 0 % 16 = 0 ∧ dw2 d 2 % 16 = 0 ∧ dw d 4 % 16 = 0 ∧ dw d 6 * 16 / 8 ≤ dw d 4 ∧ dw d 5 % 16 = 0
        ∧ dw d 6 * 16 / 8 ≤ dw d 5 ∧ dw d 6 % 16 = 0 ∧ 16 ≤ dw d 6 ∧ dw d 6 ≤ 4096)
      && if gather then decide (1 ≤ dw d 7 ∧ dw d 7 ≤ 65535 ∧ dw2 d 8 % 2 = 0) else decide (dw d 7 = 64 ∧ dw2 d 8 = 0)
    let good : List Nat := [0, 1, 0, 2, 8192, 8192, 4096, 64, 0, 0]
    let t := { z with mod := 8, dst := 8, sa := 4, sb := 6 }
    let q : Instr := .accrdQ { t with mod := 16 }
    meets (.mma f) (descriptor (fmt 0x21 (probe (.mma f))) good) (ok false) = true
    ∧ meets (.mma f) (descriptor (fmt 0x21 (probe (.mma f))) [0, 1, 0, 2, 8192, 8192, 4112, 64, 0, 0]) (fun x => !(ok false x)) = true
    ∧ meets (.mmag f) (descriptor (fmt 0x21 (probe (.mmag f))) [0, 1, 0, 2, 8192, 8192, 16, 1, 0, 0]) (ok true) = true
    ∧ meets (.mmag f) (descriptor (fmt 0x21 (probe (.mmag f))) [0, 1, 0, 2, 8192, 8192, 16, 0, 0, 0]) (fun x => !(ok true x)) = true
    ∧ issue [.accz { z with mod := 5 }, .accrd t, .accwr t] = true
    ∧ meets q (fmt 0x300 (probe q)) (fun x => decide (outf x = 3)) = true ∧ meets q (probe q) (fun x => decide (outf x ≠ 3 ∧ outf x ≠ 4 ∧ outf x ≠ 5)) = true := by
  decide +kernel
/-- A legal copy of one row whose pledge CREDIT just covers, and just does not; and a descriptor with a length of 0. -/
theorem witness_Copies : let i : Instr := .cpy { z with sa := 0x102 }
    let good : List Nat := [65536, 0, 131072, 0, 512, 512, 512, 1, 0, 0]
    let s := descriptor (probe i) good
    let c (x : Ctx) := copyD (descr x.f x 10)
    meets i (credit 8 s) (fun x => decide (copyStatus (descr x.f x 10) = 0) && copyFarOk x.part (c x) && decide ((copyBlocks (c x)).length = 1)) = true
    ∧ meets i (credit 7 s) (fun x => decide (copyStatus (descr x.f x 10) = 0) && copyFarOk x.part (c x) && decide ((copyBlocks (c x)).length = 1)) = true
    ∧ meets i (probe i) (fun x => decide (copyStatus (descr x.f x 10) ≠ 0)) = true := by decide +kernel
/-- A class-2 page, and near-bank commands on it that keep their limits, and that break them. -/
theorem witness_NearBank : let f := { z with sa := 0x102 }
    let is : List Instr := [.nbkVload f, .nbkMv { f with mod := 1 }, .nbkDrain { f with mod := 2 }, .nbkClear { f with mod := 3 }]
    let bad (i : Instr) : Bool := meets i (probe i) fun x => decide (nbkStatus (x.f.mod.toNat % 8) (descr x.f x 6) ≠ 0) || x.s.nbkRefused x.part x.gid (x.f.mod.toNat % 8) (descr x.f x 6)
    let good (i : Instr) (d : List Nat) (g : State → State) : Bool := meets i (g (descriptor (probe i) d)) fun x =>
      decide (nbkStatus (x.f.mod.toNat % 8) (descr x.f x 6) = 0) && !(x.s.nbkRefused x.part x.gid (x.f.mod.toNat % 8) (descr x.f x 6))
    let rows (s : State) : State := (s.updPage 0 1 fun q => { q with cls := 2, nbrow := 1 }).updQuad 0 fun q => { q with nbLen := 32 }
    issue [.nbkFence { z with mod := 4 }] = true ∧ is.all bad = true
    ∧ good (.nbkVload f) [65536, 0, 32, 1, 0, 0] id = true ∧ good (.nbkMv { f with mod := 1 }) [65536, 0, 32, 0, 1, 3] rows = true
    ∧ good (.nbkDrain { f with mod := 2 }) [65536, 0, 0, 0, 1, 0] id = true ∧ good (.nbkClear { f with mod := 3 }) [0, 0, 0, 1, 0, 0] id = true := by
  decide +kernel

/-! ## Witnesses: nodes, messages and system instructions -/

/-- Words of partition memory from an address on, as its home holds them. -/
def memory (s : State) (a : Nat) (ws : List Nat) : State :=
  withPart s fun p => { p with views := p.views.modify (homeDie p a) fun v => v.poke a (ws.flatMap fun w => leBytes 4 w) }
/-- One copy descriptor at 65,792, and none at 65,796. -/
def aCopy (s : State) : State := memory s 65792 [65536, 0, 131072, 0, 512, 512, 512, 1, 0, 0]
def manyNodes (s : State) (n : Nat) : State := { s with nodes := List.replicate n default }
theorem witness_SpawnAndNode : let f := { z with mod := 2, dst := 8, sa := 4, sb := 6 }
    let s := aCopy (probe (.node f))
    let g := (s.grp? 1).getD default
    let p := (s.part? 0).getD default
    let read (va tag : Nat) : Option Nat := match (s.fillNode p 2 va).readNode p 2 va tag with | .ok r => some r.tag | .error _ => none
    issue [.spawn { f with mod := 0, sb := 0 }, .node f] = true ∧ s.part? g.part = some p ∧ read 65796 3 = none ∧ read 65792 3 = some 3
    ∧ ((manyNodes s 256).nodes.filter fun n => decide (n.part = g.part)).length = 256
    ∧ ((manyNodes s 255).nodes.filter fun n => decide (n.part = g.part)).length = 255 := by decide +kernel

/-- The probe's grid has a handler table at an address, or none at 0. -/
def withTable (a : Nat) (s : State) : State := s.updGrid 2 fun g => { g with card := { g.card with msgtab := a } }
def kindIs (k : GKind) (s : State) : State := withGroup s fun g => { g with kind := k }
theorem witness_Messages : let f := { z with dst := 8, sa := 4, sb := 6, sc := 10 }
    let bad (x : Ctx) : List Nat := x.lanes.filter fun l => decide ((x.slot x.f.sa 0 l).toNat % 8 = 0) || decide ((x.slot x.f.sa 0 l).toNat / 2 ^ 28 ≠ 0)
    let word (i : Instr) (w : Nat) : State := slots (lanes 1 (probe i)) 4 [w]
    let table (x : Ctx) : Bool := decide (x.grid.card.msgtab ≠ 0)
    [Instr.msg f, .msgNw { f with mod := 0x10 }].all (fun i =>
      meets i (withTable 0 (word i 1)) (fun x => !table x) && meets i (withTable 65536 (word i 0)) (fun x => table x && decide (bad x = [0]))
      && meets i (withTable 65536 (word i (2 ^ 28 + 1))) (fun x => table x && decide (bad x = [0]))
      && meets i (withTable 65536 (word i (2 ^ 28 - 1))) (fun x => table x && decide (bad x = [] ∧ x.g.kind ≠ .reply))
      && meets i (kindIs .reply (withTable 65536 (word i 7))) (fun x => table x && decide (bad x = [] ∧ x.g.kind = .reply))) = true
    ∧ issue [.route { z with dst := 8, sa := 4 }] = true := by decide +kernel

/-- The service ring's window is open, with a ring of 2^K entries. -/
def withRing (k : Nat) (s : State) : State := withPart s fun p => { p with
  regs := { p.regs with ringK := k, ringWin := 0 }, windows := [{ num := 0, host := 0, len := 65536, key := 0, ver := 65536, va := 2 ^ 40, version := 0, closing := false }] }
theorem witness_SystemInstructions : let f := { z with i := true, sb := 6 }
    let takes (x : Ctx) : Bool := x.part.openWin x.part.regs.ringWin && decide (x.lanes.length ≤ 2 ^ x.part.regs.ringK)
    let bare (x : Ctx) : Bool := decide (x.s.handlerOf x.g = 0 ∧ x.g.trap.inH = false ∧ x.g.kind ≠ .reply ∧ x.g.mm.fault = none)
    let i : Instr := .svc f
    let b : Instr := .brk f
    let rd (n : Nat) : Instr := .rdsr { z with i := true, dst := 8, sb := BitVec.ofNat 10 n, sc := BitVec.ofNat 10 (n / 1024) }
    let wr (n : Nat) : Instr := .wrsr { z with i := true, sa := 4, sb := BitVec.ofNat 10 n, sc := BitVec.ofNat 10 (n / 1024) }
    let agent (s : State) : State := s.updGrid 2 fun g => { g with card := { g.card with flags := 2 } }
    meets i (withRing 5 (probe i)) takes = true ∧ meets i (withRing 4 (probe i)) (fun x => !(takes x)) = true ∧ meets i (probe i) (fun x => !(takes x)) = true
    ∧ meets b (withRing 5 (probe b)) (fun x => takes x && bare x) = true ∧ meets b (probe b) (fun x => !(takes x) && bare x) = true
    ∧ meets b (kindIs .reply (probe b)) (fun x => !(bare x)) = true ∧ issue [.trap f] = true
    ∧ issue (assignedNumbers.map rd) = true ∧ issue (assignedNumbers.map wr) = true
    ∧ [0x004, 0x7FF].all (fun n => decide (n ∉ assignedNumbers)) = true ∧ issue [rd 0x004, wr 0x004, rd 0x7FF, wr 0x7FF, rd 0x800, wr 0x800] = true
    ∧ meets (wr 0x020) (pair0 (probe (wr 0x020)) 4 0x1555) (fun x => !(fmtReserved (x.rdA 2 0))) = true
    ∧ meets (wr 0x020) (pair0 (probe (wr 0x020)) 4 6) (fun x => fmtReserved (x.rdA 2 0)) = true
    ∧ meets (wr 0x102) (agent (probe (wr 0x102))) (fun x => decide ((x.s.agent x.g.part).map Grid.id = some x.g.grid)) = true
    ∧ meets (wr 0x102) (probe (wr 0x102)) (fun x => (x.s.agent x.g.part).isNone) = true
    ∧ issue [.timeTod { z with dst := 8 }, .timeCyc { z with mod := 1, dst := 8 }] = true := by decide +kernel
/-- Values at the bounds of R25, R81, R82 and R179 for a partition of one quadrant. -/
theorem witness_RegisterWrites : let s := probe (.nop z)
    (s.grp? 1).isSome = true ∧ ((s.grp? 1).bind fun g => g.split? 0).isSome = true ∧ (s.part? 0).map (fun p => (p.quads.length, p.regs.ratio)) = some (1, 16)
    ∧ (165 ≤ (165 : DWord).toNat % 65536 ∧ (250 : DWord).toNat % 65536 ≤ 250) ∧ s.dev.running = true := by decide +kernel

/-! ## Witnesses: commands -/

def base : State := probe (.nop z)
def head : CmdHdr := default
/-- A part of a state with partition 0. -/
def of (s : State) : Part := (s.part? 0).getD default
theorem witness_On : On base head (of base) ∧ OnNone head := by unfold On OnNone; decide +kernel
/-- The same for any state whose partition 0 is there. -/
theorem witness_on (s : State) (h : (s.part? 0).isSome = true) : On s head (of s) := by
  unfold On of
  obtain ⟨p, e⟩ := Option.isSome_iff_exists.mp h
  exact ⟨by rw [show head.part = 0 from rfl, e]; rfl, rfl⟩
theorem witness_CommandRefusals :
    (⟨{ head with part := 5 }, .topoRead⟩ : Command).instr = some (.topoRead { head with part := 5 }) ∧ cmdNoPart .topoRead = false ∧ base.part? 5 = none
    ∧ (base.part? 0).isSome = true ∧ (⟨{ head with queue := 0xFF, part := 0xFFFE }, .identify⟩ : Command).instr = some (.identify { head with queue := 0xFF, part := 0xFFFE })
    ∧ cmdNoPart .identify = true := by decide +kernel
/-- The job 7 is the partition's; queue 3 holds n commands. -/
def jobs7 (n : Nat) : State := withPart base fun p => { p with jobs := [7], queues := p.queues.modify 3 fun q => { q with cmds := List.replicate n default } }
/-- Peer 0 is connected. -/
def linked (s : State) : State := { s with dev := { s.dev with conns := [0] } }
theorem witness_CommandPeers : head.src ∈ (linked base).dev.conns ∧ head.src ∉ base.dev.conns ∧ head.plen ≤ 65536 ∧ ¬({ head with plen := 65537 } : CmdHdr).plen ≤ 65536 := by decide
theorem witness_CommandArrival : let h7 : CmdHdr := { head with job := 7, queue := 3 }
    let waiting (s : State) : Option Nat := (s.part? 0).bind fun p => (p.queues[3]?).map fun q => q.cmds.length
    base.dev.running = true ∧ ({ base with dev := { base.dev with running := false } } : State).dev.running = false
    ∧ base.alive 0 = true ∧ base.alive 5 = false ∧ base.admits (of base) 7 = false ∧ (jobs7 63).admits (of (jobs7 63)) h7.job = true
    ∧ waiting (jobs7 63) = some 63 ∧ waiting (jobs7 64) = some 64 ∧ cmdSupOnly .topoRead = false ∧ cmdSupOnly .resetPart = true
    ∧ base.dev.supJob = none ∧ base.dev.supQueue.length < 64 := by decide +kernel
theorem witness_InquiryCommands : OnNone { head with queue := 0xFF, part := 0xFFFF } ∧ ([0x900, 0x800, 0x7FF, 0x0FF, 0xA00] : List Nat).length ≤ 64
    ∧ (List.replicate 64 0).length ≤ 64 ∧ 64 < (List.replicate 65 0).length := by unfold OnNone; decide
theorem witness_PatchCommand : let mine : Option Nat := assoc 0x71 base.dev.patches
    let img : PatchImage := { (default : PatchImage) with format := 1, code := 0x71, body := [0] }
    mine = none ∧ img.code ∈ commandCodes ∧ img.body ≠ [] ∧ ¬(img.level < base.dev.fuses.floor.toNat) ∧ base.dev.patches.length < 32 := by decide +kernel
/-- A state whose key hash is that of 32 zero bytes, so that an image with this key may verify. -/
theorem witness_PatchKey : let d : Dev := { base.dev with fuses := { base.dev.fuses with keyHash := sha256 (List.replicate 32 0) } }
    sha256 ((List.range 32).map fun i => ((List.replicate 32 (0 : Byte)).getD i 0)) = d.fuses.keyHash := by decide +kernel
/-- Free quadrants beside the partition's, and its own; identifiers, and destruction with nothing at work. -/
def idle : State := { State.reset with parts := (loaded (.nop z)).parts }
theorem witness_PartitionCommands : (∃ q ∈ [0], ∃ p ∈ base.parts, q ∈ p.quads) ∧ (∀ q ∈ [1, 15], ∀ p ∈ base.parts, q ∉ p.quads)
    ∧ (∀ p ∈ base.parts, p.id ≠ 1) ∧ base.dev.busy = none ∧ (base.resetPart 0).partIdle 0 = false ∧ idle.partIdle 0 = true ∧ (idle.resetPart 0).partIdle 0 = true := by decide +kernel
theorem witness_PartConfig : let held (n : Nat) : Bool := decide (0x800 ≤ n) && decide (n ≤ 0x9FF)
    let writable (n : Nat) : Bool := (decide (0x801 ≤ n) && decide (n ≤ 0x809)) || decide (n = 0x900)
    [0x801, 0x809, 0x900].all (fun n => held n && writable n) = true ∧ [0x800, 0x80A, 0x9FF].all (fun n => held n && !writable n) = true
    ∧ [0x7FF, 0xA00].all (fun n => !held n) = true := by decide
/-- Page 1 is mapped; the run of page 2 is not; pages with a move, and Fubebex's own. -/
def pages (f : Page → Page) : State := base.updPage 0 1 f
theorem witness_PageCommands : let p := of base
    let win (n : Nat) : State := withPart base fun p => { p with windows := [{ num := n, host := 0, len := 131072, key := 0, ver := 2 ^ 20, va := 2 ^ 20, version := 0, closing := false }] }
    Run 65536 1 ∧ Run (2 ^ 48 - 65536) 1 ∧ ¬Run (2 ^ 48) 1 ∧ ¬Run 65536 0 ∧ ¬Run 65537 1 ∧ inRun base p 65536 1 ≠ [] ∧ inRun base p 131072 1 = []
    ∧ (∀ g ∈ inRun base p 65536 1, g.own = false ∧ g.moves = 0)
    ∧ (∃ g ∈ inRun (pages fun q => { q with own := true }) p 65536 1, g.own = true) ∧ (∃ g ∈ inRun (pages fun q => { q with moves := 1 }) p 65536 1, 0 < g.moves)
    ∧ (4 : Int) ≤ p.avail ∧ p.avail < (4 * 2 ^ 30 : Nat) ∧ base.mappedBytes 0 + 65536 ≤ p.regs.ratio * p.quads.length * 3000000000
    ∧ (openWindow (of (win 255)) 255).map (fun w => (w.va, w.len)) = some (2 ^ 20, 131072) ∧ openWindow p 255 = none := by unfold Run; decide +kernel
/-- Partition 0 keeps n events. -/
def events (n : Nat) (s : State) : State := withPart s fun p => { p with evq := List.replicate n (.svcRequest 0 1) }
theorem witness_EventRoom : (events 255 base).evRoom 0 1 = true ∧ (events 256 base).evRoom 0 1 = false := by decide +kernel
theorem witness_WindowCommands : let w (host ver len : Nat) : WindowParams := { (default : WindowParams) with num := 255, host := host, len := len, ver := ver, va := 2 ^ 20 }
    let out (w : WindowParams) : Bool := decide (255 < w.num ∨ w.len = 0 ∨ w.len % 65536 ≠ 0 ∨ 2 ^ 32 < w.len ∨ w.ver % 8 ≠ 0
      ∨ (w.host < w.ver + 8 ∧ w.ver < w.host + w.len) ∨ w.va % 65536 ≠ 0 ∨ 2 ^ 48 ≤ w.va)
    let s (open_ : Bool) : State := withPart base fun p => { p with windows := [{ num := 0, host := 0, len := 65536, key := 0, ver := 65536, va := 2 ^ 20, version := 0, closing := !open_ }] }
    let rma (s : State) : State := { s with rmas := [{ (default : Rma) with part := 0, win := 0 }] }
    out (w 0 65536 65536) = false ∧ out (w 8 0 65536) = false ∧ out (w 0 65528 65536) = true ∧ out (w 0 (2 ^ 32) (2 ^ 32)) = false
    ∧ ((of (s true)).windows.find? fun w => decide (w.num = 0)).map Window.closing = some false
    ∧ (∃ r ∈ (rma (s true)).rmas, r.part = 0 ∧ r.win = 0) ∧ (∀ r ∈ (s true).rmas, ¬(r.part = 0 ∧ r.win = 0))
    ∧ ((of (s false)).windows.find? fun w => decide (w.num = 0)).map Window.closing = some true := by decide +kernel
/-- LOAD_CODE of 8 bytes on page 1 with and without room for its pledge, and on a page that is not there. -/
theorem witness_LoadCode : let mbs (s : State) : List Nat := (spanBlocks 65600 8).filter fun mb => (s.page? 0 (mb / 128)).any fun g => decide (g.cls = 0)
    let poor : State := withPart base fun p => { p with free := 0 }
    (∀ i, i < 8 → (base.page? 0 ((65600 + i) / 65536)).map (fun g => (g.w, g.hw)) = some (true, none)) ∧ base.page? 0 ((131072 + 0) / 65536) = none
    ∧ (8 * (mbs base).length : Nat) ≤ (of base).avail ∧ (of poor).avail < (8 * (mbs poor).length : Nat) := by decide +kernel
theorem witness_LaunchCommands : let card : List Nat := [65536, 0, 1, 8 * 256 + 1] ++ List.replicate 28 0
    let s := memory base 66560 card
    let read (va : Nat) : Option Nat := match (s.fillNode (of s) 1 va).readCard (of s) va with | .ok r => some r.tag | .error _ => none
    let copies : State := aCopy base
    let copy (va : Nat) : Option Nat := match (copies.fillNode (of copies) 2 va).readNode (of copies) 2 va 3 with | .ok r => some r.tag | .error _ => none
    read 66560 = some 0 ∧ read 66688 = none ∧ read 66561 = none ∧ copy 65792 = some 3 ∧ copy 65793 = none
    ∧ ((manyNodes base 256).nodes.filter fun n => decide (n.part = head.part)).length = 256
    ∧ ((manyNodes base 255).nodes.filter fun n => decide (n.part = head.part)).length = 255 := by decide +kernel
/-- A group parked with the park id 1 for a service call, and for a fault. -/
theorem witness_AnswerCommands : let waiting : State := withGroup base fun g => { g with svc := some { (default : SvcReq) with phase := 3 } }
    let killed : State := withPart base fun p => { p with killedSvc := [1] }
    let fault : State := withGroup base fun g => { g with place := .parked { (default : Stop) with why := .page }, mm := { g.mm with fault := some (0x10, 1, 65536) } }
    let svc (s : State) : Option Group := s.groups.find? fun g => decide (g.part = head.part) && decide (g.park = 1) && decide (g.svc.map SvcReq.phase = some 3)
    let verdict (s : State) : Option Group := s.groups.find? fun g => decide (g.part = head.part) && decide (g.park = 1) && s.awaitsVerdict g
    (svc waiting).isSome = true ∧ svc base = none ∧ (1 : Word) ∈ (of killed).killedSvc ∧ (1 : Word) ∉ (of base).killedSvc
    ∧ (verdict fault).isSome = true ∧ verdict base = none ∧ base.faultOrder 0 = [] := by decide +kernel
/-- A running table of cycle 10,000 with entries below it, and a stopped one. -/
def table (es : List TTEntry) (run re : Option TTRun) : State := withPart base fun p => { p with tt := { p.tt with entries := es, run := run, rephase := re } }
theorem witness_TimeTableCommands : let r : TTRun := { (default : TTRun) with cycle := 10000, start := 5 }
    (of base).tt.run = none ∧ (of (table [⟨9999, 2, 0⟩] (some r) none)).tt.run = some r ∧ (∀ e ∈ [(⟨9999, 2, 0⟩ : TTEntry)], e.slot < r.cycle ∧ e.policy ≤ 2)
    ∧ (∃ e ∈ [(⟨10000, 2, 0⟩ : TTEntry)], r.cycle ≤ e.slot) ∧ base.dev.tod = 0 := by decide +kernel
/-- A partition with a window and raw pages for a journal. -/
def journalled : State :=
  let s := withPart base fun p => { p with windows := [{ num := 1, host := 0, len := 65536, key := 0, ver := 65536, va := 2 ^ 30, version := 0, closing := false }] }
  { s with pages := s.pages ++ [2, 3].map fun v => { (default : Page) with part := 0, vpn := v, cls := 1 } }
def jparams : JournalParams :=
  { mode := 1, jbase := 0, jcount := 4, npart := 1, window := 1, ringk := 4, bufva := 131072, buflen := 65536, storeva := 196608, storelen := 65536
    timeout := 100, partners := [{ (default : PartnerEntry) with kind := 1 }] }
theorem witness_JournalLimits : JournalLimits journalled (of journalled) jparams := by
  refine ⟨by decide, by decide, by decide, by decide, by decide, by decide, by decide, by decide, by decide, by decide, by decide, by decide, by decide, ?_, ⟨_, rfl, by decide⟩, ?_, ?_⟩
  · decide +kernel
  · refine .inr fun v h1 h2 => ?_; exact (show v = 2 by simp [jparams] at h1 h2; omega) ▸ ⟨_, rfl, rfl, rfl, rfl⟩
  · refine .inr fun v h1 h2 => ?_; exact (show v = 3 by simp [jparams] at h1 h2; omega) ▸ ⟨_, rfl, rfl, rfl, rfl⟩
theorem witness_JournalCommands : (of journalled).jr.st = .off ∧ (of journalled).jr.streams = [] ∧ ¬JournalLimits journalled (of journalled) { jparams with timeout := 99 }
    ∧ (of (journal .down 1 none base)).jr.st = .down ∧ (of (journal (.live 0) 1 none base)).jr.st = .live 0 ∧ (of (journal (.live 0) 1 none base)).jr.streams ≠ []
    ∧ (of (journal (.live 0) 1 none base)).jr.p.jcount = 4 := by
  refine ⟨by decide +kernel, by decide +kernel, fun h => ?_, by decide +kernel, by decide +kernel, by decide +kernel, by decide +kernel⟩
  exact absurd h.2.2.2.2.2.2.2.2.2.1 (by decide)

/-- A configuration of a journal while streams are open: of the timeout alone, of the partners, and of the buffer. -/
theorem witness_JournalConfig : let p := of (journal (.live 0) 1 none base)
    let fits (c : JournalParams) : Bool := decide (p.jr.streams = []) || decide ({ c with npart := p.jr.p.npart, partners := p.jr.p.partners, timeout := p.jr.p.timeout } = p.jr.p)
    fits { p.jr.p with timeout := 100, npart := 0 } = true ∧ fits { p.jr.p with buflen := 65536 } = false ∧ p.jr.st = .live 0 := by decide +kernel
/-- REPLAY_BIND of a range of one jsid, its answers in or not, that finds room or not, and an open stream or not; and a free value either way
is what the holder's reach depends on. -/
theorem witness_ReplayBind : let b : BindParams := { (default : BindParams) with jfirst := 1, jn := 1, holder := 5 }
    let s (done : List Nat) (buflen : Nat) : State := withPart { (journal (.live 0) 1 none base) with dev := { base.dev with busy := some ⟨head, .replayBind b⟩ } } fun p =>
      { p with jr := { p.jr with bindDone := done, p := { p.jr.p with buflen := buflen } } }
    let out (p : Part) (b : BindParams) : Bool := decide (2 ^ 24 ≤ b.jfirst ∨ b.jn = 0 ∨ 65536 < b.jn ∨ p.jr.st = .off ∨ b.jfirst < p.jr.p.jbase
      ∨ p.jr.p.jbase + p.jr.p.jcount < b.jfirst + b.jn)
    let opened (p : Part) (b : BindParams) : Bool := p.jr.streams.any fun x => decide (b.jfirst ≤ x.jsid ∧ x.jsid < b.jfirst + b.jn)
    let full (p : Part) : Bool := decide (p.jr.p.buflen / 32 < p.jr.liveRecs + ((adopted b []).flatMap Stream.recs).length)
    (s [1] 65536).dev.busy = some ⟨head, .replayBind b⟩ ∧ out (of (s [1] 65536)) b = false ∧ out (of base) b = true
    ∧ (1 ∈ (of (s [1] 65536)).jr.bindDone) ∧ (1 ∉ (of (s [] 65536)).jr.bindDone) ∧ opened (of (s [1] 65536)) b = false
    ∧ opened (of (s [1] 65536)) { b with jfirst := 0 } = true ∧ full (of (s [1] 65536)) = false ∧ full (of (s [1] 0)) = true ∧ base.dev.busy = none := by decide +kernel

/-! ## Witnesses: events -/

theorem witness_HostTraffic : let kept : State := withPart base fun p => { p with evq := [.svcRequest 0 1] }
    let sup : State := { base with dev := { base.dev with evq := [.svcRequest 0 1], supJob := some 3, conns := [9] } }
    let r (va : Nat) : RmaReq := { (default : RmaReq) with part := 0, src := 9, job := 3, va := va }
    let bad : UetFeatures := { (default : UetFeatures) with modes := [3] }
    (of kept).evq = [.svcRequest 0 1] ∧ sup.dev.evq = [.svcRequest 0 1] ∧ sup.dev.supJob = some 3 ∧ (r 65600).src ∈ sup.dev.conns ∧ (r 65600).src ∉ base.dev.conns
    ∧ (∀ m ∈ (default : UetFeatures).modes, m ≤ 2) ∧ (∀ o ∈ (default : UetFeatures).ops, o ≤ 3) ∧ (default : UetFeatures).hpc = false ∧ (default : UetFeatures).otherCongestion = false
    ∧ (default : UetFeatures).other = false ∧ ¬(∀ m ∈ bad.modes, m ≤ 2) ∧ sup.dev.supJob = some (r 0).job ∧ (r 0).key = (of sup).regs.rmaKey
    ∧ (∀ i, i < 8 → (sup.page? 0 (((r 65600).va + i) / 65536)).map (fun g => (g.hw, g.w)) = some (none, true)) ∧ sup.page? 0 ((r 131072).va / 65536) = none
    ∧ (of sup).poisoned 65600 8 = false ∧ (8 * (spanBlocks 65600 8).length : Nat) ≤ (of sup).avail := by decide +kernel
/-- Partition 0 has no F, and an inbound write admitted; a poisoned byte. -/
theorem witness_HostTraffic' : let poor : State := withPart base fun p => { p with free := 0 }
    let poison : State := withPart base fun p => { p with poison := [2050] }
    (of poor).avail < (8 * (spanBlocks 65600 8).length : Nat) ∧ (of poison).poisoned 65600 8 = true := by decide +kernel
theorem witness_PowerAndTime : base.dev.throttle = false ∧ ({ base.dev with ptpMode := 1 } : Dev).ptpMode = 1 := by decide

/-- A lease asked for in quadrant 0, under a budget of 15 W for a throttled device; and one held since 0. -/
def budgeted (w : Nat) : State := { (base.updQuad 0 fun q => { q with leaseQ := [{ jid := 5, part := 0, weight := w, at_ := 0 }] }) with
  dev := { base.dev with throttle := true, up := 10001 } }
def leased (up : Nat) : State := { (base.updQuad 0 fun q => { q with leases := [{ jid := 5, weight := 4, since := 0 }] }) with
  jobs := [{ (default : Job) with jid := 5 }], dev := { base.dev with up := up } }
theorem witness_Leases : ((budgeted 15).ownerOf 0).isSome = true
    ∧ ((budgeted 15).quad! 0).leaseQ.map (fun r => (r.weight + ((budgeted 15).quad! 0).leases.length, (budgeted 15).dev.up - r.at_)) = [(15, 10001)]
    ∧ ((budgeted 16).quad! 0).leaseQ.map LeaseReq.weight = [16]
    ∧ (((leased 9999).quad! 0).leases.find? fun l => decide (l.jid = 5)).isSome = true ∧ ((leased 9999).job? 5).isSome = true ∧ (leased 10000).dev.up = 0 + 10000 := by decide +kernel

/-- Passes that wait for the Spindle of cluster 0: the one passed over 16 times is chosen, else the first of the highest PRIO. -/
def passes (ps : List (Nat × Nat)) : State := { base with jobs := ((List.range ps.length).zip ps).map fun e =>
  { (default : Job) with jid := e.1 + 1, part := 0, kind := .pass 0 false false [] 1 1, prio := e.2.1, passed := e.2.2 } }
theorem witness_JobChoice : let s := passes [(0, 0), (1, 0), (1, 3), (0, 15)]
    let t := passes [(0, 0), (1, 15), (0, 16), (3, 16)]
    ((candidates s 0).map fun j => (j.jid, j.prio, j.passed)) = [(1, 0, 0), (2, 1, 0), (3, 1, 3), (4, 0, 15)]
    ∧ ((candidates t 0).map fun j => (j.jid, j.passed)) = [(1, 0), (2, 15), (3, 16), (4, 16)] ∧ (∀ e ∈ s.entries 0, e.granted = false) := by decide +kernel
def waiting (i prio passed : Nat) : Job := { (default : Job) with jid := i, prio := prio, passed := passed }
theorem witness_Chosen : Chosen [waiting 0 0 0, waiting 1 1 0, waiting 2 1 3, waiting 3 0 15] [waiting 0 0 0] (waiting 1 1 0)
    ∧ Chosen [waiting 0 0 0, waiting 1 1 15, waiting 2 0 16, waiting 3 3 16] [waiting 0 0 0, waiting 1 1 15] (waiting 2 0 16) :=
  ⟨⟨[waiting 2 1 3, waiting 3 0 15], rfl, .inr ⟨by decide, by decide, by decide⟩⟩, ⟨[waiting 3 3 16], rfl, .inl ⟨by decide, by decide⟩⟩⟩
/-- Jobs that are held, that wait for leases, and that may start; and one that may end. -/
def oneJob (j : Job) : State := { base with jobs := [j] }
theorem witness_JobStart : let j : Job := { (default : Job) with jid := 9, part := 0, kind := .accz 0, granted := true }
    let free (j : Job) : Bool := !(decide (j.started = true) || decide (j.granted = false) || (oneJob j).jobBlocked j || (oneJob j).nbkBlocked (of base) j)
    free j = true ∧ free { j with granted := false } = false ∧ j.wants = [] ∧ free { j with wants := [0] } = true
    ∧ ((oneJob { j with started := true }).job? 9) = some { j with started := true } ∧ ((oneJob j).part? j.part).isSome = true := by decide +kernel
theorem witness_JobEnd : let j : Job := { (default : Job) with jid := 9, part := 0, kind := .accz 0, granted := true, started := true, gid := 77 }
    MayEnd (oneJob j) j ∧ (oneJob j).jobLost (of base) j = false := by
  refine ⟨⟨rfl, rfl, by decide +kernel, fun g h => ?_, by decide +kernel⟩, by decide +kernel⟩
  rw [show (oneJob _).grp? 77 = none by decide +kernel] at h
  cases h
/-- The head of the ring's order, at each stage of its request, and a ring without room. -/
theorem witness_SvcRing : let r : SvcReq := { code := 7, lanes := [(0, [1])], q0 := 1, phase := 0, sid := 0, oid := none, shift := 0 }
    let s (k : Nat) : State := withGroup (withRing 4 (withPart base fun p => { p with ringWait := [1] })) fun g => { g with svc := some { r with phase := k } }
    let heads (k : Nat) : Bool := decide ((of (s k)).ringWait.head? = some 1 ∧ ((s k).grp? 1).map Group.svc = some (some { r with phase := k })
      ∧ ((of (s k)).window? (of (s k)).regs.ringWin).map Window.closing = some false)
    heads 0 = true ∧ heads 1 = true ∧ heads 2 = true ∧ r.q0 + r.lanes.length ≤ (memDWord (s 0).host 0).toNat + 2 ^ 4 + 1
    ∧ (s 1).winBusy 0 0 = false ∧ (((s 1).grp? 1).map fun g => (s 1).writesDone g g.seq) = some true ∧ (s 2).versionOut 1 0 = false
    ∧ (memDWord (s 0).host 0).toNat + 2 ^ 4 + 1 < 18 + r.lanes.length := by decide +kernel

/-- One packet, of the probe's grid with a handler table. -/
def packet (w : Nat) (loc : PLoc) : Packet := { (default : Packet) with pid := 40, part := 0, grid := 2, gid := 1, orig := BitVec.ofNat 32 w, word := BitVec.ofNat 32 w, loc := loc }
def carrying (p : Packet) : State := { base with packets := [p] }
/-- A hop that nothing forbids, and the checks of R34 as they fail: R34's statuses 2, 4, 5, 6 at a local crossbar and 3, 4 at a central one. -/
theorem witness_Hops : let status (w : Nat) (loc : PLoc) : Nat := base.hopStatus 0 (BitVec.ofNat 32 w) 0 loc
    status (1 + 8 * 2) (.localX 0 1) = 0 ∧ status (2 + 8 * 6) (.localX 0 6) = 2 ∧ status (1 + 8 * 7) (.localX 0 1) = 4 ∧ status (2 + 8 * 2) (.localX 0 1) = 5
    ∧ status (1 + 8 * 2 + 2 ^ 27) (.localX 0 1) = 6 ∧ status (1 + 8 * 0) (.central 0 1) = 4
    ∧ (packet 1 (.localX 0 1)).first (carrying (packet 1 (.localX 0 1))) = true
    ∧ (carrying (packet 1 (.splitter 0 0))).packets.find? (fun q => decide (q.pid = 40)) = some (packet 1 (.splitter 0 0)) := by decide +kernel
theorem witness_Arrival : let p := packet 1 (.splitter 0 0)
    let s := carrying p
    ((s.grid? 2).map Grid.ended) = some false ∧ ((s.grid? 2).map Grid.kill) = some none ∧ p.orig.getLsbD 24 = false ∧ (s.core! 0).bufReq.length < 64
    ∧ (packet (2 ^ 24 + 1) (.splitter 0 0)).orig.getLsbD 24 = true ∧ (s.core! 0).bufRep.length < 64 ∧ s.grid? 99 = none := by decide +kernel
/-- A request and a reply in their buffers, with room for a handler group of 24 slots. -/
theorem witness_HandlerGroups : let p := packet 1 (.splitter 0 0)
    let s : State := withCore base fun k => { k with bufReq := [p], bufRep := [p] }
    (s.core! 0).bufReq = [p] ∧ (s.core! 0).bufRep = [p] ∧ s.slotsUsed 0 < 48 ∧ s.findStore 0 (roundUp (128 * 24) 1024) 39936 = some 39936
    ∧ (∀ x ∈ s.groups, ¬(x.core = 0 ∧ x.kind = .reply)) ∧ ((s.grid? p.grid).map fun g => max g.card.lslots 24 ≤ 240) = some True := by
  refine ⟨by decide +kernel, by decide +kernel, by decide +kernel, by decide +kernel, by decide +kernel, ?_⟩
  exact congrArg some (eq_true (by decide +kernel))
/-- A reply on its way, one that has come back, a request behind another of the same route; and a packet of another link. -/
theorem witness_Replies : let p := packet 1 (.localX 0 1)
    let r : Packet := { p with fault := some (4, 0) }
    let home : Packet := { r with loc := .splitter 0 0 }
    let two : State := { base with packets := [{ p with pid := 39 }, p] }
    r.first (carrying r) = true ∧ home.fault = some (4, 0) ∧ p.first two = false ∧ (packet 1 .complexEnd).fault = none
    ∧ (carrying (packet 1 (.central 1 6))).packets.map Packet.loc = [.central 1 6] := by decide +kernel
theorem witness_LinkFaults : base.linkHealth 0 1 = 1 ∧ base.dev.links.length = 16 := by decide +kernel

/-- A write of one byte at `a` on its way; its group has read what it may. -/
def writing (a : Nat) : Write :=
  { (default : Write) with wid := 50, part := 0, gid := 1, core := 0, seq := 1, oid := 3, kind := .store, addr := a, bytes := [(a, 7)], pledge := 8 }
def inFlight (a : Nat) : State := { base with writes := [writing a] }
/-- Accepted, held back by an earlier write in the order, held for a page that is not there, and 0x11 for a page that may not be written. -/
theorem witness_Writes : let rel : Write := { writing 65600 with rel := true, scope := 3 }
    let held : State := { base with writes := [{ writing 65600 with wid := 49, seq := 0 }, rel] }
    let fault (s : State) (a : Nat) : Option (Option (BitVec 8)) := s.writeFault (writing a)
    let fixed : State := { pages fun q => { q with w := false } with writes := [writing 65600] }
    (inFlight 65600).mayPerform (writing 65600) = true ∧ held.mayPerform rel = false ∧ fault (inFlight 65600) 65600 = none ∧ fault (inFlight 131072) 131072 = some (some 0x10)
    ∧ fault fixed 65600 = some (some 0x11) ∧ (inFlight 65600).writeLost (writing 65600) = false ∧ ((inFlight 131072).grp? 1).map (fun g => g.mm.fault) = some none := by
  decide +kernel
/-- A release of the cluster's scope that waits for its own earlier store, and may be performed early; a protection fault with nothing held, and
behind a store held for replay; and the first write of its page that is on its way. -/
theorem witness_EarlyAndProtection : let rel : Write := { writing 65664 with rel := true, scope := 2, seq := 2 }
    let held : State := { withGroup base (fun g => { g with seq := 3 }) with writes := [{ writing 65600 with wid := 49 }, rel] }
    let fixed (s : State) : State := { (s.updPage 0 1 fun q => { q with w := false }) with writes := [writing 65600] }
    let behind (s : State) : State := withGroup s fun g => { g with mm := { g.mm with replay := [writing 131072] } }
    held.mayPerform rel = false ∧ held.mayEarly rel = true ∧ held.writeLost rel = false ∧ held.writeFault rel = none
    ∧ (fixed base).mayPerform (writing 65600) = true ∧ (fixed base).writeFault (writing 65600) = some (some 0x11)
    ∧ (fixed (behind base)).mayPerform (writing 65600) = true ∧ (fixed (behind base)).writeFault (writing 65600) = some (some 0x11)
    ∧ (behind base).mayPerform (writing 131136) = true ∧ (behind base).writeFault (writing 131136) ≠ none := by decide +kernel
theorem witness_Performs : homeDie (of base) 65600 < base.dev.dies.length ∧ homeDie (of base) 65600 < (of base).views.length
    ∧ ((of base).views.getD (homeDie (of base) 65600) View.empty).wf = true ∧ base.part? (of base).id = some (of base) ∧ ([(65600, (1 : Byte)), (65601, 2)].map Prod.fst).Nodup := by
  decide +kernel
/-- Applies in vector order, and the later one; a line that the die's AV covers, and the home's own die. -/
theorem witness_Applies : let a (n : Nat) : Apply := { (default : Apply) with die := 1, stamp := ⟨n, 0, 0, 0⟩ }
    let s : State := { base with applies := [a 2, a 1] }
    (∃ b ∈ s.applies, b.die = 1 ∧ b.stamp.lt (a 2).stamp = true) ∧ ¬(∃ b ∈ s.applies, b.die = 1 ∧ b.stamp.lt (a 1).stamp = true)
    ∧ (1, 512) ∉ (of base).replicas ∧ homeDie (of base) 65536 ≠ 1 ∧ (((of base).views.getD 0 View.empty).stampN 65536 128).le (base.die! 1).av = true
    ∧ base.reach (of base) (of base).regs.detour none 1 (homeDie (of base) 65536) = true := by decide +kernel
theorem witness_Capacity : let refill (g : Nat) (f : Int) : State := withPart (withCore base fun k => { k with refill := some g }) fun p => { p with free := f }
    let back (n : Nat) : State := { withCore base (fun k => { k with credit := n }) with refunds := [⟨0, 0, 1⟩, ⟨24, 0, 1⟩] }
    let hard (up : Nat) : State := { withPart base (fun p => { p with press := { p.press with hard := true }, regs := { p.regs with balloonTimeout := 1 } }) with dev := { base.dev with up := up } }
    ((refill 256 256).core! 0).refill = some 256 ∧ (256 : Int) ≤ (of (refill 256 256)).avail ∧ (of (refill 256 255)).avail < 256 ∧ (base.ownerOf (0 / 24)).isSome = true
    ∧ ((back 511).core! 0).credit + 1 = 2 * (of base).regs.chunk ∧ 2 * (of base).regs.chunk < ((back 512).core! 0).credit + 1 ∧ 24 / 24 ∉ (of base).quads
    ∧ (of (hard 1000)).press.since + 1000 * (of (hard 1000)).regs.balloonTimeout = 1000 ∧ (of (hard 999)).press.hard = true := by decide +kernel
/-- Pledges on a coded page, a page already dirty, and a raw page. -/
theorem witness_Pledge : let d : State := pages fun q => { q with dirty := [(0, 8)] }
    let r : State := pages fun q => { q with cls := 1 }
    (base.page? 0 (128 / 128)).map (fun q => (q.vpn, q.cls, q.dirty, q.hw.isNone, q.count 0)) = some (1, 0, [], true, 0)
    ∧ (d.page? 0 1).map (fun q => q.dirty) = some [(0, 8)] ∧ (r.page? 0 1).map Page.cls = some 1 := by decide +kernel
/-- A dirty mem-block of a page whose table is clean or not, and of a raw page; a stack that is short, with and without a page to relay. -/
theorem witness_PagesInDram : let dirty (f : Page → Page) : State := pages fun q => f { q with dirty := [(5, 8)] }
    let coded : State := dirty fun q => { q with cl := false, extent := 0, cap := 16, hwm := 4 }
    let full : State := dirty fun q => { q with cl := false, extent := 0, cap := 4, hwm := 4 }
    ((dirty id).page? 0 1).map (fun q => (q.cls, q.cl, q.dirty.map Prod.fst)) = some (0, true, [5]) ∧ (dirty id).place 0 16 0 (65536, 0) = some 0
    ∧ (coded.page? 0 1).map (fun q => (q.cl, decide (q.hwm + 8 ≤ q.cap))) = some (false, true) ∧ (full.page? 0 1).map (fun q => decide (q.hwm + 1 ≤ q.cap)) = some false
    ∧ ((dirty fun q => { q with cls := 1 }).page? 0 1).map Page.cls = some 1 ∧ 5859375 ≤ base.physFree 0 := by decide +kernel
theorem witness_MemoryErrors : let q0 (f : Quad → Quad) : State := base.updQuad 0 f
    (0 : Nat) ∉ (base.quad! 0).retired ∧ (base.quad! 0).decTed = false ∧ (base.ownerOf 0).isSome = true ∧ ¬((0 : BitVec 8).toNat < base.dev.fuses.threshold.toNat)
    ∧ ((q0 fun k => { k with decTed := true, railOk := some 0 }).quad! 0).railOk = some 0 ∧ base.dev.fuses.threshold.toNat + 2 ≤ (2 : BitVec 8).toNat
    ∧ ¬(base.dev.fuses.threshold.toNat + 2 ≤ (1 : BitVec 8).toNat) ∧ (match base.xlat 0 (32 * 2048) with | .mem _ => true | _ => false) = true := by decide +kernel

/-- A sector of a page whose mem-block is dirty, of one that has cells in DRAM, of a raw one, and of one with nothing there. -/
theorem witness_Stored : let stored (f : Page → Page) : Option Bool := ((pages f).page? 0 1).map fun pg =>
      (pg.dirty.any fun e => decide (e.1 = 2048 / 16 % 128)) || (!pg.cl && (decide (pg.cls ≠ 0) || decide (0 < pg.count (2048 / 16 % 128))))
    stored id = some false ∧ stored (fun q => { q with dirty := [(0, 8)] }) = some true ∧ stored (fun q => { q with cl := false }) = some false
    ∧ stored (fun q => { q with cl := false, table := [(0, 3, 4)] }) = some true ∧ stored (fun q => { q with cl := false, cls := 1 }) = some true := by decide +kernel
theorem witness_PartnerProtocol : let j := journal (.live 0) 1 none base
    let bind : State := { j with dev := { j.dev with busy := some ⟨head, .replayBind { (default : BindParams) with jfirst := 0, jn := 1 }⟩ } }
    (of j).jr.partner = some 0 ∧ (of base).jr.partner = none ∧ (7 : Nat) ∈ (of (jobs7 0)).jobs ∧ (7 : Nat) ∉ (of base).jobs
    ∧ (of j).jr.bindDone = [] ∧ bind.dev.busy.isSome = true ∧ isEnd ⟨0, { (default : JRec) with type := 0 }⟩ ∧ ¬isEnd token
    ∧ (∃ t ∈ (of j).jr.streams, t.durable < t.last) ∧ State.reset.groups = [] ∧ (of j).jr.p.npart = 1 := by
  unfold isEnd; decide +kernel

/-- The only group has one outstanding operation. -/
def op (k : OpKind) : Op :=
  { (default : Op) with oid := 8, seq := 1, sid := 0, flag := 0, mask := 1, smask := 1, dest := ⟨0, 8, 0⟩, kind := k }
def busy (k : OpKind) : State := withGroup base fun g => { g with ops := [op k], seq := 2 }
def theGroup (s : State) : Group := (s.grp? 1).getD default
theorem witness_Outstanding (k : OpKind) : Outstanding (busy k) 1 8 (theGroup (busy k)) (op k) := by
  constructor <;> rfl
/-- Operations with nothing before them; an acquire whose die does not cover it; a load of a mapped, clean page. -/
theorem witness_Completions : let far (s : State) : State := withGroup s fun g => { g with mm := { g.mm with gc := ⟨0, 1, 0, 0⟩ } }
    let at_ := busy (.atomic [] [(0, [1])] true false true)
    let ld := busy (.load [(0, 65600)] 4 false false 0 false)
    (far at_).covered (theGroup (far at_)) = false ∧ at_.covered (theGroup at_) = true ∧ (theGroup at_).saved = none
    ∧ (∀ q ∈ (theGroup at_).ops, ¬(q.seq < 1)) ∧ (match ld.xlat 0 65600 with | .mem _ => true | _ => false) = true
    ∧ ld.pairBlock (theGroup ld) = none ∧ (of ld).poisoned 65600 4 = false ∧ ld.laneLost (theGroup ld) (op (.load [(0, 65600)] 4 false false 0 false)) .die 0 65600 = false
    ∧ ld.laneReady (theGroup ld) (op (.load [(0, 65600)] 4 false false 0 false)) false false 0 .die 65600 4 = true := by decide +kernel
theorem witness_Completions' : let em : List EmitLane := [{ (default : EmitLane) with lane := 0, status := some 0 }]
    let pub : State := busy (.publish [(0, 3)] [(3, 9)] false)
    let jt (ls : List TruncLane) : State := withSplit base fun p => { p with wait := .jtrunc ls ⟨0, 8, 0⟩ }
    (∀ e ∈ em, e.status ≠ none) ∧ (assoc 3 [(3, (9 : DWord))]).isSome = true ∧ pub.versionOut 1 8 = false
    ∧ ((theGroup (jt [⟨0, 0, some 2⟩])).split? 0).map Split.wait = some (.jtrunc [⟨0, 0, some 2⟩] ⟨0, 8, 0⟩) ∧ base.twin (theGroup base) = none := by decide +kernel

/-- Operations that wait when their grid is killed; a load of a line that a die's own waits hold back. -/
theorem witness_KilledOps : let dead (k : OpKind) : State := (busy k).updGrid 2 fun g => { g with kill := some 0 }
    (dead (.jrnl [])).killed (theGroup (dead (.jrnl []))) = true ∧ (busy (.jrnl [])).killed (theGroup (busy (.jrnl []))) = false
    ∧ (theGroup (busy (.jrnl []))).ops.all (fun q => decide (¬q.seq < 1)) = true := by decide +kernel
/-- A node of each kind that may start now. -/
def oneNode (k : NKind) : State := { base with nodes := [{ (default : Node) with nid := 60, part := 0, kind := k }] }
theorem witness_NodeStart (k : NKind) : ∃ n, StartsNow (oneNode k) (of base) n ∧ n.kind = k :=
  ⟨{ (default : Node) with nid := 60, part := 0, kind := k }, ⟨rfl, rfl, rfl, rfl, rfl, rfl, rfl, fun h => nomatch h⟩, rfl⟩
theorem witness_NodeKinds : copyFarOk (of base) (copyD ([65536, 0, 131072, 0, 512, 512, 512, 1, 0, 0] : List Word)) = true
    ∧ (oneNode (.nbk 0 [])).nbkRefused (of base) 0 0 [0, 0, 32, 1, 0, 0] = false ∧ (oneNode (.nbk 0 [])).nbkRefused (of base) 0 0 [0, 0, 32, 2, 0, 0] = true := by decide +kernel
theorem witness_NodeEnd : let n : Node := { (default : Node) with nid := 60, part := 0, kind := .copy [], tag := 4, result := some 10 }
    let s : State := { base with nodes := [n] }
    s.node? 0 60 = some n ∧ (∀ j ∈ s.jobs, j.nid ≠ 60) ∧ s.unapplied 0 n.writers.contains (carried s 0 60) = false := by decide +kernel
/-- A copy node with an unmapped page, and with none; and a node whose producer left before, its regions clean. -/
theorem witness_MappedNodes : let n (va : Nat) : Node := { (default : Node) with nid := 60, part := 0, kind := .copy [], regions := [⟨3, va, 512⟩] }
    let mapped (va : Nat) : Bool := (n va).regions.all fun r => base.spanMapped (of base) r
    mapped 65536 = true ∧ mapped 131072 = false ∧ ({ n 65536 with late := true }).late = true ∧ base.unapplied 0 (fun _ => true) (n 65536).regions = false := by decide +kernel
/-- A grid with no blocks and no groups left. -/
def spentGrid (kill : Option Nat) : Grid := { (default : Grid) with id := 2, card := { (default : Card) with blocks := 1 }, next := 1, kill := kill }
def spent (kill : Option Nat) : State := { base with blocks := [], groups := [], jobs := [], writes := [], grids := [spentGrid kill] }
theorem witness_GridEnd (kill : Option Nat) : EndsNow (spent kill) (spentGrid kill) :=
  by
  refine ⟨rfl, rfl, Nat.le_refl 1, ?_, ?_, ?_, ?_, fun _ => rfl⟩ <;> exact fun _ h => absurd h List.not_mem_nil
/-- A slot that is due, its window with and without room, and its launch still live under each policy. -/
def due (policy : Nat) (live deferred abort : List (Nat × Nat)) : State := withPart base fun p => { p with
  tt := { p.tt with entries := [⟨0, policy, 65536⟩], run := some { (default : TTRun) with cycle := 10000 }, live := live, deferred := deferred, abort := abort } }
theorem witness_Due (policy : Nat) (live deferred abort : List (Nat × Nat)) :
    Due (due policy live deferred abort) (of (due policy live deferred abort)) { (default : TTRun) with cycle := 10000 } ⟨0, policy, 65536⟩ := ⟨rfl, rfl, rfl, Nat.le_refl 0⟩
theorem witness_TimeTableEvents : assoc 0 ([] : List (Nat × Nat)) = none ∧ assoc 0 [(0, 60)] = some 60 ∧ base.windowRoom 0 1 = true ∧ (manyNodes base 256).windowRoom 0 1 = false
    ∧ (of (due 0 [] [] [])).tt.stop = [] ∧ (of (due 0 [] [] [])).tt.rephase = none ∧ base.dev.tod < 10000 := by decide +kernel

/-! ## Witnesses: clauses, groups, frames and the machine as a whole -/

/-- The probe's split stands at the header of its clause. -/
def atHeader (header : Nat) : State := memory (withSplit base fun p => { p with pc := 65536, clause := none }) 65536 [header, 0]
theorem witness_AtBoundary : ∃ g p, AtBoundary (atHeader 0xA0000001) g p ∧ g.gid = 1 ∧ p.sid = 0 := by
  refine ⟨theGroup (atHeader 0xA0000001), ((theGroup (atHeader 0xA0000001)).split? 0).getD default, ?_, by decide +kernel, by decide +kernel⟩
  unfold AtBoundary
  decide +kernel
/-- MARK 0xA with LEN 1, WAIT on flag 0, MARK 9, LEN 0, and ACQ and REL on one flag. -/
theorem witness_ClauseStart : let word (h : Nat) : Bool := decide ((match (atHeader h).fetch (theGroup (atHeader h)) 65536 with | .word w => some w.toNat | _ => none) = some h)
    [0xA0000001, 0xA0000011, 0x90000001, 0xA0000000].all word = true ∧ HeaderOk 0xA0000001 ∧ HeaderOk 0xA0000011 ∧ ¬HeaderOk 0xA0000000
    ∧ waitsOn 0xA0000011 0 ∧ ¬waitsOn 0xA0000001 0 ∧ counts (theGroup (busy (.div []))) 0 = 1 ∧ counts (theGroup base) 0 = 0 ∧ (theGroup base).mm.jobs = []
    ∧ base.killed (theGroup base) = false ∧ (base.updGrid 2 fun g => { g with kill := some 0 }).killed (theGroup base) = true := by
  unfold HeaderOk waitsOn; decide +kernel
/-- A grid with a block to place, on the partition's 24 cores; and one that has placed all. -/
def toPlace (s : State) : State := s.updGrid 2 fun g => { g with next := 0 }
theorem witness_BlockPlace : let s := toPlace base
    let gr := (s.grid? 2).getD default
    gr.kill = none ∧ gr.next < gr.card.blocks ∧ s.restoreFirst (of s) gr = false ∧ (∀ h ∈ s.grids, h.id = 2) ∧ (s.firstRoom (of s) gr PlaceArgs.none none).isSome = true
    ∧ ((base.grid? 2).map fun g => decide (g.next < g.card.blocks)) = some false := by decide +kernel
/-- A grid of PRIO 3 whose block needs the room that the probe's group has, resident or parked; and that group evicted, its room free. -/
def rival (s : State) : State := { s with grids := s.grids ++ [{ ((base.grid? 2).getD default) with
  id := 9, order := 9, next := 0, card := { probeCard with prio := 3, place := 1, pincore := 0, lslots := 8, gslots := 2, scratch := 1440 } }] }
def parked : State := withGroup base fun g => { g with place := .parked { (default : Stop) with why := .svc } }
theorem witness_Evict : (rival base).evictions (of base) 0 = [(1, some (9, 0))] ∧ (rival parked).evictions (of base) 0 = [(1, some (9, 0))] ∧ base.evictions (of base) 0 = [] := by decide +kernel
theorem witness_Restore : let gone := (parked.giveUp 1).comeBack 1
    ((gone.nextRestore 0).map Group.gid) = some 1 ∧ ((gone.grp? 1).map fun g => (gone.restore g).isSome) = some true ∧ (base.nextRestore 0).isNone = true := by decide +kernel
/-- An evicted group that stands back for a block of higher PRIO. -/
theorem witness_StandsBack : let gone := (parked.giveUp 1).comeBack 1
    gone.standsBack (of gone) (theGroup gone) = false ∧ ((rival ((parked.giveUp 1).comeBack 1)).groups.map Group.gid) = [1] := by decide +kernel
theorem witness_Watchdog : let s : State := { withPart base (fun p => { p with regs := { p.regs with watchdog := 1 } }) with dev := { base.dev with up := 1000 } }
    (of s).regs.watchdog ≠ 0 ∧ (s.grid? 2).map (fun g => (g.kill, g.ended, g.lastRet + 1000 * (of s).regs.watchdog)) = some (none, false, 1000)
    ∧ (∃ x ∈ s.groups, x.grid = 2 ∧ x.place = .resident) ∧ base.dev.up < 1000 * (of base).regs.watchdog := by decide +kernel
theorem witness_CalleeDrain : let it : CalleeItem := { (default : CalleeItem) with gid := 1 }
    let s : State := withCore base fun k => { k with callee := [⟨65600, [it]⟩] }
    (s.core! 0).callee = [⟨65600, [it]⟩] ∧ ((s.grp? 1).map Group.grid) = some 2 ∧ s.slotsUsed 0 < 48 ∧ ((s.grid? 2).bind fun g => s.findStore 0 (laneBytes g.card) 39936) = some 39936 := by
  decide +kernel

theorem witness_RegisterFrame : let f := { z with mod := 2, dst := 8, sa := 4, sb := 6 }
    issue [.add f, .abs { f with sb := 0 }, .fshl { f with mod := 6, sc := 10 }, .madw { f with sc := 10 }, .setp { f with mod := 0x22, dst := 2 }, .plop { f with mod := 0x30, dst := 3, sa := 2, sb := 1 }, .nop z,
      .add { f with dst := 0x102 }] = true := by decide +kernel
/-- A store that can be sent, to partition memory and to the group's own frame. -/
theorem witness_StoreFrame : let f := { z with mod := 2, sa := 4, sb := 6 }
    let i : Instr := .st f
    let s := credit 8 (lanes 1 (probe i))
    let can (x : Ctx) : Bool := decide (accessTrap x 4 ((writeUnits x (dataCells f x)).map fun u => (u.1, u.2.map (·.1))) x.addr = none ∧ (x.s.core! 0).waiters = []
      ∧ 8 * (memBlocks (writeUnits x (dataCells f x))).length ≤ (x.s.core! 0).credit) && decide (x.g.core < x.s.cores.length)
    let own (x : Ctx) : Bool := x.units.any fun l => (dataCells f x l).any fun d => x.s.ownFrame x.g (x.s.locate x.part x.g.core d.1)
    meets i (pair0 s 4 65600) (fun x => can x && !(own x)) = true ∧ meets i (pair0 s 4 (coreWin + 4096)) (fun x => can x && own x) = true := by decide +kernel

theorem witness_AtWord : ∃ g p c, (loaded (.nop z)).agenda = .issue g.gid p.sid :: [] ∧ AtWord (loaded (.nop z)) g p ∧ p.clause = some c := by
  refine ⟨theGroup (loaded (.nop z)), ((theGroup (loaded (.nop z))).split? 0).getD default, ⟨65536, probeHeader⟩, by decide +kernel, ?_, by decide +kernel⟩
  refine ⟨by decide +kernel, by decide +kernel, by decide +kernel, by decide +kernel, by decide +kernel, ?_, by decide +kernel⟩
  rw [show (theGroup (loaded (.nop z))).stop = none by decide +kernel]
  exact fun st h => nomatch h
/-- A word that decodes, one that does not, and the bytes of the first as its home holds them. -/
theorem witness_StepRunsDecoded : let s := loaded (.nop z)
    let bytes : List Byte := (List.range 8).map fun i => ((of s).views.getD (homeDie (of s) 65544) View.empty).read (65544 + i)
    (match s.fetch (theGroup s) 65544 with | .word w => w == 0x1C00 | _ => false) = true ∧ decodeWord 0x1C00 = .ok (.nop z) ∧ decodeWord 0x1C25 = .error (.opcode 0x25)
    ∧ decodeBytes bytes = .ok (.nop z) ∧ (s.page? 0 (65544 / 65536)).map (fun q => q.hw.isNone) = some true ∧ (of s).poisoned 65544 8 = false ∧ (of s).replicas = [] := by
  refine ⟨by decide +kernel, rfl, rfl, ?_, by decide +kernel, by decide +kernel, by decide +kernel⟩
  rw [show (List.range 8).map (fun i => ((of (loaded (.nop z))).views.getD (homeDie (of (loaded (.nop z))) 65544) View.empty).read (65544 + i))
    = [0x00, 0x1C, 0, 0, 0, 0, 0, 0] by decide +kernel]
  rfl
/-- Event steps, a host visit and a split at a header. -/
theorem witness_StepRunsEvents : info (.ptpPortLost) = none ∧ isCommand .ptpPortLost = false ∧ isWrsrPart .ptpPortLost = false ∧ base.dev.running = true
    ∧ ((atHeader 0xA0000001).updGrp 1 id).groups.length = 1 := by decide +kernel
/-- Each check of R212 fails in some state: an opcode apart, the modifiers, an operand, a field that is not used, a depth, a frame that is not live. -/
theorem witness_EncodingFaults : let f := { z with mod := 2, dst := 8, sa := 4, sb := 6 }
    faultOf (.add { f with mod := 6 }) (probe (.add f)) = some 0x02 ∧ faultOf (.add { f with mod := 4, sa := 5 }) (probe (.add f)) = some 0x03
    ∧ faultOf (.add { f with dst := 0x208 }) (withGroup (probe (.add f)) fun g => { g with fr := { g.fr with d2 := 5 } }) = some 0x22 := by decide +kernel
theorem witness_TrapEntry : let g := theGroup base
    let p := (g.split? 0).getD default
    let h : State := base.updGrid 2 fun x => { x with card := { x.card with handler := 65600 } }
    base.grp? 1 = some g ∧ g.split? 0 = some p ∧ g.place = .resident ∧ g.saved.isNone = true ∧ g.mm.fault = none ∧ g.ops = []
    ∧ (∀ q ∈ g.splits, q.sid = 0 ∧ q.wait = .none) ∧ h.handlerOf g = 65600 ∧ base.handlerOf g = 0 ∧ g.trap.inH = false
    ∧ { g.trap with inH := true }.inH = true := by decide +kernel
/-- Another split's trap is being decided; and a group whose grid has been killed stands at a word. -/
theorem witness_Stopped : let st : Stop := { (default : Stop) with why := .trap, sid := 5 }
    let other : State := withGroup base fun g => { g with stop := some st }
    let dead : State := base.updGrid 2 fun g => { g with kill := some 0 }
    (theGroup other).stop = some st ∧ st.sid ≠ 0 ∧ st.why ≠ .evict ∧ st.why ≠ .page ∧ dead.killed (theGroup dead) = true ∧ (theGroup dead).mayIssue 0 = true
    ∧ (((theGroup dead).split? 0).bind Split.clause).isSome = true := by decide +kernel
/-- A word is fetched, and read as the instruction that it is. -/
theorem witness_FetchFill : let s := loaded (.nop z)
    (match (s.fetchFill (theGroup s) 65544).fetch (theGroup s) 65544 with | .word w => decide (ofWord w = some (.nop z)) | _ => false) = true := by decide +kernel
theorem witness_Form : State.reset.memWf = true ∧ base.memWf = true := by decide +kernel
theorem witness_RoundTrip : (Instr.nop z).wf = true ∧ encode (.nop z) = some 0x1C00 ∧ decodeWord 0x1C00 = .ok (.nop z) := ⟨by decide, by decide, rfl⟩
theorem witness_EncodeOfDecode : (0x7FC00000 : Nat) < 2 ^ f32.width ∧ 0xFFFF < 2 ^ bf16.width ∧ 0 < 2 ^ f16.width := by decide
/-- A special function's inputs at its bounds: NaN, a negative, 128 and −151, 10. -/
theorem witness_SpecialBounds : f32.decode 0x7FC00000 = .nan ∧ f32.decode 0xBF800000 = .fin true (2 ^ 23) (-23)
    ∧ f32.decode 0x43000000 = .fin false (2 ^ 23) (-16) ∧ dyLe 128 0 (2 ^ 23) (-16) = true ∧ dyLe 10 0 (10 * 2 ^ 20) (-20) = true := by decide +kernel

/-! ## Witnesses: further clauses of the statements -/

/-- 3 as an argument of `frcp` and `frsq` with the units of their results; and 2^-128. -/
theorem witness_Reciprocals : f32.decode 0x40400000 = .fin false (3 * 2 ^ 22) (-22) ∧ 2 ^ (-128 : Int) < ratOf false (3 * 2 ^ 22) (-22)
    ∧ IsUlp (-25) (1 / ratOf false (3 * 2 ^ 22) (-22)) ∧ 2 ^ (2 * -24 + 46 : Int) * ratOf false (3 * 2 ^ 22) (-22) ≤ 1 ∧ 1 < 2 ^ (2 * -24 + 48 : Int) * ratOf false (3 * 2 ^ 22) (-22)
    ∧ f32.decode 0x00200000 = .fin false (2 ^ 21) (-149) ∧ ratOf false (2 ^ 21) (-149) ≤ 2 ^ (-128 : Int) := by
  unfold IsUlp ratOf; decide +kernel
/-- An argument of 1 for the functions that have a bound, each with its approximation; one above 2^20; and 3 and 8, where `fex2` and `flg2` are exact. -/
theorem witness_Bounded : (∀ fn ∈ [3, 4, 5, 6, 7], Bounded fn false (2 ^ 23) (-23)) ∧ f32.decode 0x3F800000 = .fin false (2 ^ 23) (-23)
    ∧ (∀ fn ∈ [3, 4, 5, 6, 7], (match specApprox fn false (2 ^ 23) (-23) with | .fin _ _ _ => true | _ => false) = true)
    ∧ IsUlp (-24) (match specApprox 5 false (2 ^ 23) (-23) with | .fin n m e => ratOf n m e | _ => 0)
    ∧ f32.decode 0x4A000000 = .fin false (2 ^ 23) (-2) ∧ 2 ^ (20 : Int) < ratOf false (2 ^ 23) (-2)
    ∧ ratOf false (3 * 2 ^ 22) (-22) = (3 : Int) ∧ f32.decode 0x41000000 = .fin false (2 ^ 23) (-20) ∧ ratOf false (2 ^ 23) (-20) = 2 ^ (3 : Int) := by
  unfold Bounded IsUlp ratOf; decide +kernel

/-- A floating-point sum over the tree of R259, with lanes missing. -/
theorem witness_TreeSum : let i : Instr := .red { z with mod := 8, dst := 8, sa := 4 }
    issue [i] = true ∧ meets i (slots (lanes 3 (probe i)) 4 [0x3F800000, 0x40000000, 0x40400000]) (fun x => decide (treeSum x 5 0 = some 0x40C00000)) = true := by decide +kernel
/-- The core's instructions that wait for credit: this split's own first, or another's; with a refill on its way or none. -/
theorem witness_CreditTurns : let f := { z with mod := 2, dst := 8, sa := 4, sb := 6 }
    let w (gid : Nat) : Waiter := { gid := gid, sid := 0, need := 8, cres := false, tlm := 1, taddr := 0, denied := false, asked := false, own := false }
    let s (i : Instr) (n : Nat) (ws : List Nat) (r : Option Nat) : State := withCore (lanes 1 (probe i)) fun k => { k with credit := n, waiters := ws.map w, refill := r }
    let turn (n : Nat) (x : Ctx) : Bool := foremost x (x.s.core! x.g.core) && decide (n ≤ (x.s.core! x.g.core).credit)
    [Instr.st f, .atom { f with mod := 0 }, .blkz { z with sa := 4, sb := 6 }].all (fun i => meets i (s i 8 [1, 5] none) (turn 8)
      && meets i (s i 8 [5, 1] none) (fun x => !(turn 8 x)) && meets i (s i 7 [1] none) (fun x => !(turn 8 x)) && meets i (s i 7 [] (some 256)) (fun x => !(turn 8 x))) = true := by
  decide +kernel
/-- A store to the group's own frame behind a fence that went early: with nothing held for replay, and with a store held. -/
theorem witness_BehindFence : let i : Instr := .st { z with mod := 2, dst := 8, sa := 4, sb := 6 }
    let e : Early := ⟨0, 1, 0, 2, [], [50], VClock.zero, some 5⟩
    let s : State := { storing (pair0 (lanes 1 (probe i)) 4 (coreWin + 4096)) with early := [e] }
    let held : State := withGroup s fun g => { g with mm := { g.mm with replay := [{ (default : Write) with wid := 51, seq := 1 }] } }
    let own (x : Ctx) : Bool := x.s.ownFrame x.g (x.s.locate x.part x.g.core (x.addr 0)) && !(x.g.acqBefore x.g.seq) && x.s.early.any fun e => x.s.earlyOpen e && e.after.isSome
    meets i s (fun x => own x && decide (x.g.mm.replay = [])) = true ∧ meets i held (fun x => own x && decide (x.g.mm.replay ≠ [])) = true := by decide +kernel
/-- Release fences of `.clu`, without an acquire and with one of `.clu` and of `.blk`, behind a store in flight: what is early holds, and the bit is free. -/
theorem witness_EarlyFences : let i (n : Nat) : Instr := .fence { z with mod := BitVec.ofNat 8 n }
    let early (x : Ctx) : Bool := !(x.s.releaseReady x.g x.f.scope x.g.seq) && x.g.readsDone x.g.seq && x.s.atomsDone x.g x.g.seq && x.g.mm.gc.le (x.s.die! (dieOf x.g.core)).av
      && x.f.mod.getLsbD 1 && decide (x.f.mod.toNat / 4 % 8 < 4)
    [2 + 4 * 2, 3 + 4 * 2, 3 + 4 * 1].all (fun n => meets (i n) (storing (probe (i n))) early) = true
    ∧ meets (i 3) (acquiring (probe (i 3))) (fun x => !(x.g.readsDone x.g.seq)) = true := by decide +kernel
/-- `cln` and `inv` while an earlier acquire of the group is open. -/
theorem witness_HeldCaches : let f := { z with sa := 4, sb := 6 }
    [Instr.cln f, .inv f, .invAll { z with mod := 1 }].all (fun i => meets i (acquiring (probe i)) fun x => x.g.acqBefore x.g.seq) = true := by decide +kernel
/-- Addresses in the core window, at the start of the cluster window, and elsewhere. -/
theorem witness_AtomicScopes : scopeAt coreWin = 1 ∧ scopeAt clusterWin = 2 ∧ scopeAt 65536 = 4 ∧ scopeAt scratchWin = 4 := by decide +kernel
/-- `cres` after a denial of its own, when another's was denied, and behind another. -/
theorem witness_CreditReservation' : let i : Instr := .cres { z with i := true, dst := 8, sb := 16 }
    let w (gid : Nat) (denied : Bool) : Waiter := { gid := gid, sid := 0, need := 16, cres := true, tlm := 1, taddr := 0, denied := denied, asked := true, own := denied }
    let s (ws : List Waiter) : State := withCore (probe i) fun k => { k with credit := 16, waiters := ws }
    let denied (x : Ctx) : Bool := (x.s.core! 0).waiters.any fun w => mine x w && w.denied
    let first (x : Ctx) : Bool := foremost x (x.s.core! 0)
    meets i (s [w 1 true]) denied = true ∧ meets i (s [w 1 false, w 5 true]) (fun x => !(denied x) && first x) = true
    ∧ meets i (s [w 5 true, w 1 false]) (fun x => !(denied x) && !(first x)) = true := by decide +kernel

/-- A `callx` to one target with lanes that do not take part, or that does not fit, and to several without room for an item; a `ret` of a drained
group, and one that pops a misaligned address; `exit` with a memory fault pending, and of a drained group outside its calls and below one. -/
theorem witness_CallsAndExits : let c : Instr := .callx { z with mod := 29, sa := 4 }
    let h : Instr := .callx { z with mod := 1, sa := 4, pn := 0 }
    let r : Instr := .ret z
    let e : Instr := .exit z
    let target (x : Ctx) (l : Nat) : Nat := (x.rdA 2 l).toNat
    let one (x : Ctx) : Bool := x.lanes.all fun l => decide (target x l % 8 = 0) && decide (target x l = target x (lowest x.act))
    let shifted (n : Nat) (s : State) : State := withGroup s fun g => { g with fr := { g.fr with shift := n } }
    let rets (a : Nat) (s : State) : State := withGroup s fun g => { g with rets := [{ sid := 0, addr := a, shift := 8, marker := false }] }
    meets h (halfP0 (probe h)) (fun x => one x && decide (x.rest ≠ 0)) = true
    ∧ meets c (shifted 8 (probe c)) (fun x => one x && decide (x.rest = 0 ∧ x.g.fr.lslots ≤ x.g.fr.shift + 8 * 29)) = true
    ∧ meets c (pair0 (probe c) 4 8) (fun x => (x.lanes.all fun l => decide (target x l % 8 = 0)) && !(one x) && decide (x.g.fr.lslots < x.g.fr.shift + 8 * 29 + 16)) = true
    ∧ meets r (kindIs .drained (probe r)) (fun x => decide (x.rest = 0 ∧ x.g.ownRet x.p.sid = none ∧ x.g.kind = .drained)) = true
    ∧ meets r (rets 65537 (probe r)) (fun x => decide (x.rest = 0 ∧ (x.g.ownRet x.p.sid).map RetEntry.addr = some 65537)) = true
    ∧ meets e (withGroup (probe e) fun g => { g with mm := { g.mm with fault := some (0x10, 1, 65536) } }) (fun x => decide (x.g.mm.fault ≠ none)) = true
    ∧ meets e (kindIs .drained (probe e)) (fun x => decide (x.g.mm.fault = none ∧ x.g.kind = .drained ∧ x.g.ownRet x.p.sid = none) && x.g.allClear) = true
    ∧ meets e (kindIs .drained (rets 65536 (probe e))) (fun x => decide (x.g.mm.fault = none ∧ x.g.kind = .drained ∧ x.g.ownRet x.p.sid ≠ none) && x.g.allClear) = true := by
  decide +kernel
/-- A drained group with an item of a caller that waits for it. -/
theorem witness_ItemReturns : let i : CalleeItem := { (default : CalleeItem) with gid := 2, sid := 0, lane := 3 }
    let s : State := withGroup base fun g => { g with kind := .drained, items := [(0, i)] }
    let t : State := { s with groups := s.groups ++ [{ theGroup base with gid := 2, splits := (theGroup base).splits.map fun p => { p with wait := .callx [] [3] } }] }
    t.grp? 1 = some (theGroup t) ∧ assoc 0 (theGroup t).items = some i ∧ ((t.grp? 2).bind fun c => (c.split? 0).map Split.wait) = some (.callx [] [3]) := by decide +kernel
/-- A member of a team arrives; a group waits asleep for a read that no verdict holds, or that one does; and a group with a twin in a paired block. -/
theorem witness_TeamsAndSleep : let t : Instr := .tbar { z with mod := 2 }
    let i : Instr := .sleep { z with dst := 8 }
    let p : Instr := .wakePark { z with sa := 4, sb := 6 }
    let told : State := slots (slots (lanes 1 (probe p)) 4 [1]) 6 [1]
    let twin : State := { told with groups := told.groups ++ [{ theGroup told with gid := 2, park := 2, copy := 1 }] }
    meets t (withCore (probe t) fun k => { k with teams := [{ grid := 2, t := 2, members := [5, 1], last := 5, urgent := none }] })
      (fun x => decide (x.gid ∈ (x.s.core! x.g.core).members x.g.grid 2)) = true
    ∧ meets i (acquiring (withGroup (probe i) fun g => { g with wake := 2 })) (fun x => decide (x.g.wake ≠ 0) && !(x.g.readsDone x.g.seq)) = true
    ∧ meets p twin (fun x => x.s.groups.any fun u => decide (u.gid = 2 ∧ u.kind = .normal ∧ x.g.kind = .normal ∧ u.grid = x.g.grid ∧ u.bidx = x.g.bidx ∧ u.gidx = x.g.gidx)) = true := by
  decide +kernel
/-- No link of the device is up, and the group stands on die 1. -/
def away (s : State) : State := { withGroup s (fun g => { g with core := 96 }) with dev := { s.dev with links := List.replicate 16 0 } }
theorem witness_ReelAway : let r : Instr := .jrd { z with dst := 8, sa := 4 }
    (away base).reelAway (theGroup (away base)) = true ∧ base.reelAway (theGroup base) = false
    ∧ meets r (replaying (journal (.live 0) 2 (some 1) (lanes 1 (probe r)))) (fun x => !(x.s.reelAway x.g)) = true
    ∧ meets r (away (replaying (journal (.live 0) 2 (some 1) (lanes 1 (probe r))))) (fun x => x.s.reelAway x.g) = true := by decide +kernel

/-- The stack of quadrant 0 holds a page that fills it. -/
def stuffed : State := pages fun q => { q with cap := stackCells }
/-- A raw page and a near-bank one find free cells; a full stack has none; and one has a retired bank. -/
theorem witness_RawPages : FreeCells base 0 0 1024 ∧ (∀ b, ¬FreeCells stuffed 0 b 1024)
    ∧ ((base.updQuad 0 fun q => { q with retired := [0] }).quad! 0).retired ≠ [] ∧ homeQuad (of base) 131072 = 0 := by
  refine ⟨⟨by decide, by decide, fun g hg _ _ hc => ?_, ?_⟩, fun b h => ?_, by decide +kernel, by decide +kernel⟩
  · exact absurd ((show ∀ g ∈ base.pages, g.cap = 0 by decide +kernel) g hg) hc
  · rw [show (base.quad! 0).retired = [] by decide +kernel]; exact fun _ _ => List.not_mem_nil
  · obtain ⟨_, hb, hp, _⟩ := h
    have e : (stuffed.pages.map fun g => (g.part, g.vpn, g.hw.isNone, g.extent, g.cap)) = [(0, 1, true, 0, stackCells)] := by decide +kernel
    obtain ⟨g, hg, hv⟩ := List.map_eq_singleton_iff.mp e
    simp only [Prod.mk.injEq] at hv
    obtain ⟨h1, h2, h3, h4, h5⟩ := hv
    have := hp g (by simp [hg]) (by simp [h1]) (Option.isNone_iff_eq_none.mp h3) (by rw [h5]; decide)
      ⟨of stuffed, h1 ▸ by decide +kernel, h2 ▸ by decide +kernel⟩
    omega
/-- A group whose faults none of its pages resolves, and one of them that is mapped. -/
theorem witness_FaultsAgain : let s (v : Nat) : State := withGroup base fun g => { g with mm := { g.mm with pages := [v], fault := some (0x10, 1, 65536) } }
    (s 2).faultsAgain (theGroup (s 2)) = true ∧ (s 1).faultsAgain (theGroup (s 1)) = false ∧ (events 256 base).evRoom 0 1 = false := by decide +kernel
/-- An average that has been below 3,800 W for 1 ms, and for 1 ns less; and a write whose home no path reaches. -/
theorem witness_PowerAndPaths : let s (up : Nat) : State := { base with dev := { base.dev with up := up, coolAt := some 5 } }
    (s 1000005).dev.coolAt = some 5 ∧ 5 + 1000000 ≤ (s 1000005).dev.up ∧ ¬(5 + 1000000 ≤ (s 1000004).dev.up)
    ∧ (away base).writeLost { writing 65600 with core := 96 } = true ∧ (inFlight 65600).writeLost (writing 65600) = false := by decide +kernel
/-- A mem-block of 8 cells whose page is past its capacity, with and without room for its relayout, and one that makes the page raw. -/
theorem witness_PageGrowth : let s (f : Page → Page) (s : State) : State := withPart (s.updPage 0 1 fun q => f { q with dirty := [(5, 8)], cl := false }) fun p => { p with poison := [2048 + 16 * 5] }
    let small (q : Page) : Page := { q with extent := 0, cap := 4, hwm := 4 }
    let full (q : Page) : Page := { q with extent := 0, cap := 1024, hwm := 1020, table := (List.range 127).map fun k => (if k < 5 then k else k + 1, 8, 4 + 8 * k) }
    let facts (f : Page → Page) : Option (Nat × Nat × Nat × Bool) := ((s f base).page? 0 1).map fun pg =>
      let c := (State.codedBlock (of (s f base)) pg 5).count
      (c, inTable pg 5, 4 + c + (pg.table.map fun e => e.2.1).sum, decide (pg.cap < pg.hwm + c))
    facts small = some (8, 0, 12, true) ∧ facts full = some (8, 0, 1028, true) ∧ (s small base).arriving 0 (128 * 1 + 5) = false
    ∧ (s small base).place 0 32 32 (65536, 0) = some 32 ∧ (s full base).place 0 1024 1024 (65536, 0) = some 1024 := by decide +kernel
/-- No place for an extent fits in a full stack. -/
theorem witness_FullStack (cand : Nat) : stuffed.place 0 32 cand (65536, 0) = none := by
  have h (b : Nat) : stuffed.fits 0 b 32 (65536, 0) = false := by
    have e : ((stuffed.extents 0).map fun g => (g.part, g.vpn, g.extent, g.cap)) = [(0, 1, 0, stackCells)] := by decide +kernel
    obtain ⟨g, hg, hv⟩ := List.map_eq_singleton_iff.mp e
    simp only [Prod.mk.injEq] at hv
    simp only [State.fits, hg, hv, List.all_cons, List.all_nil]
    by_cases hb : b + 32 ≤ stackCells
    · simp [show ¬(stackCells ≤ b) by omega]
    · simp [hb]
  have k : ∀ n i, stuffed.firstFit 0 32 (65536, 0) n i = none := fun n => by
    induction n with
    | zero => exact fun _ => rfl
    | succ n ih => exact fun i => by simp [State.firstFit, h, ih]
  simp [State.place, h, k]
/-- A copy node whose own denial has waited since 5 ns, for 1 µs and for 1 ns less, while no parked capacity fault is due. -/
theorem witness_LateNodes : let s (up : Nat) : State := { withPart base (fun p => { p with regs := { p.regs with balloonTimeout := 1 } }) with
      dev := { base.dev with up := up }, nodes := [{ (default : Node) with nid := 60, part := 0, kind := .copy [], cap := some ⟨1, 8, 8, 5⟩ }] }
    let late (s : State) : Bool := s.nodes.any fun n => decide (n.part = 0) && n.cap.any fun c => decide (c.since + 1000 * (of s).regs.balloonTimeout ≤ s.dev.up)
    late (s 1005) = true ∧ late (s 1004) = false ∧ (of (s 1005)).press.hard = false := by decide +kernel
/-- Records of a jsid that two devices have stored here; and a peer and a partner with connections and without. -/
theorem witness_StoredStreams : let r (serial : DWord) : Stored := { serial := serial, jsid := 3, seq := 1, rcd := { jsid := 3, type := 1, pos := 0, lo := 0, hi := 0 } }
    let j (s : State) : State := withPart (journal (.live 0) 1 none s) fun p => { p with jr := { p.jr with store := [r 5, r 6], p := { p.jr.p with partners := [{ (default : PartnerEntry) with addr := 0 }] } } }
    (∃ r ∈ (of (j base)).jr.store, r.jsid = 3 ∧ r.serial = 5) ∧ (∃ r ∈ (of (j base)).jr.store, r.jsid = 3 ∧ r.serial = 6)
    ∧ ((of (j base)).jr.p.partners[0]?).map PartnerEntry.addr = some 0 ∧ 0 ∈ (linked (j base)).dev.conns ∧ 0 ∉ (j base).dev.conns := by decide +kernel

/-- A durable emission of each phase, with the window open, closing and absent, in a replay grid and outside; and operations whose Reel is out of reach. -/
theorem witness_Emissions : let e (k : Nat) : EmitLane := { (default : EmitLane) with rcd := { jsid := 0, type := 1, pos := 5, lo := 0, hi := 0 }, phase := k }
    let win (c : Bool) : Window := { num := 1, host := 0, len := 65536, key := 0, ver := 65536, va := 2 ^ 30, version := 0, closing := c }
    let s (k : Nat) (ws : List Window) : State := withPart (busy (.emit [e k])) fun p => { p with windows := ws, jr := { p.jr with st := .live 0, p := { p.jr.p with window := 1, ringk := 4 } } }
    let at_ (k : Nat) (c : Bool) : Bool := let t := s k [win c]
      decide ((t.holders 8).map Group.gid = [1]) && !(t.killed (theGroup t)) && !(t.opLost (theGroup t) (op (.emit [e k]))) && decide ((of t).window? (of t).jr.p.window = some (win c))
    [0, 1, 2, 3].all (fun k => at_ k false && at_ k true) = true ∧ (of (s 1 [])).window? (of (s 1 [])).jr.p.window = none
    ∧ ((replaying (s 1 [win false])).grid? 2).map (fun g => g.card.flags / 4 % 2) = some 1 ∧ ((s 1 [win false]).grid? 2).map (fun g => g.card.flags / 4 % 2) = some 0
    ∧ (memDWord (s 1 []).host 0).toNat = 0 ∧ (s 2 [win false]).winBusy 0 1 = false ∧ (s 3 []).versionOut 1 8 = false
    ∧ ({ s 2 [win false] with rmas := [{ (default : Rma) with part := 0, win := 1 }] } : State).winBusy 0 1 = true
    ∧ (away (busy (.jrnl []))).opLost (theGroup (away (busy (.jrnl [])))) (op (.jrnl [])) = true := by decide +kernel
/-- A job on host memory to which an earlier write of the device is on its way, and one with none. -/
theorem witness_HostJobs : let j : Job := { (default : Job) with jid := 9, part := 0, core := 0, spans := [⟨3, 131072, 512⟩] }
    let s (rs : List Rma) : State := { oneJob j with pages := base.pages ++ [{ (default : Page) with part := 0, vpn := 2, w := true, hw := some (0, 0) }], rmas := rs
                                                     parts := (withPart base fun p => { p with windows := [{ num := 0, host := 0, len := 65536, key := 0, ver := 65536, va := 131072, version := 0, closing := false }] }).parts }
    (s [{ (default : Rma) with part := 0, win := 0, cells := [(0, 7)] }]).hostBusy (of (s [])) j = true ∧ (s []).hostBusy (of (s [])) j = false := by decide +kernel
/-- A node that a sweep can start, F for its pledge and not; and pending launches of an entry, by ABORT and by DEFER, with its previous one live. -/
theorem witness_Pending : let n : Node := { (default : Node) with nid := 60, part := 0, kind := .copy [65536, 0, 65536 + 512, 0, 512, 512, 512, 1, 0, 0], regions := [⟨3, 65536, 1024⟩] }
    let poor : State := withPart base fun p => { p with free := 7 }
    ((base.nodeRun (of base) n).map Prod.fst) = some 8 ∧ (8 : Nat) ≤ (of base).avail ∧ (of poor).avail < (8 : Nat)
    ∧ assoc 0 (of (due 0 [] [] [(0, 60)])).tt.abort = some 60 ∧ assoc 0 (of (due 0 [] [(0, 60)] [])).tt.deferred = some 60
    ∧ (assoc 0 (of (due 0 [(0, 60)] [] [])).tt.live).isSome = true := by decide +kernel

/-- Two groups of a port: one that has waited 64 steps, or is urgent, or of a higher PRIO, or older. -/
theorem witness_Ports : let s : State := { (probe (.nop z)) with groups := [theGroup base, { theGroup base with gid := 2, grid := 9, age := 7 }] }
    let late (n : Nat) (s : State) : State := s.updGrp 2 fun g => { g with unissued := n }
    let urgent (s : State) : State := withCore s fun k => { k with teams := [{ grid := 9, t := 0, members := [2], last := 2, urgent := some 2 }] }
    let hi (s : State) : State := { s with grids := s.grids ++ [{ ((base.grid? 2).getD default) with id := 9, card := { probeCard with prio := 3 } }] }
    let two (s : State) : Group := (s.grp? 2).getD default
    (two (late 64 s)).unissued = 64 ∧ (two (late 63 s)).unissued = 63 ∧ (urgent s).urgent (two s) = true ∧ s.urgent (two s) = false
    ∧ (two s).prio (hi s) = 3 ∧ (theGroup s).prio (hi s) = 0 ∧ (hi s).goesBefore (two s) (theGroup s) = true ∧ s.goesBefore (theGroup s) (two s) = true := by decide +kernel
/-- Callee queues of which the second is the fullest; and an evicted group that stood back for another block of its grid. -/
theorem witness_CalleeQueues : let it : CalleeItem := { (default : CalleeItem) with gid := 1 }
    let s : State := withCore base fun k => { k with callee := [⟨65600, [it]⟩, ⟨65608, [it, it]⟩, ⟨65616, [it, it]⟩] }
    let back : State := withGroup base fun g => { g with evFor := some (2, 5) }
    (s.core! 0).callee = [⟨65600, [it]⟩] ++ ⟨65608, [it, it]⟩ :: [⟨65616, [it, it]⟩] ∧ ((s.grp? it.gid).map Group.grid) = some 2
    ∧ (theGroup back).evFor = some (2, 5) ∧ ((back.grid? 2).map Grid.next) ≠ some 5 := by decide +kernel

/-- The other instructions with a frame; a value that FMT takes; narrow formats. -/
theorem witness_RegisterFrame' : let f := { z with mod := 8, dst := 8, sa := 4 }
    let narrow (i : Instr) : State := withSplit (probe i) fun p => { p with fmt := 0x0303 }
    issue [.vote { z with sa := 4 }, .vote { z with mod := 3, sa := 4, dst := 8 }, .fcvt f, .tenc { f with mod := 0x8B, sb := 6 }, .div { f with mod := 2, sb := 6 },
      .rem { f with mod := 2, sb := 6 }, .fdiv { f with sb := 6 }] = true
    ∧ meets (.qnt f) (narrow (.qnt f)) (fun x => decide (outf x = 3)) = true ∧ meets (.dqnt { f with sb := 6 }) (narrow (.dqnt { f with sb := 6 })) (fun x => decide (af x = 3)) = true
    ∧ meets (.fmt { z with mod := 1, i := true, sb := 3 }) (probe (.fmt { z with mod := 1, i := true, sb := 3 })) (fun x => !(fmtBad x.f.mod (x.f.imm.setWidth 32))) = true := by decide +kernel
/-- A store of two lanes, one to the group's own frame and one to partition memory: a part that leaves, and one that does not. -/
theorem witness_MixedStore : let f := { z with mod := 2, dst := 8, sa := 4, sb := 6 }
    let i : Instr := .st f
    let s : State := credit 8 (slots (slots (lanes 2 (probe i)) 4 [4096, 65600]) 5 [coreWin / 2 ^ 32, 0])
    meets i s (fun x => (x.units.map fun l => (spansOf (dataCells f x l)).map fun c => c.map fun d => x.s.ownFrame x.g (x.s.locate x.part x.g.core d.1)) == [[[true, true, true, true]], [[false, false, false, false]]]) = true := by
  decide +kernel
/-- A group with a split whose step moves a PC is ready to issue (R146). -/
theorem ready_of_moves (s : State) (g : Group) (p : Split) (hp : p ∈ g.splits) (h : (match splitStep s g.gid p.sid with
    | .next t => t.groups.map fun x => x.splits.map Split.pc | _ => []) ≠ s.groups.map fun x => x.splits.map Split.pc) : s.blocked g = false := by
  refine Bool.eq_false_iff.mpr fun hb => h ?_
  have := List.all_eq_true.mp hb p hp
  split at this <;> simp_all
/-- The probe at its word, with another group of its port that is ready and goes before it, and without. -/
theorem witness_StepOutranked : let s := loaded (.nop z)
    let t : State := { s with groups := s.groups ++ [{ theGroup s with gid := 2, unissued := 64 }] }
    s.outranked (theGroup s) = false ∧ t.outranked (theGroup t) = true := by
  intro s t
  refine ⟨by decide +kernel, List.any_eq_true.mpr ⟨(t.grp? 2).getD default, List.mem_of_find?_eq_some (by decide +kernel : t.grp? 2 = some ((t.grp? 2).getD default)), ?_⟩⟩
  rw [ready_of_moves t _ (((t.grp? 2).getD default).splits.headD default) (by decide +kernel) (by decide +kernel)]
  decide +kernel
/-- A trap of a group with a memory fault pending, and nothing else decided. -/
theorem witness_FaultFirst : let s : State := withGroup base fun g => { g with mm := { g.mm with fault := some (0x10, 1, 131072) } }
    (theGroup s).stop = none ∧ (theGroup s).mm.fault = some (0x10, 1, 131072) := by decide +kernel

/-- The probe's block is paired, its twin elsewhere, and its split waits so. -/
def paired (q : Pair) (w : Wait) (s : State) : State := withSplit { s with blocks := s.blocks.map fun b => { b with pair := some q } } fun p => { p with wait := w }
def interval (sync again : Bool) : Pair :=
  { core1 := 1, held0 := [], held1 := [], snap0 := ⟨[], [], [], [], [], [], []⟩, snap1 := ⟨[], [], [], [], [], [], []⟩, again := again, sync := sync, took := [], bad := false }
/-- Instructions of a paired block before its gate: one that ends no interval, `bar`, which both copies perform, and `atom`; and blocks that are ready to
compare and that are not. Whether two signatures are equal is up to a free value where the copies hold different stores. -/
theorem witness_PairedBlocks : let gate (i : Instr) (q : Pair) (w : Wait) : Bool :=
      let s := paired q w (probe i)
      let g := theGroup s
      let p := (g.split? 0).getD default
      match (info i), p.clause with
      | some k, some c => decide (s.cur = some ⟨1, 0⟩) && g.mayIssue 0 && !(s.killed g) && decide (g.stop = none) && p.wait.mayIssue && decide (issueFault s g p c i k = none)
        && ((s.pairBlock g).bind Block.pair == some q) && decide (staleUse s g k.fld (uses i) = none) && s.unheld g c i k (lanesFor g p k)
      | _, _ => false
    let ready (w : Wait) (q : Pair) : Option Bool := ((paired q w base).block? 2 0 0).map (paired q w base).pairReady
    [Instr.nop z, .bar z, .atom { z with mod := 0, dst := 8, sa := 4, sb := 6 }].all (fun i => [Wait.none, .pairEnd, .pairGo].all fun w =>
      [true, false].all fun b => gate i (interval b false) w) = true
    ∧ (paired (interval false false) .none base).ownFrame (theGroup base) ((paired (interval false false) .none base).locate (of base) 0 65600) = false
    ∧ (match (paired (interval false false) .none base).locate (of base) 0 65600 with | .store _ _ => false | _ => true) = true
    ∧ ready .pairEnd (interval false true) = some true ∧ ready .none (interval false true) = some false
    ∧ signature (interval false false).held0 = signature (interval false false).held1 := by decide +kernel

/-- Events whose peer has a connection, and has none; of a supervisor job's peer likewise. -/
theorem witness_EventPeers : let kept (s : State) : State := withPart s fun p => { p with evq := [.svcRequest 0 1] }
    let sup (cs : List Nat) : State := { base with dev := { base.dev with evq := [.svcRequest 0 1], supJob := some 3, supPeer := 9, conns := cs } }
    (of (kept (linked base))).dest ∈ (kept (linked base)).dev.conns ∧ (of (kept base)).dest ∉ (kept base).dev.conns ∧ (of (kept base)).evq = [.svcRequest 0 1]
    ∧ (sup [9]).dev.supPeer ∈ (sup [9]).dev.conns ∧ (sup []).dev.supPeer ∉ (sup []).dev.conns ∧ (sup [9]).dev.supJob = some 3 := by decide +kernel
/-- What a group has read without an acquire, the release that it shows, a write that happened before that, and a view that is older. -/
theorem witness_FenceTakesUp : let r : Release := { part := 0, gid := 7, core := 0, no := 5, places := [] }
    let h : Heard := { scope := 1, clk := ⟨1, 0, 0, 0⟩, rels := [r] }
    let o (gid no : Nat) : Ordered := { part := 0, gid := gid, no := no, addr := 65600, place := 3 }
    let s : State := { withGroup base (fun g => { g with mm := { g.mm with heard := [h] } }) with ordered := [o 7 4, o 1 0] }
    ((s.grp? 1).map fun g => g.mm.heard) = some [h] ∧ h.scope ≤ 2 ∧ ((o 7 4).part = r.part ∧ (o 7 4).gid = r.gid ∧ (o 7 4).no ≤ r.no) ∧ o 7 4 ∈ s.ordered ∧ o 1 0 ∈ s.ordered
    ∧ (o 1 0).part = (of s).id ∧ (o 1 0).no ≤ 2 ∧ 65600 ≤ (o 1 0).addr ∧ (o 1 0).addr < 65600 + 4
    ∧ (View.empty.markOf (o 1 0).addr).place (homeDie (of s) (o 1 0).addr) < (o 1 0).place := by decide +kernel
/-- The even epoch of an update of the map, and the odd one. -/
theorem witness_MapUpdate : let w (b : Byte) : Write := { (default : Write) with part := 0, gid := 0, bytes := [((of base).topoVa + 28, b)] }
    (∃ c ∈ (w 2).bytes, c.1 = (of base).topoVa + 28 ∧ c.2.toNat % 2 = 0) ∧ ¬(∃ c ∈ (w 3).bytes, c.1 = (of base).topoVa + 28 ∧ c.2.toNat % 2 = 0)
    ∧ base.part? (w 2).part = some (of base) := by decide +kernel
/-- A write that sets one sector's poison and clears another's at a die that has a replica of their line; and a line that a load on its way reads. -/
theorem witness_ReplicaPoison : let a : Apply := { (default : Apply) with die := 1, poison := [(2050, true), (2051, false)], bytes := [(65600, 7)] }
    let s : State := { withPart base (fun p => { p with replicas := [(1, 512)], repPoison := [(1, 2051)] }) with applies := [a] }
    let o : Op := { (default : Op) with kind := .load [(0, 65600), (1, 65728)] 4 false false 0 false }
    s.applies[0]? = some a ∧ (1, 2050 / 4) ∈ (of s).replicas ∧ (1, 2051 / 4) ∈ (of s).replicas ∧ ¬(∃ b ∈ s.applies, b.die = a.die ∧ b.stamp.lt a.stamp = true)
    ∧ (∃ c ∈ a.bytes, (a.die, c.1 / 128) ∈ (of s).replicas) ∧ lineLanes o 512 = [0] ∧ lineLanes o 513 = [1] := by decide +kernel
/-- A page with slack in a stack that is short, with and without a place for its relayout. -/
def crowded (at_ : Nat) : State :=
  let s := pages fun q => { q with cl := false, extent := 0, cap := 64, hwm := 20 }
  { s with pages := s.pages ++ [{ (default : Page) with part := 0, vpn := 2, cls := 1, extent := at_, cap := stackCells - at_ }] }
theorem witness_Compaction : let due (s : State) : Option Bool := (s.page? 0 1).map fun pg => decide (pg.cls = 0 ∧ pg.cl = false ∧ pg.own = false ∧ pg.hw = none ∧ pg.moves = 0
      ∧ s.physFree (quadPage (of s) 1) < 5859375) && (s.extents 0).all fun q => decide ((if q.cls = 0 then q.cap - (4 + q.used) else 0) ≤ pg.cap - (4 + pg.used))
    due (crowded 1024) = some true ∧ (crowded 1024).place 0 16 64 (65536, 0) = some 64 ∧ due (crowded 64) = some true ∧ ((crowded 64).page? 0 1).map Page.used = some 0 := by decide +kernel
/-- A stack whose extents lie side by side has no place. -/
theorem witness_NoCompaction (cand : Nat) : (crowded 64).place 0 16 cand (65536, 0) = none := by
  have h (b : Nat) : (crowded 64).fits 0 b 16 (65536, 0) = false := by
    have e : ((crowded 64).extents 0).map (fun g => (g.part, g.vpn, g.extent, g.cap)) = [(0, 1, 0, 64), (0, 2, 64, stackCells - 64)] := by decide +kernel
    obtain ⟨g, _, hx, hg, e⟩ := List.map_eq_cons_iff.mp e
    obtain ⟨k, hk, hk'⟩ := List.map_eq_singleton_iff.mp e
    simp only [Prod.mk.injEq] at hg hk'
    simp only [State.fits, hx, hk, hg, hk', List.all_cons, List.all_nil]
    have : 64 ≤ stackCells := by decide
    by_cases hb : b + 16 ≤ stackCells
    · simp [hb]; omega
    · simp [hb]
  have k : ∀ n i, (crowded 64).firstFit 0 16 (65536, 0) n i = none := fun n => by
    induction n with
    | zero => exact fun _ => rfl
    | succ n ih => exact fun i => by simp [State.firstFit, h, ih]
  simp [State.place, h, k]

/-- The only split of such a state reaches the word of `i`. -/
theorem reaches (i : Instr) (s : State) (k : OpInfo) (g : Group) (p : Split) (c : Clause) (hk : info i = some k) (hg : s.grp? 1 = some g) (hp : g.split? 0 = some p)
    (h : s.cur = some ⟨1, 0⟩ ∧ p.clause = some c ∧ g.mayIssue p.sid = true ∧ s.killed g = false ∧ p.wait.mayIssue = true ∧ g.stop = none) : Reaches i s k g p c :=
  ⟨hk, ⟨1, 0⟩, h.1, hg, hp, h.2.1, h.2.2.1, h.2.2.2.1, (fun _ hs => nomatch h.2.2.2.2.2.symm.trans hs), h.2.2.2.2.1⟩
/-- The split of a state, and what the checks read. -/
def theSplit (s : State) : Split := ((theGroup s).split? 0).getD default
def theInfo (i : Instr) : OpInfo := (info i).getD ⟨0, z, .no, false, false, false, false⟩
/-- Instruction `i` reaches its word in `s`, its clause `c`, which is 1 word long or, where `long` is true, longer. -/
def Here (i : Instr) (s : State) (c : Clause) (P : OpInfo → Group → Split → Prop) : Prop :=
  Reaches i s (theInfo i) (theGroup s) (theSplit s) c ∧ P (theInfo i) (theGroup s) (theSplit s)
def oneWord : Clause := ⟨65536, probeHeader⟩
/-- The check of R212 that fails first: the context, the place in the clause, the form, the flag, an operand. -/
theorem witness_Checks : let f := { z with mod := 2, dst := 8, sa := 4, sb := 6 }
    let deep (i : Instr) : State := withGroup (probe i) fun g => { g with fr := { g.fr with d2 := 5 } }
    let two : Clause := ⟨65536, 0xA0610002⟩
    let bare : Clause := ⟨65536, 0xA0000001⟩
    let at_ (c : Clause) (i : Instr) : State := withSplit (probe i) fun p => { p with clause := some c }
    Here (.bar z) (kindIs .request (probe (.bar z))) oneWord (fun _ g _ => NoContext (.bar z) g)
    ∧ Here (.bar z) (at_ two (.bar z)) two (fun _ g p => ¬NoContext (.bar z) g ∧ NotLast (.bar z) p two)
    ∧ Here (.add { f with mod := 6 }) (probe (.add f)) oneWord (fun k g p => ¬NoContext (.add { f with mod := 6 }) g ∧ ¬NotLast (.add { f with mod := 6 }) p oneWord ∧ BadForm (.add { f with mod := 6 }) k)
    ∧ Here (.div f) (at_ bare (.div f)) bare (fun k g p => ¬NoContext (.div f) g ∧ ¬NotLast (.div f) p bare ∧ ¬BadForm (.div f) k ∧ NoFlag k bare)
    ∧ Here (.add { f with mod := 4, sa := 5 }) (probe (.add f)) oneWord (fun k g p => ¬NoContext (.add { f with mod := 4, sa := 5 }) g ∧ ¬NotLast (.add { f with mod := 4, sa := 5 }) p oneWord
        ∧ ¬BadForm (.add { f with mod := 4, sa := 5 }) k ∧ ¬NoFlag k oneWord ∧ BadOperand (.add { f with mod := 4, sa := 5 }) (probe (.add f)) k g)
    ∧ Here (.add { f with dst := 0x208 }) (deep (.add f)) oneWord (fun k g p => ¬NoContext (.add { f with dst := 0x208 }) g ∧ ¬NotLast (.add { f with dst := 0x208 }) p oneWord
        ∧ ¬BadForm (.add { f with dst := 0x208 }) k ∧ ¬NoFlag k oneWord ∧ ¬BadOperand (.add { f with dst := 0x208 }) (deep (.add f)) k g ∧ lanesFor g p k ≠ 0
        ∧ ∃ u behind, uses (.add { f with dst := 0x208 }) = u :: behind ∧ StaleUse (deep (.add f)) g k.fld u) := by
  intro f deep two bare at_
  have ctx (f : Fld) (g : Group) : ¬NoContext (.add f) g := by rintro ⟨_, h⟩; simp at h
  have last (f : Fld) (p : Split) (c : Clause) : ¬NotLast (.add f) p c := by rintro ⟨_, _, h⟩; simp at h
  refine ⟨⟨reaches _ _ _ _ _ _ rfl rfl rfl (by decide +kernel), z, .inl ⟨by simp, .inl (by decide +kernel)⟩⟩,
    ⟨reaches _ _ _ _ _ _ rfl rfl rfl (by decide +kernel), ?_, by decide +kernel, z, by simp⟩,
    ⟨reaches _ _ _ _ _ _ rfl rfl rfl (by decide +kernel), ctx _ _, last _ _ _, by unfold BadForm; decide +kernel⟩,
    ⟨reaches _ _ _ _ _ _ rfl rfl rfl (by decide +kernel), ?_, ?_, by unfold BadForm; decide +kernel, by unfold NoFlag; decide +kernel⟩,
    ⟨reaches _ _ _ _ _ _ rfl rfl rfl (by decide +kernel), ctx _ _, last _ _ _, by unfold BadForm; decide +kernel, by unfold NoFlag; decide +kernel, .inr (.inl ⟨sl .a 2, by decide, .inl (by decide)⟩)⟩,
    ⟨reaches _ _ _ _ _ _ rfl rfl rfl (by decide +kernel), ctx _ _, last _ _ _, by unfold BadForm; decide +kernel, by unfold NoFlag; decide +kernel, ?_, by decide +kernel, dl .d 1, [sl .a 1, sl .b 1], by decide, by unfold StaleUse; decide +kernel⟩⟩
  · rintro ⟨f, h⟩; simp at h; revert h; exact fun h => absurd h.2 (by decide +kernel)
  · rintro ⟨f, h⟩; simp at h
  · rintro ⟨_, f, h⟩; simp at h
  · rintro (⟨x, _, _, h, h'⟩ | ⟨u, hu, h⟩ | ⟨f, n, h, _⟩ | ⟨f, h⟩)
    · revert h h'; cases x <;> decide +kernel
    · have : ∀ u ∈ uses (.add { f with dst := 0x208 }), u = dl .d 1 ∨ u = sl .a 1 ∨ u = sl .b 1 := by decide
      rcases this u hu with rfl | rfl | rfl <;> simp only [BadUse, dl, sl, Leaves] at h <;> revert h <;> decide +kernel
    · simp at h
    · simp at h

/-- Records that wait for their partner; a partner that has been silent; a holder with a connection and jsids to adopt; a store without a record twice. -/
theorem witness_Unsent : let t : Stream := { jsid := 0, trunc := 0, last := 2, durable := 1, recs := [token, anchor], cursor := none, adopted := 2 }
    let j (es : List SeqRec) : State := withPart (journal (.live 0) 1 none base) fun p => { p with jr := { p.jr with unsent := [.append es], p := { p.jr.p with timeout := 1 } } }
    let up (s : State) : State := { s with dev := { s.dev with up := 1000 } }
    let bind : State := { linked base with dev := { (linked base).dev with busy := some ⟨head, .replayBind { (default : BindParams) with jfirst := 0, jn := 1 }⟩ } }
    (of (j [anchor])).jr.unsent = [.append [anchor]] ∧ (of (j [anchor])).jr.streams = [t] ∧ ([anchor].find? fun e => decide (e.rcd.jsid = t.jsid)) = some anchor
    ∧ (of (j [anchor])).jr.sentOf t = 1 ∧ ¬(∃ t ∈ (of (j [anchor])).jr.streams, t.durable < (of (j [anchor])).jr.sentOf t)
    ∧ (∃ t ∈ (of (up (j []))).jr.streams, t.durable < (of (up (j []))).jr.sentOf t) ∧ (of (up (j []))).jr.ackAt + 1000 * (of (up (j []))).jr.p.timeout ≤ (up (j [])).dev.up
    ∧ (up (j [])).evRoom 0 1 = true ∧ (of (journal (.live 0) 1 none base)).jr.unsent = []
    ∧ (default : BindParams).holder ∈ bind.dev.conns ∧ bind.dev.busy.isSome = true ∧ (∀ v q, (seqsOf (of base).jr.store v q).Nodup) := by
  refine ⟨by decide +kernel, by decide +kernel, by decide +kernel, by decide +kernel, by decide +kernel, by decide +kernel, by decide +kernel, by decide +kernel, by decide +kernel,
    by decide +kernel, by decide +kernel, fun v q => ?_⟩
  rw [show (of base).jr.store = [] by decide +kernel]; exact List.nodup_nil
/-- Links of die 1 that have failed, while an update of the map is on its way: the operation of a group there has been caught, and so has a job of it; and the partition's journal is live. -/
def caughtNow (s : State) : State := { away s with writes := [{ (default : Write) with part := 0, gid := 0, bytes := [((of s).topoVa + 28, 2)] }] }
theorem witness_Caught : let s := caughtNow (busy (.jrnl []))
    s.opCaught (theGroup s) (op (.jrnl [])) = true ∧ s.opLost (theGroup s) (op (.jrnl [])) = false ∧ s.reelCaught (theGroup s) = true ∧ s.reelAway (theGroup s) = false
    ∧ s.killed (theGroup s) = false ∧ base.opCaught (theGroup base) (op (.jrnl [])) = false
    ∧ (caughtNow base).laneCaught (theGroup (caughtNow base)) (op (.load [(0, 65600)] 4 false false 0 false)) .die 0 65600 = true
    ∧ base.laneCaught (theGroup base) (op (.load [(0, 65600)] 4 false false 0 false)) .die 0 65600 = false := by decide +kernel
/-- A load whose line holds no poison; a durable emission of each phase with a live journal. -/
theorem witness_CleanLoad : touchesPoison ((of base).poisonAt 0 65600) 65600 4 = false ∧ touchesPoison ((of (withPart base fun p => { p with poison := [2050] })).poisonAt 0 65600) 65600 4 = true
    ∧ (base.page? 0 1).map (fun g => (g.cl, g.dirty)) = some (true, []) ∧ (of (journal (.live 0) 1 none base)).jr.st ≠ .off := by decide +kernel
/-- A job that may end whose links are down, and one whose request waits to be composed again. -/
theorem witness_JobLinks : let j : Job := { (default : Job) with jid := 9, part := 0, quad := 4, core := 96, kind := .cpy [], granted := true, started := true, gid := 77, spans := [⟨3, 65536, 512⟩] }
    let there (s : State) : State := { away s with jobs := [j] }
    let waits (s : State) : State := { caughtNow s with jobs := [j] }
    MayEnd (there base) j ∧ (there base).jobLost (of base) j = true ∧ (waits base).jobCaught j = true := by
  refine ⟨⟨rfl, rfl, by decide +kernel, fun g h => ?_, by decide +kernel⟩, by decide +kernel, by decide +kernel⟩
  rw [show State.grp? _ 77 = none by decide +kernel] at h
  cases h
/-- A line and a handler table in memory, whose mem-block is one that the expander takes. -/
theorem expandAt_base : base.expandAt 0 65536 128 = base ∧ base.expandAt 0 65536 8 = base := ⟨rfl, rfl⟩
theorem witness_HandlerTable : let g := (base.grid? 2).getD default
    (match base.locate (of base) 0 (g.card.msgtab + 8 * 0) with | .mem a => a = 65536 | _ => False) ∧ base.handlerFill g 0 0 = base ∧ g.ended = false
    ∧ base.handlerEntry g 0 0 ≠ 0 ∧ (base.handlerFill g 0 9).handlerEntry g 0 9 = 0 :=
  ⟨rfl, rfl, by decide +kernel, by decide +kernel, by decide +kernel⟩

/-- The paired block with its twin's group, and another group of the primary that waits so. -/
def copies (q : Pair) (w0 w1 : Wait) : State :=
  let s := paired q .pairEnd base
  let other (gid copy gidx : Nat) (w : Wait) : Group := { theGroup s with gid := gid, park := BitVec.ofNat 32 gid, copy := copy, gidx := gidx, splits := (theGroup s).splits.map fun p => { p with wait := w } }
  { s with groups := s.groups ++ [other 2 1 0 w1, other 3 0 1 w0] }
/-- Both copies stand at an interval's end while another group runs on; every group stands there; and an operation is outstanding. -/
theorem witness_PairEnds : let b (s : State) : Block := (s.block? 2 0 0).getD default
    let q := interval false false
    let s (w0 w1 : Wait) : State := copies q w0 w1
    let atEnd (t : State) : Bool := t.bothAtEnd (b t) (theGroup t) (theSplit t)
    let open_ : State := (s .pairEnd .pairEnd).updGrp 2 fun g => { g with ops := [op (.div [])] }
    (s .none .pairEnd).block? (b base).grid (b base).bidx 0 = some (b (s .none .pairEnd)) ∧ (b (s .none .pairEnd)).pair = some q
    ∧ atEnd (s .none .pairEnd) = true ∧ atEnd (s .none .none) = false
    ∧ (s .none .pairEnd).pairReady (b (s .none .pairEnd)) = false ∧ (s .pairEnd .pairEnd).pairReady (b (s .pairEnd .pairEnd)) = true
    ∧ (s .none .pairEnd).pairQuiet (b (s .none .pairEnd)) = true ∧ open_.pairQuiet (b open_) = false
    ∧ (theSplit (s .none .pairEnd)).wait = .pairEnd ∧ (theGroup (s .none .pairEnd)).copy = 0 := by decide +kernel
/-- A snapshot with a group and a frame of the primary's, whose cores are two and whose memories are in form. -/
theorem witness_PairSnapshots : let q : Pair := { interval false false with snap0 := ⟨[theGroup base], [(4096, [1, 2])], [], [], [], [], []⟩ }
    let s := paired q .pairEnd base
    let b := (s.block? 2 0 0).getD default
    b.pair = some q ∧ (q.snap0.groups.find? fun y => decide (y.gid = (theGroup base).gid)) = some (theGroup base) ∧ (∀ y ∈ q.snap1.groups, y.gid ≠ (theGroup base).gid)
    ∧ (s.grp? 1).isSome = true ∧ (s.grid? b.grid).map Grid.part = some 0 ∧ (s.part? 0).isSome = true ∧ s.memWf = true ∧ b.core < s.cores.length ∧ b.core ≠ q.core1
    ∧ q.snap0.frames.Pairwise (fun f h => f.1 + f.2.length ≤ h.1 ∨ h.1 + h.2.length ≤ f.1) ∧ (4096, [1, 2]) ∈ q.snap0.frames ∧ ([1, 2] : List Byte)[1]? = some 2 := by decide +kernel

end Sys2Proof.Tests
end

section
/-!
SUPPORT. Class 0 (R222 to R239): the words that each entry has, operand values as slots modulo 2^w, and the settled statements.
-/

namespace Sys2Proof.Proofs

open Sys2Proof.Machine Sys2Proof.Claim

/-! ## The words of an entry (R208, R222) -/

theorem inSet_iff (n : Nat) (xs : List Nat) : inSet n xs = true ↔ n ∈ xs := by simp [inSet]

theorem mem_withHi {los his : List Nat} (hlos : ∀ l ∈ los, l < 16) (m : Nat) : m ∈ withHi los his ↔ m / 16 ∈ his ∧ m % 16 ∈ los := by
  simp only [withHi, List.mem_flatMap, List.mem_map]
  constructor
  · rintro ⟨h, hh, l, hl, rfl⟩
    have := hlos l hl
    rw [show (16 * h + l) / 16 = h by omega, show (16 * h + l) % 16 = l by omega]
    exact ⟨hh, hl⟩
  · rintro ⟨hh, hl⟩
    exact ⟨_, hh, _, hl, by omega⟩

theorem mod_mem_withHi {los his : List Nat} (hlos : ∀ l ∈ los, l < 16) (f : Fld) : f.mod.toNat ∈ withHi los his ↔ f.hi ∈ his ∧ f.lo ∈ los :=
  mem_withHi hlos _

/-- A MOD that holds a type alone holds 0 in MOD[7:4]. -/
theorem tyOnly_iff {ts : List Nat} (hts : ∀ t ∈ ts, t < 16) (f : Fld) : tyOnly f ts = true ↔ f.mod.toNat ∈ ts := by
  have h := mod_mem_withHi (his := [0]) hts f
  rw [show withHi ts [0] = ts by simp [withHi]] at h
  simp [tyOnly, inSet_iff, h]

theorem modIs_iff (f : Fld) (n : Nat) : modIs f n = true ↔ f.mod.toNat ∈ [n] := by simp [modIs]
theorem modLt_iff (f : Fld) (n : Nat) : modLt f n = true ↔ f.mod.toNat ∈ List.range n := by simp [modLt]

theorem check_modifier_iff {i : Instr} {k : OpInfo} (hk : info i = some k) : Instr.check i = some .modifier ↔ formFault i k = true := by
  simp only [Instr.check, hk]
  split
  · simp [*]
  · split <;> simp [*]

/-- The words of a row of the shape `plain` with a `.g` form. -/
theorem encodes_plain {mk : Fld → Instr} {op : Nat} {imm : Bool} {mods : List Nat} (hop : op < 512)
    (hrow : ∀ f, info (mk f) = some (plain op f (if imm then .yes else .no) true)) (hmod : ∀ f, modLegal (mk f) = true ↔ f.mod.toNat ∈ mods) :
    Encodes mk op imm mods := by
  intro f
  refine ⟨⟨f.toWord op, by simp only [encode, hrow]; rfl, ?_⟩, ?_⟩
  · have h := Laws.Names.opcode_of_word f hop
    rwa [opOfWord, BitVec.extractLsb'_toNat, Nat.shiftRight_zero] at h
  · rw [check_modifier_iff (hrow f), ← hmod f]
    cases imm <;> cases hi : f.i <;> cases hfs : f.fs <;> simp [formFault, plain, hi, hfs]

/-- The words of an entry whose MOD holds a type alone. -/
theorem encodes_typed {mk : Fld → Instr} {op : Nat} {imm : Bool} {ts : List Nat} (hop : op < 512) (hts : ∀ t ∈ ts, t < 16)
    (hrow : ∀ f, info (mk f) = some (plain op f (if imm then .yes else .no) true)) (hmod : ∀ f, modLegal (mk f) = tyOnly f ts) :
    Encodes mk op imm ts := encodes_plain hop hrow fun f => by rw [hmod, tyOnly_iff hts]

/-! ## Values as slots modulo 2^w (R222) -/

theorem tyW_cases (t : Nat) : tyW t = 1 ∨ tyW t = 2 := by
  unfold tyW
  split <;> simp

theorem tyW_bound (t : Nat) : 32 * tyW t ≤ 64 := by
  have := tyW_cases t
  omega

theorem setWidth_ofInt {k : Nat} (hk : k ≤ 64) (z : Int) : (BitVec.ofInt 64 z).setWidth k = BitVec.ofInt k z := by
  have hdvd : ((2 ^ k : Nat) : Int) ∣ ((2 ^ 64 : Nat) : Int) := Int.natCast_dvd_natCast.mpr (Nat.pow_dvd_pow 2 hk)
  have hmod := Int.toNat_emod (x := z % ((2 ^ 64 : Nat) : Int)) (y := ((2 ^ k : Nat) : Int)) (Int.emod_nonneg _ (by decide)) (Int.natCast_nonneg _)
  apply BitVec.eq_of_toNat_eq
  rw [BitVec.toNat_setWidth, BitVec.toNat_ofInt, BitVec.toNat_ofInt, ← Int.emod_emod_of_dvd z hdvd, hmod, Int.toNat_natCast]

theorem ofInt_sub {k : Nat} (x y : Int) : BitVec.ofInt k (x - y) = BitVec.ofInt k x - BitVec.ofInt k y := by
  rw [Int.sub_eq_add_neg, BitVec.ofInt_add, BitVec.ofInt_neg, BitVec.sub_eq_add_neg]

theorem setWidth_sub {k : Nat} (hk : k ≤ 64) (a b : DWord) : (a - b).setWidth k = a.setWidth k - b.setWidth k := by
  rw [BitVec.eq_sub_iff_add_eq, ← BitVec.setWidth_add _ _ hk, BitVec.sub_add_cancel]

/-- The integer that a value stands for in a type is that value modulo 2^w. -/
theorem ofInt_toI (t : Nat) (v : DWord) : BitVec.ofInt (32 * tyW t) (toI t v) = v.setWidth (32 * tyW t) := by
  unfold toI
  split
  · split
    · rename_i h
      rw [h, BitVec.ofInt_toInt, BitVec.setWidth_eq]
    · rename_i h
      rw [(tyW_cases t).resolve_right h, BitVec.ofInt_toInt]
  · rw [BitVec.ofInt_natCast, BitVec.ofNat_toNat]

/-- Slots hold a value modulo 2^w. -/
theorem wordsN_congr {n : Nat} (hn : n = 1 ∨ n = 2) {a b : DWord} (h : a.setWidth (32 * n) = b.setWidth (32 * n)) : wordsN n a = wordsN n b := by
  rcases hn with rfl | rfl
  · exact congrArg (fun w : Word => [w]) h
  · rw [show a = b by simpa using h]

/-- A value gives the slots of an exact result that it equals modulo 2^w. -/
theorem wordsN_eq_low {f : Fld} {v : DWord} {z : Int} (h : v.setWidth (width f) = BitVec.ofInt (width f) z) : wordsN (tyW f.lo) v = low f z :=
  wordsN_congr (tyW_cases f.lo) (h.trans (setWidth_ofInt (tyW_bound f.lo) z).symm)

theorem wordsN_toI (f : Fld) (v : DWord) : wordsN (tyW f.lo) v = low f (toI f.lo v) := wordsN_eq_low (ofInt_toI f.lo v).symm

theorem wordsN_add (f : Fld) (a b : DWord) : wordsN (tyW f.lo) (a + b) = low f (toI f.lo a + toI f.lo b) := wordsN_eq_low (by
  rw [width, BitVec.ofInt_add, ofInt_toI, ofInt_toI, BitVec.setWidth_add _ _ (tyW_bound f.lo)])

theorem wordsN_sub (f : Fld) (a b : DWord) : wordsN (tyW f.lo) (a - b) = low f (toI f.lo a - toI f.lo b) := wordsN_eq_low (by
  rw [width, ofInt_sub, ofInt_toI, ofInt_toI, setWidth_sub (tyW_bound f.lo)])

theorem wordsN_mul (f : Fld) (a b : DWord) : wordsN (tyW f.lo) (a * b) = low f (toI f.lo a * toI f.lo b) := wordsN_eq_low (by
  rw [width, BitVec.ofInt_mul, ofInt_toI, ofInt_toI, BitVec.setWidth_mul _ _ (tyW_bound f.lo)])

theorem wordsN_mul_add (f : Fld) (a b c : DWord) : wordsN (tyW f.lo) (a * b + c) = low f (toI f.lo a * toI f.lo b + toI f.lo c) := wordsN_eq_low (by
  rw [width, BitVec.ofInt_add, BitVec.ofInt_mul, ofInt_toI, ofInt_toI, ofInt_toI, BitVec.setWidth_add _ _ (tyW_bound f.lo),
    BitVec.setWidth_mul _ _ (tyW_bound f.lo)])

/-- Of two values the one that is smaller in the type. -/
theorem wordsN_min (f : Fld) (a b : DWord) : wordsN (tyW f.lo) (if toI f.lo b < toI f.lo a then b else a) = low f (min (toI f.lo a) (toI f.lo b)) := by
  split
  · rw [Int.min_eq_right (by omega), wordsN_toI]
  · rw [Int.min_eq_left (by omega), wordsN_toI]

theorem wordsN_max (f : Fld) (a b : DWord) : wordsN (tyW f.lo) (if toI f.lo a < toI f.lo b then b else a) = low f (max (toI f.lo a) (toI f.lo b)) := by
  split
  · rw [Int.max_eq_right (by omega), wordsN_toI]
  · rw [Int.max_eq_left (by omega), wordsN_toI]

/-- A 64-bit addend counts the same signed or unsigned modulo 2^64. -/
theorem ofInt_add_signed (z : Int) (c : DWord) : ofInt 2 (z + c.toNat) = ofInt 2 (z + c.toInt) := by
  rw [ofInt, ofInt, BitVec.ofInt_add, BitVec.ofInt_add, BitVec.ofInt_natCast, BitVec.ofInt_toInt, BitVec.ofNat_toNat, BitVec.setWidth_eq]

/-- One slot holds a number below 2^32. -/
theorem words1_eq_slot1 {w : Word} {n : Nat} (h : w.toNat = n) : words1 w = slot1 n := by rw [slot1, ← h, BitVec.ofNat_toNat, BitVec.setWidth_eq]; rfl

/-! ## Operands (R222) -/

theorem val_one_lt (x : Ctx) (o : BitVec 10) (l : Nat) : (x.val o 1 l).toNat < 2 ^ 32 := by
  rw [Ctx.val, if_neg (by decide), BitVec.toNat_setWidth]
  exact Nat.lt_of_le_of_lt (Nat.mod_le _ _) (BitVec.isLt _)

/-- An operand of a type has no bit above the type's width. -/
theorem val_lt (x : Ctx) (t : Nat) (o : BitVec 10) (l : Nat) : (x.val o (tyW t) l).toNat < 2 ^ (32 * tyW t) := by
  rcases tyW_cases t with h | h <;> rw [h]
  · exact val_one_lt x o l
  · exact BitVec.isLt _

theorem rdA_getLsbD_high (x : Ctx) (t l : Nat) {i : Nat} (hi : 32 * tyW t ≤ i) : (x.rdA (tyW t) l).getLsbD i = false := by
  rw [← BitVec.testBit_toNat]
  exact Nat.testBit_lt_two_pow (Nat.lt_of_lt_of_le (val_lt x t _ l) (Nat.pow_le_pow_right (by decide) hi))

/-! ## Completion (R201) -/

/-- An instruction of the shape `alu` writes what its operation gives. -/
theorem writes_of_alu {i : Instr} {f : Fld} {op v : Ctx → Nat → List Word} (hexec : ∀ s, exec i s = alu i f op s)
    (hv : ∀ x l, op x l = v x l) : Writes i f v := fun s x h => by
  rw [hexec, alu_issuing h, show op = v from funext fun x => funext (hv x)]

/-- With an active lane, an instruction of the shape `runLanes` ends as its own part says. -/
theorem exec_of_runLanes {i : Instr} {e : Ctx → State} (hexec : ∀ s, exec i s = .next (runLanes i (fun x => .done (e x)) s)) {s : State} {x : Ctx}
    (h : issuing i s = some x) (hact : x.act ≠ 0) : exec i s = .next (x.finish (e x)) := by
  rw [hexec, runLanes_issuing h, if_neg hact]
  rfl

/-- An instruction that issues holds a MOD that its entry defines. -/
theorem modLegal_of_issuing {i : Instr} {s : State} {x : Ctx} {k : OpInfo} (h : issuing i s = some x) (hk : info i = some k) : modLegal i = true := by
  have hform := issuing_legal h hk
  simp only [formFault, Bool.or_eq_false_iff, Bool.not_eq_false'] at hform
  obtain ⟨⟨-, hlegal⟩, -⟩ := hform
  exact hlegal

/-! ## Arithmetic (R225) -/

/-- Settles O1: every result is that of exact integers, since slots keep a value modulo 2^w. -/
theorem integerArithmetic : Obligations.IntegerArithmetic := by
  intro f
  refine ⟨?_, ?_, ?_, ?_, ?_, ?_, ?_, ?_, ?_, ?_, ?_, ?_, ?_, ?_, ?_, ?_, ?_, ?_, ?_, ?_⟩
  · exact writes_of_alu (fun _ => rfl) fun x l => wordsN_add f _ _
  · exact writes_of_alu (fun _ => rfl) fun x l => wordsN_sub f _ _
  · exact writes_of_alu (fun _ => rfl) fun x l => wordsN_mul f _ _
  · exact writes_of_alu (fun _ => rfl) fun x l => rfl
  · exact writes_of_alu (fun _ => rfl) fun x l => wordsN_mul_add f _ _ _
  · exact writes_of_alu (fun _ => rfl) fun x l => ofInt_add_signed _ _
  · exact writes_of_alu (fun _ => rfl) fun x l => wordsN_min f _ _
  · exact writes_of_alu (fun _ => rfl) fun x l => wordsN_max f _ _
  · exact writes_of_alu (fun _ => rfl) fun x l => rfl
  · exact writes_of_alu (fun _ => rfl) fun x l => rfl
  all_goals exact encodes_typed (by decide) (by decide) (fun _ => rfl) fun _ => rfl

/-! ## Shifts (R228, R229) -/

theorem wordsN_shiftLeft (f : Fld) (a : DWord) (n : Nat) :
    wordsN (tyW f.lo) (shiftLeft a (width f) n) = low f (if n < width f then a.toNat * 2 ^ n else 0 : Nat) := wordsN_eq_low (by
  rw [BitVec.ofInt_natCast, shiftLeft]
  split
  · apply BitVec.eq_of_toNat_eq
    rw [BitVec.toNat_setWidth, BitVec.toNat_shiftLeft, BitVec.toNat_ofNat, Nat.shiftLeft_eq,
      Nat.mod_mod_of_dvd _ (Nat.pow_dvd_pow 2 (show width f ≤ 64 from tyW_bound f.lo))]
  · exact BitVec.setWidth_zero _ _)

theorem wordsN_shiftRight (f : Fld) (a : DWord) (n : Nat) :
    wordsN (tyW f.lo) (shiftRight a (width f) n) = low f (if n < width f then a.toNat / 2 ^ n else 0 : Nat) := wordsN_eq_low (by
  rw [BitVec.ofInt_natCast, shiftRight]
  split
  · rw [← BitVec.ofNat_toNat, BitVec.toNat_ushiftRight, Nat.shiftRight_eq_div_pow]
  · exact BitVec.setWidth_zero _ _)

/-- A signed value of w bits lies from -2^(w-1) to below 2^(w-1). -/
theorem toI_signed_bounds {t : Nat} (ht : isSigned t = true) (v : DWord) :
    -2 ^ (32 * tyW t - 1) ≤ toI t v ∧ toI t v < 2 ^ (32 * tyW t - 1) := by
  rw [toI, if_pos ht]
  rcases tyW_cases t with h | h
  · rw [if_neg (by omega), h]
    exact ⟨BitVec.le_toInt _, BitVec.toInt_lt⟩
  · rw [if_pos h, h]
    exact ⟨BitVec.le_toInt _, BitVec.toInt_lt⟩

/-- Once every bit of the value has gone, only copies of its sign are left. -/
theorem ediv_pow_eq_sign {z : Int} {k : Nat} (h : -2 ^ k ≤ z ∧ z < 2 ^ k) : z / 2 ^ k = if z < 0 then -1 else 0 := by
  have hpos : (0 : Int) < 2 ^ k := Int.pow_pos (by decide)
  split
  · rw [Int.ediv_eq_iff_of_pos hpos]
    omega
  · exact Int.ediv_eq_zero_of_lt (by omega) h.2

theorem toI_ediv_min {f : Fld} (ht : isSigned f.lo = true) (v : DWord) (n : Nat) : toI f.lo v / 2 ^ min n 63
    = if n < width f then toI f.lo v / 2 ^ n else if toI f.lo v < 0 then -1 else 0 := by
  have hw : width f = 32 ∨ width f = 64 := by
    rcases tyW_cases f.lo with h | h <;> simp [width, h]
  have hb := toI_signed_bounds ht v
  split
  · rw [Nat.min_eq_left (by omega)]
  · refine ediv_pow_eq_sign ?_
    have hexp : 32 * tyW f.lo - 1 ≤ min n 63 := by
      change width f - 1 ≤ _
      omega
    have hle : (2 : Int) ^ (32 * tyW f.lo - 1) ≤ 2 ^ min n 63 := by exact_mod_cast Nat.pow_le_pow_right (by decide : 2 > 0) hexp
    omega

theorem toNat_pair {a b : DWord} (ha : a.toNat < 2 ^ 32) (hb : b.toNat < 2 ^ 32) :
    ((a.setWidth 32 : Word) ++ (b.setWidth 32 : Word) : DWord).toNat = a.toNat * 2 ^ 32 + b.toNat := by
  rw [BitVec.toNat_append, BitVec.toNat_setWidth, BitVec.toNat_setWidth, Nat.mod_eq_of_lt ha, Nat.mod_eq_of_lt hb, Nat.shiftLeft_eq,
    Nat.mul_comm, ← Nat.two_pow_add_eq_or_of_lt hb]

theorem words1_funnelLeft {a b : DWord} (ha : a.toNat < 2 ^ 32) (hb : b.toNat < 2 ^ 32) (n : Nat) :
    words1 ((((a.setWidth 32 : Word) ++ (b.setWidth 32 : Word) : DWord) <<< n).extractLsb' 32 32)
      = slot1 ((a.toNat * 2 ^ 32 + b.toNat) * 2 ^ n / 2 ^ 32 % 2 ^ 32) := words1_eq_slot1 (by
  rw [BitVec.extractLsb'_toNat, BitVec.toNat_shiftLeft, toNat_pair ha hb, Nat.shiftLeft_eq, Nat.shiftRight_eq_div_pow]
  omega)

theorem words1_funnelRight {a b : DWord} (ha : a.toNat < 2 ^ 32) (hb : b.toNat < 2 ^ 32) (n : Nat) :
    words1 ((((a.setWidth 32 : Word) ++ (b.setWidth 32 : Word) : DWord) >>> n).setWidth 32)
      = slot1 ((a.toNat * 2 ^ 32 + b.toNat) / 2 ^ n % 2 ^ 32) := words1_eq_slot1 (by
  rw [BitVec.toNat_setWidth, BitVec.toNat_ushiftRight, toNat_pair ha hb, Nat.shiftRight_eq_div_pow])

/-- Settles O3: the bitwise results are the model's own; shifts and funnel shifts are products and quotients by powers of 2. -/
theorem logicAndShifts : Obligations.LogicAndShifts := by
  intro f
  refine ⟨?_, ?_, ?_, ?_, ?_, ?_, ?_, ?_, ?_, ?_, ?_, ?_, ?_, ?_, ?_, ?_, ?_, ?_, ?_, ?_⟩
  · exact writes_of_alu (fun _ => rfl) fun x l => rfl
  · exact writes_of_alu (fun _ => rfl) fun x l => rfl
  · exact writes_of_alu (fun _ => rfl) fun x l => rfl
  · exact writes_of_alu (fun _ => rfl) fun x l => rfl
  · exact writes_of_alu (fun _ => rfl) fun x l => rfl
  · exact writes_of_alu (fun _ => rfl) fun x l => wordsN_shiftLeft f _ _
  · exact writes_of_alu (fun _ => rfl) fun x l => wordsN_shiftRight f _ _
  · exact fun ht => writes_of_alu (fun _ => rfl) fun x l => congrArg (low f) (toI_ediv_min ht _ _)
  · exact writes_of_alu (fun _ => rfl) fun x l => words1_funnelLeft (val_one_lt x _ l) (val_one_lt x _ l) _
  · exact writes_of_alu (fun _ => rfl) fun x l => words1_funnelRight (val_one_lt x _ l) (val_one_lt x _ l) _
  all_goals exact encodes_typed (by decide) (by decide) (fun _ => rfl) fun _ => rfl

/-! ## Bit fields and counts (R230, R231) -/

/-- The top bit of a field of `len` bits is its value divided by 2^(len - 1). -/
theorem top_bit_iff (n len : Nat) : (0 < len ∧ (n % 2 ^ len).testBit (len - 1) = true) ↔ 0 < len ∧ n % 2 ^ len / 2 ^ (len - 1) = 1 := by
  refine and_congr_right fun hlen => ?_
  have hlt : n % 2 ^ len / 2 ^ (len - 1) < 2 := by
    rw [Nat.div_lt_iff_lt_mul (Nat.two_pow_pos _), ← Nat.pow_succ', Nat.succ_eq_add_one, Nat.sub_add_cancel hlen]
    exact Nat.mod_lt _ (Nat.two_pow_pos _)
  rw [Nat.testBit_eq_decide_div_mod_eq, decide_eq_true_eq, Nat.mod_eq_of_lt hlt]

theorem getLsbD_shiftLeft_width {w : Nat} (hw : w ≤ 64) (v : DWord) (pos : Nat) {i : Nat} (hi : i < w) :
    (shiftLeft v w pos).getLsbD i = (decide (pos ≤ i) && v.getLsbD (i - pos)) := by
  unfold shiftLeft
  split
  · rw [BitVec.getLsbD_shiftLeft, decide_eq_true (by omega : i < 64)]
    by_cases h : pos ≤ i <;> simp [h, Nat.not_lt.mpr, Nat.lt_of_not_le]
  · rw [decide_eq_false (by omega : ¬pos ≤ i)]
    simp

/-- `bfi` replaces the bits from `pos` up to `pos + len` by the low bits of b. -/
theorem getLsbD_insertField {w : Nat} (hw : w ≤ 64) (a b : DWord) (c : Nat) {i : Nat} (hi : i < w) :
    (insertField w a b c).getLsbD i
      = if c % 256 ≤ i ∧ i < c % 256 + c / 256 % 256 then b.getLsbD (i - c % 256) else a.getLsbD i := by
  have hmask : (BitVec.ofNat 64 (2 ^ min (c / 256 % 256) 64 - 1)).getLsbD (i - c % 256) = decide (i - c % 256 < c / 256 % 256) := by
    rw [BitVec.getLsbD_ofNat, Nat.testBit_two_pow_sub_one, decide_eq_true (by omega : i - c % 256 < 64), Bool.true_and]
    exact decide_eq_decide.mpr (by omega)
  simp only [insertField, BitVec.getLsbD_or, BitVec.getLsbD_and, BitVec.getLsbD_not, getLsbD_shiftLeft_width hw _ _ hi, hmask]
  rw [decide_eq_true (by omega : i < 64)]
  by_cases hpos : c % 256 ≤ i
  · by_cases hlen : i < c % 256 + c / 256 % 256
    · have hin : i - c % 256 < c / 256 % 256 := by omega
      rw [decide_eq_true hin]
      simp [hpos, hlen]
    · have hout : ¬i - c % 256 < c / 256 % 256 := by omega
      rw [decide_eq_false hout]
      simp [hlen]
  · simp [hpos]

theorem onesBelow_eq (v : DWord) (n : Nat) : onesBelow v n = ((List.range n).filter v.getLsbD).length := by
  induction n with
  | zero => rfl
  | succ n ih =>
    rw [onesBelow, ih, List.range_succ, List.filter_append, List.length_append, Nat.add_comm]
    cases h : v.getLsbD n <;> simp [h]

theorem onesBelow_high {v : DWord} {w n : Nat} (hwn : w ≤ n) (hv : ∀ i, w ≤ i → v.getLsbD i = false) : onesBelow v n = onesBelow v w := by
  induction hwn with
  | refl => rfl
  | step hn ih => rw [onesBelow, hv _ hn, ih, if_neg Bool.false_ne_true, Nat.zero_add]

theorem zerosFrom_eq (v : DWord) (n i : Nat) : zerosFrom v n i = ((List.range' i n).takeWhile fun j => !v.getLsbD j).length := by
  induction n generalizing i with
  | zero => rfl
  | succ n ih =>
    rw [zerosFrom, ih, List.range'_succ, List.takeWhile_cons]
    cases v.getLsbD i <;> simp [Nat.add_comm]

theorem bitLen_le {n w : Nat} (h : n < 2 ^ w) : bitLen n ≤ w := by
  unfold bitLen
  split
  · exact Nat.zero_le w
  · exact (Nat.log2_lt ‹_›).mpr h

theorem bitLen_top {n w : Nat} (hlo : 2 ^ w ≤ n) (hhi : n < 2 ^ (w + 1)) : bitLen n = w + 1 := by
  have h0 : n ≠ 0 := by have := Nat.two_pow_pos w; omega
  rw [bitLen, if_neg h0, (Nat.log2_eq_iff h0).mpr ⟨hlo, hhi⟩]

/-- The zeros above the highest set bit of a number below 2^w. -/
theorem leadingZeros_eq {n w : Nat} (h : n < 2 ^ w) :
    w - bitLen n = ((List.range w).takeWhile fun i => !n.testBit (w - 1 - i)).length := by
  induction w with
  | zero => simp
  | succ w ih =>
    rw [List.range_succ_eq_map, List.takeWhile_cons, Nat.add_sub_cancel, Nat.sub_zero]
    by_cases hw : n < 2 ^ w
    · have hnext : ((fun i => !n.testBit (w - i)) ∘ Nat.succ) = fun i => !n.testBit (w - 1 - i) := funext fun i => by
        rw [Function.comp_apply, Nat.sub_sub, Nat.add_comm 1]
      have hlen := bitLen_le hw
      rw [Nat.testBit_lt_two_pow hw, Bool.not_false, if_pos rfl, List.takeWhile_map, hnext, List.length_cons, List.length_map, ← ih hw]
      omega
    · rw [bitLen_top (Nat.le_of_not_lt hw) h]
      have htop : n.testBit w = true := Nat.testBit_of_two_pow_le_and_two_pow_add_one_gt (Nat.le_of_not_lt hw) h
      rw [htop, Nat.sub_self]
      rfl

theorem getLsbD_ite_or (c : Bool) (r m : DWord) (j : Nat) : (if c then r ||| m else r).getLsbD j = (r.getLsbD j || c && m.getLsbD j) := by
  cases c
  · simp
  · simp

theorem getLsbD_ofNat_two_pow (k : Nat) {j : Nat} (hj : j < 64) : (BitVec.ofNat 64 (2 ^ k)).getLsbD j = decide (k = j) := by
  rw [BitVec.getLsbD_ofNat, Nat.testBit_two_pow, decide_eq_true hj, Bool.true_and]

/-- The first `n` steps of a reversal have placed the bits that come from below `n`. -/
theorem getLsbD_reversed_fold (v : DWord) {w n : Nat} (hw : w ≤ 64) (hn : n ≤ w) {j : Nat} (hj : j < w) :
    ((List.range n).foldl (fun r i => if v.getLsbD i then r ||| BitVec.ofNat 64 (2 ^ (w - 1 - i)) else r) (0 : DWord)).getLsbD j
      = (decide (w - 1 - j < n) && v.getLsbD (w - 1 - j)) := by
  induction n with
  | zero => simp
  | succ n ih =>
    rw [List.range_succ, List.foldl_append, List.foldl_cons, List.foldl_nil, getLsbD_ite_or, ih (by omega), getLsbD_ofNat_two_pow _ (by omega)]
    by_cases hjn : w - 1 - n = j
    · obtain rfl : n = w - 1 - j := by omega
      simp [hjn]
    · have hlt : w - 1 - j < n + 1 ↔ w - 1 - j < n := by omega
      simp [hjn, hlt]

theorem getLsbD_reversed (v : DWord) {w : Nat} (hw : w ≤ 64) {j : Nat} (hj : j < w) : (reversed v w).getLsbD j = v.getLsbD (w - 1 - j) := by
  rw [reversed, getLsbD_reversed_fold v hw (Nat.le_refl w) hj, decide_eq_true (by omega), Bool.true_and]

/-- Settles O4: each field and count is the model's loop read as a filter or a leading run of the bit positions. -/
theorem bitFieldsAndCounts : Obligations.BitFieldsAndCounts := by
  intro f
  have hw : width f ≤ 64 := tyW_bound f.lo
  refine ⟨?_, ?_, ?_, ?_, ?_, ?_, ?_, ?_, ?_, ?_, ?_, ?_⟩
  · exact writes_of_alu (fun _ => rfl) fun x l => congrArg (low f) (by
      simp only [bitField, top_bit_iff]
      rfl)
  · exact fun s x h => ⟨fun l => insertField (width f) (x.rdA (tyW f.lo) l) (x.val f.sb (tyW f.lo) l) (x.rdC 1 l).toNat,
      fun l i hi => getLsbD_insertField hw _ _ _ hi, alu_issuing h f _⟩
  · exact writes_of_alu (fun _ => rfl) fun x l => congrArg slot1 (by rw [onesBelow_high hw fun i => rdA_getLsbD_high x f.lo l, onesBelow_eq]; rfl)
  · exact writes_of_alu (fun _ => rfl) fun x l => congrArg slot1 (leadingZeros_eq (val_lt x f.lo _ l))
  · exact writes_of_alu (fun _ => rfl) fun x l => congrArg slot1 (by rw [zerosFrom_eq, ← List.range_eq_range']; rfl)
  · exact fun s x h => ⟨fun l => reversed (x.rdA (tyW f.lo) l) (width f), fun l i hi => getLsbD_reversed _ hw hi, alu_issuing h f _⟩
  all_goals exact encodes_typed (by decide) (by decide) (fun _ => rfl) fun _ => rfl

/-! ## Predicates (R232 to R235) -/

/-- The compare codes of `setp`. -/
theorem compareInt_iff {code : Nat} (hcode : code ≤ 5) (a b : Int) : compareInt code a b = true ↔ IntRel code a b := by
  obtain rfl | rfl | rfl | rfl | rfl | rfl : code = 0 ∨ code = 1 ∨ code = 2 ∨ code = 3 ∨ code = 4 ∨ code = 5 := by omega
  all_goals simp [compareInt, IntRel]

theorem truthIndex_eq (p q r : Bool) :
    (if p then 4 else 0) + (if q then 2 else 0) + (if r then 1 else 0) = 4 * p.toNat + 2 * q.toNat + r.toNat := by
  cases p <;> cases q <;> cases r <;> rfl

/-- A predicate byte that is read has bit 7 set. -/
theorem getLsbD_predByte_read (p : BitVec 8) (i : Nat) :
    ((p ||| 0x80).setWidth 32 : Word).getLsbD i = (decide (i < 8) && (decide (i = 7) || p.getLsbD i)) := by
  rw [show (0x80 : BitVec 8) = BitVec.twoPow 8 7 from rfl, BitVec.getLsbD_setWidth, BitVec.getLsbD_or, BitVec.getLsbD_twoPow]
  by_cases hi : i < 8
  · simp [hi, (by omega : i < 32), Bool.or_comm, eq_comm]
  · have hp : p.getLsbD i = false := BitVec.getLsbD_of_ge _ _ (by omega)
    simp [hi, hp]
    omega

theorem sel_legal_iff (f : Fld) : modLegal (.sel f) = true ↔ f.mod.toNat ∈ withHi bits (List.range 16) := by
  have hhi : f.hi < 16 := by
    unfold Fld.hi
    omega
  rw [mod_mem_withHi (by decide), List.mem_range, and_iff_right hhi]
  exact inSet_iff _ _

theorem setp_legal_iff (f : Fld) : modLegal (.setp f) = true ↔ f.mod.toNat ∈ withHi ints (List.range 6) ++ withHi bits [0, 1] := by
  have h01 : f.hi ∈ [0, 1] ↔ f.hi ≤ 1 := by simp [Nat.le_one_iff_eq_zero_or_eq_one]
  have hlegal : modLegal (.setp f) = true ↔ f.hi ≤ 5 ∧ (f.lo ∈ ints ∨ f.lo ∈ bits ∧ f.hi ≤ 1) := by
    simp only [modLegal, Bool.and_eq_true, Bool.or_eq_true, decide_eq_true_eq, inSet_iff]
    rfl
  have hbits : (f.hi ≤ 5 ∧ f.lo ∈ bits ∧ f.hi ≤ 1) ↔ f.hi ≤ 1 ∧ f.lo ∈ bits :=
    ⟨fun ⟨_, hlo, h1⟩ => ⟨h1, hlo⟩, fun ⟨h1, hlo⟩ => ⟨Nat.le_trans h1 (by decide), hlo, h1⟩⟩
  rw [hlegal, List.mem_append, mod_mem_withHi (by decide), mod_mem_withHi (by decide), List.mem_range, h01, Nat.lt_succ_iff, and_or_left, hbits]

/-- Settles O5: each predicate that is written is the model's own bit, read through the compare codes, the truth table or the byte. -/
theorem predicateInstructions : Obligations.PredicateInstructions := by
  intro f
  refine ⟨?_, ?_, ?_, ?_, ?_, ?_, ?_, ?_, ?_, ?_, ?_⟩
  · exact writes_of_alu (fun _ => rfl) fun x l => rfl
  · intro s x h hact
    have hcode : f.mid ≤ 5 := by
      have hlegal := modLegal_of_issuing h rfl
      simp only [modLegal, Bool.and_eq_true, decide_eq_true_eq] at hlegal
      exact Nat.le_trans (Nat.mod_le _ _) hlegal.1
    have hexec := exec_of_runLanes (fun _ => rfl) h hact
    rw [issuing_state h] at hexec
    exact ⟨fun l => compareInt f.mid (intA f x l) (intB f x l), fun l => compareInt_iff hcode _ _, hexec⟩
  · intro s x h hact _
    rw [exec_of_runLanes (fun _ => rfl) h hact]
    simp only [truthIndex_eq]
  · exact fun s x h => ⟨fun l => ((if f.g then x.g.gp else x.g.preds.getD l 0) ||| 0x80).setWidth 32, fun l i => by
      rw [getLsbD_predByte_read]
      cases f.g <;> rfl, alu_issuing h f _⟩
  · intro hg s x h hact _
    rw [exec_of_runLanes (fun _ => rfl) h hact]
    simp only [hg, if_true]
    rfl
  · intro hg s x h hact _
    rw [exec_of_runLanes (fun _ => rfl) h hact]
    simp only [hg, if_neg Bool.false_ne_true]
    rfl
  · exact encodes_plain (by decide) (fun _ => rfl) sel_legal_iff
  · exact encodes_plain (by decide) (fun _ => rfl) fun f => by simpa [modLegal] using f.mod.isLt
  · exact encodes_plain (by decide) (fun _ => rfl) setp_legal_iff
  · exact encodes_plain (by decide) (fun _ => rfl) fun f => modIs_iff f 0
  · exact encodes_plain (by decide) (fun _ => rfl) fun f => modIs_iff f 1

/-! ## Moves and addresses (R236 to R239) -/

theorem wordsN_signExtend (f : Fld) {k : Nat} (v : BitVec k) : wordsN (tyW f.lo) (v.signExtend 64) = low f v.toInt := rfl

theorem wordsN_zeroExtend (f : Fld) {k : Nat} (v : BitVec k) : wordsN (tyW f.lo) (v.setWidth 64) = low f v.toNat := by
  rw [low, ofInt, BitVec.ofInt_natCast, BitVec.ofNat_toNat]

/-- What `ext` makes of a word under a source code, as an integer (R237). -/
def widenedInt (code : Nat) (a : Word) : Int :=
  match code with
  | 0 => (a.setWidth 8).toInt
  | 1 => (a.setWidth 16).toInt
  | 2 => a.toInt
  | 3 => a.toNat
  | 4 => (a.toNat % 2 ^ 8 : Nat)
  | _ => (a.toNat % 2 ^ 16 : Nat)

theorem wordsN_widen (f : Fld) (a : Word) : ∀ code, wordsN (tyW f.lo) (widen code a) = low f (widenedInt code a)
  | 0 => wordsN_signExtend f (a.setWidth 8)
  | 1 => wordsN_signExtend f (a.setWidth 16)
  | 2 => wordsN_signExtend f a
  | 3 => wordsN_zeroExtend f a
  | 4 => wordsN_zeroExtend f (a.setWidth 8)
  | _ + 5 => wordsN_zeroExtend f (a.setWidth 16)

/-- X(b) of `adr` as an integer (R238). -/
def indexInt (f : Fld) (x : Ctx) (l : Nat) : Int :=
  if f.i then f.imm.toInt else if f.lo = 2 then ((x.val f.sb 1 l).setWidth 32 : Word).toInt else (x.val f.sb (tyW f.lo) l).toNat

theorem ofInt_indexInt (f : Fld) (x : Ctx) (l : Nat) : BitVec.ofInt 64 (indexInt f x l) = addrIndex x f l := by
  unfold indexInt addrIndex
  split
  · rfl
  · split
    · rfl
    · rw [BitVec.ofInt_natCast, BitVec.ofNat_toNat, BitVec.setWidth_eq]

theorem words2_add_shiftLeft {a b : DWord} {z : Int} (hb : BitVec.ofInt 64 z = b) (n : Nat) : words2 (a + (b <<< n)) = ofInt 2 (a.toNat + z * 2 ^ n) := by
  have hpow : BitVec.ofInt 64 (2 ^ n) = BitVec.twoPow 64 n := by
    rw [show (2 ^ n : Int) = ((2 ^ n : Nat) : Int) by norm_cast, BitVec.ofInt_natCast]
    apply BitVec.eq_of_toNat_eq
    rw [BitVec.toNat_ofNat, BitVec.toNat_twoPow]
  rw [BitVec.shiftLeft_eq_mul_twoPow, ofInt, BitVec.ofInt_add, BitVec.ofInt_mul, hb, hpow, BitVec.ofInt_natCast, BitVec.ofNat_toNat, BitVec.setWidth_eq]
  rfl

/-- Byte `i` of a source of `dot4`, unsigned or signed (R239). -/
def byteInt (u : Bool) (v : DWord) (i : Nat) : Int := if u then (v.toNat / 2 ^ (8 * i) % 256 : Nat) else (v.extractLsb' (8 * i) 8).toInt

theorem toInt_byte (v : DWord) (i : Nat) : (BitVec.ofNat 8 (v.toNat / 2 ^ (8 * i) % 256)).toInt = (v.extractLsb' (8 * i) 8).toInt := by
  congr 1
  apply BitVec.eq_of_toNat_eq
  rw [BitVec.toNat_ofNat, BitVec.extractLsb'_toNat, Nat.shiftRight_eq_div_pow, Nat.mod_mod]

/-- The product of byte `i` of a and of b. -/
def byteProduct (ua ub : Bool) (a b : DWord) (i : Nat) : Int := byteInt ua a i * byteInt ub b i

theorem dotBytes_succ (ua ub : Bool) (a b : DWord) (n : Nat) :
    dotBytes ua ub a.toNat b.toNat (n + 1) = byteProduct ua ub a b n + dotBytes ua ub a.toNat b.toNat n := by
  simp only [dotBytes, byteProduct, byteInt, toInt_byte]

theorem dotBytes_four (ua ub : Bool) (a b : DWord) : dotBytes ua ub a.toNat b.toNat 4
    = byteProduct ua ub a b 0 + byteProduct ua ub a b 1 + byteProduct ua ub a b 2 + byteProduct ua ub a b 3 := by
  rw [dotBytes_succ, dotBytes_succ, dotBytes_succ, dotBytes_succ, dotBytes]
  omega

theorem ext_legal_iff (f : Fld) : modLegal (.ext f) = true ↔ f.mod.toNat ∈ withHi [2, 4] (List.range 6) := by
  rw [mod_mem_withHi (by decide), List.mem_range, Nat.lt_succ_iff]
  simp only [modLegal, Bool.and_eq_true, decide_eq_true_eq, inSet_iff]

theorem adr_legal_iff (f : Fld) : modLegal (.adr f) = true ↔ f.mod.toNat ∈ withHi ints (List.range 8) := by
  rw [mod_mem_withHi (by decide), List.mem_range]
  simp only [modLegal, Bool.and_eq_true, decide_eq_true_eq, inSet_iff]
  rfl

/-- Settles O6: widened values, indices and byte products are the exact integers of the model's bit vectors. -/
theorem movesAndAddresses : Obligations.MovesAndAddresses := by
  intro f
  refine ⟨?_, ?_, ?_, ?_, ?_, ?_, ?_, ?_, ?_, ?_⟩
  · intro s x h
    change Host.Outcome.next (runLanes (.nop f) (fun x => .done x.s) s) = _
    rw [runLanes_issuing h, ite_self, issuing_state h]
    rfl
  · exact fun hi => writes_of_alu (fun _ => rfl) fun x l => by simp only [hi, if_neg Bool.false_ne_true]
  · intro hi s x h
    have hlo : f.lo ∈ bitTys := by
      have hlegal : tyOnly f bitTys = true := modLegal_of_issuing h rfl
      simp only [tyOnly, Bool.and_eq_true, inSet_iff] at hlegal
      exact hlegal.2
    have himm : immFor f.lo f = f.imm.signExtend 64 := by
      simp only [bitTys, List.mem_cons, List.not_mem_nil, or_false] at hlo
      rw [immFor, if_neg (by omega), if_neg (by omega)]
    refine (alu_issuing h f _).trans ?_
    simp only [hi, if_true, himm, wordsN_signExtend]
  · exact writes_of_alu (fun _ => rfl) fun x l => wordsN_widen f _ _
  · exact fun s x h => ⟨indexInt f x, fun l => ⟨fun hi => by simp [indexInt, hi], fun hi ht => by simp [indexInt, hi, ht],
      fun hi ht => by simp [indexInt, hi, ht]⟩, (alu_issuing h f _).trans (by simp only [words2_add_shiftLeft (ofInt_indexInt f x _)]; rfl)⟩
  · exact writes_of_alu (fun _ => rfl) fun x l => congrArg (ofInt 1) (by
      rw [dotBytes_four]
      rfl)
  · exact encodes_typed (by decide) (by decide) (fun _ => rfl) fun _ => rfl
  · exact encodes_plain (by decide) (fun _ => rfl) ext_legal_iff
  · exact encodes_plain (by decide) (fun _ => rfl) adr_legal_iff
  · exact encodes_plain (by decide) (fun _ => rfl) fun f => modLt_iff f 4

end Sys2Proof.Proofs
end
